-- ==== Sys2Proof/Word.lean ====
section
/-! DEFINITION. The word types of the block and of its target (R7, R63, R210). -/

namespace Sys2Proof

/-- One byte of the code buffer or of resident memory. -/
abbrev Byte := BitVec 8

/-- One instruction word, exactly 32 bits (R7, R63). -/
abbrev Word := BitVec 32

/-- A 64-bit value: a general register, an address, a bitmask, a binary64 code. -/
abbrev DWord := BitVec 64

/-- A 128-bit SIMD and floating-point register (R210). -/
abbrev QWord := BitVec 128

/-- A 5-bit register field (R53). -/
abbrev RegField := BitVec 5

end Sys2Proof
end

