-- ==== Sys2Proof/Syntax.lean ====
section
/-! DEFINITION. The requests' syntax: the operand record (R23) and the closed set of 39 forms (R65, R66). -/

namespace Sys2Proof

/-- The operand record of an encode request (R23): each field is absent or a value. Integers are
unbounded and signed before range checking (R10); a name is an exact character string (D12);
`fval` is an IEEE 754 binary64 code (R188). -/
structure Operands where
  rd : Option Int := none
  rn : Option Int := none
  rm : Option Int := none
  ra : Option Int := none
  imm : Option Int := none
  sh : Option Int := none
  sf : Option Int := none
  shift : Option String := none
  amount : Option Int := none
  hwShift : Option Int := none
  cond : Option String := none
  ftype : Option String := none
  fval : Option DWord := none
  offset : Option Int := none
deriving DecidableEq, Repr

/-- The shift types of R56. -/
inductive ShiftType where
  | lsl | lsr | asr | ror
deriving DecidableEq, Repr

/-- The 14 conditions of R58. -/
inductive Cond where
  | eq | ne | cs | cc | mi | pl | vs | vc | hi | ls | ge | lt | gt | le
deriving DecidableEq, Repr

/-- The floating-point types of R59. -/
inductive FType where
  | h | s | d
deriving DecidableEq, Repr

/-- An instruction: one of the 39 forms of R66 with the operand record of its request. A form reads
only the fields its rule names (R23), so every constructor carries the whole record. -/
inductive Instr where
  | addImm (o : Operands)
  | addsImm (o : Operands)
  | subImm (o : Operands)
  | subsImm (o : Operands)
  | addReg (o : Operands)
  | addsReg (o : Operands)
  | subReg (o : Operands)
  | subsReg (o : Operands)
  | adc (o : Operands)
  | adcs (o : Operands)
  | cmpImm (o : Operands)
  | cmnImm (o : Operands)
  | cmpReg (o : Operands)
  | cmnReg (o : Operands)
  | andImm (o : Operands)
  | orrImm (o : Operands)
  | eorImm (o : Operands)
  | andReg (o : Operands)
  | orrReg (o : Operands)
  | eorReg (o : Operands)
  | movReg (o : Operands)
  | movSp (o : Operands)
  | movBitmask (o : Operands)
  | movz (o : Operands)
  | movn (o : Operands)
  | movk (o : Operands)
  | madd (o : Operands)
  | msub (o : Operands)
  | mul (o : Operands)
  | mneg (o : Operands)
  | b (o : Operands)
  | bCond (o : Operands)
  | ret (o : Operands)
  | nop (o : Operands)
  | fadd (o : Operands)
  | fmul (o : Operands)
  | fneg (o : Operands)
  | fmovReg (o : Operands)
  | fmovImm (o : Operands)
deriving DecidableEq, Repr

/-- The operand record of an instruction. -/
def Instr.operands : Instr → Operands
  | .addImm o | .addsImm o | .subImm o | .subsImm o | .addReg o | .addsReg o | .subReg o
  | .subsReg o | .adc o | .adcs o | .cmpImm o | .cmnImm o | .cmpReg o | .cmnReg o
  | .andImm o | .orrImm o | .eorImm o | .andReg o | .orrReg o | .eorReg o | .movReg o
  | .movSp o | .movBitmask o | .movz o | .movn o | .movk o | .madd o | .msub o | .mul o
  | .mneg o | .b o | .bCond o | .ret o | .nop o | .fadd o | .fmul o | .fneg o
  | .fmovReg o | .fmovImm o => o

end Sys2Proof
end

