-- ==== Sys2Proof/Machine/Operands.lean ====
section
/-! DEFINITION. The operand checks of an encode request, with their defaults (R9, R53 to R61, R251), the selector tables, and
how a decoded instruction's operands are read as fields of its word. -/

namespace Sys2Proof.Machine

/-- The errors a form's encoder raises (R11, R12). The operand or value an error names is not observable: only
the status code is (R258). -/
inductive EncErr where
  | fieldRange (operand : String)
  | immUnrepresentable (value : Nat)
deriving DecidableEq, Repr

/-! ### Selector tables -/

/-- R56: the names of the shift types. -/
def shiftName : ShiftType → String
  | .lsl => "LSL"
  | .lsr => "LSR"
  | .asr => "ASR"
  | .ror => "ROR"

/-- R56: the 2-bit codes of the shift types. -/
def shiftCode : ShiftType → Nat
  | .lsl => 0
  | .lsr => 1
  | .asr => 2
  | .ror => 3

def allShifts : List ShiftType := [.lsl, .lsr, .asr, .ror]

/-- The shift type an exact name stands for. -/
def shiftOfName (n : String) : Option ShiftType := allShifts.find? fun t => shiftName t = n

/-- The shift type of a 2-bit code. -/
def shiftOfCode (c : Nat) : Option ShiftType := allShifts.find? fun t => shiftCode t = c

/-- R58: the 14 condition names. -/
def condName : Cond → String
  | .eq => "EQ"
  | .ne => "NE"
  | .cs => "CS"
  | .cc => "CC"
  | .mi => "MI"
  | .pl => "PL"
  | .vs => "VS"
  | .vc => "VC"
  | .hi => "HI"
  | .ls => "LS"
  | .ge => "GE"
  | .lt => "LT"
  | .gt => "GT"
  | .le => "LE"

/-- R58: their 4-bit codes. -/
def condCode : Cond → Nat
  | .eq => 0
  | .ne => 1
  | .cs => 2
  | .cc => 3
  | .mi => 4
  | .pl => 5
  | .vs => 6
  | .vc => 7
  | .hi => 8
  | .ls => 9
  | .ge => 10
  | .lt => 11
  | .gt => 12
  | .le => 13

def allConds : List Cond :=
  [.eq, .ne, .cs, .cc, .mi, .pl, .vs, .vc, .hi, .ls, .ge, .lt, .gt, .le]

/-- The condition an exact name stands for: `AL`, `NV`, `HS`, `LO` and lower case have none (R58, D18). -/
def condOfName (n : String) : Option Cond := allConds.find? fun c => condName c = n

/-- The condition of a 4-bit code. -/
def condOfCode (k : Nat) : Option Cond := allConds.find? fun c => condCode c = k

/-- R59: the floating-point type names. -/
def ftypeName : FType → String
  | .h => "H"
  | .s => "S"
  | .d => "D"

/-- R59: the 2-bit codes; `0b10` has no name. -/
def ftypeCode : FType → Nat
  | .h => 3
  | .s => 0
  | .d => 1

def allFTypes : List FType := [.h, .s, .d]

/-- The type an exact name stands for. -/
def ftypeOfName (n : String) : Option FType := allFTypes.find? fun t => ftypeName t = n

/-- The type of a 2-bit code. -/
def ftypeOfCode (k : Nat) : Option FType := allFTypes.find? fun t => ftypeCode t = k

/-! ### Checks -/

/-- A required operand that is absent raises FieldRangeError (R9, R251). -/
def required {α : Type} (operand : String) (x : Option α) : Except EncErr α :=
  match x with
  | some v => .ok v
  | none => .error (.fieldRange operand)

/-- `require lo <= v <= hi else raise FieldRangeError(operand)`, for a range of natural numbers. -/
def inRange (operand : String) (lo hi v : Int) : Except EncErr Nat :=
  if lo ≤ v ∧ v ≤ hi then .ok v.toNat else .error (.fieldRange operand)

/-- R53: a required register index in `0..31`. -/
def checkReg (operand : String) (x : Option Int) : Except EncErr Nat := do
  inRange operand 0 31 (← required operand x)

/-- R54: the width selector, by default 1. -/
def checkSf (x : Option Int) : Except EncErr Nat := inRange "sf" 0 1 (x.getD 1)

/-- R9, R100: the immediate's shift selector, by default 0. -/
def checkSh (x : Option Int) : Except EncErr Nat := inRange "sh" 0 1 (x.getD 0)

/-- A required unsigned immediate in `0..hi` (D21: a negative one is refused). -/
def checkImm (hi : Int) (x : Option Int) : Except EncErr Nat := do
  inRange "imm" 0 hi (← required "imm" x)

/-- R56: the shift type, by default LSL; ROR only where `allowRor` says so. -/
def checkShift (allowRor : Bool) (x : Option String) : Except EncErr ShiftType :=
  match shiftOfName (x.getD "LSL") with
  | some t => if t = .ror ∧ allowRor = false then .error (.fieldRange "shift") else .ok t
  | none => .error (.fieldRange "shift")

/-- R105, R124: the shift amount, by default 0, at most 63 with `sf = 1` and 31 with `sf = 0`. -/
def checkAmount (sf : Nat) (x : Option Int) : Except EncErr Nat :=
  inRange "amount" 0 (if sf = 1 then 63 else 31) (x.getD 0)

/-- R110: ADC and ADCS accept a shift type only absent or LSL. -/
def checkNoShift (x : Option String) : Except EncErr Unit :=
  if x = none ∨ x = some "LSL" then .ok () else .error (.fieldRange "shift")

/-- R110: ADC and ADCS accept an amount only absent or 0. -/
def checkNoAmount (x : Option Int) : Except EncErr Unit :=
  if x = none ∨ x = some 0 then .ok () else .error (.fieldRange "amount")

/-- R61, R143: the legal lane shifts. -/
def laneShifts (sf : Nat) : List Int := if sf = 1 then [0, 16, 32, 48] else [0, 16]

/-- R61, R143: the lane shift, by default 0; answers the lane index `hw = hw_shift / 16`. -/
def checkHwShift (sf : Nat) (x : Option Int) : Except EncErr Nat :=
  if x.getD 0 ∈ laneShifts sf then .ok ((x.getD 0) / 16).toNat else .error (.fieldRange "hw_shift")

/-- R58: a required condition name. -/
def checkCond (x : Option String) : Except EncErr Cond :=
  match x.bind condOfName with
  | some c => .ok c
  | none => .error (.fieldRange "cond")

/-- R59: the floating-point type, by default D. -/
def checkFtype (x : Option String) : Except EncErr FType :=
  match ftypeOfName (x.getD "D") with
  | some t => .ok t
  | none => .error (.fieldRange "ftype")

/-- R55: a required signed offset of a `w`-bit field; answers its two's-complement code `v mod 2^w`. -/
def checkOffset (w : Nat) (x : Option Int) : Except EncErr Nat := do
  let v ← required "offset" x
  if -(2 ^ (w - 1) : Int) ≤ v ∧ v ≤ 2 ^ (w - 1) - 1 then .ok (v % 2 ^ w).toNat
  else .error (.fieldRange "offset")

/-! ### The operands of a decoded instruction, as fields of its word -/

/-- A register operand as the 5-bit field of the word. -/
def regField (x : Option Int) : RegField := BitVec.ofInt 5 (x.getD 0)

/-- `datasize` of R210 to R220: 64 when `sf = 1` and 32 when `sf = 0`. -/
def datasize (o : Operands) : Nat := if o.sf.getD 1 = 1 then 64 else 32

/-- The shift type of a decoded instruction. -/
def shiftOf (o : Operands) : ShiftType := ((o.shift.bind shiftOfName)).getD .lsl

/-- The shift amount of a decoded instruction. -/
def amountOf (o : Operands) : Nat := (o.amount.getD 0).toNat

/-- The immediate of a decoded instruction. -/
def immOf (o : Operands) : Nat := (o.imm.getD 0).toNat

/-- The floating-point type of a decoded instruction. -/
def ftypeOf (o : Operands) : FType := ((o.ftype.bind ftypeOfName)).getD .d

/-- The condition of a decoded instruction. -/
def condOf (o : Operands) : Cond := ((o.cond.bind condOfName)).getD .eq

end Sys2Proof.Machine
end

