-- ==== Sys2Proof/Machine/Codec.lean ====
section
/-! DEFINITION. The field packer (R51) and the 14 formats (R67 to R80), each a list of (value, width), the most
significant field first. -/

namespace Sys2Proof.Machine

/-- The total width of a list of fields. -/
def totalWidth (fields : List (Nat × Nat)) : Nat := (fields.map Prod.snd).sum

/-- R51: the sum over the fields of `v_i * 2^(w_(i+1) + ... + w_k)`. -/
def packSum : List (Nat × Nat) → Nat
  | [] => 0
  | (v, _) :: rest => v * 2 ^ totalWidth rest + packSum rest

/-- R51: every value must fit its width; the fields' sum is the word. -/
def pack (fields : List (Nat × Nat)) : Except EncErr Word :=
  if fields.all (fun p => decide (p.1 < 2 ^ p.2)) then .ok (BitVec.ofNat 32 (packSum fields))
  else .error (.fieldRange "field")

/-- R67, ADDSUB_IMM. -/
def fieldsAddSubImm (sf op s sh imm12 rn rd : Nat) : List (Nat × Nat) :=
  [(sf, 1), (op, 1), (s, 1), (0b100010, 6), (sh, 1), (imm12, 12), (rn, 5), (rd, 5)]

/-- R68, ADDSUB_SREG. -/
def fieldsAddSubReg (sf op s shift rm imm6 rn rd : Nat) : List (Nat × Nat) :=
  [(sf, 1), (op, 1), (s, 1), (0b01011, 5), (shift, 2), (0, 1), (rm, 5), (imm6, 6), (rn, 5), (rd, 5)]

/-- R69, ADDSUB_CARRY. -/
def fieldsAddSubCarry (sf s rm rn rd : Nat) : List (Nat × Nat) :=
  [(sf, 1), (0, 1), (s, 1), (0b11010000, 8), (rm, 5), (0, 6), (rn, 5), (rd, 5)]

/-- R70, LOG_IMM. -/
def fieldsLogImm (sf opc n immr imms rn rd : Nat) : List (Nat × Nat) :=
  [(sf, 1), (opc, 2), (0b100100, 6), (n, 1), (immr, 6), (imms, 6), (rn, 5), (rd, 5)]

/-- R71, LOG_SREG. -/
def fieldsLogReg (sf opc shift rm imm6 rn rd : Nat) : List (Nat × Nat) :=
  [(sf, 1), (opc, 2), (0b01010, 5), (shift, 2), (0, 1), (rm, 5), (imm6, 6), (rn, 5), (rd, 5)]

/-- R72, MOVEWIDE. -/
def fieldsMoveWide (sf opc hw imm16 rd : Nat) : List (Nat × Nat) :=
  [(sf, 1), (opc, 2), (0b100101, 6), (hw, 2), (imm16, 16), (rd, 5)]

/-- R73, DP3. -/
def fieldsDp3 (sf rm o0 ra rn rd : Nat) : List (Nat × Nat) :=
  [(sf, 1), (0b00, 2), (0b11011, 5), (0b000, 3), (rm, 5), (o0, 1), (ra, 5), (rn, 5), (rd, 5)]

/-- R74, B. -/
def fieldsB (imm26 : Nat) : List (Nat × Nat) :=
  [(0, 1), (0b00101, 5), (imm26, 26)]

/-- R75, BCOND. -/
def fieldsBCond (imm19 cond : Nat) : List (Nat × Nat) :=
  [(0b0101010, 7), (0, 1), (imm19, 19), (0, 1), (cond, 4)]

/-- R76, BR_RET. -/
def fieldsRet (rn : Nat) : List (Nat × Nat) :=
  [(0b1101011, 7), (0b0010, 4), (0b11111, 5), (0b000000, 6), (rn, 5), (0b00000, 5)]

/-- R77, HINT: every field is fixed. -/
def fieldsNop : List (Nat × Nat) :=
  [(0b11010101000000110010, 20), (0b0000, 4), (0b000, 3), (0b11111, 5)]

/-- R78, FP_DP2; `0b00011110` is M, ZERO, S and OPC. -/
def fieldsFpDp2 (ftype rm opcode rn rd : Nat) : List (Nat × Nat) :=
  [(0b00011110, 8), (ftype, 2), (1, 1), (rm, 5), (opcode, 4), (0b10, 2), (rn, 5), (rd, 5)]

/-- R79, FP_DP1. -/
def fieldsFpDp1 (ftype opcode rn rd : Nat) : List (Nat × Nat) :=
  [(0b00011110, 8), (ftype, 2), (1, 1), (opcode, 6), (0b10000, 5), (rn, 5), (rd, 5)]

/-- R80, FP_IMM. -/
def fieldsFpImm (ftype imm8 rd : Nat) : List (Nat × Nat) :=
  [(0b00011110, 8), (ftype, 2), (1, 1), (imm8, 8), (0b100, 3), (0b00000, 5), (rd, 5)]

end Sys2Proof.Machine
end

