-- ==== Sys2Proof/Config.lean ====
section
/-! DEFINITION. The parameters of the block and of its host (R8), and the free values of the target. -/

namespace Sys2Proof

/-- The named parameters of R8, "which a model takes as arguments". They are held in the machine's
state, no step changes them (R271), and a statement for every state is one for every value of them. -/
structure Config.Params where
  /-- BUFFER_CAPACITY: the most bytes BUF can hold; `none` is unbounded (R8, R38, D7). -/
  bufferCapacity : Option Nat
  /-- PAGE_SIZE is 2 to this power: a power of two (R8, D20). -/
  pageShift : Nat
  /-- TARGET_HAS_FP16: whether the target executes half-precision words (R8, R84, D19). -/
  targetHasFp16 : Bool
deriving DecidableEq, Repr

/-- PAGE_SIZE (R8). -/
def Config.Params.pageSize (p : Config.Params) : Nat := 2 ^ p.pageShift

/-- The parameters the model starts from. BUFFER_CAPACITY: D7's default, unbounded. PAGE_SIZE 4096 and
TARGET_HAS_FP16 true: DESIGN CHOICE, unsafe, log 5 (the spec gives neither a default). -/
def Config.Params.initial : Config.Params :=
  { bufferCapacity := none, pageShift := 12, targetHasFp16 := true }

/-- FREE VALUE (log 9): the sign and payload of the NaN that FADD or FMUL delivers in type `t` for the operand
codes `x` and `y` when default-NaN is off. R225 gives IEEE 754 arithmetic and IEEE 754 fixes neither. -/
opaque Config.nanResult (t : FType) (x y : DWord) : DWord

/-- FREE VALUE (log 9): the sign and payload of the default NaN of type `t`, delivered when the default-NaN
control of FPCR is on. R210 names the control and gives no code. -/
opaque Config.defaultNan (t : FType) : DWord

end Sys2Proof
end

