-- ==== Sys2Proof/Machine/SoftFloat.lean ====
section
/-! DEFINITION. Binary floating point: formats, rounding, the conversion of R188 (binary64 to binary16), and the
addition and multiplication of R225. Finite values are exact dyadic numbers, so that the only rounding is
the one `roundPack` makes. Codes are natural numbers below 2 to the format's width. -/

namespace Sys2Proof.Machine

/-- A binary interchange format: `E` exponent bits and `F` fraction bits (R62). -/
structure FpFormat where
  expBits : Nat
  fracBits : Nat
deriving DecidableEq, Repr

def fmtHalf : FpFormat := ⟨5, 10⟩
def fmtSingle : FpFormat := ⟨8, 23⟩
def fmtDouble : FpFormat := ⟨11, 52⟩

/-- The format a type name selects (R59, R62). -/
def formatOf : FType → FpFormat
  | .h => fmtHalf
  | .s => fmtSingle
  | .d => fmtDouble

/-- The width `N = E + F + 1` of a format (R62). -/
def FpFormat.width (f : FpFormat) : Nat := f.expBits + f.fracBits + 1

/-- The exponent bias. -/
def FpFormat.bias (f : FpFormat) : Nat := 2 ^ (f.expBits - 1) - 1

/-- The exponent field of infinities and NaNs. -/
def FpFormat.maxExp (f : FpFormat) : Nat := 2 ^ f.expBits - 1

/-- The exponent of the smallest normal value, `1 - bias`. -/
def FpFormat.minExp (f : FpFormat) : Int := 1 - (f.bias : Int)

/-- The rounding modes FPCR.RMode selects (R210, R225). -/
inductive RMode where
  | tieEven | plusInf | minusInf | towardZero
deriving DecidableEq, Repr

/-- FPCR as R210 describes it: the rounding mode, default-NaN and flush-to-zero controls. No emitted word reads
or writes it (R262), so it is held by its controls and not by a bit layout (log 7). -/
structure Fpcr where
  rmode : RMode
  dn : Bool
  fz : Bool
  fz16 : Bool
deriving DecidableEq, Repr

/-- FPSR as R210 describes it: the cumulative exception flags (log 7). -/
structure Fpsr where
  ioc : Bool
  dzc : Bool
  ofc : Bool
  ufc : Bool
  ixc : Bool
  idc : Bool
deriving DecidableEq, Repr

/-- No exception flag raised. -/
def Fpsr.none : Fpsr := ⟨false, false, false, false, false, false⟩

/-- Accumulating exception flags (R225): a flag stays set once set. -/
def Fpsr.or (a b : Fpsr) : Fpsr :=
  ⟨a.ioc || b.ioc, a.dzc || b.dzc, a.ofc || b.ofc, a.ufc || b.ufc, a.ixc || b.ixc, a.idc || b.idc⟩

/-- A floating-point code taken apart. A finite value is `(-1)^sign * mant * 2^exp`. -/
inductive FpValue where
  | nan (signalling : Bool)
  | inf (sign : Bool)
  | finite (sign : Bool) (mant : Nat) (exp : Int)
deriving DecidableEq, Repr

/-- The sign, exponent and fraction fields of a code. -/
def FpFormat.signOf (f : FpFormat) (x : Nat) : Bool := x.testBit (f.width - 1)
def FpFormat.expOf (f : FpFormat) (x : Nat) : Nat := (x / 2 ^ f.fracBits) % 2 ^ f.expBits
def FpFormat.fracOf (f : FpFormat) (x : Nat) : Nat := x % 2 ^ f.fracBits

/-- Puts a sign, an exponent field and a fraction field together. -/
def FpFormat.code (f : FpFormat) (sign : Bool) (e frac : Nat) : Nat :=
  (if sign then 2 ^ (f.width - 1) else 0) + e * 2 ^ f.fracBits + frac

/-- The value of a code, IEEE 754. A NaN is signalling when the top bit of its fraction is 0. -/
def FpFormat.unpack (f : FpFormat) (x : Nat) : FpValue :=
  let s := f.signOf x
  let e := f.expOf x
  let m := f.fracOf x
  if e = f.maxExp then
    if m = 0 then .inf s else .nan (!m.testBit (f.fracBits - 1))
  else if e = 0 then .finite s m (f.minExp - f.fracBits)
  else .finite s (m + 2 ^ f.fracBits) (f.minExp - f.fracBits + (e - 1 : Nat))

/-- Whether a code is a subnormal number. -/
def FpFormat.isSubnormal (f : FpFormat) (x : Nat) : Bool :=
  f.expOf x == 0 && f.fracOf x != 0

/-- Whether the rounding mode moves a magnitude up, given the truncated integer `n`, and the discarded
remainder `rem` out of `unit`. -/
def roundsUp (mode : RMode) (sign : Bool) (n rem unit : Nat) : Bool :=
  match mode with
  | .tieEven => decide (unit < 2 * rem) || (decide (unit = 2 * rem) && decide (n % 2 = 1))
  | .plusInf => !sign && decide (rem ≠ 0)
  | .minusInf => sign && decide (rem ≠ 0)
  | .towardZero => false

/-- Whether a magnitude too large for the format becomes infinity in a rounding mode; otherwise it becomes the largest finite one. -/
def overflowsToInf (mode : RMode) (sign : Bool) : Bool :=
  match mode with
  | .tieEven => true
  | .plusInf => !sign
  | .minusInf => sign
  | .towardZero => false

/-- The IEEE 754 rounding of the exact value `(-1)^sign * m * 2^e` with `m > 0` to a format, with the exception
flags it raises. Underflow is a result tiny before rounding and inexact; with `flush` a tiny result becomes zero and only the
underflow flag is raised (log 8). -/
def FpFormat.roundPack (f : FpFormat) (mode : RMode) (flush : Bool) (sign : Bool) (m : Nat) (e : Int) :
    Nat × Fpsr :=
  let top : Int := (Nat.log2 m : Int) + e          -- the exponent of the exact value
  let tiny := decide (top < f.minExp)
  if tiny && flush then (f.code sign 0 0, { Fpsr.none with ufc := true })
  else
    let lsb : Int := max (top - f.fracBits) (f.minExp - f.fracBits)   -- the exponent of the last place kept
    let up : Nat := (e - lsb).toNat
    let down : Nat := (lsb - e).toNat
    let n := m * 2 ^ up / 2 ^ down
    let rem := m * 2 ^ up % 2 ^ down
    let n' := if roundsUp mode sign n rem (2 ^ down) then n + 1 else n
    let inexact := decide (rem ≠ 0)
    -- consecutive magnitudes have consecutive codes, so a carry out of the fraction moves the exponent field
    let mag := n' + (lsb - (f.minExp - f.fracBits)).toNat * 2 ^ f.fracBits
    if f.maxExp * 2 ^ f.fracBits ≤ mag then
      (if overflowsToInf mode sign then f.code sign f.maxExp 0 else f.code sign (f.maxExp - 1) (2 ^ f.fracBits - 1),
        { Fpsr.none with ofc := true, ixc := true })
    else
      (f.code sign 0 mag, { Fpsr.none with ufc := tiny && inexact, ixc := inexact })

/-- R188, ToHalf: the conversion of a binary64 code to binary16, to nearest with ties to even; the sign is kept, a
NaN becomes the quiet NaN of R190's table (log 18). -/
def toHalf (x : DWord) : Nat :=
  match fmtDouble.unpack x.toNat with
  | .nan _ => fmtHalf.code (fmtDouble.signOf x.toNat) 31 0x200
  | .inf s => fmtHalf.code s 31 0
  | .finite s m e => if m = 0 then fmtHalf.code s 0 0 else (fmtHalf.roundPack .tieEven false s m e).1

/-- Whether flush-to-zero applies to a type: FZ for single and double, FZ16 for half (log 8). -/
def Fpcr.flushes (c : Fpcr) (t : FType) : Bool :=
  match t with
  | .h => c.fz16
  | .s | .d => c.fz

/-- An operand after flush-to-zero of a subnormal, with the input-denormal flag (log 8). -/
def fpOperand (c : Fpcr) (t : FType) (x : Nat) : Nat × Fpsr :=
  let f := formatOf t
  if f.isSubnormal x && c.flushes t then
    (f.code (f.signOf x) 0 0, { Fpsr.none with idc := decide (t ≠ .h) })
  else (x, Fpsr.none)

/-- A quiet NaN of type `t` whose sign and remaining payload are those of the free value `free` (log 9). -/
def quietNan (t : FType) (free : DWord) : Nat :=
  let f := formatOf t
  f.code (free.getLsbD (f.width - 1)) f.maxExp (2 ^ (f.fracBits - 1) + free.toNat % 2 ^ (f.fracBits - 1))

/-- The NaN an operation on the codes `x` and `y` delivers: the default NaN when FPCR.DN is on (log 9). -/
def fpNan (c : Fpcr) (t : FType) (x y : Nat) : Nat :=
  quietNan t (if c.dn then Config.defaultNan t
    else Config.nanResult t (BitVec.ofNat 64 x) (BitVec.ofNat 64 y))

/-- The invalid-operation flag: some operand is a signalling NaN. -/
def signalsInvalid (a b : FpValue) : Bool :=
  decide (a = .nan true) || decide (b = .nan true)

/-- An exact signed dyadic value as a rounded result; an exact zero has sign `zeroSign`. -/
def fpFinish (c : Fpcr) (t : FType) (v : Int) (e : Int) (zeroSign : Bool) : Nat × Fpsr :=
  if v = 0 then ((formatOf t).code zeroSign 0 0, Fpsr.none)
  else (formatOf t).roundPack c.rmode (c.flushes t) (decide (v < 0)) v.natAbs e

/-- The signed integer of a sign and a magnitude. -/
def signedOf (s : Bool) (m : Nat) : Int := if s then -(m : Int) else m

/-- FPAdd of R225 on two codes already flushed. -/
def fpAddValues (c : Fpcr) (t : FType) (x y : Nat) : Nat × Fpsr :=
  match (formatOf t).unpack x, (formatOf t).unpack y with
  | .finite sa ma ea, .finite sb mb eb =>
    let e := min ea eb
    let v := signedOf sa (ma * 2 ^ (ea - e).toNat) + signedOf sb (mb * 2 ^ (eb - e).toNat)
    -- a sum of two zeros of one sign keeps it; any other exact zero is -0 only when rounding toward minus infinity
    fpFinish c t v e (if ma = 0 ∧ mb = 0 ∧ sa = sb then sa else decide (c.rmode = .minusInf))
  | .inf sa, .inf sb =>
    if sa = sb then ((formatOf t).code sa (formatOf t).maxExp 0, Fpsr.none)
    else (fpNan c t x y, { Fpsr.none with ioc := true })
  | .inf sa, .finite _ _ _ => ((formatOf t).code sa (formatOf t).maxExp 0, Fpsr.none)
  | .finite _ _ _, .inf sb => ((formatOf t).code sb (formatOf t).maxExp 0, Fpsr.none)
  | a, b => (fpNan c t x y, { Fpsr.none with ioc := signalsInvalid a b })

/-- FPMul of R225 on two codes already flushed. -/
def fpMulValues (c : Fpcr) (t : FType) (x y : Nat) : Nat × Fpsr :=
  match (formatOf t).unpack x, (formatOf t).unpack y with
  | .finite sa ma ea, .finite sb mb eb =>
    fpFinish c t (signedOf (sa != sb) (ma * mb)) (ea + eb) (sa != sb)
  | .inf sa, .inf sb => ((formatOf t).code (sa != sb) (formatOf t).maxExp 0, Fpsr.none)
  | .inf sa, .finite sb mb _ =>
    if mb = 0 then (fpNan c t x y, { Fpsr.none with ioc := true })
    else ((formatOf t).code (sa != sb) (formatOf t).maxExp 0, Fpsr.none)
  | .finite sa ma _, .inf sb =>
    if ma = 0 then (fpNan c t x y, { Fpsr.none with ioc := true })
    else ((formatOf t).code (sa != sb) (formatOf t).maxExp 0, Fpsr.none)
  | a, b => (fpNan c t x y, { Fpsr.none with ioc := signalsInvalid a b })

/-- FPAdd of R225: the result code and the exception flags raised, FPCR's controls applied. -/
def fpAdd (c : Fpcr) (t : FType) (x y : Nat) : Nat × Fpsr :=
  let a := fpOperand c t x
  let b := fpOperand c t y
  let r := fpAddValues c t a.1 b.1
  (r.1, (a.2.or b.2).or r.2)

/-- FPMul of R225: the result code and the exception flags raised, FPCR's controls applied. -/
def fpMul (c : Fpcr) (t : FType) (x y : Nat) : Nat × Fpsr :=
  let a := fpOperand c t x
  let b := fpOperand c t y
  let r := fpMulValues c t a.1 b.1
  (r.1, (a.2.or b.2).or r.2)

end Sys2Proof.Machine
end

