-- ==== Sys2Proof/Machine/Imm8.lean ====
section
/-! DEFINITION. The 8-bit floating-point immediate: its expansion (R62), the exact set (R186) and the
compression of a binary64 value (R187). -/

namespace Sys2Proof.Machine

/-- R62, VFPExpandImm for a format with `E` exponent bits and `F` fraction bits:
`a : NOT(b) : Replicate(b, E-3) : c : d : e : f : g : h : Zeros(F-4)`. -/
def expandImm8 (f : FpFormat) (imm8 : BitVec 8) : Nat :=
  let b := imm8.getLsbD 6
  let cd := (imm8.extractLsb' 4 2).toNat
  let efgh := (imm8.extractLsb' 0 4).toNat
  let high := if b then (2 ^ (f.expBits - 3) - 1) * 4 else 2 ^ (f.expBits - 1)   -- NOT(b) : Replicate(b, E-3) : 00
  f.code (imm8.getLsbD 7) (high + cd) (efgh * 2 ^ (f.fracBits - 4))

/-- The binary64 code of the value of an 8-bit immediate. -/
def imm8ToDouble (imm8 : BitVec 8) : DWord := BitVec.ofNat 64 (expandImm8 fmtDouble imm8)

/-- R186: the value is an element of FP8SET, `±(16 + f)/16 * 2^e` with `f` in `0..15` and `e` in `-3..4`: a normal
binary64 code whose unbiased exponent is in `-3..4` and whose fraction has its low 48 bits zero. -/
def inFp8Set (x : DWord) : Bool :=
  decide (1020 ≤ fmtDouble.expOf x.toNat) && decide (fmtDouble.expOf x.toNat ≤ 1027)
    && decide (fmtDouble.fracOf x.toNat % 2 ^ 48 = 0)

/-- R187, Compress: the 8-bit immediate and the approximation flag of a binary64 value. -/
def compress (x : DWord) : BitVec 8 × Bool :=
  let h := toHalf x
  let s : BitVec 1 := if fmtDouble.signOf x.toNat then 1 else 0
  let e := fmtHalf.expOf h
  let f := fmtHalf.fracOf h
  let imm8 : BitVec 8 :=
    if 12 ≤ e ∧ e ≤ 19 then s ++ BitVec.ofInt 3 ((e : Int) - 16) ++ BitVec.ofNat 4 (f / 2 ^ 6)
    else if e < 12 then s ++ 0b100#3 ++ 0b0000#4
    else s ++ 0b011#3 ++ 0b1111#4
  (imm8, !inFp8Set x)

end Sys2Proof.Machine
end

