-- ==== Sys2Proof/Machine/Bitmask.lean ====
section
/-! DEFINITION. Logical (bitmask) immediates: canonicalization (R128 to R134) and the A64 decode
DecodeBitMasks (R57). -/

namespace Sys2Proof.Machine

/-- R128: with `sf = 1` the mask is the immediate; with `sf = 0` the 32-bit immediate is replicated. -/
def maskOf (imm : Nat) (sf : Nat) : DWord :=
  if sf = 1 then BitVec.ofNat 64 imm
  else BitVec.ofNat 32 imm ++ BitVec.ofNat 32 imm

/-- R130: `v` is a left rotation of the mask whose bit 0 is 1 and whose bit 63 is 0. -/
def rotationQualifies (m : DWord) (r : Nat) : Bool :=
  (m.rotateLeft r).getLsbD 0 && !(m.rotateLeft r).getLsbD 63

/-- R130: the smallest rotation in `0..63` that qualifies. -/
def findRotation (m : DWord) : Option Nat :=
  (List.range 64).find? (rotationQualifies m)

/-- The number of consecutive bits of `v` equal to `b` from bit `i` upwards, looking at `n` bits at most. -/
def runLength (v : DWord) (b : Bool) (i : Nat) : Nat → Nat
  | 0 => 0
  | n + 1 => if v.getLsbD i = b then 1 + runLength v b (i + 1) n else 0

/-- R131: the trailing run of ones of the rotated mask. -/
def onesRun (v : DWord) : Nat := runLength v true 0 64

/-- R131: the run of zeros above the trailing ones, stopping at bit 63. -/
def zerosRun (v : DWord) : Nat := runLength v false (onesRun v) (64 - onesRun v)

/-- The 64-bit value whose bit `i` is `p i`. -/
def ofBits64 (p : Nat → Bool) : DWord := BitVec.ofFnLE fun i => p i.val

/-- The low `e` bits of `elem` repeated to 64 bits: bit `i` is bit `i mod e` of `elem` (R57, R133). -/
def replicateTile (e : Nat) (elem : DWord) : DWord :=
  ofBits64 fun i => elem.getLsbD (i % e)

/-- R132: the tile sizes a bitmask immediate can have. -/
def tileSizes : List Nat := [2, 4, 8, 16, 32, 64]

/-- R134: the fields of an encoded logical immediate, `N`, `immr` and `imms`. -/
structure BitmaskFields where
  n : BitVec 1
  immr : BitVec 6
  imms : BitVec 6
deriving DecidableEq, Repr

/-- R129 to R134: the canonical encoding of a 64-bit mask, or none where it has no valid decomposition. -/
def canonicalize (m : DWord) : Option BitmaskFields :=
  if m = 0 ∨ m = BitVec.allOnes 64 then none else
  match findRotation m with
  | none => none
  | some r =>
    let v := m.rotateLeft r
    let t := onesRun v
    let e := t + zerosRun v
    if e ∉ tileSizes then none
    else if v ≠ replicateTile e v then none
    else some
      { n := if e = 64 then 1 else 0
        immr := BitVec.ofNat 6 r
        imms := (~~~ BitVec.ofNat 6 (2 * e - 1)) ||| BitVec.ofNat 6 (t - 1) }

/-- The index of the highest set bit among bits `n-1 .. 0` of `v`. -/
def highestSetBit (v : Nat) : Nat → Option Nat
  | 0 => none
  | n + 1 => if v.testBit n then some n else highestSetBit v n

/-- R57, DecodeBitMasks: the 64-bit mask of `N`, `imms`, `immr`, or none for a reserved encoding. -/
def decodeBitMasks (f : BitmaskFields) : Option DWord :=
  match highestSetBit (f.n ++ ~~~ f.imms).toNat 7 with
  | none => none
  | some len =>
    if len < 1 then none else
    let esize := 2 ^ len
    let levels := esize - 1
    let s := f.imms.toNat &&& levels
    let r := f.immr.toNat &&& levels
    if s = levels then none else
    let welem : DWord := BitVec.ofNat 64 (2 ^ (s + 1) - 1)
    let elem := ofBits64 fun i => welem.getLsbD ((i + r) % esize)   -- ROR_esize(welem, r)
    some (replicateTile esize elem)

end Sys2Proof.Machine
end

