-- ==== Sys2Proof/Machine/Legal.lean ====
section
/-! DEFINITION. Which requests are legal: R251's list of the operands' domains, form by form, and R252's
representability, written as predicates on the operand record, apart from the checks the encoders make. -/

namespace Sys2Proof.Machine

/-- A present integer between two bounds. -/
def legalInt (lo hi : Int) (x : Option Int) : Bool :=
  match x with
  | some v => decide (lo ≤ v) && decide (v ≤ hi)
  | none => false

/-- An optional integer: absent, or between two bounds. -/
def legalIntOpt (lo hi : Int) (x : Option Int) : Bool :=
  x.isNone || legalInt lo hi x

/-- R53: a register index. -/
def legalReg (x : Option Int) : Bool := legalInt 0 31 x

/-- R54: the width selector. -/
def legalSf (o : Operands) : Bool := legalIntOpt 0 1 o.sf

/-- `sf = 0` is asked for. -/
def is32 (o : Operands) : Bool := decide (o.sf = some 0)

/-- R56: a shift name of the form's set, or none given. -/
def legalShift (names : List String) (o : Operands) : Bool :=
  match o.shift with
  | some n => names.contains n
  | none => true

/-- R105, R124: the shift amount. -/
def legalAmount (o : Operands) : Bool := legalIntOpt 0 (if is32 o then 31 else 63) o.amount

/-- R61: the lane shift. -/
def legalLane (o : Operands) : Bool :=
  match o.hwShift with
  | some v => decide (v ∈ (if is32 o then [0, 16] else [0, 16, 32, 48] : List Int))
  | none => true

/-- R59: the floating-point type name. -/
def legalFtype (o : Operands) : Bool :=
  match o.ftype with
  | some n => ["H", "S", "D"].contains n
  | none => true

/-- R58: the condition name. -/
def legalCond (o : Operands) : Bool :=
  match o.cond with
  | some n => ["EQ", "NE", "CS", "CC", "MI", "PL", "VS", "VC", "HI", "LS", "GE", "LT", "GT", "LE"].contains n
  | none => false

/-- R100: the operands of an add/subtract immediate form, but for its registers. -/
def legalAddSubImm (o : Operands) : Bool :=
  legalSf o && legalIntOpt 0 1 o.sh && legalInt 0 4095 o.imm

/-- The shift operands of an arithmetic (R105) or logical (R124) shifted-register form. -/
def legalShifted (names : List String) (o : Operands) : Bool :=
  legalSf o && legalShift names o && legalAmount o

def arithShifts : List String := ["LSL", "LSR", "ASR"]
def logicalShifts : List String := ["LSL", "LSR", "ASR", "ROR"]

/-- R110: the operands of ADC and ADCS. -/
def legalCarry (o : Operands) : Bool :=
  legalSf o && legalReg o.rd && legalReg o.rn && legalReg o.rm
    && (o.shift.isNone || decide (o.shift = some "LSL")) && (o.amount.isNone || decide (o.amount = some 0))

/-- R120: the immediate of a logical form, in `0 .. 2^64-1`, or `0 .. 2^32-1` with `sf = 0`. -/
def legalLogImm (o : Operands) : Bool :=
  legalSf o && legalInt 0 (if is32 o then 2 ^ 32 - 1 else 2 ^ 64 - 1) o.imm

/-- R143: the operands of a wide move. -/
def legalMoveWide (o : Operands) : Bool :=
  legalSf o && legalReg o.rd && legalInt 0 65535 o.imm && legalLane o

/-- R251: every operand the form reads is inside its domain and every required one is present. -/
def fieldsLegal : Instr → Bool
  | .addImm o | .addsImm o | .subImm o | .subsImm o =>
    legalAddSubImm o && legalReg o.rd && legalReg o.rn
  | .cmpImm o | .cmnImm o => legalAddSubImm o && legalReg o.rn
  | .addReg o | .addsReg o | .subReg o | .subsReg o =>
    legalShifted arithShifts o && legalReg o.rd && legalReg o.rn && legalReg o.rm
  | .cmpReg o | .cmnReg o => legalShifted arithShifts o && legalReg o.rn && legalReg o.rm
  | .adc o | .adcs o => legalCarry o
  | .andImm o | .orrImm o | .eorImm o => legalLogImm o && legalReg o.rd && legalReg o.rn
  | .movBitmask o => legalLogImm o && legalReg o.rd
  | .andReg o | .orrReg o | .eorReg o =>
    legalShifted logicalShifts o && legalReg o.rd && legalReg o.rn && legalReg o.rm
  | .movReg o => legalSf o && legalReg o.rd && legalReg o.rm
  | .movSp o => legalSf o && legalReg o.rd && legalReg o.rn
  | .movz o | .movn o | .movk o => legalMoveWide o
  | .madd o | .msub o =>
    legalSf o && legalReg o.rd && legalReg o.rn && legalReg o.rm && legalReg o.ra
  | .mul o | .mneg o => legalSf o && legalReg o.rd && legalReg o.rn && legalReg o.rm
  | .b o => legalInt (-33554432) 33554431 o.offset
  | .bCond o => legalCond o && legalInt (-262144) 262143 o.offset
  | .ret o => legalIntOpt 0 31 o.rn
  | .nop _ => true
  | .fadd o | .fmul o => legalFtype o && legalReg o.rd && legalReg o.rn && legalReg o.rm
  | .fneg o | .fmovReg o => legalFtype o && legalReg o.rd && legalReg o.rn
  | .fmovImm o => legalFtype o && legalReg o.rd && o.fval.isSome

/-- The 64-bit mask of a logical immediate form's operands (R128). -/
def maskOfOperands (o : Operands) : DWord := maskOf (immOf o) (if is32 o then 0 else 1)

/-- R252: the form has no logical immediate, or its mask has a canonical encoding. -/
def immRepresentable : Instr → Bool
  | .andImm o | .orrImm o | .eorImm o | .movBitmask o => (canonicalize (maskOfOperands o)).isSome
  | .addImm _ | .addsImm _ | .subImm _ | .subsImm _ | .addReg _ | .addsReg _ | .subReg _
  | .subsReg _ | .adc _ | .adcs _ | .cmpImm _ | .cmnImm _ | .cmpReg _ | .cmnReg _
  | .andReg _ | .orrReg _ | .eorReg _ | .movReg _ | .movSp _ | .movz _ | .movn _ | .movk _
  | .madd _ | .msub _ | .mul _ | .mneg _ | .b _ | .bCond _ | .ret _ | .nop _ | .fadd _
  | .fmul _ | .fneg _ | .fmovReg _ | .fmovImm _ => true

end Sys2Proof.Machine
end

