-- ==== Sys2Proof/WellFormed.lean ====
section
/-! DEFINITION. Well-formed instructions: the requests that name a word. -/

namespace Sys2Proof

/-- An instruction is well formed when every operand its form reads is in its domain (R251) and its logical immediate,
if it has one, is representable (R252). These are the requests whose encoder answers a word. -/
def Instr.wellFormed (i : Instr) : Bool := Machine.fieldsLegal i && Machine.immRepresentable i

end Sys2Proof
end

