-- ==== Sys2Proof/Decode.lean ====
section
/-! DEFINITION. The decoder of the emitted words (R57, R62, R64, R81 to R83), the encoder of well-formed
instructions written from the opcode map R81, and the reading of an opcode-table row's word. -/

namespace Sys2Proof

open Machine

/-- Why bytes decode to no instruction. Each is a refusal by name; none is an instruction of the block. -/
inductive DecodeError where
  /-- Fewer than the four bytes of a word (R63). -/
  | truncated
  /-- The word matches no row of R81. -/
  | notAForm
  /-- Shift code `0b11` in ADDSUB_SREG (R83, U4). -/
  | reservedShift
  /-- `imm6 >= 32` with `sf = 0` (R83, U5). -/
  | reservedAmount
  /-- `N:immr:imms` is reserved (R57), or `N = 1` with `sf = 0` (R83, U6). -/
  | reservedBitmask
  /-- `hw >= 2` with `sf = 0` (R83, U8). -/
  | reservedLane
  /-- `ftype = 0b10` (R83, U10). -/
  | reservedFtype
  /-- Condition codes 14 and 15 have no name in the block (R58, U11). -/
  | unnamedCondition
deriving DecidableEq, Repr

/-! ### Fields -/

/-- The field `w[lo+len-1 : lo]`, read unsigned (R10). -/
def field (w : Word) (lo len : Nat) : Nat := (w.extractLsb' lo len).toNat

/-- A field as an operand value. -/
def opField (w : Word) (lo len : Nat) : Option Int := some (field w lo len : Int)

/-- R67. -/
def readAddSubImm (w : Word) : Except DecodeError Operands :=
  .ok { sf := opField w 31 1, sh := opField w 22 1, imm := opField w 10 12, rn := opField w 5 5, rd := opField w 0 5 }

/-- R113, R114: no `rd` operand. -/
def readCmpImm (w : Word) : Except DecodeError Operands :=
  .ok { sf := opField w 31 1, sh := opField w 22 1, imm := opField w 10 12, rn := opField w 5 5 }

/-- R141: no `imm` or `sh` operand. -/
def readMovSp (w : Word) : Except DecodeError Operands :=
  .ok { sf := opField w 31 1, rn := opField w 5 5, rd := opField w 0 5 }

/-- The shift operands of ADDSUB_SREG and LOG_SREG, put into a record (R56, R83). -/
def readShifted (allowRor : Bool) (w : Word) (o : Operands) : Except DecodeError Operands :=
  match shiftOfCode (field w 22 2) with
  | none => .error .reservedShift
  | some t =>
    if t = .ror ∧ allowRor = false then .error .reservedShift
    else if field w 31 1 = 0 ∧ 32 ≤ field w 10 6 then .error .reservedAmount
    else .ok { o with sf := opField w 31 1, shift := some (shiftName t), amount := opField w 10 6 }

/-- R68, R71. -/
def readSReg (allowRor : Bool) (w : Word) : Except DecodeError Operands :=
  readShifted allowRor w { rm := opField w 16 5, rn := opField w 5 5, rd := opField w 0 5 }

/-- R115, R116: no `rd` operand. -/
def readCmpReg (w : Word) : Except DecodeError Operands :=
  readShifted false w { rm := opField w 16 5, rn := opField w 5 5 }

/-- R69. -/
def readCarry (w : Word) : Except DecodeError Operands :=
  .ok { sf := opField w 31 1, rm := opField w 16 5, rn := opField w 5 5, rd := opField w 0 5 }

/-- R140: only `rd` and `rm`. -/
def readMovReg (w : Word) : Except DecodeError Operands :=
  .ok { sf := opField w 31 1, rm := opField w 16 5, rd := opField w 0 5 }

/-- R57, R70: the logical immediate, `mask[31:0]` with `sf = 0`. -/
def readBitmask (w : Word) (o : Operands) : Except DecodeError Operands :=
  if field w 31 1 = 0 ∧ field w 22 1 = 1 then .error .reservedBitmask
  else
    match decodeBitMasks
        { n := w.extractLsb' 22 1, immr := w.extractLsb' 16 6, imms := w.extractLsb' 10 6 } with
    | none => .error .reservedBitmask
    | some m =>
      .ok { o with
        sf := opField w 31 1
        imm := some ((if field w 31 1 = 0 then m.toNat % 2 ^ 32 else m.toNat : Nat) : Int) }

/-- R70. -/
def readLogImm (w : Word) : Except DecodeError Operands :=
  readBitmask w { rn := opField w 5 5, rd := opField w 0 5 }

/-- R142: no `rn` operand. -/
def readMovBitmask (w : Word) : Except DecodeError Operands :=
  readBitmask w { rd := opField w 0 5 }

/-- R61, R72. -/
def readMoveWide (w : Word) : Except DecodeError Operands :=
  if field w 31 1 = 0 ∧ 2 ≤ field w 21 2 then .error .reservedLane
  else .ok { sf := opField w 31 1, hwShift := some (16 * (field w 21 2 : Int)), imm := opField w 5 16, rd := opField w 0 5 }

/-- R73. -/
def readDp3 (w : Word) : Except DecodeError Operands :=
  .ok { sf := opField w 31 1, rm := opField w 16 5, ra := opField w 10 5, rn := opField w 5 5, rd := opField w 0 5 }

/-- R158, R159: no `ra` operand. -/
def readMul (w : Word) : Except DecodeError Operands :=
  .ok { sf := opField w 31 1, rm := opField w 16 5, rn := opField w 5 5, rd := opField w 0 5 }

/-- R74: a signed offset comes back as `sext` of its field (R64). -/
def readB (w : Word) : Except DecodeError Operands :=
  .ok { offset := some (w.extractLsb' 0 26).toInt }

/-- R75. -/
def readBCond (w : Word) : Except DecodeError Operands :=
  match condOfCode (field w 0 4) with
  | none => .error .unnamedCondition
  | some c => .ok { cond := some (condName c), offset := some (w.extractLsb' 5 19).toInt }

/-- R76. -/
def readRet (w : Word) : Except DecodeError Operands := .ok { rn := opField w 5 5 }

/-- R77. -/
def readNop (_ : Word) : Except DecodeError Operands := .ok {}

/-- The type field, put into a record (R59). -/
def readFtype (w : Word) (o : Operands) : Except DecodeError Operands :=
  match ftypeOfCode (field w 22 2) with
  | none => .error .reservedFtype
  | some t => .ok { o with ftype := some (ftypeName t) }

/-- R78. -/
def readFpDp2 (w : Word) : Except DecodeError Operands :=
  readFtype w { rm := opField w 16 5, rn := opField w 5 5, rd := opField w 0 5 }

/-- R79. -/
def readFpDp1 (w : Word) : Except DecodeError Operands :=
  readFtype w { rn := opField w 5 5, rd := opField w 0 5 }

/-- R80: the immediate comes back as the value of R62 (R64). -/
def readFpImm (w : Word) : Except DecodeError Operands :=
  readFtype w { fval := some (imm8ToDouble (w.extractLsb' 13 8)), rd := opField w 0 5 }

/-! ### The opcode map -/

/-- One row of R81: the bits a form fixes, and how the others are read. -/
structure Row where
  make : Operands → Instr
  mtch : Word
  mask : Word
  read : Word → Except DecodeError Operands

/-- R81: a word is a word of the row's form when `(w AND mask) = match`. -/
def Row.hits (r : Row) (w : Word) : Bool := w &&& r.mask == r.mtch

/-- The rows of the pseudo-ops of R82. -/
def pseudoRows : List Row :=
  [ ⟨.cmpImm, 0x7100001F, 0x7F80001F, readCmpImm⟩,
    ⟨.cmnImm, 0x3100001F, 0x7F80001F, readCmpImm⟩,
    ⟨.cmpReg, 0x6B00001F, 0x7F20001F, readCmpReg⟩,
    ⟨.cmnReg, 0x2B00001F, 0x7F20001F, readCmpReg⟩,
    ⟨.movReg, 0x2A0003E0, 0x7FE0FFE0, readMovReg⟩,
    ⟨.movSp, 0x11000000, 0x7FFFFC00, readMovSp⟩,
    ⟨.movBitmask, 0x320003E0, 0x7F8003E0, readMovBitmask⟩,
    ⟨.mul, 0x1B007C00, 0x7FE0FC00, readMul⟩,
    ⟨.mneg, 0x1B00FC00, 0x7FE0FC00, readMul⟩ ]

/-- The rows of the base forms of R81, integer arithmetic and logic. -/
def integerRows : List Row :=
  [ ⟨.addImm, 0x11000000, 0x7F800000, readAddSubImm⟩,
    ⟨.addsImm, 0x31000000, 0x7F800000, readAddSubImm⟩,
    ⟨.subImm, 0x51000000, 0x7F800000, readAddSubImm⟩,
    ⟨.subsImm, 0x71000000, 0x7F800000, readAddSubImm⟩,
    ⟨.addReg, 0x0B000000, 0x7F200000, readSReg false⟩,
    ⟨.addsReg, 0x2B000000, 0x7F200000, readSReg false⟩,
    ⟨.subReg, 0x4B000000, 0x7F200000, readSReg false⟩,
    ⟨.subsReg, 0x6B000000, 0x7F200000, readSReg false⟩,
    ⟨.adc, 0x1A000000, 0x7FE0FC00, readCarry⟩,
    ⟨.adcs, 0x3A000000, 0x7FE0FC00, readCarry⟩,
    ⟨.andImm, 0x12000000, 0x7F800000, readLogImm⟩,
    ⟨.orrImm, 0x32000000, 0x7F800000, readLogImm⟩,
    ⟨.eorImm, 0x52000000, 0x7F800000, readLogImm⟩,
    ⟨.andReg, 0x0A000000, 0x7F200000, readSReg true⟩,
    ⟨.orrReg, 0x2A000000, 0x7F200000, readSReg true⟩,
    ⟨.eorReg, 0x4A000000, 0x7F200000, readSReg true⟩ ]

/-- The remaining base forms of R81. -/
def otherRows : List Row :=
  [ ⟨.movz, 0x52800000, 0x7F800000, readMoveWide⟩,
    ⟨.movn, 0x12800000, 0x7F800000, readMoveWide⟩,
    ⟨.movk, 0x72800000, 0x7F800000, readMoveWide⟩,
    ⟨.madd, 0x1B000000, 0x7FE08000, readDp3⟩,
    ⟨.msub, 0x1B008000, 0x7FE08000, readDp3⟩,
    ⟨.b, 0x14000000, 0xFC000000, readB⟩,
    ⟨.bCond, 0x54000000, 0xFF000010, readBCond⟩,
    ⟨.ret, 0xD65F0000, 0xFFFFFC1F, readRet⟩,
    ⟨.nop, 0xD503201F, 0xFFFFFFFF, readNop⟩,
    ⟨.fadd, 0x1E202800, 0xFF20FC00, readFpDp2⟩,
    ⟨.fmul, 0x1E200800, 0xFF20FC00, readFpDp2⟩,
    ⟨.fneg, 0x1E214000, 0xFF3FFC00, readFpDp1⟩,
    ⟨.fmovReg, 0x1E204000, 0xFF3FFC00, readFpDp1⟩,
    ⟨.fmovImm, 0x1E201000, 0xFF201FE0, readFpImm⟩ ]

/-- The base forms of R81: no two of them share a word (R82). -/
def baseRows : List Row := integerRows ++ otherRows

/-- The opcode map R81 in the order the decoder tries it: a decoder that must name one form takes the pseudo-op
when its extra fixed fields match (R82). -/
def opcodeRows : List Row := pseudoRows ++ baseRows

/-- R64, R81, R82: the instruction a word stands for. -/
def decodeWord (w : Word) : Except DecodeError Instr :=
  match opcodeRows.find? fun r => r.hits w with
  | none => .error .notAForm
  | some r =>
    match r.read w with
    | .ok o => .ok (r.make o)
    | .error e => .error e

/-- R33: the word of four bytes, little-endian. -/
def wordOfBytes (b0 b1 b2 b3 : Byte) : Word := b3 ++ b2 ++ b1 ++ b0

/-- The instruction at the head of a byte sequence and the bytes after it. Every word is four bytes (R63). -/
def decode : List Byte → Except DecodeError (Instr × List Byte)
  | b0 :: b1 :: b2 :: b3 :: rest =>
    match decodeWord (wordOfBytes b0 b1 b2 b3) with
    | .ok i => .ok (i, rest)
    | .error e => .error e
  | _ => .error .truncated

/-! ### The encoder -/

/-- R33: the four bytes of a word in the order of the buffer, `w[7:0]` first. -/
def bytesOfWord (w : Word) : List Byte :=
  [w.extractLsb' 0 8, w.extractLsb' 8 8, w.extractLsb' 16 8, w.extractLsb' 24 8]

/-- A value as a `len`-bit field (two's complement, R55) at bit `lo` of a word. -/
def put (lo len : Nat) (v : Int) : Word := (BitVec.ofInt len v).setWidth 32 <<< lo

/-- An operand value as a field; an absent one as its default `dflt`. -/
def putOp (lo len : Nat) (x : Option Int) (dflt : Int) : Word := put lo len (x.getD dflt)

def putSf (o : Operands) : Word := putOp 31 1 o.sf 1
def putRd (o : Operands) : Word := putOp 0 5 o.rd 0
def putRn (o : Operands) : Word := putOp 5 5 o.rn 0
def putRm (o : Operands) : Word := putOp 16 5 o.rm 0
def putRa (o : Operands) : Word := putOp 10 5 o.ra 0

/-- The `sh` and `imm12` fields of R67. -/
def putAddSubImm (o : Operands) : Word := putOp 22 1 o.sh 0 ||| putOp 10 12 o.imm 0

/-- The `shift` and `imm6` fields of R68 and R71. -/
def putShift (o : Operands) : Word := put 22 2 (shiftCode (shiftOf o)) ||| putOp 10 6 o.amount 0

/-- The `N`, `immr` and `imms` fields of R70, from the canonical encoding. -/
def putBitmask (o : Operands) : Word :=
  match canonicalize (maskOfOperands o) with
  | some f => put 22 1 f.n.toNat ||| put 16 6 f.immr.toNat ||| put 10 6 f.imms.toNat
  | none => 0

/-- The `hw` and `imm16` fields of R72. -/
def putMoveWide (o : Operands) : Word := put 21 2 (o.hwShift.getD 0 / 16) ||| putOp 5 16 o.imm 0

/-- The `ftype` field of R78 to R80. -/
def putFtype (o : Operands) : Word := put 22 2 (ftypeCode (ftypeOf o))

/-- The `imm8` field of R80. -/
def putImm8 (o : Operands) : Word := put 13 8 (compress (o.fval.getD 0)).1.toNat

/-- The word of a well-formed instruction: the bits R81 fixes for its form and its operands in the fields of its
format (R67 to R80). On an ill-formed instruction the value means nothing; the block answers an error (R251, R252). -/
def encode : Instr → Word
  | .addImm o => 0x11000000 ||| putSf o ||| putAddSubImm o ||| putRn o ||| putRd o
  | .addsImm o => 0x31000000 ||| putSf o ||| putAddSubImm o ||| putRn o ||| putRd o
  | .subImm o => 0x51000000 ||| putSf o ||| putAddSubImm o ||| putRn o ||| putRd o
  | .subsImm o => 0x71000000 ||| putSf o ||| putAddSubImm o ||| putRn o ||| putRd o
  | .addReg o => 0x0B000000 ||| putSf o ||| putShift o ||| putRm o ||| putRn o ||| putRd o
  | .addsReg o => 0x2B000000 ||| putSf o ||| putShift o ||| putRm o ||| putRn o ||| putRd o
  | .subReg o => 0x4B000000 ||| putSf o ||| putShift o ||| putRm o ||| putRn o ||| putRd o
  | .subsReg o => 0x6B000000 ||| putSf o ||| putShift o ||| putRm o ||| putRn o ||| putRd o
  | .adc o => 0x1A000000 ||| putSf o ||| putRm o ||| putRn o ||| putRd o
  | .adcs o => 0x3A000000 ||| putSf o ||| putRm o ||| putRn o ||| putRd o
  | .cmpImm o => 0x7100001F ||| putSf o ||| putAddSubImm o ||| putRn o
  | .cmnImm o => 0x3100001F ||| putSf o ||| putAddSubImm o ||| putRn o
  | .cmpReg o => 0x6B00001F ||| putSf o ||| putShift o ||| putRm o ||| putRn o
  | .cmnReg o => 0x2B00001F ||| putSf o ||| putShift o ||| putRm o ||| putRn o
  | .andImm o => 0x12000000 ||| putSf o ||| putBitmask o ||| putRn o ||| putRd o
  | .orrImm o => 0x32000000 ||| putSf o ||| putBitmask o ||| putRn o ||| putRd o
  | .eorImm o => 0x52000000 ||| putSf o ||| putBitmask o ||| putRn o ||| putRd o
  | .andReg o => 0x0A000000 ||| putSf o ||| putShift o ||| putRm o ||| putRn o ||| putRd o
  | .orrReg o => 0x2A000000 ||| putSf o ||| putShift o ||| putRm o ||| putRn o ||| putRd o
  | .eorReg o => 0x4A000000 ||| putSf o ||| putShift o ||| putRm o ||| putRn o ||| putRd o
  | .movReg o => 0x2A0003E0 ||| putSf o ||| putRm o ||| putRd o
  | .movSp o => 0x11000000 ||| putSf o ||| putRn o ||| putRd o
  | .movBitmask o => 0x320003E0 ||| putSf o ||| putBitmask o ||| putRd o
  | .movz o => 0x52800000 ||| putSf o ||| putMoveWide o ||| putRd o
  | .movn o => 0x12800000 ||| putSf o ||| putMoveWide o ||| putRd o
  | .movk o => 0x72800000 ||| putSf o ||| putMoveWide o ||| putRd o
  | .madd o => 0x1B000000 ||| putSf o ||| putRm o ||| putRa o ||| putRn o ||| putRd o
  | .msub o => 0x1B008000 ||| putSf o ||| putRm o ||| putRa o ||| putRn o ||| putRd o
  | .mul o => 0x1B007C00 ||| putSf o ||| putRm o ||| putRn o ||| putRd o
  | .mneg o => 0x1B00FC00 ||| putSf o ||| putRm o ||| putRn o ||| putRd o
  | .b o => 0x14000000 ||| putOp 0 26 o.offset 0
  | .bCond o => 0x54000000 ||| putOp 5 19 o.offset 0 ||| put 0 4 (condCode (condOf o))
  | .ret o => 0xD65F0000 ||| putOp 5 5 o.rn 30
  | .nop _ => 0xD503201F
  | .fadd o => 0x1E202800 ||| putFtype o ||| putRm o ||| putRn o ||| putRd o
  | .fmul o => 0x1E200800 ||| putFtype o ||| putRm o ||| putRn o ||| putRd o
  | .fneg o => 0x1E214000 ||| putFtype o ||| putRn o ||| putRd o
  | .fmovReg o => 0x1E204000 ||| putFtype o ||| putRn o ||| putRd o
  | .fmovImm o => 0x1E201000 ||| putFtype o ||| putImm8 o ||| putRd o

/-- Whether a request raises the approximation warning: FMOV_imm of a value outside FP8SET, nothing else (R186, R253). -/
def warns : Instr → Bool
  | .fmovImm o => !inFp8Set (o.fval.getD 0)
  | .addImm _ | .addsImm _ | .subImm _ | .subsImm _ | .addReg _ | .addsReg _ | .subReg _
  | .subsReg _ | .adc _ | .adcs _ | .cmpImm _ | .cmnImm _ | .cmpReg _ | .cmnReg _
  | .andImm _ | .orrImm _ | .eorImm _ | .andReg _ | .orrReg _ | .eorReg _ | .movReg _
  | .movSp _ | .movBitmask _ | .movz _ | .movn _ | .movk _ | .madd _ | .msub _ | .mul _
  | .mneg _ | .b _ | .bCond _ | .ret _ | .nop _ | .fadd _ | .fmul _ | .fneg _ | .fmovReg _ => false

/-! ### The instruction a decoder names for a request's word -/

/-- The operand with its default made explicit. -/
def fill (x : Option Int) (dflt : Int) : Option Int := some (x.getD dflt)

/-- The operands of R67 with the defaults of R9 made explicit and every unread field dropped. -/
def normAddSubImm (o : Operands) : Operands :=
  { rd := o.rd, rn := o.rn, imm := o.imm, sh := fill o.sh 0, sf := fill o.sf 1 }

/-- The operands of R68 and R71, likewise. -/
def normSReg (o : Operands) : Operands :=
  { rd := o.rd, rn := o.rn, rm := o.rm, shift := some (shiftName (shiftOf o)), amount := fill o.amount 0, sf := fill o.sf 1 }

/-- The operands of R70, likewise. -/
def normLogImm (o : Operands) : Operands :=
  { rd := o.rd, rn := o.rn, imm := o.imm, sf := fill o.sf 1 }

/-- The operands of R72, likewise. -/
def normMoveWide (o : Operands) : Operands :=
  { rd := o.rd, imm := o.imm, hwShift := fill o.hwShift 0, sf := fill o.sf 1 }

/-- Register operands with the width selector. -/
def normRegs (o : Operands) : Operands :=
  { rd := o.rd, rn := o.rn, rm := o.rm, sf := fill o.sf 1 }

/-- Floating-point register operands with the type. -/
def normFp (o : Operands) : Operands :=
  { rd := o.rd, rn := o.rn, rm := o.rm, ftype := some (ftypeName (ftypeOf o)) }

/-- R64, R82: the instruction that a request's word decodes to. Registers, immediates and `sf` are the request's own, with
defaults explicit and unread fields dropped; the form is the pseudo-op where its extra fixed fields match; a
floating-point immediate is the value its 8 bits expand to. -/
def normalize : Instr → Instr
  | .addImm o =>
    if o.imm = some 0 ∧ o.sh.getD 0 = 0 then .movSp { rd := o.rd, rn := o.rn, sf := fill o.sf 1 }
    else .addImm (normAddSubImm o)
  | .addsImm o =>
    if o.rd = some 31 then .cmnImm { normAddSubImm o with rd := none } else .addsImm (normAddSubImm o)
  | .subImm o => .subImm (normAddSubImm o)
  | .subsImm o =>
    if o.rd = some 31 then .cmpImm { normAddSubImm o with rd := none } else .subsImm (normAddSubImm o)
  | .addReg o => .addReg (normSReg o)
  | .addsReg o => if o.rd = some 31 then .cmnReg { normSReg o with rd := none } else .addsReg (normSReg o)
  | .subReg o => .subReg (normSReg o)
  | .subsReg o => if o.rd = some 31 then .cmpReg { normSReg o with rd := none } else .subsReg (normSReg o)
  | .adc o => .adc (normRegs o)
  | .adcs o => .adcs (normRegs o)
  | .cmpImm o => .cmpImm { normAddSubImm o with rd := none }
  | .cmnImm o => .cmnImm { normAddSubImm o with rd := none }
  | .cmpReg o => .cmpReg { normSReg o with rd := none }
  | .cmnReg o => .cmnReg { normSReg o with rd := none }
  | .andImm o => .andImm (normLogImm o)
  | .orrImm o =>
    if o.rn = some 31 then .movBitmask { normLogImm o with rn := none } else .orrImm (normLogImm o)
  | .eorImm o => .eorImm (normLogImm o)
  | .andReg o => .andReg (normSReg o)
  | .orrReg o =>
    if o.rn = some 31 ∧ shiftOf o = .lsl ∧ o.amount.getD 0 = 0 then .movReg { rd := o.rd, rm := o.rm, sf := fill o.sf 1 }
    else .orrReg (normSReg o)
  | .eorReg o => .eorReg (normSReg o)
  | .movReg o => .movReg { rd := o.rd, rm := o.rm, sf := fill o.sf 1 }
  | .movSp o => .movSp { rd := o.rd, rn := o.rn, sf := fill o.sf 1 }
  | .movBitmask o => .movBitmask { normLogImm o with rn := none }
  | .movz o => .movz (normMoveWide o)
  | .movn o => .movn (normMoveWide o)
  | .movk o => .movk (normMoveWide o)
  | .madd o => if o.ra = some 31 then .mul (normRegs o) else .madd { normRegs o with ra := o.ra }
  | .msub o => if o.ra = some 31 then .mneg (normRegs o) else .msub { normRegs o with ra := o.ra }
  | .mul o => .mul (normRegs o)
  | .mneg o => .mneg (normRegs o)
  | .b o => .b { offset := o.offset }
  | .bCond o => .bCond { cond := o.cond, offset := o.offset }
  | .ret o => .ret { rn := fill o.rn 30 }
  | .nop _ => .nop {}
  | .fadd o => .fadd (normFp o)
  | .fmul o => .fmul (normFp o)
  | .fneg o => .fneg { normFp o with rm := none }
  | .fmovReg o => .fmovReg { normFp o with rm := none }
  | .fmovImm o =>
    .fmovImm { rd := o.rd, ftype := some (ftypeName (ftypeOf o)), fval := some (imm8ToDouble (compress (o.fval.getD 0)).1) }

/-! ### The opcode table's words -/

/-- The instruction the decoder reads from an opcode-table row's word: bit 0 of `w` is the least significant bit of the
one 32-bit word; its bytes are laid out little-endian (R33) and given to the decoder; bits from `nbits` up are 0. -/
def decodeTableWord (nbits w : Nat) : Option Instr :=
  match decode (bytesOfWord (BitVec.ofNat 32 (w % 2 ^ nbits))) with
  | .ok (i, _) => some i
  | .error _ => none

end Sys2Proof
end

