-- ==== Sys2Proof/Machine/State.lean ====
section
/-! DEFINITION. The state of the machine as plain data: the block (R13), its ports (R22), the host that loads the
finalized buffer (R44 to R48) and the target that runs it (R210); its reset (R30); the faults and the refusals. -/

namespace Sys2Proof.Machine

/-- PHASE (R13, R16). -/
inductive Phase where
  | opened | frozen | aborted
deriving DecidableEq, Repr

/-- ERR (R13, R17). -/
inductive Err where
  | none | fieldRange | immUnrepresentable | capacity
deriving DecidableEq, Repr

/-- The status codes of a response (R250). -/
inductive Status where
  | ok | fieldRange | immUnrepresentable | capacity | sessionNotOpen
deriving DecidableEq, Repr

/-- A response of the block (R22, R200 to R203). -/
inductive Response where
  /-- `(status, word, warn)`: the word is present exactly when the status is OK. -/
  | encode (status : Status) (word : Option Word) (warn : Bool)
  /-- `(status, BUF, LEN)`: the bytes are handed over exactly when the status is OK (R201). -/
  | finalize (status : Status) (bytes : Option (List Byte)) (len : Nat)
  /-- `(OK, LEN, STATUS)` (R202). -/
  | length (status : Status) (len : Nat) (view : Word)
  /-- `OK` (R200). -/
  | reset (status : Status)
deriving DecidableEq, Repr

/-- The target's condition flags (R210). -/
structure Nzcv where
  n : Bool
  z : Bool
  c : Bool
  v : Bool
deriving DecidableEq, Repr

/-- The target's registers as far as the emitted words touch them (R210). -/
structure Regs where
  x : Vector DWord 31
  sp : DWord
  v : Vector QWord 32
  nzcv : Nzcv
  pc : DWord
  fpcr : Fpcr
  fpsr : Fpsr
deriving DecidableEq, Repr

/-- The argument of a call of the entry point: the integer or the floating-point variant (R48). -/
inductive CallArg where
  | int (value : DWord)
  | fp (value : DWord)
deriving DecidableEq, Repr

/-- What the host does with a finalized buffer, R273 steps 4 to 7. `source` names the finalized buffer: its place among the bytes handed
over (log 13). -/
inductive HostAction where
  /-- Step 4: place the bytes handed over at the resident address (R45). -/
  | load (source : Nat) (address : DWord)
  /-- Step 5: ask for read, write and execute permission on the region of R46; the operating system's answer (R47). -/
  | permission (source : Nat) (granted : Bool)
  /-- Step 6: make the bytes visible to instruction fetch (R42). -/
  | maintainFetch (source : Nat)
  /-- Step 7: call the entry point with its argument and return address; every other register is the host's (R48, R272). -/
  | call (source : Nat) (arg : CallArg) (returnAddress : DWord) (regs : Regs)
deriving DecidableEq, Repr

/-- One entry of the input queue: a request of the block (R22) or an action of the host. -/
inductive Input where
  | encode (i : Instr)
  | finalize
  | length
  | reset
  | host (action : HostAction)
deriving DecidableEq, Repr

/-- The executable region `[S, S + n*P)` of R46, in bytes. -/
structure Region where
  start : Nat
  size : Nat
deriving DecidableEq, Repr

/-- How far R273's steps 4 to 6 have gone for a placed buffer. The stages are only ever passed forwards (R47). -/
inductive Stage where
  | placed
  | permitted (region : Region)
  | ready (region : Region)
deriving DecidableEq, Repr

/-- A finalized buffer at its resident address `A`, with `LEN` (R45); `source` is its place among the bytes handed over (log 13). -/
structure Buffer where
  source : Nat
  base : DWord
  len : Nat
  stage : Stage
deriving DecidableEq, Repr

/-- Resident memory: (address, byte) cells with strictly rising addresses. An unlisted address has no value (log 15). -/
abbrev Memory := List Host.Cell

/-- The machine's state. The first group is R13's record; the parameters are R8's; the others are the block's ports,
the host and the target. -/
structure State where
  /-- BUF: the bytes appended, oldest first; offset `k` holds the `k`-th (R13, R32). -/
  buf : List Byte
  phase : Phase
  err : Err
  approx : Bool
  params : Config.Params
  /-- Requests and host actions issued and not yet processed, oldest first (R24; log 3). -/
  inputs : List Input
  /-- The last response given (R22; log 2). -/
  response : Option Response
  /-- The bytes each successful FINALIZE has handed over, the first FINALIZE's first: the host's from then on, never changed again
  (R44, R200, R206; log 13). -/
  handed : List (List Byte)
  /-- The buffers the host has placed (R45, R273; log 13). -/
  buffers : List Buffer
  /-- The operating system denied a permission request: "fatal and non-retriable" (R47, R255; log 13). -/
  platformError : Bool
  memory : Memory
  regs : Regs
  /-- Whether the target is inside a call (log 12). -/
  running : Bool
  /-- The return address of the call (R48; log 12). -/
  returnTo : DWord
deriving DecidableEq, Repr

/-- Why the machine stops with a fault. No request of the block faults: its errors are responses (R250 to R258). -/
inductive Fault where
  /-- The target met a word it cannot execute: a half-precision word without FEAT_FP16 (R84, U13), or bytes that
  decode to no instruction. An exception of the target, outside the block (R260). Raised by the target's step. Safe. -/
  | undefinedInstruction
  /-- The target fetched at an address that is not a multiple of 4 (R36, R223). Raised by the target's step. Safe. -/
  | pcAlignment
  /-- The target fetched at an address that holds no word of a placed buffer, past its own LEN among them: an instruction abort, or the
  undefined behaviour of R49 (R279, U1, U15, U25; log 10). Raised by the target's step. Safe. -/
  | fetchOutsideBuffer
  /-- Placed bytes were called, or run, before R273's steps 5 and 6 were done for them (R278, U2). Raised by the host's
  call and the target's step. Safe. -/
  | executeBeforeReady
  /-- The host wrote over the executable region after the permission change (R278). Raised by the host's load. Safe. -/
  | regionRewritten
deriving DecidableEq, Repr

/-- Why a step is refused. -/
inductive Refusal where
  /-- The instruction has no meaning in the model yet. No arm answers it. Safe. -/
  | notModelled (mnemonic : String)
  /-- A host action out of R273's order that executes nothing: a load of bytes that were never handed over, a load of a buffer whose
  permission has been changed already (R274), an action on a buffer that is not placed, a second permission request, fetch maintenance
  without the permission (log 13). Raised by the host's actions. Safe. -/
  | hostOrder
  /-- A call with SP not 16-byte aligned, which the calling convention rules out (R272; log 19). Raised by the host's call. Safe. -/
  | callingConvention
  /-- The buffer would not fit below the top of the 64-bit address space (log 14). Raised by the host's load. Safe. -/
  | placementOutsideAddressSpace
  /-- A host action after PlatformError, which is fatal and non-retriable (R47). Raised by the host's actions. Safe. -/
  | platformErrorFatal
deriving DecidableEq, Repr

/-- The registers of a target that no call has set yet: all zero, rounding to nearest. DESIGN CHOICE, unsafe, log 6: the
values at the entry point are the host's (R210, R272), and a call sets them all. -/
def Regs.initial : Regs :=
  { x := Vector.replicate 31 0
    sp := 0
    v := Vector.replicate 32 0
    nzcv := ⟨false, false, false, false⟩
    pc := 0
    fpcr := ⟨.tieEven, false, false, false⟩
    fpsr := Fpsr.none }

/-- The machine right after reset: R30 for the block, nothing issued, nothing handed over, nothing placed. -/
def State.reset : State :=
  { buf := []
    phase := .opened
    err := .none
    approx := false
    params := Config.Params.initial
    inputs := []
    response := none
    handed := []
    buffers := []
    platformError := false
    memory := []
    regs := Regs.initial
    running := false
    returnTo := 0 }

end Sys2Proof.Machine
end

