-- ==== Sys2Proof/Machine/Flags.lean ====
section
/-! DEFINITION. Every status the machine computes: the status codes (R250), the STATUS view (R21), the target's condition
flags and conditions (R212, R222). -/

namespace Sys2Proof.Machine

/-- R250: the numeric status codes. -/
def statusCode : Status → Nat
  | .ok => 0
  | .fieldRange => 1
  | .immUnrepresentable => 2
  | .capacity => 3
  | .sessionNotOpen => 4

/-- R17, R250: the status code of the request that put `ERR` at a value. -/
def errStatus : Err → Status
  | .none => .ok
  | .fieldRange => .fieldRange
  | .immUnrepresentable => .immUnrepresentable
  | .capacity => .capacity

/-- R21: the code of PHASE in the STATUS view. -/
def phaseCode : Phase → BitVec 2
  | .opened => 0
  | .frozen => 1
  | .aborted => 2

/-- R21, R250: the code of ERR in the STATUS view. -/
def errCode : Err → BitVec 3
  | .none => 0
  | .fieldRange => 1
  | .immUnrepresentable => 2
  | .capacity => 3

/-- R21: the STATUS view, bits `[1:0]` PHASE, `[4:2]` ERR, `[5]` APPROX, `[31:6]` zero. -/
def statusView (s : State) : Word :=
  0#26 ++ (BitVec.ofBool s.approx) ++ errCode s.err ++ phaseCode s.phase

/-- R212: AddWithCarry of two `w`-bit values, the result and the flags. -/
def addWithCarry {w : Nat} (x y : BitVec w) (carryIn : Bool) : BitVec w × Nzcv :=
  let usum : Nat := x.toNat + y.toNat + carryIn.toNat
  let ssum : Int := x.toInt + y.toInt + (carryIn.toNat : Int)
  let result := BitVec.ofNat w usum
  (result,
    { n := result.msb
      z := decide (result = 0)
      c := decide (result.toNat ≠ usum)
      v := decide (result.toInt ≠ ssum) })

/-- R222: ConditionHolds. -/
def conditionHolds (c : Cond) (f : Nzcv) : Bool :=
  match c with
  | .eq => f.z
  | .ne => !f.z
  | .cs => f.c
  | .cc => !f.c
  | .mi => f.n
  | .pl => !f.n
  | .vs => f.v
  | .vc => !f.v
  | .hi => f.c && !f.z
  | .ls => !(f.c && !f.z)
  | .ge => f.n == f.v
  | .lt => f.n != f.v
  | .gt => !f.z && (f.n == f.v)
  | .le => !(!f.z && (f.n == f.v))

end Sys2Proof.Machine
end

