-- ==== Sys2Proof/Machine/Ops.lean ====
section
/-! DEFINITION. The named operations: resident memory, the target's registers, the code buffer, and the request procedure
R203 with the abort of a session, which is all the block has in place of an exception entry (R260). -/

namespace Sys2Proof.Machine

/-! ### Resident memory -/

/-- The byte at an address; an unlisted address has no value. -/
def Memory.read (m : Memory) (a : Nat) : Option Byte :=
  match m with
  | [] => none
  | (k, b) :: rest => if k = a then some b else Memory.read rest a

/-- Writes a byte, keeping the addresses strictly rising. -/
def Memory.write (m : Memory) (a : Nat) (b : Byte) : Memory :=
  match m with
  | [] => [(a, b)]
  | (k, c) :: rest =>
    if a < k then (a, b) :: (k, c) :: rest
    else if a = k then (a, b) :: rest
    else (k, c) :: Memory.write rest a b

/-- Writes a sequence of bytes from an address upwards. -/
def Memory.writeBytes (m : Memory) (a : Nat) : List Byte → Memory
  | [] => m
  | b :: rest => Memory.writeBytes (Memory.write m a b) (a + 1) rest

/-- The canonical form: addresses strictly rising. -/
abbrev Memory.wf (m : Memory) : Prop := (m.map Prod.fst).Pairwise (· < ·)

/-- The little-endian word at an address (R33, R34), none where a byte of it has no value. -/
def Memory.fetch (m : Memory) (a : Nat) : Option Word :=
  match Memory.read m a, Memory.read m (a + 1), Memory.read m (a + 2), Memory.read m (a + 3) with
  | some b0, some b1, some b2, some b3 => some (wordOfBytes b0 b1 b2 b3)
  | _, _, _, _ => none

/-! ### The code buffer -/

/-- LEN: the number of bytes of BUF (R13, R15). -/
def State.len (s : State) : Nat := s.buf.length

/-- The byte at an offset of BUF; there is one exactly for the offsets `0 .. LEN-1` (R32). -/
def State.bufByte (s : State) (k : Nat) : Option Byte := s.buf[k]?

/-- Gives a response (R22). -/
def State.respond (s : State) (r : Response) : State := { s with response := some r }

/-- The word and the warning a form's encoder answers (R12). -/
structure Encoded where
  word : Word
  warn : Bool
deriving DecidableEq, Repr

/-- R203: whether an append of four bytes would exceed BUFFER_CAPACITY (R38). -/
def State.full (s : State) : Bool :=
  match s.params.bufferCapacity with
  | none => false
  | some c => decide (c < s.len + 4)

/-- R203: appends the word's four bytes, sets APPROX on a warning, and responds OK. -/
def State.appendWord (s : State) (w : Word) (warn : Bool) : State :=
  { s with
    buf := s.buf ++ bytesOfWord w
    approx := s.approx || warn
    response := some (.encode .ok (some w) warn) }

/-- R257: what a failed encode request does, and all it does: PHASE becomes ABORTED, ERR the status, nothing is appended,
and the status is the response. -/
def State.abort (s : State) (e : Err) : State :=
  { s with phase := .aborted, err := e, response := some (.encode (errStatus e) none false) }

/-- R200, R270: RESET of the block, the only way out of an aborted or frozen session. The parameters are kept (R271), and so is
everything that is not block state. -/
def State.resetBlock (s : State) : State :=
  { s with buf := [], phase := .opened, err := .none, approx := false, response := some (.reset .ok) }

/-- The value of ERR for an encoder's error (R250). -/
def encErr : EncErr → Err
  | .fieldRange _ => .fieldRange
  | .immUnrepresentable _ => .immUnrepresentable

/-- R203: the request procedure every encode request follows, given what the form's encoder answers. -/
def request (s : State) (result : Except EncErr Encoded) :
    Host.Outcome State Fault Refusal :=
  if s.phase ≠ .opened then .next (s.respond (.encode .sessionNotOpen none false))
  else
    match result with
    | .error e => .next (s.abort (encErr e))
    | .ok enc =>
      if s.full then .next (s.abort .capacity)
      else .next (s.appendWord enc.word enc.warn)

/-- An encoder's word with no warning: no form but FMOV_imm warns (R253). -/
def quiet (r : Except EncErr Word) : Except EncErr Encoded :=
  match r with
  | .ok w => .ok { word := w, warn := false }
  | .error e => .error e

/-! ### The target's registers -/

/-- A general register, or the zero register for index 31 (R60, R210). -/
def Regs.readX (r : Regs) (i : RegField) : DWord :=
  if h : i.toNat < 31 then r.x[i.toNat] else 0

/-- A general register, or the stack pointer for index 31 (R60). -/
def Regs.readXSp (r : Regs) (i : RegField) : DWord :=
  if h : i.toNat < 31 then r.x[i.toNat] else r.sp

/-- Writes a general register; a write to index 31, the zero register, is discarded (R211). -/
def Regs.writeX (r : Regs) (i : RegField) (v : DWord) : Regs :=
  if h : i.toNat < 31 then { r with x := r.x.set i.toNat v } else r

/-- Writes a general register, or the stack pointer for index 31 (R60). -/
def Regs.writeXSp (r : Regs) (i : RegField) (v : DWord) : Regs :=
  if h : i.toNat < 31 then { r with x := r.x.set i.toNat v } else { r with sp := v }

/-- A SIMD and floating-point register; index 31 is an ordinary one (R26). -/
def Regs.readV (r : Regs) (i : RegField) : QWord := r.v[i.toNat]'(i.isLt)

/-- Writes all 128 bits of a SIMD and floating-point register. -/
def Regs.writeV (r : Regs) (i : RegField) (v : QWord) : Regs :=
  { r with v := r.v.set i.toNat v (i.isLt) }

/-- The low 16, 32 or 64 bits of a register, as `ftype` selects (R26, R210). -/
def Regs.readFp (r : Regs) (t : FType) (i : RegField) : Nat :=
  (r.readV i).toNat % 2 ^ (formatOf t).width

/-- A scalar write: the low bits are the value and the rest of the 128 are zero (R211). -/
def Regs.writeFp (r : Regs) (t : FType) (i : RegField) (v : Nat) : Regs :=
  r.writeV i (BitVec.ofNat 128 (v % 2 ^ (formatOf t).width))

/-- The word after this one (R224). -/
def Regs.advance (r : Regs) : Regs := { r with pc := r.pc + 4 }

end Sys2Proof.Machine
end

