-- ==== Sys2Proof/Machine/Arithmetic.lean ====
section
/-! DEFINITION. The arithmetic and compare forms (R100 to R116). -/

namespace Sys2Proof.Machine

/-- R100, AddSubImm. -/
def addSubImm (op s : Nat) (rd rn : Option Int) (o : Operands) : Except EncErr Word := do
  let sf ← checkSf o.sf
  let rd ← checkReg "rd" rd
  let rn ← checkReg "rn" rn
  let sh ← checkSh o.sh
  let imm ← checkImm 4095 o.imm
  pack (fieldsAddSubImm sf op s sh imm rn rd)

/-- R105, AddSubReg. -/
def addSubReg (op s : Nat) (rd : Option Int) (o : Operands) : Except EncErr Word := do
  let sf ← checkSf o.sf
  let rd ← checkReg "rd" rd
  let rn ← checkReg "rn" o.rn
  let rm ← checkReg "rm" o.rm
  let shift ← checkShift false o.shift
  let amount ← checkAmount sf o.amount
  pack (fieldsAddSubReg sf op s (shiftCode shift) rm amount rn rd)

/-- R110, AddSubCarry. -/
def addSubCarry (s : Nat) (o : Operands) : Except EncErr Word := do
  let sf ← checkSf o.sf
  let rd ← checkReg "rd" o.rd
  let rn ← checkReg "rn" o.rn
  let rm ← checkReg "rm" o.rm
  checkNoShift o.shift
  checkNoAmount o.amount
  pack (fieldsAddSubCarry sf s rm rn rd)

/-- R101. -/
def execAddImm (o : Operands) (s : State) : Host.Outcome State Fault Refusal :=
  request s (quiet (addSubImm 0 0 o.rd o.rn o))

/-- R102. -/
def execAddsImm (o : Operands) (s : State) : Host.Outcome State Fault Refusal :=
  request s (quiet (addSubImm 0 1 o.rd o.rn o))

/-- R103. -/
def execSubImm (o : Operands) (s : State) : Host.Outcome State Fault Refusal :=
  request s (quiet (addSubImm 1 0 o.rd o.rn o))

/-- R104. -/
def execSubsImm (o : Operands) (s : State) : Host.Outcome State Fault Refusal :=
  request s (quiet (addSubImm 1 1 o.rd o.rn o))

/-- R106. -/
def execAddReg (o : Operands) (s : State) : Host.Outcome State Fault Refusal :=
  request s (quiet (addSubReg 0 0 o.rd o))

/-- R107. -/
def execAddsReg (o : Operands) (s : State) : Host.Outcome State Fault Refusal :=
  request s (quiet (addSubReg 0 1 o.rd o))

/-- R108. -/
def execSubReg (o : Operands) (s : State) : Host.Outcome State Fault Refusal :=
  request s (quiet (addSubReg 1 0 o.rd o))

/-- R109. -/
def execSubsReg (o : Operands) (s : State) : Host.Outcome State Fault Refusal :=
  request s (quiet (addSubReg 1 1 o.rd o))

/-- R111. -/
def execAdc (o : Operands) (s : State) : Host.Outcome State Fault Refusal :=
  request s (quiet (addSubCarry 0 o))

/-- R112. -/
def execAdcs (o : Operands) (s : State) : Host.Outcome State Fault Refusal :=
  request s (quiet (addSubCarry 1 o))

/-- R113: the word of SUBS_imm with `rd = 31`. -/
def execCmpImm (o : Operands) (s : State) : Host.Outcome State Fault Refusal :=
  request s (quiet (addSubImm 1 1 (some 31) o.rn o))

/-- R114: the word of ADDS_imm with `rd = 31`. -/
def execCmnImm (o : Operands) (s : State) : Host.Outcome State Fault Refusal :=
  request s (quiet (addSubImm 0 1 (some 31) o.rn o))

/-- R115: the word of SUBS_reg with `rd = 31`. -/
def execCmpReg (o : Operands) (s : State) : Host.Outcome State Fault Refusal :=
  request s (quiet (addSubReg 1 1 (some 31) o))

/-- R116: the word of ADDS_reg with `rd = 31`. -/
def execCmnReg (o : Operands) (s : State) : Host.Outcome State Fault Refusal :=
  request s (quiet (addSubReg 0 1 (some 31) o))

end Sys2Proof.Machine
end

