-- ==== Sys2Proof/Machine/Branch.lean ====
section
/-! DEFINITION. The branch, return and no-operation forms (R165 to R169). -/

namespace Sys2Proof.Machine

/-- R166. -/
def encB (o : Operands) : Except EncErr Word := do
  let imm26 ← checkOffset 26 o.offset
  pack (fieldsB imm26)

/-- R167: the condition is checked before the offset. -/
def encBCond (o : Operands) : Except EncErr Word := do
  let cond ← checkCond o.cond
  let imm19 ← checkOffset 19 o.offset
  pack (fieldsBCond imm19 (condCode cond))

/-- R168: `rn` is 30 by default. -/
def encRet (o : Operands) : Except EncErr Word := do
  let rn ← inRange "rn" 0 31 (o.rn.getD 30)
  pack (fieldsRet rn)

/-- R166. -/
def execB (o : Operands) (s : State) : Host.Outcome State Fault Refusal :=
  request s (quiet (encB o))

/-- R167. -/
def execBCond (o : Operands) (s : State) : Host.Outcome State Fault Refusal :=
  request s (quiet (encBCond o))

/-- R168. -/
def execRet (o : Operands) (s : State) : Host.Outcome State Fault Refusal :=
  request s (quiet (encRet o))

/-- R169: one fixed word; every operand field is ignored. -/
def execNop (_ : Operands) (s : State) : Host.Outcome State Fault Refusal :=
  request s (quiet (pack fieldsNop))

end Sys2Proof.Machine
end

