-- ==== Sys2Proof/Machine/Float.lean ====
section
/-! DEFINITION. The floating-point forms (R180 to R187). -/

namespace Sys2Proof.Machine

/-- R181, R182. -/
def fpDp2 (opcode : Nat) (o : Operands) : Except EncErr Word := do
  let t ← checkFtype o.ftype
  let rd ← checkReg "rd" o.rd
  let rn ← checkReg "rn" o.rn
  let rm ← checkReg "rm" o.rm
  pack (fieldsFpDp2 (ftypeCode t) rm opcode rn rd)

/-- R183, R184. -/
def fpDp1 (opcode : Nat) (o : Operands) : Except EncErr Word := do
  let t ← checkFtype o.ftype
  let rd ← checkReg "rd" o.rd
  let rn ← checkReg "rn" o.rn
  pack (fieldsFpDp1 (ftypeCode t) opcode rn rd)

/-- R185: the word of the compressed immediate, with the approximation warning of R186. -/
def fpImm (o : Operands) : Except EncErr Encoded := do
  let t ← checkFtype o.ftype
  let rd ← checkReg "rd" o.rd
  let fval ← required "fval" o.fval
  let w ← pack (fieldsFpImm (ftypeCode t) (compress fval).1.toNat rd)
  .ok { word := w, warn := (compress fval).2 }

/-- R181. -/
def execFadd (o : Operands) (s : State) : Host.Outcome State Fault Refusal :=
  request s (quiet (fpDp2 0b0010 o))

/-- R182. -/
def execFmul (o : Operands) (s : State) : Host.Outcome State Fault Refusal :=
  request s (quiet (fpDp2 0b0000 o))

/-- R183. -/
def execFneg (o : Operands) (s : State) : Host.Outcome State Fault Refusal :=
  request s (quiet (fpDp1 0b000010 o))

/-- R184. -/
def execFmovReg (o : Operands) (s : State) : Host.Outcome State Fault Refusal :=
  request s (quiet (fpDp1 0b000000 o))

/-- R185. -/
def execFmovImm (o : Operands) (s : State) : Host.Outcome State Fault Refusal :=
  request s (fpImm o)

end Sys2Proof.Machine
end

