-- ==== Sys2Proof/Machine/Logical.lean ====
section
/-! DEFINITION. The logical forms (R120 to R127). -/

namespace Sys2Proof.Machine

/-- R129, R132, R133: the canonical encoding of a mask, or ImmediateUnrepresentableError. -/
def checkBitmask (m : DWord) : Except EncErr BitmaskFields :=
  match canonicalize m with
  | some f => .ok f
  | none => .error (.immUnrepresentable m.toNat)

/-- R120, LogImm: every field check comes before canonicalization. -/
def logImm (opc : Nat) (rd rn : Option Int) (o : Operands) : Except EncErr Word := do
  let sf ← checkSf o.sf
  let rd ← checkReg "rd" rd
  let rn ← checkReg "rn" rn
  let imm ← checkImm (if sf = 1 then 2 ^ 64 - 1 else 2 ^ 32 - 1) o.imm
  let f ← checkBitmask (maskOf imm sf)
  pack (fieldsLogImm sf opc f.n.toNat f.immr.toNat f.imms.toNat rn rd)

/-- R124, LogReg, given its register, shift and amount operands. -/
def logReg (opc : Nat) (rn : Option Int) (shift : Option String) (amount : Option Int) (o : Operands) :
    Except EncErr Word := do
  let sf ← checkSf o.sf
  let rd ← checkReg "rd" o.rd
  let rn ← checkReg "rn" rn
  let rm ← checkReg "rm" o.rm
  let shift ← checkShift true shift
  let amount ← checkAmount sf amount
  pack (fieldsLogReg sf opc (shiftCode shift) rm amount rn rd)

/-- R121. -/
def execAndImm (o : Operands) (s : State) : Host.Outcome State Fault Refusal :=
  request s (quiet (logImm 0b00 o.rd o.rn o))

/-- R122. -/
def execOrrImm (o : Operands) (s : State) : Host.Outcome State Fault Refusal :=
  request s (quiet (logImm 0b01 o.rd o.rn o))

/-- R123. -/
def execEorImm (o : Operands) (s : State) : Host.Outcome State Fault Refusal :=
  request s (quiet (logImm 0b10 o.rd o.rn o))

/-- R125. -/
def execAndReg (o : Operands) (s : State) : Host.Outcome State Fault Refusal :=
  request s (quiet (logReg 0b00 o.rn o.shift o.amount o))

/-- R126. -/
def execOrrReg (o : Operands) (s : State) : Host.Outcome State Fault Refusal :=
  request s (quiet (logReg 0b01 o.rn o.shift o.amount o))

/-- R127. -/
def execEorReg (o : Operands) (s : State) : Host.Outcome State Fault Refusal :=
  request s (quiet (logReg 0b10 o.rn o.shift o.amount o))

end Sys2Proof.Machine
end

