-- ==== Sys2Proof/Machine/Move.lean ====
section
/-! DEFINITION. The move forms (R140 to R146). -/

namespace Sys2Proof.Machine

/-- R143, MoveWide. -/
def moveWide (opc : Nat) (o : Operands) : Except EncErr Word := do
  let sf ← checkSf o.sf
  let rd ← checkReg "rd" o.rd
  let imm ← checkImm 65535 o.imm
  let hw ← checkHwShift sf o.hwShift
  pack (fieldsMoveWide sf opc hw imm rd)

/-- R140: the word of ORR_reg with `rn = 31`, `LSL`, `0`. -/
def execMovReg (o : Operands) (s : State) : Host.Outcome State Fault Refusal :=
  request s (quiet (logReg 0b01 (some 31) (some "LSL") (some 0) o))

/-- R141: the word of ADD_imm with `imm = 0`, `sh = 0`. -/
def execMovSp (o : Operands) (s : State) : Host.Outcome State Fault Refusal :=
  request s (quiet (addSubImm 0 0 o.rd o.rn { o with imm := some 0, sh := some 0 }))

/-- R142: the word of ORR_imm with `rn = 31`. -/
def execMovBitmask (o : Operands) (s : State) : Host.Outcome State Fault Refusal :=
  request s (quiet (logImm 0b01 o.rd (some 31) o))

/-- R144. -/
def execMovz (o : Operands) (s : State) : Host.Outcome State Fault Refusal :=
  request s (quiet (moveWide 0b10 o))

/-- R145. -/
def execMovn (o : Operands) (s : State) : Host.Outcome State Fault Refusal :=
  request s (quiet (moveWide 0b00 o))

/-- R146. -/
def execMovk (o : Operands) (s : State) : Host.Outcome State Fault Refusal :=
  request s (quiet (moveWide 0b11 o))

end Sys2Proof.Machine
end

