-- ==== Sys2Proof/Machine/Multiply.lean ====
section
/-! DEFINITION. The multiply forms (R155 to R159). -/

namespace Sys2Proof.Machine

/-- R155, MulAcc. -/
def mulAcc (o0 : Nat) (ra : Option Int) (o : Operands) : Except EncErr Word := do
  let sf ← checkSf o.sf
  let rd ← checkReg "rd" o.rd
  let rn ← checkReg "rn" o.rn
  let rm ← checkReg "rm" o.rm
  let ra ← checkReg "ra" ra
  pack (fieldsDp3 sf rm o0 ra rn rd)

/-- R156. -/
def execMadd (o : Operands) (s : State) : Host.Outcome State Fault Refusal :=
  request s (quiet (mulAcc 0 o.ra o))

/-- R157. -/
def execMsub (o : Operands) (s : State) : Host.Outcome State Fault Refusal :=
  request s (quiet (mulAcc 1 o.ra o))

/-- R158: the word of MADD with `ra = 31`. -/
def execMul (o : Operands) (s : State) : Host.Outcome State Fault Refusal :=
  request s (quiet (mulAcc 0 (some 31) o))

/-- R159: the word of MSUB with `ra = 31`. -/
def execMneg (o : Operands) (s : State) : Host.Outcome State Fault Refusal :=
  request s (quiet (mulAcc 1 (some 31) o))

end Sys2Proof.Machine
end

