-- ==== Sys2Proof/Machine/Dispatch.lean ====
section
/-! DEFINITION. One arm per constructor of Instr: the meaning of each form as a request of the block. -/

namespace Sys2Proof.Machine

def exec (i : Instr) (s : State) : Host.Outcome State Fault Refusal :=
  match i with
  | .addImm o => Sys2Proof.Machine.execAddImm o s
  | .addsImm o => Sys2Proof.Machine.execAddsImm o s
  | .subImm o => Sys2Proof.Machine.execSubImm o s
  | .subsImm o => Sys2Proof.Machine.execSubsImm o s
  | .addReg o => Sys2Proof.Machine.execAddReg o s
  | .addsReg o => Sys2Proof.Machine.execAddsReg o s
  | .subReg o => Sys2Proof.Machine.execSubReg o s
  | .subsReg o => Sys2Proof.Machine.execSubsReg o s
  | .adc o => Sys2Proof.Machine.execAdc o s
  | .adcs o => Sys2Proof.Machine.execAdcs o s
  | .cmpImm o => Sys2Proof.Machine.execCmpImm o s
  | .cmnImm o => Sys2Proof.Machine.execCmnImm o s
  | .cmpReg o => Sys2Proof.Machine.execCmpReg o s
  | .cmnReg o => Sys2Proof.Machine.execCmnReg o s
  | .andImm o => Sys2Proof.Machine.execAndImm o s
  | .orrImm o => Sys2Proof.Machine.execOrrImm o s
  | .eorImm o => Sys2Proof.Machine.execEorImm o s
  | .andReg o => Sys2Proof.Machine.execAndReg o s
  | .orrReg o => Sys2Proof.Machine.execOrrReg o s
  | .eorReg o => Sys2Proof.Machine.execEorReg o s
  | .movReg o => Sys2Proof.Machine.execMovReg o s
  | .movSp o => Sys2Proof.Machine.execMovSp o s
  | .movBitmask o => Sys2Proof.Machine.execMovBitmask o s
  | .movz o => Sys2Proof.Machine.execMovz o s
  | .movn o => Sys2Proof.Machine.execMovn o s
  | .movk o => Sys2Proof.Machine.execMovk o s
  | .madd o => Sys2Proof.Machine.execMadd o s
  | .msub o => Sys2Proof.Machine.execMsub o s
  | .mul o => Sys2Proof.Machine.execMul o s
  | .mneg o => Sys2Proof.Machine.execMneg o s
  | .b o => Sys2Proof.Machine.execB o s
  | .bCond o => Sys2Proof.Machine.execBCond o s
  | .ret o => Sys2Proof.Machine.execRet o s
  | .nop o => Sys2Proof.Machine.execNop o s
  | .fadd o => Sys2Proof.Machine.execFadd o s
  | .fmul o => Sys2Proof.Machine.execFmul o s
  | .fneg o => Sys2Proof.Machine.execFneg o s
  | .fmovReg o => Sys2Proof.Machine.execFmovReg o s
  | .fmovImm o => Sys2Proof.Machine.execFmovImm o s

end Sys2Proof.Machine
end

