-- ==== Sys2Proof/Machine/Loader.lean ====
section
/-! DEFINITION. The host's actions on a finalized buffer (R42, R44 to R48, R273 steps 4 to 7, R278). -/

namespace Sys2Proof.Machine

/-- R46: `[S, S + n*P)` with `S = A - (A mod P)` and `n = max(2, ceil((A + LEN - S) / P))`. -/
def regionOf (pageSize a len : Nat) : Region :=
  let start := a - a % pageSize
  let pages := max 2 ((a + len - start + pageSize - 1) / pageSize)
  { start := start, size := pages * pageSize }

/-- Whether `[a, a + len)` shares a byte with `[b, b + n)`. An empty range shares none. -/
def overlaps (a len b n : Nat) : Bool := decide (max a b < min (a + len) (b + n))

/-- The region whose permission has been changed for a buffer, if it has (R47). -/
def Stage.region : Stage → Option Region
  | .placed => none
  | .permitted r | .ready r => some r

/-- Where a finalized buffer is placed. -/
def findBuffer (bs : List Buffer) (source : Nat) : Option Buffer := bs.find? fun b => b.source = source

/-- Moves a placed buffer to a stage. -/
def setStage (bs : List Buffer) (source : Nat) (st : Stage) : List Buffer :=
  bs.map fun b => if b.source = source then { b with stage := st } else b

/-- A placed buffer that the placement of `source` at `[a, a + len)` leaves in place: another one, with no byte overwritten (log 20). -/
def survives (source a len : Nat) (b : Buffer) : Bool :=
  decide (b.source ≠ source) && !overlaps a len b.base.toNat b.len

/-- R274: the permission of a finalized buffer's region has been changed, so its steps 4 to 6 are not done again. -/
def alreadyExecutable (bs : List Buffer) (source : Nat) : Bool :=
  ((findBuffer bs source).bind fun b => b.stage.region).isSome

/-- R278: a write of `[a, a + len)` would touch a region whose permission has been changed. -/
def rewritesRegion (a len : Nat) (b : Buffer) : Bool :=
  match b.stage.region with
  | none => false
  | some r => overlaps a len r.start r.size

/-- R45, R273 step 4: places the bytes of a finalized buffer at `a`. Placing it again before its permission is changed moves it. A buffer
still without permission that the bytes overwrite is gone (log 20). -/
def hostLoad (source : Nat) (a : DWord) (s : State) : Host.Outcome State Fault Refusal :=
  match s.handed[source]? with
  | none => .refused .hostOrder
  | some bytes =>
    if s.platformError then .refused .platformErrorFatal
    else if alreadyExecutable s.buffers source then .refused .hostOrder
    else if 2 ^ 64 < a.toNat + bytes.length then .refused .placementOutsideAddressSpace
    else if s.buffers.any (rewritesRegion a.toNat bytes.length) then .fault .regionRewritten
    else
      .next { s with
        buffers :=
          { source := source, base := a, len := bytes.length, stage := .placed }
            :: s.buffers.filter (survives source a.toNat bytes.length)
        memory := Memory.writeBytes s.memory a.toNat bytes }

/-- R46, R47, R273 step 5: the permission request on the region of R46, with the operating system's answer. -/
def hostPermission (source : Nat) (granted : Bool) (s : State) : Host.Outcome State Fault Refusal :=
  if s.platformError then .refused .platformErrorFatal
  else
    match findBuffer s.buffers source with
    | none => .refused .hostOrder
    | some b =>
      match b.stage with
      | .placed =>
        if granted then
          .next { s with
            buffers := setStage s.buffers source (.permitted (regionOf s.params.pageSize b.base.toNat b.len)) }
        else .next { s with platformError := true }
      | .permitted _ | .ready _ => .refused .hostOrder

/-- R42, R273 step 6: the bytes become visible to instruction fetch. Doing it again changes nothing. -/
def hostMaintainFetch (source : Nat) (s : State) : Host.Outcome State Fault Refusal :=
  if s.platformError then .refused .platformErrorFatal
  else
    match findBuffer s.buffers source with
    | none => .refused .hostOrder
    | some b =>
      match b.stage with
      | .permitted r | .ready r => .next { s with buffers := setStage s.buffers source (.ready r) }
      | .placed => .refused .hostOrder

/-- R48: the registers at the entry point: the argument in X0 or D0, the return address in X30, pc at the entry
point, every other register the host's (R272). -/
def entryRegs (arg : CallArg) (returnAddress entry : DWord) (regs : Regs) : Regs :=
  let withArg :=
    match arg with
    | .int v => regs.writeX 0 v
    | .fp v => regs.writeV 0 ((regs.readV 0).extractLsb' 64 64 ++ v)
  { withArg.writeX 30 returnAddress with pc := entry }

/-- R48, R273 step 7, R274: the call, any number of times. Before steps 4 to 6 are done it is the undefined case of R278. SP is 16-byte
aligned at a call (R272); a call with another SP is refused (log 19). -/
def hostCall (source : Nat) (arg : CallArg) (returnAddress : DWord) (regs : Regs) (s : State) :
    Host.Outcome State Fault Refusal :=
  if s.platformError then .refused .platformErrorFatal
  else
    match findBuffer s.buffers source with
    | none => .fault .executeBeforeReady
    | some b =>
      match b.stage with
      | .placed | .permitted _ => .fault .executeBeforeReady
      | .ready _ =>
        if regs.sp.toNat % 16 ≠ 0 then .refused .callingConvention
        else
          .next { s with
            regs := entryRegs arg returnAddress b.base regs
            running := true
            returnTo := returnAddress }

/-- One action of the host. -/
def hostAct (x : HostAction) (s : State) : Host.Outcome State Fault Refusal :=
  match x with
  | .load source a => hostLoad source a s
  | .permission source granted => hostPermission source granted s
  | .maintainFetch source => hostMaintainFetch source s
  | .call source arg returnAddress regs => hostCall source arg returnAddress regs s

end Sys2Proof.Machine
end

