-- ==== Sys2Proof/Machine/Session.lean ====
section
/-! DEFINITION. The three commands (R200 to R202). Each answers a next state in every phase. -/

namespace Sys2Proof.Machine

/-- R200: RESET, in any phase. -/
def doReset (s : State) : State := s.resetBlock

/-- R201: FINALIZE. From an open session it freezes the buffer and hands it to the host, which keeps what it was
handed before (R44); otherwise it changes nothing. -/
def doFinalize (s : State) : State :=
  match s.phase with
  | .opened =>
    { s with
      phase := .frozen
      handed := s.handed ++ [s.buf]
      response := some (.finalize .ok (some s.buf) s.len) }
  | .frozen | .aborted => s.respond (.finalize .sessionNotOpen none s.len)

/-- R202: LENGTH, in any phase: LEN and the STATUS view. -/
def doLength (s : State) : State := s.respond (.length .ok s.len (statusView s))

end Sys2Proof.Machine
end

