-- ==== Sys2Proof/Machine/Target.lean ====
section
/-! DEFINITION. What a word does on the target (R210 to R226), form by form on the decoded instruction. -/

namespace Sys2Proof.Machine

/-- R213, ShiftReg on a `w`-bit value. -/
def shiftReg {w : Nat} (v : BitVec w) (t : ShiftType) (amount : Nat) : BitVec w :=
  match t with
  | .lsl => v <<< amount
  | .lsr => v >>> amount
  | .asr => v.sshiftRight amount
  | .ror => v.rotateRight amount

/-- Addition, or subtraction as the addition of the complement with carry (R214, R215). -/
def addSub {w : Nat} (sub : Bool) (x y : BitVec w) : BitVec w × Nzcv :=
  if sub then addWithCarry x (~~~ y) true else addWithCarry x y false

/-- A word that sets the flags, or one that does not. -/
def Regs.setFlags (r : Regs) (s : Bool) (f : Nzcv) : Regs := if s then { r with nzcv := f } else r

/-- R214: ADDSUB_IMM words. -/
def targetAddSubImm (sub s : Bool) (rd rn : RegField) (imm12 sh : Nat) (o : Operands) (r : Regs) : Regs :=
  let w := datasize o
  let op1 := (r.readXSp rn).setWidth w
  let res := addSub sub op1 (BitVec.ofNat w (imm12 * 2 ^ (12 * sh)))
  let r := r.setFlags s res.2
  if s then r.writeX rd (res.1.setWidth 64) else r.writeXSp rd (res.1.setWidth 64)

/-- R215: ADDSUB_SREG words. -/
def targetAddSubReg (sub s : Bool) (rd : RegField) (o : Operands) (r : Regs) : Regs :=
  let w := datasize o
  let op1 := (r.readX (regField o.rn)).setWidth w
  let op2 := shiftReg ((r.readX (regField o.rm)).setWidth w) (shiftOf o) (amountOf o)
  let res := addSub sub op1 op2
  (r.setFlags s res.2).writeX rd (res.1.setWidth 64)

/-- R216: ADDSUB_CARRY words. -/
def targetCarry (s : Bool) (o : Operands) (r : Regs) : Regs :=
  let w := datasize o
  let res := addWithCarry ((r.readX (regField o.rn)).setWidth w) ((r.readX (regField o.rm)).setWidth w) r.nzcv.c
  (r.setFlags s res.2).writeX (regField o.rd) (res.1.setWidth 64)

/-- The operations of the logical forms. -/
inductive LogOp where
  | and | orr | eor
deriving DecidableEq, Repr

/-- R217, R218: the bitwise operation. -/
def logOp {w : Nat} (op : LogOp) (x y : BitVec w) : BitVec w :=
  match op with
  | .and => x &&& y
  | .orr => x ||| y
  | .eor => x ^^^ y

/-- R217: LOG_IMM words; the decoded immediate is DecodeBitMasks truncated to `datasize`. -/
def targetLogImm (op : LogOp) (rn : RegField) (o : Operands) (r : Regs) : Regs :=
  let w := datasize o
  let res := logOp op ((r.readX rn).setWidth w) (BitVec.ofNat w (immOf o))
  r.writeXSp (regField o.rd) (res.setWidth 64)

/-- R218: LOG_SREG words. -/
def targetLogReg (op : LogOp) (rn : RegField) (o : Operands) (r : Regs) : Regs :=
  let w := datasize o
  let op2 := shiftReg ((r.readX (regField o.rm)).setWidth w) (shiftOf o) (amountOf o)
  r.writeX (regField o.rd) ((logOp op ((r.readX rn).setWidth w) op2).setWidth 64)

/-- The lane's bit position, `16 * hw` (R219). -/
def lanePos (o : Operands) : Nat := (o.hwShift.getD 0).toNat

/-- R219: MOVZ. -/
def targetMovz (o : Operands) (r : Regs) : Regs :=
  r.writeX (regField o.rd) ((BitVec.ofNat (datasize o) (immOf o) <<< lanePos o).setWidth 64)

/-- R219: MOVN. -/
def targetMovn (o : Operands) (r : Regs) : Regs :=
  r.writeX (regField o.rd) ((~~~ (BitVec.ofNat (datasize o) (immOf o) <<< lanePos o)).setWidth 64)

/-- R219: MOVK keeps the other lanes of the `datasize`-bit register. -/
def targetMovk (o : Operands) (r : Regs) : Regs :=
  let w := datasize o
  let old := (r.readX (regField o.rd)).setWidth w
  let lane := BitVec.ofNat w 0xFFFF <<< lanePos o
  r.writeX (regField o.rd) (((old &&& ~~~ lane) ||| (BitVec.ofNat w (immOf o) <<< lanePos o)).setWidth 64)

/-- R220: DP3 words. -/
def targetMulAcc (sub : Bool) (ra : RegField) (o : Operands) (r : Regs) : Regs :=
  let w := datasize o
  let p := (r.readX (regField o.rn)).setWidth w * (r.readX (regField o.rm)).setWidth w
  let a := (r.readX ra).setWidth w
  r.writeX (regField o.rd) ((if sub then a - p else a + p).setWidth 64)

/-- R221, R222: a branch by a signed count of words from the branch word's own address. -/
def Regs.branchBy (r : Regs) (offset : Int) : Regs :=
  { r with pc := r.pc + BitVec.ofInt 64 (4 * offset) }

/-- R225: FADD and FMUL, accumulating the exception flags in FPSR. -/
def targetFpDp2 (op : Fpcr → FType → Nat → Nat → Nat × Fpsr) (o : Operands) (r : Regs) : Regs :=
  let t := ftypeOf o
  let res := op r.fpcr t (r.readFp t (regField o.rn)) (r.readFp t (regField o.rm))
  { r.writeFp t (regField o.rd) res.1 with fpsr := r.fpsr.or res.2 }

/-- R225: FNEG inverts the sign bit; no rounding, no exception, a NaN keeps its payload. -/
def targetFneg (o : Operands) (r : Regs) : Regs :=
  let t := ftypeOf o
  r.writeFp t (regField o.rd) (r.readFp t (regField o.rn) ^^^ 2 ^ ((formatOf t).width - 1))

/-- R225: FMOV_reg copies. -/
def targetFmovReg (o : Operands) (r : Regs) : Regs :=
  let t := ftypeOf o
  r.writeFp t (regField o.rd) (r.readFp t (regField o.rn))

/-- R226: FMOV_imm writes the expansion, in the word's type, of its 8-bit immediate. -/
def targetFmovImm (o : Operands) (r : Regs) : Regs :=
  let t := ftypeOf o
  r.writeFp t (regField o.rd) (expandImm8 (formatOf t) (compress (o.fval.getD 0)).1)

/-- R214 to R226: what a decoded instruction's word does to the target's registers. Every word that is not a taken branch advances
`pc` by 4 (R224). The zero register of a pseudo-op is index 31 (R27). -/
def targetExec (i : Instr) (r : Regs) : Regs :=
  match i with
  | .addImm o => (targetAddSubImm false false (regField o.rd) (regField o.rn) (immOf o) (o.sh.getD 0).toNat o r).advance
  | .addsImm o => (targetAddSubImm false true (regField o.rd) (regField o.rn) (immOf o) (o.sh.getD 0).toNat o r).advance
  | .subImm o => (targetAddSubImm true false (regField o.rd) (regField o.rn) (immOf o) (o.sh.getD 0).toNat o r).advance
  | .subsImm o => (targetAddSubImm true true (regField o.rd) (regField o.rn) (immOf o) (o.sh.getD 0).toNat o r).advance
  | .cmpImm o => (targetAddSubImm true true 31 (regField o.rn) (immOf o) (o.sh.getD 0).toNat o r).advance
  | .cmnImm o => (targetAddSubImm false true 31 (regField o.rn) (immOf o) (o.sh.getD 0).toNat o r).advance
  | .movSp o => (targetAddSubImm false false (regField o.rd) (regField o.rn) 0 0 o r).advance
  | .addReg o => (targetAddSubReg false false (regField o.rd) o r).advance
  | .addsReg o => (targetAddSubReg false true (regField o.rd) o r).advance
  | .subReg o => (targetAddSubReg true false (regField o.rd) o r).advance
  | .subsReg o => (targetAddSubReg true true (regField o.rd) o r).advance
  | .cmpReg o => (targetAddSubReg true true 31 o r).advance
  | .cmnReg o => (targetAddSubReg false true 31 o r).advance
  | .adc o => (targetCarry false o r).advance
  | .adcs o => (targetCarry true o r).advance
  | .andImm o => (targetLogImm .and (regField o.rn) o r).advance
  | .orrImm o => (targetLogImm .orr (regField o.rn) o r).advance
  | .eorImm o => (targetLogImm .eor (regField o.rn) o r).advance
  | .movBitmask o => (targetLogImm .orr 31 o r).advance
  | .andReg o => (targetLogReg .and (regField o.rn) o r).advance
  | .orrReg o => (targetLogReg .orr (regField o.rn) o r).advance
  | .eorReg o => (targetLogReg .eor (regField o.rn) o r).advance
  | .movReg o => (targetLogReg .orr 31 { o with shift := none, amount := none } r).advance
  | .movz o => (targetMovz o r).advance
  | .movn o => (targetMovn o r).advance
  | .movk o => (targetMovk o r).advance
  | .madd o => (targetMulAcc false (regField o.ra) o r).advance
  | .msub o => (targetMulAcc true (regField o.ra) o r).advance
  | .mul o => (targetMulAcc false 31 o r).advance
  | .mneg o => (targetMulAcc true 31 o r).advance
  | .b o => r.branchBy (o.offset.getD 0)
  | .bCond o => if conditionHolds (condOf o) r.nzcv then r.branchBy (o.offset.getD 0) else r.advance
  | .ret o => { r with pc := r.readX (BitVec.ofInt 5 (o.rn.getD 30)) }
  | .nop _ => r.advance
  | .fadd o => (targetFpDp2 fpAdd o r).advance
  | .fmul o => (targetFpDp2 fpMul o r).advance
  | .fneg o => (targetFneg o r).advance
  | .fmovReg o => (targetFmovReg o r).advance
  | .fmovImm o => (targetFmovImm o r).advance

/-- Whether a word is of type H, which only a target with FEAT_FP16 executes (R84). -/
def isHalf : Instr → Bool
  | .fadd o | .fmul o | .fneg o | .fmovReg o | .fmovImm o => decide (ftypeOf o = .h)
  | .addImm _ | .addsImm _ | .subImm _ | .subsImm _ | .addReg _ | .addsReg _ | .subReg _
  | .subsReg _ | .adc _ | .adcs _ | .cmpImm _ | .cmnImm _ | .cmpReg _ | .cmnReg _
  | .andImm _ | .orrImm _ | .eorImm _ | .andReg _ | .orrReg _ | .eorReg _ | .movReg _
  | .movSp _ | .movBitmask _ | .movz _ | .movn _ | .movk _ | .madd _ | .msub _ | .mul _
  | .mneg _ | .b _ | .bCond _ | .ret _ | .nop _ => false

/-- Whether a word is a RET. -/
def isRet : Instr → Bool
  | .ret _ => true
  | .addImm _ | .addsImm _ | .subImm _ | .subsImm _ | .addReg _ | .addsReg _ | .subReg _
  | .subsReg _ | .adc _ | .adcs _ | .cmpImm _ | .cmnImm _ | .cmpReg _ | .cmnReg _
  | .andImm _ | .orrImm _ | .eorImm _ | .andReg _ | .orrReg _ | .eorReg _ | .movReg _
  | .movSp _ | .movBitmask _ | .movz _ | .movn _ | .movk _ | .madd _ | .msub _ | .mul _
  | .mneg _ | .b _ | .bCond _ | .nop _ | .fadd _ | .fmul _ | .fneg _ | .fmovReg _ | .fmovImm _ => false

/-- R48, R273 step 8: a RET to the call's return address gives control back to the host (log 12). DESIGN CHOICE, unsafe, log 22: a
program that broke the callee-saved obligations of R227 returns in the same way, and the host goes on, where R227 and U16 leave its
behaviour undefined. -/
def returns (i : Instr) (s : State) : Bool :=
  isRet i && decide ((targetExec i s.regs).pc = s.returnTo) && decide (s.returnTo.toNat % 4 = 0)

/-- The target runs a decoded instruction. -/
def targetRun (i : Instr) (s : State) : State :=
  { s with regs := targetExec i s.regs, running := !returns i s }

/-- Whether the four bytes at an address lie in a region. -/
def Region.holds (r : Region) (a : Nat) : Bool :=
  decide (r.start ≤ a) && decide (a + 4 ≤ r.start + r.size)

/-- The four bytes at an address are a placed buffer's own, none past its LEN. -/
def Buffer.holds (b : Buffer) (a : Nat) : Bool :=
  decide (b.base.toNat ≤ a) && decide (a + 4 ≤ b.base.toNat + b.len)

/-- The word at an address is a placed buffer's own, in its executable region, and R273's steps 4 to 6 are done for the buffer. -/
def readyAt (a : Nat) (b : Buffer) : Bool :=
  match b.stage with
  | .ready r => b.holds a && r.holds a
  | .placed | .permitted _ => false

/-- The word at pc (R34), if pc is a multiple of 4 (R36) and at a word of a buffer that is executable and visible to fetch (R278);
otherwise the fault of the fetch. DESIGN CHOICE, log 10, where R49, U1, U15 and U25 leave the run undefined: past a buffer's LEN, and at
any other resident bytes that are no placed buffer's, the fetch stops (safe); at a word of another ready buffer it goes on (unsafe). -/
def targetFetch (s : State) : Except Fault Word :=
  let a := s.regs.pc.toNat
  if a % 4 ≠ 0 then .error .pcAlignment
  else if s.buffers.any (readyAt a) then
    match Memory.fetch s.memory a with
    | some w => .ok w
    | none => .error .fetchOutsideBuffer
  else if s.buffers.any fun b => b.holds a then .error .executeBeforeReady
  else .error .fetchOutsideBuffer

/-- One step of the target: fetch, decode, execute. -/
def targetStep (s : State) : Host.Outcome State Fault Refusal :=
  match targetFetch s with
  | .error f => .fault f
  | .ok w =>
    match decodeWord w with
    | .error _ => .fault .undefinedInstruction
    | .ok i =>
      if isHalf i && !s.params.targetHasFp16 then .fault .undefinedInstruction
      else .next (targetRun i s)

end Sys2Proof.Machine
end

