-- ==== Sys2Proof/Machine/Step.lean ====
section
/-! DEFINITION. One step: the target's while a call is running, otherwise the next input's. -/

namespace Sys2Proof.Machine

/-- One input, already taken off the queue. An encode request runs `exec` (R203). -/
def processInput (x : Input) (s : State) : Host.Outcome State Fault Refusal :=
  match x with
  | .encode i => exec i s
  | .finalize => .next (doFinalize s)
  | .length => .next (doLength s)
  | .reset => .next (doReset s)
  | .host a => hostAct a s

/-- One step (R24, R39). While the target is inside the host's call, the target moves (log 4). Otherwise the oldest input is
taken off the queue and processed to completion; with nothing queued, nothing changes (log 3). -/
def step (s : State) : Host.Outcome State Fault Refusal :=
  if s.running then targetStep s
  else
    match s.inputs with
    | [] => .next s
    | x :: rest => processInput x { s with inputs := rest }

/-- The state whose very next step runs the instruction of an opcode-table row's word: the block takes no words in, so the
instruction the word decodes to is put at the request port, and the target is not inside a call (log 1). -/
def State.withFetchWord (s : State) (nbits w : Nat) : State :=
  { s with
    inputs := (decodeTableWord nbits w).toList.map Input.encode
    running := false }

end Sys2Proof.Machine
end

