-- ==== Sys2Proof/Safety.lean ====
section
/-! DEFINITION. What counts as a safe state and a safe step, in the terms the statements use: the conditions under which the
block accepts a request, the states the spec says follow, and the invariant of the whole machine. -/

namespace Sys2Proof.Safety

open Machine

/-! ### How an operand record gives the fields of a word -/

/-- The operand is present and is the value of a field. -/
def isField {n : Nat} (x : Option Int) (v : BitVec n) : Prop := x = some (v.toNat : Int)

/-- The operand, or its default where it is absent, is the value of a field (R9). -/
def isFieldOr {n : Nat} (dflt : Int) (x : Option Int) (v : BitVec n) : Prop := x.getD dflt = (v.toNat : Int)

/-- The shift operands of a shifted-register form (R56, R105, R124): the name, `LSL` where absent, and its code are a pair of the
list, and the amount, 0 where absent, is below 32 when `sf = 0`. -/
def isShift (names : List (String × BitVec 2)) (o : Operands) (sf : BitVec 1) (shift : BitVec 2) (amount : BitVec 6) : Prop :=
  (o.shift.getD "LSL", shift) ∈ names ∧ isFieldOr 0 o.amount amount ∧ (sf = 0 → amount.toNat < 32)

/-- R56: the shift names of the arithmetic forms with their codes. -/
def arithShiftCodes : List (String × BitVec 2) := [("LSL", 0b00), ("LSR", 0b01), ("ASR", 0b10)]

/-- R56: the shift names of the logical forms with their codes. -/
def logicalShiftCodes : List (String × BitVec 2) := [("LSL", 0b00), ("LSR", 0b01), ("ASR", 0b10), ("ROR", 0b11)]

/-- R59: the type names with their codes. -/
def ftypeCodes : List (String × BitVec 2) := [("S", 0b00), ("D", 0b01), ("H", 0b11)]

/-- R26, R210: the type names with the widths of their registers' views. -/
def ftypeWidths : List (String × Nat) := [("H", 16), ("S", 32), ("D", 64)]

/-- R58: the 14 condition names with their codes. -/
def condCodes : List (String × BitVec 4) :=
  [("EQ", 0b0000), ("NE", 0b0001), ("CS", 0b0010), ("CC", 0b0011), ("MI", 0b0100), ("PL", 0b0101), ("VS", 0b0110),
   ("VC", 0b0111), ("HI", 0b1000), ("LS", 0b1001), ("GE", 0b1010), ("LT", 0b1011), ("GT", 0b1100), ("LE", 0b1101)]

/-! ### The block -/

/-- The buffer has room for one more word (R38). -/
def hasRoom (s : State) : Prop := ∀ c, s.params.bufferCapacity = some c → s.len + 4 ≤ c

/-- The session is open and the buffer has room: what an encode request needs beside valid operands (R205). -/
def accepts (s : State) : Prop := s.phase = .opened ∧ hasRoom s

/-- The state after a successful encode request, R203 with R33: the word's four bytes appended, little-endian, APPROX set on a
warning, the response `(OK, word, warn)`, and nothing else changed. -/
def afterOk (s : State) (w : Word) (warn : Bool) : State :=
  { s with
    buf := s.buf ++ [w.extractLsb' 0 8, w.extractLsb' 8 8, w.extractLsb' 16 8, w.extractLsb' 24 8]
    approx := s.approx || warn
    response := some (.encode .ok (some w) warn) }

/-- The state after a failed encode request, R257: PHASE and ERR, the response, and nothing else. -/
def afterAbort (s : State) (e : Err) (status : Status) : State :=
  { s with phase := .aborted, err := e, response := some (.encode status none false) }

/-- The next step takes the input `x` off the queue, with `rest` left behind it. -/
def issues (s : State) (x : Input) (rest : List Input) : Prop := s.running = false ∧ s.inputs = x :: rest

/-- Every four bytes are a word of one of the 39 forms, and the length is a multiple of 4 (R15, R31, R83). -/
def wordsDecode : List Byte → Bool
  | [] => true
  | b0 :: b1 :: b2 :: b3 :: rest =>
    (match decodeWord (wordOfBytes b0 b1 b2 b3) with
      | .ok _ => true
      | .error _ => false) && wordsDecode rest
  | _ => false

/-! ### The host and the target -/

/-- A placed buffer as R45 and R46 describe it: it lies in the address space, the target sees the bytes handed over, byte `k` at
`A + k`, and its executable region, once asked for, is that of R46. -/
def bufferOk (s : State) (b : Buffer) : Prop :=
  b.base.toNat + b.len ≤ 2 ^ 64
  ∧ (∀ r, b.stage.region = some r → r = regionOf s.params.pageSize b.base.toNat b.len)
  ∧ ∃ bytes, s.handed[b.source]? = some bytes ∧ bytes.length = b.len
      ∧ ∀ k, k < b.len → Memory.read s.memory (b.base.toNat + k) = bytes[k]?

/-- The invariant of the machine: ERR agrees with PHASE (R17), BUF and all bytes handed over are words of the 39 forms, resident memory
is canonical, no finalized buffer is placed twice, and every placed buffer is as R45 and R46 say. -/
def Inv (s : State) : Prop :=
  (s.phase = .aborted ↔ s.err ≠ .none)
  ∧ wordsDecode s.buf = true
  ∧ (∀ bytes ∈ s.handed, wordsDecode bytes = true)
  ∧ Memory.wf s.memory
  ∧ (s.buffers.map Buffer.source).Nodup
  ∧ ∀ b ∈ s.buffers, bufferOk s b

/-- pc is at a word of a buffer that R273's steps 4 to 6 have made ready, and that is placed as R36 asks. -/
def atReadyWord (s : State) : Prop :=
  ∃ b ∈ s.buffers, (∃ r, b.stage = .ready r) ∧ b.base.toNat % 4 = 0
    ∧ ∃ k, 4 * k + 4 ≤ b.len ∧ s.regs.pc.toNat = b.base.toNat + 4 * k

/-- The general register a word writes (R214 to R220), none for a word that writes none. Index 31 is then the zero register or SP. -/
def writesX : Instr → Option RegField
  | .addImm o | .addsImm o | .subImm o | .subsImm o | .addReg o | .addsReg o | .subReg o | .subsReg o
  | .adc o | .adcs o | .andImm o | .orrImm o | .eorImm o | .andReg o | .orrReg o | .eorReg o | .movReg o
  | .movSp o | .movBitmask o | .movz o | .movn o | .movk o | .madd o | .msub o | .mul o | .mneg o => some (regField o.rd)
  | .cmpImm _ | .cmnImm _ | .cmpReg _ | .cmnReg _ | .b _ | .bCond _ | .ret _ | .nop _ | .fadd _ | .fmul _ | .fneg _
  | .fmovReg _ | .fmovImm _ => none

/-- The forms whose destination field 31 is the stack pointer (R60). -/
def writesSp : Instr → Bool
  | .addImm o | .subImm o | .movSp o | .andImm o | .orrImm o | .eorImm o | .movBitmask o => decide (regField o.rd = 31)
  | .addsImm _ | .subsImm _ | .addReg _ | .addsReg _ | .subReg _ | .subsReg _ | .adc _ | .adcs _ | .cmpImm _ | .cmnImm _
  | .cmpReg _ | .cmnReg _ | .andReg _ | .orrReg _ | .eorReg _ | .movReg _ | .movz _ | .movn _ | .movk _ | .madd _ | .msub _
  | .mul _ | .mneg _ | .b _ | .bCond _ | .ret _ | .nop _ | .fadd _ | .fmul _ | .fneg _ | .fmovReg _ | .fmovImm _ => false

/-- The floating-point register a word writes (R225, R226). -/
def writesV : Instr → Option RegField
  | .fadd o | .fmul o | .fneg o | .fmovReg o | .fmovImm o => some (regField o.rd)
  | .addImm _ | .addsImm _ | .subImm _ | .subsImm _ | .addReg _ | .addsReg _ | .subReg _ | .subsReg _ | .adc _ | .adcs _
  | .cmpImm _ | .cmnImm _ | .cmpReg _ | .cmnReg _ | .andImm _ | .orrImm _ | .eorImm _ | .andReg _ | .orrReg _ | .eorReg _
  | .movReg _ | .movSp _ | .movBitmask _ | .movz _ | .movn _ | .movk _ | .madd _ | .msub _ | .mul _ | .mneg _ | .b _
  | .bCond _ | .ret _ | .nop _ => none

/-- The forms whose words set NZCV: R29's list. -/
def setsFlags : Instr → Bool
  | .addsImm _ | .subsImm _ | .addsReg _ | .subsReg _ | .adcs _ | .cmpImm _ | .cmnImm _ | .cmpReg _ | .cmnReg _ => true
  | .addImm _ | .subImm _ | .addReg _ | .subReg _ | .adc _ | .andImm _ | .orrImm _ | .eorImm _ | .andReg _ | .orrReg _
  | .eorReg _ | .movReg _ | .movSp _ | .movBitmask _ | .movz _ | .movn _ | .movk _ | .madd _ | .msub _ | .mul _ | .mneg _
  | .b _ | .bCond _ | .ret _ | .nop _ | .fadd _ | .fmul _ | .fneg _ | .fmovReg _ | .fmovImm _ => false

/-- The words that may raise a floating-point exception flag (R225). -/
def roundsResult : Instr → Bool
  | .fadd _ | .fmul _ => true
  | .addImm _ | .addsImm _ | .subImm _ | .subsImm _ | .addReg _ | .addsReg _ | .subReg _ | .subsReg _ | .adc _ | .adcs _
  | .cmpImm _ | .cmnImm _ | .cmpReg _ | .cmnReg _ | .andImm _ | .orrImm _ | .eorImm _ | .andReg _ | .orrReg _ | .eorReg _
  | .movReg _ | .movSp _ | .movBitmask _ | .movz _ | .movn _ | .movk _ | .madd _ | .msub _ | .mul _ | .mneg _ | .b _
  | .bCond _ | .ret _ | .nop _ | .fneg _ | .fmovReg _ | .fmovImm _ => false

/-! ### Floating-point values -/

/-- The rational value of a finite floating-point value. -/
def ratOf : FpValue → Option ℚ
  | .finite s m e => some ((if s then -1 else 1) * (m : ℚ) * (2 : ℚ) ^ e)
  | .inf _ | .nan _ => none

/-- The value of a code of a format, where it is finite. -/
def valueOf (f : FpFormat) (x : Nat) : Option ℚ := ratOf (f.unpack x)

/-- The least magnitude that rounding to nearest takes to infinity: the largest finite value and half a unit in its last place. -/
def overflowBound (f : FpFormat) : ℚ := (2 : ℚ) ^ (f.bias : Int) * (2 - (2 : ℚ) ^ (-(f.fracBits + 1 : Int)))

/-- The largest finite value of a format. -/
def maxFinite (f : FpFormat) : ℚ := (2 : ℚ) ^ (f.bias : Int) * (2 - (2 : ℚ) ^ (-(f.fracBits : Int)))

/-- The code `x` is the IEEE 754 rounding of the exact value `v` in a mode (R188, R225): among the finite values of the format the
nearest one, the even code on a tie; the least one not below; the greatest one not above; or the greatest in magnitude not beyond;
and an infinity only where the mode overflows to it. -/
def correctlyRounded (f : FpFormat) (mode : RMode) (v : ℚ) (x : Nat) : Prop :=
  match f.unpack x with
  | .nan _ => False
  | .inf s =>
    match mode with
    | .tieEven => if s then v ≤ -overflowBound f else overflowBound f ≤ v
    | .plusInf => s = false ∧ maxFinite f < v
    | .minusInf => s = true ∧ v < -maxFinite f
    | .towardZero => False
  | .finite s m e =>
    ∀ u, ratOf (.finite s m e) = some u →
      match mode with
      | .tieEven =>
        |v| < overflowBound f
        ∧ ∀ y z, valueOf f y = some z → |u - v| ≤ |z - v| ∧ (|u - v| = |z - v| → z ≠ u → x % 2 = 0)
      | .plusInf => v ≤ u ∧ ∀ y z, valueOf f y = some z → v ≤ z → u ≤ z
      | .minusInf => u ≤ v ∧ ∀ y z, valueOf f y = some z → z ≤ v → z ≤ u
      | .towardZero => 0 ≤ u * v ∧ |u| ≤ |v| ∧ ∀ y z, valueOf f y = some z → |z| ≤ |v| → |z| ≤ |u|

/-- Rounding the exact value `v` overflows, IEEE 754: rounded as if the exponent had no bound, its magnitude is above the largest finite
one. Where the mode truncates the magnitude that needs the next power of two. -/
def overflows (f : FpFormat) (mode : RMode) (v : ℚ) : Prop :=
  match mode with
  | .tieEven => overflowBound f ≤ |v|
  | .plusInf => maxFinite f < v ∨ v ≤ -(2 : ℚ) ^ (f.bias + 1)
  | .minusInf => v < -maxFinite f ∨ (2 : ℚ) ^ (f.bias + 1) ≤ v
  | .towardZero => (2 : ℚ) ^ (f.bias + 1) ≤ |v|

/-- The code and the flags are those of rounding the exact value `v`: inexact exactly when the code is not `v`'s, overflow as above,
underflow when `v` is below the smallest normal magnitude and inexact (before rounding: log 8), and no other flag. -/
def roundsTo (f : FpFormat) (mode : RMode) (v : ℚ) (r : Nat × Fpsr) : Prop :=
  correctlyRounded f mode v r.1
  ∧ (r.2.ixc = false ↔ valueOf f r.1 = some v)
  ∧ (r.2.ofc = true ↔ overflows f mode v)
  ∧ (r.2.ufc = true ↔ |v| < (2 : ℚ) ^ f.minExp ∧ r.2.ixc = true)
  ∧ r.2.ioc = false ∧ r.2.dzc = false ∧ r.2.idc = false

/-- The result is a quiet NaN, with the invalid-operation flag or with no flag (R225; log 9). -/
def deliversNan (f : FpFormat) (invalid : Bool) (r : Nat × Fpsr) : Prop :=
  f.unpack r.1 = .nan false ∧ r.2 = { Fpsr.none with ioc := invalid }

/-- The result is an exact infinity, with no flag (R225). -/
def deliversInf (f : FpFormat) (sign : Bool) (r : Nat × Fpsr) : Prop :=
  f.unpack r.1 = .inf sign ∧ r.2 = Fpsr.none

end Sys2Proof.Safety
end

