-- ==== Sys2Proof/Certificates/Slice0/Obligations.lean ====
section
/-! DEFINITION. The statements for the provers. Numbers R<n> are the rules of spec/; "derived by the spec" means that the spec marks
the sentence as its own inference. -/

open Sys2Proof Sys2Proof.Machine Sys2Proof.Safety

/-! ### Encode requests: each form's word, and that it completes (R100 to R188, R203) -/

/-- R67, R100 to R104, R113, R114: in an open session with room, the add, subtract and compare immediate forms append this word, for every
legal operand. The compare forms have destination 31 and read no `rd` (R23, R27). -/
def Obligations.AddSubtractImmediateAppendsItsWord : Prop :=
  ∀ (s : State) (o : Operands) (sf sh : BitVec 1) (imm12 : BitVec 12) (rn rd : RegField),
    accepts s → isFieldOr 1 o.sf sf → isFieldOr 0 o.sh sh → isField o.imm imm12 → isField o.rn rn →
      (isField o.rd rd →
        exec (.addImm o) s = .next (afterOk s (sf ++ 0#1 ++ 0#1 ++ 0b100010#6 ++ sh ++ imm12 ++ rn ++ rd) false)
        ∧ exec (.addsImm o) s = .next (afterOk s (sf ++ 0#1 ++ 1#1 ++ 0b100010#6 ++ sh ++ imm12 ++ rn ++ rd) false)
        ∧ exec (.subImm o) s = .next (afterOk s (sf ++ 1#1 ++ 0#1 ++ 0b100010#6 ++ sh ++ imm12 ++ rn ++ rd) false)
        ∧ exec (.subsImm o) s = .next (afterOk s (sf ++ 1#1 ++ 1#1 ++ 0b100010#6 ++ sh ++ imm12 ++ rn ++ rd) false))
      ∧ exec (.cmpImm o) s = .next (afterOk s (sf ++ 1#1 ++ 1#1 ++ 0b100010#6 ++ sh ++ imm12 ++ rn ++ 0b11111#5) false)
      ∧ exec (.cmnImm o) s = .next (afterOk s (sf ++ 0#1 ++ 1#1 ++ 0b100010#6 ++ sh ++ imm12 ++ rn ++ 0b11111#5) false)

/-- R68, R105 to R109, R115, R116: the shifted-register add, subtract and compare forms; ROR is no shift of theirs (R56). -/
def Obligations.AddSubtractRegisterAppendsItsWord : Prop :=
  ∀ (s : State) (o : Operands) (sf : BitVec 1) (shift : BitVec 2) (amount : BitVec 6) (rm rn rd : RegField),
    accepts s → isFieldOr 1 o.sf sf → isShift arithShiftCodes o sf shift amount → isField o.rm rm → isField o.rn rn →
      (isField o.rd rd →
        exec (.addReg o) s
          = .next (afterOk s (sf ++ 0#1 ++ 0#1 ++ 0b01011#5 ++ shift ++ 0#1 ++ rm ++ amount ++ rn ++ rd) false)
        ∧ exec (.addsReg o) s
          = .next (afterOk s (sf ++ 0#1 ++ 1#1 ++ 0b01011#5 ++ shift ++ 0#1 ++ rm ++ amount ++ rn ++ rd) false)
        ∧ exec (.subReg o) s
          = .next (afterOk s (sf ++ 1#1 ++ 0#1 ++ 0b01011#5 ++ shift ++ 0#1 ++ rm ++ amount ++ rn ++ rd) false)
        ∧ exec (.subsReg o) s
          = .next (afterOk s (sf ++ 1#1 ++ 1#1 ++ 0b01011#5 ++ shift ++ 0#1 ++ rm ++ amount ++ rn ++ rd) false))
      ∧ exec (.cmpReg o) s
        = .next (afterOk s (sf ++ 1#1 ++ 1#1 ++ 0b01011#5 ++ shift ++ 0#1 ++ rm ++ amount ++ rn ++ 0b11111#5) false)
      ∧ exec (.cmnReg o) s
        = .next (afterOk s (sf ++ 0#1 ++ 1#1 ++ 0b01011#5 ++ shift ++ 0#1 ++ rm ++ amount ++ rn ++ 0b11111#5) false)

/-- R69, R110 to R112: ADC and ADCS, with a shift only absent or LSL and an amount only absent or 0. -/
def Obligations.AddWithCarryAppendsItsWord : Prop :=
  ∀ (s : State) (o : Operands) (sf : BitVec 1) (rm rn rd : RegField),
    accepts s → isFieldOr 1 o.sf sf → (o.shift = none ∨ o.shift = some "LSL") → (o.amount = none ∨ o.amount = some 0) →
    isField o.rm rm → isField o.rn rn → isField o.rd rd →
      exec (.adc o) s = .next (afterOk s (sf ++ 0#1 ++ 0#1 ++ 0b11010000#8 ++ rm ++ 0#6 ++ rn ++ rd) false)
      ∧ exec (.adcs o) s = .next (afterOk s (sf ++ 0#1 ++ 1#1 ++ 0b11010000#8 ++ rm ++ 0#6 ++ rn ++ rd) false)

/-- R70, R120 to R123, R128, R142: the logical immediate forms and MOV_bitmask, where the mask has the canonical encoding `f`. -/
def Obligations.LogicalImmediateAppendsItsWord : Prop :=
  ∀ (s : State) (o : Operands) (sf : BitVec 1) (imm : DWord) (f : BitmaskFields) (rn rd : RegField),
    accepts s → isFieldOr 1 o.sf sf → isField o.imm imm → (sf = 0 → imm.toNat < 2 ^ 32) →
    canonicalize (if sf = 1 then imm else imm.extractLsb' 0 32 ++ imm.extractLsb' 0 32) = some f →
    isField o.rd rd →
      (isField o.rn rn →
        exec (.andImm o) s = .next (afterOk s (sf ++ 0b00#2 ++ 0b100100#6 ++ f.n ++ f.immr ++ f.imms ++ rn ++ rd) false)
        ∧ exec (.orrImm o) s = .next (afterOk s (sf ++ 0b01#2 ++ 0b100100#6 ++ f.n ++ f.immr ++ f.imms ++ rn ++ rd) false)
        ∧ exec (.eorImm o) s = .next (afterOk s (sf ++ 0b10#2 ++ 0b100100#6 ++ f.n ++ f.immr ++ f.imms ++ rn ++ rd) false))
      ∧ exec (.movBitmask o) s
        = .next (afterOk s (sf ++ 0b01#2 ++ 0b100100#6 ++ f.n ++ f.immr ++ f.imms ++ 0b11111#5 ++ rd) false)

/-- R71, R124 to R127. -/
def Obligations.LogicalRegisterAppendsItsWord : Prop :=
  ∀ (s : State) (o : Operands) (sf : BitVec 1) (shift : BitVec 2) (amount : BitVec 6) (rm rn rd : RegField),
    accepts s → isFieldOr 1 o.sf sf → isShift logicalShiftCodes o sf shift amount →
    isField o.rm rm → isField o.rn rn → isField o.rd rd →
      exec (.andReg o) s = .next (afterOk s (sf ++ 0b00#2 ++ 0b01010#5 ++ shift ++ 0#1 ++ rm ++ amount ++ rn ++ rd) false)
      ∧ exec (.orrReg o) s = .next (afterOk s (sf ++ 0b01#2 ++ 0b01010#5 ++ shift ++ 0#1 ++ rm ++ amount ++ rn ++ rd) false)
      ∧ exec (.eorReg o) s = .next (afterOk s (sf ++ 0b10#2 ++ 0b01010#5 ++ shift ++ 0#1 ++ rm ++ amount ++ rn ++ rd) false)

/-- R140, R141: MOV_reg appends the word of ORR_reg with the zero register, LSL and 0; MOV_sp the word of ADD_imm with immediate 0 (their
`shift`, `amount`, `imm` and `sh` fields are ignored, R23). R61, R143 to R146: the wide moves, whose lane index is the lane shift over 16 and
has its high bit unset with `sf = 0`. -/
def Obligations.MovesAppendTheirWord : Prop :=
  ∀ (s : State) (o : Operands) (sf : BitVec 1) (hw : BitVec 2) (imm16 : BitVec 16) (rm rn rd : RegField),
    accepts s → isFieldOr 1 o.sf sf → isField o.rd rd →
      (isField o.rm rm →
        exec (.movReg o) s
          = .next (afterOk s (sf ++ 0b01#2 ++ 0b01010#5 ++ 0b00#2 ++ 0#1 ++ rm ++ 0#6 ++ 0b11111#5 ++ rd) false))
      ∧ (isField o.rn rn →
        exec (.movSp o) s = .next (afterOk s (sf ++ 0#1 ++ 0#1 ++ 0b100010#6 ++ 0#1 ++ 0#12 ++ rn ++ rd) false))
      ∧ (o.hwShift.getD 0 = 16 * (hw.toNat : Int) → (sf = 0 → hw.toNat < 2) → isField o.imm imm16 →
        exec (.movz o) s = .next (afterOk s (sf ++ 0b10#2 ++ 0b100101#6 ++ hw ++ imm16 ++ rd) false)
        ∧ exec (.movn o) s = .next (afterOk s (sf ++ 0b00#2 ++ 0b100101#6 ++ hw ++ imm16 ++ rd) false)
        ∧ exec (.movk o) s = .next (afterOk s (sf ++ 0b11#2 ++ 0b100101#6 ++ hw ++ imm16 ++ rd) false))

/-- R73, R155 to R159: the multiply forms; MUL and MNEG fix the addend register to 31. -/
def Obligations.MultipliesAppendTheirWord : Prop :=
  ∀ (s : State) (o : Operands) (sf : BitVec 1) (rm ra rn rd : RegField),
    accepts s → isFieldOr 1 o.sf sf → isField o.rm rm → isField o.rn rn → isField o.rd rd →
      (isField o.ra ra →
        exec (.madd o) s = .next (afterOk s (sf ++ 0b00#2 ++ 0b11011#5 ++ 0b000#3 ++ rm ++ 0#1 ++ ra ++ rn ++ rd) false)
        ∧ exec (.msub o) s = .next (afterOk s (sf ++ 0b00#2 ++ 0b11011#5 ++ 0b000#3 ++ rm ++ 1#1 ++ ra ++ rn ++ rd) false))
      ∧ exec (.mul o) s = .next (afterOk s (sf ++ 0b00#2 ++ 0b11011#5 ++ 0b000#3 ++ rm ++ 0#1 ++ 0b11111#5 ++ rn ++ rd) false)
      ∧ exec (.mneg o) s = .next (afterOk s (sf ++ 0b00#2 ++ 0b11011#5 ++ 0b000#3 ++ rm ++ 1#1 ++ 0b11111#5 ++ rn ++ rd) false)

/-- R55, R74 to R77, R166 to R169: B and B_cond for every offset of their signed ranges, B_cond for each of the 14 names with its code; RET,
register 30 where none is given; NOP, which ignores every operand. -/
def Obligations.BranchesAppendTheirWord : Prop :=
  ∀ (s : State) (o : Operands), accepts s →
    (∀ imm26 : BitVec 26, o.offset = some imm26.toInt →
      exec (.b o) s = .next (afterOk s (0#1 ++ 0b00101#5 ++ imm26) false))
    ∧ (∀ (name : String) (code : BitVec 4) (imm19 : BitVec 19),
      (name, code) ∈ condCodes → o.cond = some name → o.offset = some imm19.toInt →
        exec (.bCond o) s = .next (afterOk s (0b0101010#7 ++ 0#1 ++ imm19 ++ 0#1 ++ code) false))
    ∧ (∀ rn : RegField, isFieldOr 30 o.rn rn →
      exec (.ret o) s = .next (afterOk s (0b1101011#7 ++ 0b0010#4 ++ 0b11111#5 ++ 0b000000#6 ++ rn ++ 0b00000#5) false))
    ∧ exec (.nop o) s = .next (afterOk s 0xD503201F#32 false)

/-- R59, R78, R79, R181 to R184: the floating-point register forms, type D where none is given. -/
def Obligations.FloatingPointAppendsItsWord : Prop :=
  ∀ (s : State) (o : Operands) (ftype : BitVec 2) (rm rn rd : RegField),
    accepts s → (o.ftype.getD "D", ftype) ∈ ftypeCodes → isField o.rn rn → isField o.rd rd →
      (isField o.rm rm →
        exec (.fadd o) s = .next (afterOk s (0b00011110#8 ++ ftype ++ 1#1 ++ rm ++ 0b0010#4 ++ 0b10#2 ++ rn ++ rd) false)
        ∧ exec (.fmul o) s = .next (afterOk s (0b00011110#8 ++ ftype ++ 1#1 ++ rm ++ 0b0000#4 ++ 0b10#2 ++ rn ++ rd) false))
      ∧ exec (.fneg o) s = .next (afterOk s (0b00011110#8 ++ ftype ++ 1#1 ++ 0b000010#6 ++ 0b10000#5 ++ rn ++ rd) false)
      ∧ exec (.fmovReg o) s = .next (afterOk s (0b00011110#8 ++ ftype ++ 1#1 ++ 0b000000#6 ++ 0b10000#5 ++ rn ++ rd) false)

/-- R80, R185, R186, R253: FMOV_imm of any binary64 value completes, with the warning exactly when the value is not one of the 256. -/
def Obligations.FloatImmediateAppendsItsWord : Prop :=
  ∀ (s : State) (o : Operands) (ftype : BitVec 2) (x : DWord) (rd : RegField) (warn : Bool),
    accepts s → (o.ftype.getD "D", ftype) ∈ ftypeCodes → o.fval = some x → isField o.rd rd →
    (warn = false ↔ ∃ imm8, x = imm8ToDouble imm8) →
      exec (.fmovImm o) s
        = .next (afterOk s (0b00011110#8 ++ ftype ++ 1#1 ++ (compress x).1 ++ 0b100#3 ++ 0b00000#5 ++ rd) warn)

/-- R203: for every well-formed instruction the request procedure is the encoder written from the opcode map. -/
def Obligations.RequestsEmitTheEncodersWord : Prop :=
  ∀ (i : Instr) (s : State), accepts s → i.wellFormed = true → exec i s = .next (afterOk s (encode i) (warns i))

/-! ### Encode requests: the errors (R250 to R258) -/

/-- R251, R258: in an open session a request fails with FIELD_RANGE exactly when a read operand is outside its domain or a required one
is absent, whatever else is wrong with it. -/
def Obligations.FieldRangeExactlyWhenAnOperandIsIllegal : Prop :=
  ∀ (i : Instr) (s : State), s.phase = .opened →
    (fieldsLegal i = false ↔ exec i s = .next (afterAbort s .fieldRange .fieldRange))

/-- R252, R258: with legal fields, IMM_UNREPRESENTABLE exactly for a logical immediate whose mask has no canonical encoding. -/
def Obligations.UnrepresentableExactlyWhenCanonicalizationFails : Prop :=
  ∀ (i : Instr) (s : State), s.phase = .opened → fieldsLegal i = true →
    (exec i s = .next (afterAbort s .immUnrepresentable .immUnrepresentable) ↔
      ∃ o, (i = .andImm o ∨ i = .orrImm o ∨ i = .eorImm o ∨ i = .movBitmask o)
        ∧ canonicalize (maskOf (immOf o) (o.sf.getD 1).toNat) = none)

/-- R38, R254, R258: a request that would otherwise succeed fails with CAPACITY exactly when four more bytes exceed BUFFER_CAPACITY; never
with an unbounded buffer. -/
def Obligations.CapacityExactlyWhenTheBufferIsFull : Prop :=
  ∀ (i : Instr) (s : State), s.phase = .opened → i.wellFormed = true →
    (exec i s = .next (afterAbort s .capacity .capacity) ↔ ∃ c, s.params.bufferCapacity = some c ∧ c < s.len + 4)

/-- R256: an encode request, and FINALIZE, of a session that is not open responds SESSION_NOT_OPEN and changes nothing. -/
def Obligations.ClosedSessionsRefuseRequests : Prop :=
  ∀ (s : State), s.phase ≠ .opened →
    (∀ i, exec i s = .next { s with response := some (.encode .sessionNotOpen none false) })
    ∧ processInput .finalize s = .next { s with response := some (.finalize .sessionNotOpen none s.len) }

/-- R257: a failed encode request does exactly this; after it the bytes can be counted, cannot be finalized, no request is accepted, and
RESET opens the session again. -/
def Obligations.FailedRequestsAbortTheSession : Prop :=
  ∀ (i : Instr) (s t : State) (st : Status) (w : Option Word) (warn : Bool),
    exec i s = .next t → t.response = some (.encode st w warn) →
    (st = .fieldRange ∨ st = .immUnrepresentable ∨ st = .capacity) →
      (∃ e, errStatus e = st ∧ t = afterAbort s e st)
      ∧ (∃ v, processInput .length t = .next { t with response := some (.length .ok s.len v) })
      ∧ processInput .finalize t = .next { t with response := some (.finalize .sessionNotOpen none s.len) }
      ∧ (∀ j, exec j t = .next { t with response := some (.encode .sessionNotOpen none false) })
      ∧ ∃ u, processInput .reset t = .next u ∧ u.phase = .opened

/-- R24, R203, R205: every encode request in every state ends in a next state, and touches nothing but the block's record and the response. -/
def Obligations.RequestsTouchOnlyTheBlock : Prop :=
  ∀ (i : Instr) (s : State), ∃ b p e a r,
    exec i s = .next { s with buf := b, phase := p, err := e, approx := a, response := some r }
      ∧ s.buf <+: b ∧ (b = s.buf ∨ b.length = s.buf.length + 4)

/-! ### The session (R13 to R31, R200 to R204) -/

/-- R30, R200: RESET gives the reset state of the block in every phase and leaves everything else, the bytes handed over among it; the
machine's reset state is that state too. -/
def Obligations.ResetGivesTheResetState : Prop :=
  (∀ (s : State) (rest : List Input), issues s .reset rest →
    step s = .next { s with
      inputs := rest, buf := [], phase := .opened, err := .none, approx := false, response := some (.reset .ok) })
  ∧ (∀ s : State, s.buf = [] → s.phase = .opened → s.err = .none → s.approx = false → s.len = 0 ∧ statusView s = 0)
  ∧ State.reset.buf = [] ∧ State.reset.phase = .opened ∧ State.reset.err = .none ∧ State.reset.approx = false

/-- R201: FINALIZE of an open session freezes it and hands the whole buffer over; otherwise it is refused and changes nothing. -/
def Obligations.FinalizeFreezesAnOpenSession : Prop :=
  ∀ (s : State) (rest : List Input), issues s .finalize rest →
    (s.phase = .opened →
      step s = .next { s with
        inputs := rest, phase := .frozen, handed := s.handed ++ [s.buf], response := some (.finalize .ok (some s.buf) s.buf.length) })
    ∧ (s.phase ≠ .opened →
      step s = .next { s with inputs := rest, response := some (.finalize .sessionNotOpen none s.buf.length) })

/-- R202 with R21: LENGTH answers LEN and the STATUS view in every phase and changes nothing; the view's fields are the state's. -/
def Obligations.LengthReportsTheStatus : Prop :=
  ∀ (s : State) (rest : List Input), issues s .length rest →
    ∃ v : Word, step s = .next { s with inputs := rest, response := some (.length .ok s.buf.length v) }
      ∧ v.extractLsb' 6 26 = 0 ∧ v.getLsbD 5 = s.approx
      ∧ v.extractLsb' 0 2 = (match s.phase with | .opened => 0 | .frozen => 1 | .aborted => 2)
      ∧ v.extractLsb' 2 3
        = (match s.err with | .none => 0 | .fieldRange => 1 | .immUnrepresentable => 2 | .capacity => 3)

/-- R16: the edges of PHASE, over every step of the machine. -/
def Obligations.PhaseMovesOnlyAlongItsEdges : Prop :=
  ∀ s t : State, step s = .next t →
    t.phase = s.phase
    ∨ (∃ rest b n, issues s .finalize rest ∧ s.phase = .opened ∧ t.phase = .frozen
        ∧ t.response = some (.finalize .ok (some b) n))
    ∨ (∃ i rest st, issues s (.encode i) rest ∧ s.phase = .opened ∧ t.phase = .aborted
        ∧ t.response = some (.encode st none false) ∧ (st = .fieldRange ∨ st = .immUnrepresentable ∨ st = .capacity))
    ∨ (∃ rest, issues s .reset rest ∧ t.phase = .opened)

/-- R18: a successful FMOV_imm outside the 256 values sets APPROX, nothing else sets it, and only RESET clears it. -/
def Obligations.ApproxIsStickyUntilReset : Prop :=
  ∀ s t : State, step s = .next t →
    (∀ o x w warn rest, issues s (.encode (.fmovImm o)) rest → o.fval = some x → (¬ ∃ imm8, x = imm8ToDouble imm8) →
      t.response = some (.encode .ok w warn) → t.approx = true)
    ∧ (s.approx = false → t.approx = true →
      ∃ o x w rest, issues s (.encode (.fmovImm o)) rest ∧ o.fval = some x ∧ (¬ ∃ imm8, x = imm8ToDouble imm8)
        ∧ t.response = some (.encode .ok w true))
    ∧ (s.approx = true → t.approx = false → ∃ rest, issues s .reset rest)

/-- R14, R31, R33: over every step of the machine BUF is emptied by RESET, or gains exactly the four little-endian bytes of the word of an
encode request that ends OK, or is unchanged. -/
def Obligations.BufferOnlyGrowsByWholeWords : Prop :=
  ∀ s t : State, step s = .next t →
    (∃ rest, issues s .reset rest ∧ t.buf = [])
    ∨ (∃ i rest w warn, issues s (.encode i) rest ∧ t.response = some (.encode .ok (some w) warn)
        ∧ t.buf = s.buf ++ [w.extractLsb' 0 8, w.extractLsb' 8 8, w.extractLsb' 16 8, w.extractLsb' 24 8])
    ∨ (t.buf = s.buf
        ∧ ¬ ∃ i rest w warn, issues s (.encode i) rest ∧ t.response = some (.encode .ok w warn))

/-- R34, R39, R204 (the last derived by the spec): a sequence of well-formed requests in an open, unbounded session runs to its end, and the
buffer then holds their words in the order of issue, four bytes each. -/
def Obligations.SequencesOfRequestsFillTheBuffer : Prop :=
  ∀ (is : List Instr) (s : State) (rest : List Input),
    s.running = false → s.phase = .opened → s.params.bufferCapacity = none →
    s.inputs = is.map Input.encode ++ rest → (∀ i ∈ is, i.wellFormed = true) →
      ∃ t : State, Host.Core.run Sys2Proof.core is.length s = .next t
        ∧ t.buf = s.buf ++ is.flatMap (fun i => bytesOfWord (encode i)) ∧ t.len = s.len + 4 * is.length
        ∧ t.inputs = rest ∧ t.phase = .opened ∧ t.approx = (s.approx || is.any warns)

/-- R8, R271: no step changes BUFFER_CAPACITY. That the host's PAGE_SIZE and TARGET_HAS_FP16, which R271 says are no state of the block, stand
in one record with it, which no step changes, is the model's choice, log 5. -/
def Obligations.ParametersAreFixed : Prop :=
  ∀ s t : State, step s = .next t → t.params = s.params

/-- R44, R200, R206: what was handed over never changes again, by a later session's FINALIZE neither: that adds the whole buffer at the end. That
the machine keeps these bytes at all is the model's choice, log 13. -/
def Obligations.HandedBytesAreImmutable : Prop :=
  ∀ s t : State, step s = .next t →
    t.handed = s.handed
    ∨ (∃ rest, issues s .finalize rest ∧ s.phase = .opened ∧ t.handed = s.handed ++ [s.buf] ∧ t.buf = s.buf)

/-! ### Encoding and decoding (R51 to R85) -/

/-- R64: for every well-formed instruction, with every operand at every value its encoding admits, the word decodes to the instruction
itself, with defaults made explicit, unread fields dropped, and the pseudo-op named (R82). -/
def Obligations.DecodingReadsTheEncodingBack : Prop :=
  ∀ i : Instr, i.wellFormed = true → decodeWord (encode i) = .ok (normalize i)

/-- R81 to R83: a word that decodes is a word of a well-formed instruction in normal form, and is exactly its encoding, but for a logical
immediate, which has several encodings (R57). That the decoder accepts the others is the model's choice, log 16. -/
def Obligations.DecodedWordsAreEncodings : Prop :=
  ∀ (w : Word) (i : Instr), decodeWord w = .ok i →
    i.wellFormed = true ∧ normalize i = i
      ∧ ((∃ o, i = .andImm o ∨ i = .orrImm o ∨ i = .eorImm o ∨ i = .movBitmask o) ∨ encode i = w)

/-- R82 (derived by the spec: "No two base forms share a word"): and every word of a pseudo-op is a word of a base form. -/
def Obligations.BaseFormsShareNoWord : Prop :=
  baseRows.Pairwise (fun r q => ∀ w, ¬ (r.hits w = true ∧ q.hits w = true))
  ∧ ∀ p ∈ pseudoRows, ∃ r ∈ baseRows, ∀ w, p.hits w = true → r.hits w = true

/-- R51: packing 32 bits of fields puts each value, most significant field first, where its width says, and a value that does not fit fails. -/
def Obligations.PackPlacesEveryField : Prop :=
  ∀ fields : List (Nat × Nat), totalWidth fields = 32 →
    ((∀ p ∈ fields, p.1 < 2 ^ p.2) →
      ∃ w, pack fields = .ok w
        ∧ ∀ pre v n post, fields = pre ++ (v, n) :: post → (w.toNat / 2 ^ totalWidth post) % 2 ^ n = v)
    ∧ ((∃ p ∈ fields, 2 ^ p.2 ≤ p.1) → ∃ x, pack fields = .error (.fieldRange x))

/-- R67 to R80: words written out from the formats decode to the instructions they stand for. -/
def Obligations.WrittenOutWordsDecode : Prop :=
  decodeWord (1#1 ++ 0#1 ++ 0#1 ++ 0b100010#6 ++ 0#1 ++ 2#12 ++ 0#5 ++ 0#5)
      = .ok (.addImm { sf := some 1, sh := some 0, imm := some 2, rn := some 0, rd := some 0 })
  ∧ decodeWord (0#1 ++ 0#1 ++ 0#1 ++ 0b01011#5 ++ 0b10#2 ++ 0#1 ++ 5#5 ++ 31#6 ++ 4#5 ++ 3#5)
      = .ok (.addReg { sf := some 0, shift := some "ASR", rm := some 5, amount := some 31, rn := some 4, rd := some 3 })
  ∧ decodeWord (1#1 ++ 0b00#2 ++ 0b100100#6 ++ 1#1 ++ 0#6 ++ 0b000111#6 ++ 1#5 ++ 0#5)
      = .ok (.andImm { sf := some 1, imm := some 0xFF, rn := some 1, rd := some 0 })
  ∧ decodeWord (1#1 ++ 0b10#2 ++ 0b100101#6 ++ 0#2 ++ 41#16 ++ 1#5)
      = .ok (.movz { sf := some 1, hwShift := some 0, imm := some 41, rd := some 1 })
  ∧ decodeWord (1#1 ++ 0b00#2 ++ 0b11011#5 ++ 0b000#3 ++ 2#5 ++ 0#1 ++ 3#5 ++ 1#5 ++ 0#5)
      = .ok (.madd { sf := some 1, rm := some 2, ra := some 3, rn := some 1, rd := some 0 })
  ∧ decodeWord (0#1 ++ 0b00101#5 ++ BitVec.ofInt 26 (-4)) = .ok (.b { offset := some (-4) })
  ∧ decodeWord (0b1101011#7 ++ 0b0010#4 ++ 0b11111#5 ++ 0#6 ++ 30#5 ++ 0#5) = .ok (.ret { rn := some 30 })
  ∧ decodeWord (0b00011110#8 ++ 0b00#2 ++ 1#1 ++ 2#5 ++ 0b0010#4 ++ 0b10#2 ++ 1#5 ++ 0#5)
      = .ok (.fadd { ftype := some "S", rm := some 2, rn := some 1, rd := some 0 })
  ∧ decodeWord (0b00011110#8 ++ 0b01#2 ++ 1#1 ++ 0x70#8 ++ 0b100#3 ++ 0#5 ++ 0#5)
      = .ok (.fmovImm { ftype := some "D", fval := some 0x3FF0000000000000, rd := some 0 })

/-! ### The two compressed immediates (R57, R62, R128 to R135, R186 to R190) -/

/-- R135 (derived by the spec: "The encoding returned is the unique one with `immr < esize`"): canonicalization answers a mask's one encoding with
`immr` below the element size, and fails exactly for a mask that no fields decode to. R128 (derived by the spec: "canonicalization of a 32-bit
immediate always yields `esize <= 32` and `N = 0`"). -/
def Obligations.CanonicalizationInvertsTheDecode : Prop :=
  (∀ (m : DWord) (f : BitmaskFields),
    canonicalize m = some f ↔
      decodeBitMasks f = some m
        ∧ ∃ len, highestSetBit (f.n ++ ~~~ f.imms).toNat 7 = some len ∧ f.immr.toNat < 2 ^ len)
  ∧ (∀ m : DWord, canonicalize m = none ↔ ∀ f, decodeBitMasks f ≠ some m)
  ∧ ∀ (imm : BitVec 32) (f : BitmaskFields), canonicalize (imm ++ imm) = some f →
      f.n = 0 ∧ ∃ len, highestSetBit (f.n ++ ~~~ f.imms).toNat 7 = some len ∧ len ≤ 5

/-- R62 (derived by the spec: "checked for all 256 codes"): the value of an 8-bit immediate, the same in every type. -/
def Obligations.Imm8ExpandsToItsValue : Prop :=
  ∀ (t : FType) (imm8 : BitVec 8),
    valueOf (formatOf t) (expandImm8 (formatOf t) imm8)
      = some ((if imm8.msb then -1 else 1) * ((16 + ((imm8.extractLsb' 0 4).toNat : ℚ)) / 16)
          * (2 : ℚ) ^ ((imm8.extractLsb' 4 3).toInt + 1))

/-- R186, R189 (a) (the second derived by the spec): the 256 values compress to their own immediates, and exactly they do without the warning. -/
def Obligations.Imm8RoundTrips : Prop :=
  (∀ imm8, compress (imm8ToDouble imm8) = (imm8, false))
  ∧ ∀ x, (compress x).2 = false ↔ ∃ imm8, x = imm8ToDouble imm8

/-- R187: the immediate is read off the binary16 code: in the window the sign, the exponent less 16 in three bits and the top four fraction bits
(truncation, D28), below it 0.125, above it 31. R189 (b), (c), (e) (derived by the spec): the sign is kept; for positive values, whose codes are in
their order, the compressed value never decreases; below 0.125 in magnitude the result is 0.125, above 31 it is 31, and so it is for an
infinity and a NaN. -/
def Obligations.CompressionIsMonotoneAndSaturates : Prop :=
  (∀ x : DWord,
    let h : BitVec 16 := BitVec.ofNat 16 (toHalf x)
    let e : BitVec 5 := h.extractLsb' 10 5
    (12 ≤ e.toNat → e.toNat ≤ 19 →
      (compress x).1 = x.extractLsb' 63 1 ++ (e - 16#5).extractLsb' 0 3 ++ h.extractLsb' 6 4)
    ∧ (e.toNat < 12 → (compress x).1 = x.extractLsb' 63 1 ++ 0x40#7)
    ∧ (19 < e.toNat → (compress x).1 = x.extractLsb' 63 1 ++ 0x3F#7))
  ∧ (∀ x : DWord, compress (x ^^^ 0x8000000000000000) = ((compress x).1 ^^^ 0x80, (compress x).2))
  ∧ (∀ x y : DWord, x.toNat ≤ y.toNat → y.toNat ≤ 0x7FF0000000000000 →
    (imm8ToDouble (compress x).1).toNat ≤ (imm8ToDouble (compress y).1).toNat)
  ∧ (∀ x : DWord, x.toNat < 0x3FC0000000000000 → (compress x).1 = 0x40)
  ∧ (∀ x : DWord, 0x403F000000000000 ≤ x.toNat → x.toNat < 2 ^ 63 → (compress x).1 = 0x3F)

/-- R188: ToHalf rounds to nearest, ties to even, to infinity from 65520 on; it keeps the sign, and a NaN stays a NaN. -/
def Obligations.ToHalfRoundsToNearest : Prop :=
  ∀ x : DWord,
    (∀ v, valueOf fmtDouble x.toNat = some v → correctlyRounded fmtHalf .tieEven v (toHalf x))
    ∧ (∀ s, fmtDouble.unpack x.toNat = .inf s → fmtHalf.unpack (toHalf x) = .inf s)
    ∧ (∀ q, fmtDouble.unpack x.toNat = .nan q → ∃ q', fmtHalf.unpack (toHalf x) = .nan q')
    ∧ fmtHalf.signOf (toHalf x) = x.msb ∧ toHalf x < 2 ^ 16

/-! ### The step -/

/-- R24, log 1: the next step of `withFetchWord` runs exactly the decoded instruction, and a queued encode request is run by `exec`, taken off the
queue and with nothing else done around it. -/
def Obligations.StepRunsTheRequestedInstruction : Prop :=
  (∀ (s : State) (nbits w : Nat) (i : Instr), decodeTableWord nbits w = some i →
    step (s.withFetchWord nbits w) = exec i { s with inputs := [], running := false })
  ∧ ∀ (s : State) (i : Instr) (rest : List Input), issues s (.encode i) rest → step s = exec i { s with inputs := rest }

/-- R34, R210: when the word at pc is fetched and decodes to `i`, one step is what `i`'s word does to the registers, and control goes back to
the host exactly where a RET reaches the call's return address (R48, log 12). Nothing else changes: no word writes memory (R43). -/
def Obligations.StepRunsTheFetchedWord : Prop :=
  ∀ (s : State) (w : Word) (i : Instr),
    s.running = true → targetFetch s = .ok w → decodeWord w = .ok i →
    (s.params.targetHasFp16 = true ∨ isHalf i = false) →
      step s = .next { s with
        regs := targetExec i s.regs
        running := !(isRet i && decide ((targetExec i s.regs).pc = s.returnTo) && decide (s.returnTo.toNat % 4 = 0)) }

/-- R36, R49, R84, R278, R279: where the target cannot go on. That each is a stop, and no exception entry, and that a fetch past a buffer's LEN
is one of them, is the model's choice, log 10. -/
def Obligations.TargetStopsWhereNoWordCanRun : Prop :=
  ∀ s : State, s.running = true →
    (s.regs.pc.toNat % 4 ≠ 0 → step s = .fault .pcAlignment)
    ∧ (s.regs.pc.toNat % 4 = 0 →
      ((∀ b ∈ s.buffers, b.holds s.regs.pc.toNat = false) → step s = .fault .fetchOutsideBuffer)
      ∧ ((∃ b ∈ s.buffers, b.holds s.regs.pc.toNat = true) → (∀ b ∈ s.buffers, readyAt s.regs.pc.toNat b = false) →
        step s = .fault .executeBeforeReady)
      ∧ ∀ b ∈ s.buffers, readyAt s.regs.pc.toNat b = true →
          (Memory.fetch s.memory s.regs.pc.toNat = none → step s = .fault .fetchOutsideBuffer)
          ∧ ∀ w, Memory.fetch s.memory s.regs.pc.toNat = some w →
              (∀ e, decodeWord w = .error e → step s = .fault .undefinedInstruction)
              ∧ ∀ i, decodeWord w = .ok i → isHalf i = true → s.params.targetHasFp16 = false →
                  step s = .fault .undefinedInstruction)

/-! ### The host (R42 to R48, R273, R278) -/

/-- R45: after the load the target sees `BUF[k]` at `A + k`, every other address reads as before, and of the other placed buffers exactly those
of which a byte was overwritten are forgotten. The rest is the model's choice: the conditions on the address space and on PlatformError
(logs 13 and 14), the refusal of a second placement after the permission change (R274; log 13), the fault where the load would write to a region
after its permission change, which R278 only forbids (log 10), and the forgetting (log 20). A load of an empty buffer writes no byte and is no such
write. -/
def Obligations.LoadPlacesTheBytes : Prop :=
  ∀ (s : State) (n : Nat) (a : DWord) (bytes : List Byte) (rest : List Input),
    issues s (.host (.load n a)) rest → s.handed[n]? = some bytes → s.platformError = false → a.toNat + bytes.length ≤ 2 ^ 64 →
      (alreadyExecutable s.buffers n = true → step s = .refused .hostOrder)
      ∧ (alreadyExecutable s.buffers n = false → (∀ b ∈ s.buffers, rewritesRegion a.toNat bytes.length b = false) →
        ∃ t, step s = .next t
          ∧ (∀ k, k < bytes.length → Memory.read t.memory (a.toNat + k) = bytes[k]?)
          ∧ (∀ k, k < a.toNat ∨ a.toNat + bytes.length ≤ k → Memory.read t.memory k = Memory.read s.memory k)
          ∧ findBuffer t.buffers n = some { source := n, base := a, len := bytes.length, stage := .placed }
          ∧ (∀ b : Buffer, b.source ≠ n →
            (b ∈ t.buffers ↔ b ∈ s.buffers ∧ ¬ ∃ k, a.toNat ≤ k ∧ k < a.toNat + bytes.length
              ∧ b.base.toNat ≤ k ∧ k < b.base.toNat + b.len))
          ∧ t = { s with inputs := rest, memory := t.memory, buffers := t.buffers })
      ∧ (alreadyExecutable s.buffers n = false → (∃ b ∈ s.buffers, rewritesRegion a.toNat bytes.length b = true) →
        step s = .fault .regionRewritten)
      ∧ (bytes = [] → ∀ b ∈ s.buffers, rewritesRegion a.toNat bytes.length b = false)

/-- R46: the region is whole pages from the page of `A`, at least two, and (derived by the spec) contains the buffer; no smaller count of at
least two pages does. -/
def Obligations.RegionContainsTheBuffer : Prop :=
  ∀ p a len : Nat, 0 < p →
    (regionOf p a len).start = a - a % p
    ∧ ∃ n, (regionOf p a len).size = n * p ∧ 2 ≤ n ∧ a + len ≤ (regionOf p a len).start + n * p
        ∧ (regionOf p a len).start ≤ a
        ∧ ∀ m, 2 ≤ m → a + len ≤ (regionOf p a len).start + m * p → n ≤ m

/-- R42, R47, R255: a granted request changes the permission of the buffer's region, once, and fetch maintenance then makes it ready; a denied one is
PlatformError, after which no host action is accepted; none of these changes the block or another buffer. The refusals are the model's, log 13. -/
def Obligations.PermissionIsGrantedOnce : Prop :=
  ∀ (s : State) (n : Nat) (b : Buffer) (rest : List Input),
    s.platformError = false → findBuffer s.buffers n = some b →
      (issues s (.host (.permission n true)) rest → b.stage = .placed →
        ∃ t, step s = .next t
          ∧ findBuffer t.buffers n = some { b with stage := .permitted (regionOf s.params.pageSize b.base.toNat b.len) }
          ∧ (∀ c, c ≠ n → findBuffer t.buffers c = findBuffer s.buffers c)
          ∧ t = { s with inputs := rest, buffers := t.buffers })
      ∧ (issues s (.host (.permission n false)) rest → b.stage = .placed →
        ∃ t, step s = .next t ∧ t = { s with inputs := rest, platformError := true }
          ∧ ∀ x, hostAct x t = .refused .hostOrder ∨ hostAct x t = .refused .platformErrorFatal)
      ∧ (∀ g r, issues s (.host (.permission n g)) rest → (b.stage = .permitted r ∨ b.stage = .ready r) →
        step s = .refused .hostOrder)
      ∧ (∀ r, issues s (.host (.maintainFetch n)) rest → b.stage = .permitted r →
        ∃ t, step s = .next t ∧ findBuffer t.buffers n = some { b with stage := .ready r }
          ∧ (∀ c, c ≠ n → findBuffer t.buffers c = findBuffer s.buffers c)
          ∧ t = { s with inputs := rest, buffers := t.buffers })

/-- R48, R272, R274: a call of a ready buffer, any number of times, starts the target at `A` with the argument in X0 or D0 and the return address
in X30; every other register is what the host's call left, SP being 16-byte aligned. Before the buffer is ready it is R278's undefined case, which
the model stops with a fault (log 10); a call with another SP is refused (log 19). -/
def Obligations.CallsEnterReadyBuffersAtTheirStart : Prop :=
  ∀ (s : State) (n : Nat) (ra : DWord) (arg : CallArg) (regs : Regs) (b : Buffer) (rest : List Input),
    issues s (.host (.call n arg ra regs)) rest → s.platformError = false → findBuffer s.buffers n = some b →
      (∀ r, b.stage = .ready r →
        (regs.sp.toNat % 16 = 0 → ∃ t, step s = .next t
          ∧ t = { s with inputs := rest, regs := t.regs, running := true, returnTo := ra }
          ∧ t.regs.pc = b.base ∧ t.regs.readX 30 = ra
          ∧ (∀ v, arg = .int v → t.regs.readX 0 = v ∧ t.regs.v = regs.v)
          ∧ (∀ v, arg = .fp v → (t.regs.readV 0).extractLsb' 0 64 = v
              ∧ (t.regs.readV 0).extractLsb' 64 64 = (regs.readV 0).extractLsb' 64 64 ∧ t.regs.readX 0 = regs.readX 0)
          ∧ (∀ i, i ≠ 0 → i ≠ 30 → t.regs.readX i = regs.readX i)
          ∧ (∀ i, i ≠ 0 → t.regs.readV i = regs.readV i)
          ∧ t.regs.sp = regs.sp ∧ t.regs.nzcv = regs.nzcv ∧ t.regs.fpcr = regs.fpcr ∧ t.regs.fpsr = regs.fpsr)
        ∧ (regs.sp.toNat % 16 ≠ 0 → step s = .refused .callingConvention))
      ∧ ((∀ r, b.stage ≠ .ready r) → step s = .fault .executeBeforeReady)

/-! ### The target (R210 to R226) -/

/-- R212: AddWithCarry at every width: the sum modulo `2^w`, its sign and zero, the carry out of the unsigned sum, the signed overflow. -/
def Obligations.AddWithCarrySetsTheFlags : Prop :=
  ∀ (w : Nat) (x y : BitVec w) (c : Bool), 0 < w →
    (addWithCarry x y c).1.toNat = (x.toNat + y.toNat + c.toNat) % 2 ^ w
    ∧ (addWithCarry x y c).2.n = (addWithCarry x y c).1.getLsbD (w - 1)
    ∧ ((addWithCarry x y c).2.z = true ↔ (addWithCarry x y c).1 = 0)
    ∧ ((addWithCarry x y c).2.c = true ↔ (addWithCarry x y c).1.toNat ≠ x.toNat + y.toNat + c.toNat)
    ∧ ((addWithCarry x y c).2.c = true ↔ 2 ^ w ≤ x.toNat + y.toNat + c.toNat)
    ∧ ((addWithCarry x y c).2.v = true ↔ (addWithCarry x y c).1.toInt ≠ x.toInt + y.toInt + c.toNat)
    ∧ ((addWithCarry x y c).2.v = true ↔
        x.toInt + y.toInt + c.toNat < -(2 ^ (w - 1) : Int) ∨ (2 ^ (w - 1) : Int) ≤ x.toInt + y.toInt + c.toNat)

/-- R213: ShiftReg bit by bit, at every width and every amount below it. -/
def Obligations.ShiftRegMovesTheBits : Prop :=
  ∀ (w : Nat) (v : BitVec w) (n k : Nat), n < w → k < w →
    ((shiftReg v .lsl n).getLsbD k = (decide (n ≤ k) && v.getLsbD (k - n)))
    ∧ ((shiftReg v .lsr n).getLsbD k = v.getLsbD (k + n))
    ∧ ((shiftReg v .asr n).getLsbD k = (if k + n < w then v.getLsbD (k + n) else v.getLsbD (w - 1)))
    ∧ ((shiftReg v .ror n).getLsbD k = v.getLsbD ((k + n) % w))

/-- R214 to R216: the add, subtract and compare words, immediate, register and with carry, at both widths: SP where R60 says so, the flags
where `S = 1`. -/
def Obligations.AddSubtractWordsOnTheTarget : Prop :=
  ∀ (r : Regs) (o : Operands) (sf sh : BitVec 1) (imm12 : BitVec 12) (shift : BitVec 2) (amount : BitVec 6)
    (rm rn rd : RegField) (w : Nat),
    isFieldOr 1 o.sf sf → w = (if sf = 1 then 64 else 32) → isField o.rn rn →
      (isFieldOr 0 o.sh sh → isField o.imm imm12 →
        let op1 : BitVec w := (r.readXSp rn).setWidth w
        let imm : BitVec w := imm12.setWidth w <<< (12 * sh.toNat)
        let a := addWithCarry op1 imm false
        let d := addWithCarry op1 (~~~ imm) true
        (isField o.rd rd →
          targetExec (.addImm o) r = (r.writeXSp rd (a.1.setWidth 64)).advance
          ∧ targetExec (.subImm o) r = (r.writeXSp rd (d.1.setWidth 64)).advance
          ∧ targetExec (.addsImm o) r = (Regs.writeX { r with nzcv := a.2 } rd (a.1.setWidth 64)).advance
          ∧ targetExec (.subsImm o) r = (Regs.writeX { r with nzcv := d.2 } rd (d.1.setWidth 64)).advance)
        ∧ targetExec (.cmnImm o) r = Regs.advance { r with nzcv := a.2 }
        ∧ targetExec (.cmpImm o) r = Regs.advance { r with nzcv := d.2 })
      ∧ (isField o.rd rd →
        targetExec (.movSp o) r = (r.writeXSp rd (((r.readXSp rn).setWidth w).setWidth 64)).advance)
      ∧ (isField o.rm rm → ∀ t, (shiftName t, shift) ∈ arithShiftCodes → isShift arithShiftCodes o sf shift amount →
        let op1 : BitVec w := (r.readX rn).setWidth w
        let op2 : BitVec w := shiftReg ((r.readX rm).setWidth w) t amount.toNat
        let a := addWithCarry op1 op2 false
        let d := addWithCarry op1 (~~~ op2) true
        (isField o.rd rd →
          targetExec (.addReg o) r = (r.writeX rd (a.1.setWidth 64)).advance
          ∧ targetExec (.subReg o) r = (r.writeX rd (d.1.setWidth 64)).advance
          ∧ targetExec (.addsReg o) r = (Regs.writeX { r with nzcv := a.2 } rd (a.1.setWidth 64)).advance
          ∧ targetExec (.subsReg o) r = (Regs.writeX { r with nzcv := d.2 } rd (d.1.setWidth 64)).advance)
        ∧ targetExec (.cmnReg o) r = Regs.advance { r with nzcv := a.2 }
        ∧ targetExec (.cmpReg o) r = Regs.advance { r with nzcv := d.2 })
      ∧ (isField o.rm rm → isField o.rd rd →
        let a := addWithCarry ((r.readX rn).setWidth w : BitVec w) ((r.readX rm).setWidth w) r.nzcv.c
        targetExec (.adc o) r = (r.writeX rd (a.1.setWidth 64)).advance
        ∧ targetExec (.adcs o) r = (Regs.writeX { r with nzcv := a.2 } rd (a.1.setWidth 64)).advance)

/-- R217, R218: the logical words. The immediate of an emitted word is the request's own at `datasize` bits (R64, R135). -/
def Obligations.LogicalWordsOnTheTarget : Prop :=
  ∀ (r : Regs) (o : Operands) (sf : BitVec 1) (imm : DWord) (shift : BitVec 2) (amount : BitVec 6)
    (rm rn rd : RegField) (w : Nat),
    isFieldOr 1 o.sf sf → w = (if sf = 1 then 64 else 32) → isField o.rd rd →
      (isField o.imm imm →
        (isField o.rn rn →
          targetExec (.andImm o) r = (r.writeXSp rd ((((r.readX rn) &&& imm).setWidth w).setWidth 64)).advance
          ∧ targetExec (.orrImm o) r = (r.writeXSp rd ((((r.readX rn) ||| imm).setWidth w).setWidth 64)).advance
          ∧ targetExec (.eorImm o) r = (r.writeXSp rd ((((r.readX rn) ^^^ imm).setWidth w).setWidth 64)).advance)
        ∧ targetExec (.movBitmask o) r = (r.writeXSp rd ((imm.setWidth w).setWidth 64)).advance)
      ∧ (isField o.rm rm →
        (isField o.rn rn → ∀ t, (shiftName t, shift) ∈ logicalShiftCodes → isShift logicalShiftCodes o sf shift amount →
          let op1 : BitVec w := (r.readX rn).setWidth w
          let op2 : BitVec w := shiftReg ((r.readX rm).setWidth w) t amount.toNat
          targetExec (.andReg o) r = (r.writeX rd ((op1 &&& op2).setWidth 64)).advance
          ∧ targetExec (.orrReg o) r = (r.writeX rd ((op1 ||| op2).setWidth 64)).advance
          ∧ targetExec (.eorReg o) r = (r.writeX rd ((op1 ^^^ op2).setWidth 64)).advance)
        ∧ targetExec (.movReg o) r = (r.writeX rd (((r.readX rm).setWidth w).setWidth 64)).advance)

/-- R219: the wide moves, lane by lane: bit `k` of the register written, for `k` below `datasize`, and zero above it. -/
def Obligations.WideMovesOnTheTarget : Prop :=
  ∀ (r : Regs) (o : Operands) (sf : BitVec 1) (hw : BitVec 2) (imm16 : BitVec 16) (rd : RegField) (w : Nat),
    isFieldOr 1 o.sf sf → w = (if sf = 1 then 64 else 32) → o.hwShift.getD 0 = 16 * (hw.toNat : Int) → (sf = 0 → hw.toNat < 2) →
    isField o.imm imm16 → isField o.rd rd →
      ∃ z n m : DWord,
        targetExec (.movz o) r = (r.writeX rd z).advance
        ∧ targetExec (.movn o) r = (r.writeX rd n).advance
        ∧ targetExec (.movk o) r = (r.writeX rd m).advance
        ∧ ∀ k, let inLane := decide (16 * hw.toNat ≤ k ∧ k < 16 * hw.toNat + 16)
               let bit := inLane && imm16.getLsbD (k - 16 * hw.toNat)
               z.getLsbD k = bit
               ∧ n.getLsbD k = (decide (k < w) && !bit)
               ∧ m.getLsbD k = (if inLane then bit else decide (k < w) && (r.readX rd).getLsbD k)

/-- R220: the multiply words, modulo `2^datasize`. -/
def Obligations.MultiplyWordsOnTheTarget : Prop :=
  ∀ (r : Regs) (o : Operands) (sf : BitVec 1) (rm ra rn rd : RegField) (w : Nat),
    isFieldOr 1 o.sf sf → w = (if sf = 1 then 64 else 32) → isField o.rm rm → isField o.rn rn → isField o.rd rd →
      let p : Int := ((r.readX rn).toNat % 2 ^ w : Nat) * ((r.readX rm).toNat % 2 ^ w : Nat)
      let a : Int := ((r.readX ra).toNat % 2 ^ w : Nat)
      (isField o.ra ra →
        targetExec (.madd o) r = (r.writeX rd (BitVec.ofInt 64 ((a + p) % 2 ^ w))).advance
        ∧ targetExec (.msub o) r = (r.writeX rd (BitVec.ofInt 64 ((a - p) % 2 ^ w))).advance)
      ∧ targetExec (.mul o) r = (r.writeX rd (BitVec.ofInt 64 (p % 2 ^ w))).advance
      ∧ targetExec (.mneg o) r = (r.writeX rd (BitVec.ofInt 64 ((0 - p) % 2 ^ w))).advance

/-- R221: B adds the sign-extended byte offset to its own address, modulo `2^64`, and changes nothing else. R222: B_cond, condition by
condition on the flags, and the meaning of each condition after a CMP of `a` with `b`. -/
def Obligations.BranchWordsOnTheTarget : Prop :=
  (∀ (r : Regs) (o : Operands) (imm26 : BitVec 26), o.offset = some imm26.toInt →
    targetExec (.b o) r = { r with pc := r.pc + (imm26 ++ 0b00#2).signExtend 64 })
  ∧ (∀ (r : Regs) (o : Operands) (imm19 : BitVec 19), o.offset = some imm19.toInt →
    let go : Prop → Prop := fun p =>
      (p → targetExec (.bCond o) r = { r with pc := r.pc + (imm19 ++ 0b00#2).signExtend 64 })
      ∧ (¬ p → targetExec (.bCond o) r = { r with pc := r.pc + 4 })
    (o.cond = some "EQ" → go (r.nzcv.z = true)) ∧ (o.cond = some "NE" → go (r.nzcv.z = false))
    ∧ (o.cond = some "CS" → go (r.nzcv.c = true)) ∧ (o.cond = some "CC" → go (r.nzcv.c = false))
    ∧ (o.cond = some "MI" → go (r.nzcv.n = true)) ∧ (o.cond = some "PL" → go (r.nzcv.n = false))
    ∧ (o.cond = some "VS" → go (r.nzcv.v = true)) ∧ (o.cond = some "VC" → go (r.nzcv.v = false))
    ∧ (o.cond = some "HI" → go (r.nzcv.c = true ∧ r.nzcv.z = false))
    ∧ (o.cond = some "LS" → go (¬ (r.nzcv.c = true ∧ r.nzcv.z = false)))
    ∧ (o.cond = some "GE" → go (r.nzcv.n = r.nzcv.v)) ∧ (o.cond = some "LT" → go (r.nzcv.n ≠ r.nzcv.v))
    ∧ (o.cond = some "GT" → go (r.nzcv.z = false ∧ r.nzcv.n = r.nzcv.v))
    ∧ (o.cond = some "LE" → go (¬ (r.nzcv.z = false ∧ r.nzcv.n = r.nzcv.v))))
  ∧ ∀ (w : Nat) (a b : BitVec w), 0 < w →
    let f := (addWithCarry a (~~~ b) true).2
    (conditionHolds .eq f = true ↔ a = b) ∧ (conditionHolds .ne f = true ↔ a ≠ b)
    ∧ (conditionHolds .cs f = true ↔ b.toNat ≤ a.toNat) ∧ (conditionHolds .cc f = true ↔ a.toNat < b.toNat)
    ∧ (conditionHolds .mi f = true ↔ (a - b).toInt < 0) ∧ (conditionHolds .pl f = true ↔ 0 ≤ (a - b).toInt)
    ∧ (conditionHolds .vs f = true ↔ (a - b).toInt ≠ a.toInt - b.toInt)
    ∧ (conditionHolds .vc f = true ↔ (a - b).toInt = a.toInt - b.toInt)
    ∧ (conditionHolds .hi f = true ↔ b.toNat < a.toNat) ∧ (conditionHolds .ls f = true ↔ a.toNat ≤ b.toNat)
    ∧ (conditionHolds .ge f = true ↔ b.toInt ≤ a.toInt) ∧ (conditionHolds .lt f = true ↔ a.toInt < b.toInt)
    ∧ (conditionHolds .gt f = true ↔ b.toInt < a.toInt) ∧ (conditionHolds .le f = true ↔ a.toInt ≤ b.toInt)

/-- R223: RET goes to the register's value, to 0 for register 31; with X30 as the call left it, that gives control back to the host (the model's
reading, log 12), whatever the program did to the registers R227 tells it to preserve (the model's choice, log 22); a target that is not a
multiple of 4 faults when fetched. -/
def Obligations.ReturnWordsOnTheTarget : Prop :=
  (∀ (r : Regs) (o : Operands) (rn : RegField), isFieldOr 30 o.rn rn →
    targetExec (.ret o) r = { r with pc := r.readX rn } ∧ (rn = 31 → (targetExec (.ret o) r).pc = 0))
  ∧ (∀ (s : State) (o : Operands), isFieldOr 30 o.rn 30#5 → s.regs.readX 30 = s.returnTo → s.returnTo.toNat % 4 = 0 →
    (targetRun (.ret o) s).running = false)
  ∧ ∀ s : State, s.running = true → s.regs.pc.toNat % 4 ≠ 0 → step s = .fault .pcAlignment

/-- R224: NOP only advances pc, and every word that is not a taken branch (B, RET, B_cond with its condition holding) advances pc by 4. -/
def Obligations.NonBranchingWordsAdvance : Prop :=
  ∀ (i : Instr) (r : Regs),
    (∀ o, i = .nop o → targetExec i r = { r with pc := r.pc + 4 })
    ∧ ((∀ o, i ≠ .b o) → (∀ o, i ≠ .ret o) → (∀ o, i = .bCond o → conditionHolds (condOf o) r.nzcv = false) →
      (targetExec i r).pc = r.pc + 4)

/-- R225, R226: what the floating-point words write, as the low bits of a 128-bit register whose rest is zero: the sum or product with its
flags accumulated, the operand with its sign inverted, the operand, the expanded immediate. -/
def Obligations.FloatWordsOnTheTarget : Prop :=
  ∀ (r : Regs) (o : Operands) (t : FType) (n : Nat) (rm rn rd : RegField),
    o.ftype.getD "D" = ftypeName t → (ftypeName t, n) ∈ ftypeWidths → isField o.rd rd →
      (isField o.rn rn →
        (isField o.rm rm →
          ∀ op f, (op = Instr.fadd o ∧ f = fpAdd ∨ op = Instr.fmul o ∧ f = fpMul) →
            let res := f r.fpcr t ((r.readV rn).toNat % 2 ^ n) ((r.readV rm).toNat % 2 ^ n)
            targetExec op r
              = Regs.advance { r.writeV rd (BitVec.ofNat 128 (res.1 % 2 ^ n)) with fpsr := r.fpsr.or res.2 })
        ∧ targetExec (.fneg o) r
          = (r.writeV rd (BitVec.ofNat 128 (((r.readV rn).toNat % 2 ^ n) ^^^ 2 ^ (n - 1)))).advance
        ∧ targetExec (.fmovReg o) r = (r.writeV rd (BitVec.ofNat 128 ((r.readV rn).toNat % 2 ^ n))).advance)
      ∧ ∀ x, o.fval = some x →
        targetExec (.fmovImm o) r = (r.writeV rd (BitVec.ofNat 128 (expandImm8 (formatOf t) (compress x).1))).advance

/-- R225, with flush-to-zero off for the type (for type H that is a control of its own, log 7): FADD and FMUL of finite operands are the correctly
rounded sum and product in FPCR's mode, with the flags of that rounding (underflow before rounding: log 8) and the sign IEEE 754 gives an
exact zero; a NaN operand gives a NaN, invalid exactly when one is signalling; infinities add and multiply exactly, but for the sum of
opposite ones and the product with zero, which are invalid. That a delivered NaN is coded as a quiet one is log 9. -/
def Obligations.FloatArithmeticIsCorrectlyRounded : Prop :=
  ∀ (c : Fpcr) (t : FType) (x y : Nat), c.flushes t = false →
    let f := formatOf t
    let a := fpAdd c t x y
    let m := fpMul c t x y
    (∀ u v : ℚ, valueOf f x = some u → valueOf f y = some v →
      roundsTo f c.rmode (u + v) a
      ∧ roundsTo f c.rmode (u * v) m
      ∧ (u + v = 0 → f.signOf a.1 = (if f.signOf x = f.signOf y then f.signOf x else decide (c.rmode = .minusInf)))
      ∧ f.signOf m.1 = (f.signOf x != f.signOf y))
    ∧ ((∃ q, f.unpack x = .nan q) ∨ (∃ q, f.unpack y = .nan q) →
      let invalid := decide (f.unpack x = .nan true ∨ f.unpack y = .nan true)
      deliversNan f invalid a ∧ deliversNan f invalid m)
    ∧ (∀ s s', f.unpack x = .inf s → f.unpack y = .inf s' →
      (s = s' → deliversInf f s a) ∧ (s ≠ s' → deliversNan f true a) ∧ deliversInf f (s != s') m)
    ∧ (∀ s v, f.unpack x = .inf s → valueOf f y = some v →
      deliversInf f s a ∧ (v = 0 → deliversNan f true m) ∧ (v ≠ 0 → deliversInf f (s != f.signOf y) m))
    ∧ (∀ s u, valueOf f x = some u → f.unpack y = .inf s →
      deliversInf f s a ∧ (u = 0 → deliversNan f true m) ∧ (u ≠ 0 → deliversInf f (f.signOf x != s) m))

/-- R211: a word with `sf = 0` that writes a general register or WSP zeroes bits 63:32; a scalar floating-point write zeroes the bits above the
type's width; a write to the zero register has no effect, at either width. -/
def Obligations.NarrowWritesZeroTheRest : Prop :=
  (∀ (i : Instr) (r : Regs) (rd : RegField), i.operands.sf = some 0 → writesX i = some rd →
    (rd ≠ 31 → ((targetExec i r).readX rd).extractLsb' 32 32 = 0)
    ∧ (writesSp i = true → (targetExec i r).sp.extractLsb' 32 32 = 0))
  ∧ (∀ (i : Instr) (r : Regs), writesX i = some 31 → writesSp i = false →
    (targetExec i r).x = r.x ∧ (targetExec i r).sp = r.sp ∧ (targetExec i r).v = r.v)
  ∧ ∀ (i : Instr) (r : Regs) (rd : RegField) (n : Nat), writesV i = some rd → (ftypeName (ftypeOf i.operands), n) ∈ ftypeWidths →
    ((targetExec i r).readV rd).toNat < 2 ^ n

/-- R43, R60, R210 to R226: the frame of every word: general registers, SP, floating-point registers, flags, FPCR and FPSR change only where the
word's rule says so, and an exception flag once set stays set. -/
def Obligations.WordsChangeOnlyTheirDestinations : Prop :=
  ∀ (i : Instr) (r : Regs),
    (∀ k, writesX i ≠ some k → (targetExec i r).readX k = r.readX k)
    ∧ (writesSp i = false → (targetExec i r).sp = r.sp)
    ∧ (writesSp i = true → (targetExec i r).x = r.x)
    ∧ (∀ k, writesV i ≠ some k → (targetExec i r).readV k = r.readV k)
    ∧ (setsFlags i = false → (targetExec i r).nzcv = r.nzcv)
    ∧ (targetExec i r).fpcr = r.fpcr
    ∧ (roundsResult i = false → (targetExec i r).fpsr = r.fpsr)
    ∧ ∃ f, (targetExec i r).fpsr = r.fpsr.or f

/-! ### The whole machine -/

/-- The invariant holds at reset. -/
def Obligations.InvariantHoldsAtReset : Prop := Inv State.reset

/-- R17, R31, R44 to R46, R83: every step keeps the invariant: ERR agrees with PHASE, every word in BUF and in all bytes handed over is a word of one
of the 39 forms, memory is canonical, the target sees every placed buffer's bytes as they were handed over, and the executable regions are those
of R46. -/
def Obligations.EveryStepKeepsTheInvariant : Prop :=
  ∀ s t : State, Inv s → step s = .next t → Inv t

/-- R83, R84, R273: inside a ready buffer the target never stops but for FEAT_FP16: at every word of it the word at pc is one of a well-formed
instruction of the block, and a step runs that instruction, unless it is of type H and the core has no FEAT_FP16. -/
def Obligations.ReadyBuffersRun : Prop :=
  ∀ s : State, Inv s → s.running = true → atReadyWord s →
    ∃ w i, Memory.fetch s.memory s.regs.pc.toNat = some w ∧ decodeWord w = .ok i ∧ i.wellFormed = true
      ∧ (s.params.targetHasFp16 = true ∨ isHalf i = false → step s = .next (targetRun i s))
      ∧ (s.params.targetHasFp16 = false → isHalf i = true → step s = .fault .undefinedInstruction)

/-- R44, R47, R274, R278: over every step of the machine a buffer whose region's permission has been changed stays where it is, with that region,
ready once it was ready, and no byte of the region is written. (That the model stops a step that would break this is log 10 and log 13.) -/
def Obligations.ExecutableBuffersPersist : Prop :=
  ∀ s t : State, Inv s → step s = .next t →
    ∀ b ∈ s.buffers, ∀ r, b.stage.region = some r →
      (∃ c ∈ t.buffers, c.source = b.source ∧ c.base = b.base ∧ c.len = b.len ∧ c.stage.region = some r
        ∧ (b.stage = .ready r → c.stage = .ready r))
      ∧ ∀ a, r.start ≤ a → a < r.start + r.size → Memory.read t.memory a = Memory.read s.memory a
end

