-- ==== Sys2Proof/Laws/Memory.lean ====
section
/-! SUPPORT. Resident memory: a read after a write, and the canonical form, which every memory operation keeps. -/

namespace Sys2Proof.Machine

/-- The addresses a write of one byte lists are the ones listed before and the one written. -/
theorem mem_write_addresses (m : Memory) (a : Nat) (b : Byte) (k : Nat) :
    k ∈ (Memory.write m a b).map Prod.fst ↔ k = a ∨ k ∈ m.map Prod.fst := by
  induction m with
  | nil => simp [Memory.write]
  | cons c rest ih =>
    obtain ⟨k', c⟩ := c
    simp only [Memory.write]
    split
    · simp
    · split
      · simp_all
      · simp only [List.map_cons, List.mem_cons, ih]; tauto

/-- A byte write keeps the canonical form. -/
theorem write_wf (m : Memory) (a : Nat) (b : Byte) (h : Memory.wf m) : Memory.wf (Memory.write m a b) := by
  induction m with
  | nil => simp [Memory.wf, Memory.write]
  | cons c rest ih =>
    obtain ⟨k', c⟩ := c
    have hr : Memory.wf rest := (List.pairwise_cons.mp h).2
    have hlt : ∀ x ∈ rest.map Prod.fst, k' < x := (List.pairwise_cons.mp h).1
    simp only [Memory.write]
    split
    · rename_i hlt'
      refine List.pairwise_cons.mpr ⟨fun x hx => ?_, h⟩
      rcases List.mem_cons.mp hx with rfl | hx
      · exact hlt'
      · exact Nat.lt_trans hlt' (hlt x hx)
    · split
      · rename_i _ heq
        subst heq
        exact List.pairwise_cons.mpr ⟨hlt, hr⟩
      · refine List.pairwise_cons.mpr ⟨fun x hx => ?_, ih hr⟩
        rcases (mem_write_addresses rest a b x).mp hx with rfl | hx
        · dsimp only; omega
        · exact hlt x hx

/-- A sequence of byte writes keeps the canonical form. -/
theorem writeBytes_wf (bs : List Byte) :
    ∀ (m : Memory) (a : Nat), Memory.wf m → Memory.wf (Memory.writeBytes m a bs) := by
  induction bs with
  | nil => intro m a h; exact h
  | cons b rest ih => intro m a h; exact ih _ _ (write_wf m a b h)

/-- The memory at reset has the canonical form. -/
theorem reset_memory_wf : Memory.wf State.reset.memory := List.Pairwise.nil

/-- A byte written is read back. -/
@[simp] theorem read_write_same (m : Memory) (a : Nat) (b : Byte) : Memory.read (Memory.write m a b) a = some b := by
  induction m with
  | nil => simp [Memory.write, Memory.read]
  | cons c rest ih =>
    obtain ⟨k', c⟩ := c
    simp only [Memory.write]
    split
    · simp [Memory.read]
    · split
      · simp [Memory.read]
      · simp [Memory.read, ih, show ¬ k' = a by omega]

/-- A byte write leaves every other address as it was. -/
theorem read_write_ne (m : Memory) {a k : Nat} (b : Byte) (h : k ≠ a) :
    Memory.read (Memory.write m a b) k = Memory.read m k := by
  induction m with
  | nil => simp [Memory.write, Memory.read, Ne.symm h]
  | cons c rest ih =>
    obtain ⟨k', c⟩ := c
    simp only [Memory.write]
    split
    · simp [Memory.read, Ne.symm h]
    · split
      · rename_i _ heq; subst heq; simp [Memory.read, Ne.symm h]
      · simp [Memory.read, ih]

/-- Outside the bytes written, every address reads as before. -/
theorem read_writeBytes_outside (bs : List Byte) :
    ∀ (m : Memory) (a k : Nat), k < a ∨ a + bs.length ≤ k →
      Memory.read (Memory.writeBytes m a bs) k = Memory.read m k := by
  induction bs with
  | nil => intro m a k _; rfl
  | cons b rest ih =>
    intro m a k h
    simp only [List.length_cons] at h
    rw [Memory.writeBytes, ih _ _ _ (by omega), read_write_ne _ _ (by omega)]

/-- The `k`-th byte written is at the address plus `k` (R45). -/
theorem read_writeBytes_inside (bs : List Byte) :
    ∀ (m : Memory) (a k : Nat), k < bs.length →
      Memory.read (Memory.writeBytes m a bs) (a + k) = bs[k]? := by
  induction bs with
  | nil => intro m a k h; simp at h
  | cons b rest ih =>
    intro m a k h
    cases k with
    | zero =>
      rw [Memory.writeBytes, Nat.add_zero, read_writeBytes_outside _ _ _ _ (by omega)]
      simp
    | succ k =>
      simp only [List.length_cons] at h
      rw [Memory.writeBytes, show a + (k + 1) = a + 1 + k by omega, ih _ _ _ (by omega)]
      simp

/-- A word is read where its four bytes are. -/
theorem fetch_of_reads {m : Memory} {a : Nat} {b0 b1 b2 b3 : Byte} (h0 : Memory.read m a = some b0)
    (h1 : Memory.read m (a + 1) = some b1) (h2 : Memory.read m (a + 2) = some b2)
    (h3 : Memory.read m (a + 3) = some b3) : Memory.fetch m a = some (wordOfBytes b0 b1 b2 b3) := by
  simp [Memory.fetch, h0, h1, h2, h3]

/-- A write elsewhere leaves a fetched word as it was. -/
theorem fetch_writeBytes_outside (m : Memory) (bs : List Byte) {a k : Nat} (h : k + 4 ≤ a ∨ a + bs.length ≤ k) :
    Memory.fetch (Memory.writeBytes m a bs) k = Memory.fetch m k := by
  unfold Memory.fetch
  rw [read_writeBytes_outside bs m a k (by omega), read_writeBytes_outside bs m a (k + 1) (by omega),
    read_writeBytes_outside bs m a (k + 2) (by omega), read_writeBytes_outside bs m a (k + 3) (by omega)]

/-- The four bytes of a word, put together again, are the word (R33, R34). -/
theorem wordOfBytes_bytesOfWord (w : Word) :
    wordOfBytes (w.extractLsb' 0 8) (w.extractLsb' 8 8) (w.extractLsb' 16 8) (w.extractLsb' 24 8) = w := by
  apply BitVec.eq_of_getLsbD_eq
  intro i hi
  simp only [wordOfBytes, BitVec.getLsbD_append, BitVec.getLsbD_extractLsb']
  split
  · simp_all
  · split
    · rename_i h1 h2; simp [h2, show 8 + (i - 8) = i by omega]
    · split
      · rename_i h1 h2 h3; simp [h3, show 16 + (i - 8 - 8) = i by omega]
      · simp [show i - 8 - 8 - 8 < 8 by omega, show 24 + (i - 8 - 8 - 8) = i by omega]

/-- The decoder reads back the instruction of a word laid out as the buffer holds it. -/
theorem decode_bytesOfWord (w : Word) (rest : List Byte) :
    decode (bytesOfWord w ++ rest) =
      match decodeWord w with
      | .ok i => .ok (i, rest)
      | .error e => .error e := by
  cases h : decodeWord w <;>
    simp [bytesOfWord, decode, wordOfBytes_bytesOfWord, h]

@[simp] theorem length_bytesOfWord (w : Word) : (bytesOfWord w).length = 4 := rfl

end Sys2Proof.Machine
end

