-- ==== Sys2Proof/Laws/State.lean ====
section
/-! SUPPORT. One lemma per field of the state and per update, and per field of the target's registers and per write, all true by
unfolding, so that no later proof unfolds a record update. -/

namespace Sys2Proof.Machine

/-! ### Updates of the block (R200, R203, R257) -/

@[simp] theorem respond_buf (s : State) (r : Response) : (s.respond r).buf = s.buf := rfl
@[simp] theorem respond_phase (s : State) (r : Response) : (s.respond r).phase = s.phase := rfl
@[simp] theorem respond_err (s : State) (r : Response) : (s.respond r).err = s.err := rfl
@[simp] theorem respond_approx (s : State) (r : Response) : (s.respond r).approx = s.approx := rfl
@[simp] theorem respond_params (s : State) (r : Response) : (s.respond r).params = s.params := rfl
@[simp] theorem respond_inputs (s : State) (r : Response) : (s.respond r).inputs = s.inputs := rfl
@[simp] theorem respond_response (s : State) (r : Response) : (s.respond r).response = some r := rfl
@[simp] theorem respond_handed (s : State) (r : Response) : (s.respond r).handed = s.handed := rfl
@[simp] theorem respond_buffers (s : State) (r : Response) : (s.respond r).buffers = s.buffers := rfl
@[simp] theorem respond_platformError (s : State) (r : Response) : (s.respond r).platformError = s.platformError := rfl
@[simp] theorem respond_memory (s : State) (r : Response) : (s.respond r).memory = s.memory := rfl
@[simp] theorem respond_regs (s : State) (r : Response) : (s.respond r).regs = s.regs := rfl
@[simp] theorem respond_running (s : State) (r : Response) : (s.respond r).running = s.running := rfl
@[simp] theorem respond_returnTo (s : State) (r : Response) : (s.respond r).returnTo = s.returnTo := rfl

@[simp] theorem appendWord_buf (s : State) (w : Word) (warn : Bool) : (s.appendWord w warn).buf = s.buf ++ bytesOfWord w := rfl
@[simp] theorem appendWord_phase (s : State) (w : Word) (warn : Bool) : (s.appendWord w warn).phase = s.phase := rfl
@[simp] theorem appendWord_err (s : State) (w : Word) (warn : Bool) : (s.appendWord w warn).err = s.err := rfl
@[simp] theorem appendWord_approx (s : State) (w : Word) (warn : Bool) : (s.appendWord w warn).approx = (s.approx || warn) := rfl
@[simp] theorem appendWord_params (s : State) (w : Word) (warn : Bool) : (s.appendWord w warn).params = s.params := rfl
@[simp] theorem appendWord_inputs (s : State) (w : Word) (warn : Bool) : (s.appendWord w warn).inputs = s.inputs := rfl
@[simp] theorem appendWord_response (s : State) (w : Word) (warn : Bool) : (s.appendWord w warn).response = some (.encode .ok (some w) warn) := rfl
@[simp] theorem appendWord_handed (s : State) (w : Word) (warn : Bool) : (s.appendWord w warn).handed = s.handed := rfl
@[simp] theorem appendWord_buffers (s : State) (w : Word) (warn : Bool) : (s.appendWord w warn).buffers = s.buffers := rfl
@[simp] theorem appendWord_platformError (s : State) (w : Word) (warn : Bool) : (s.appendWord w warn).platformError = s.platformError := rfl
@[simp] theorem appendWord_memory (s : State) (w : Word) (warn : Bool) : (s.appendWord w warn).memory = s.memory := rfl
@[simp] theorem appendWord_regs (s : State) (w : Word) (warn : Bool) : (s.appendWord w warn).regs = s.regs := rfl
@[simp] theorem appendWord_running (s : State) (w : Word) (warn : Bool) : (s.appendWord w warn).running = s.running := rfl
@[simp] theorem appendWord_returnTo (s : State) (w : Word) (warn : Bool) : (s.appendWord w warn).returnTo = s.returnTo := rfl

@[simp] theorem abort_buf (s : State) (e : Err) : (s.abort e).buf = s.buf := rfl
@[simp] theorem abort_phase (s : State) (e : Err) : (s.abort e).phase = .aborted := rfl
@[simp] theorem abort_err (s : State) (e : Err) : (s.abort e).err = e := rfl
@[simp] theorem abort_approx (s : State) (e : Err) : (s.abort e).approx = s.approx := rfl
@[simp] theorem abort_params (s : State) (e : Err) : (s.abort e).params = s.params := rfl
@[simp] theorem abort_inputs (s : State) (e : Err) : (s.abort e).inputs = s.inputs := rfl
@[simp] theorem abort_response (s : State) (e : Err) : (s.abort e).response = some (.encode (errStatus e) none false) := rfl
@[simp] theorem abort_handed (s : State) (e : Err) : (s.abort e).handed = s.handed := rfl
@[simp] theorem abort_buffers (s : State) (e : Err) : (s.abort e).buffers = s.buffers := rfl
@[simp] theorem abort_platformError (s : State) (e : Err) : (s.abort e).platformError = s.platformError := rfl
@[simp] theorem abort_memory (s : State) (e : Err) : (s.abort e).memory = s.memory := rfl
@[simp] theorem abort_regs (s : State) (e : Err) : (s.abort e).regs = s.regs := rfl
@[simp] theorem abort_running (s : State) (e : Err) : (s.abort e).running = s.running := rfl
@[simp] theorem abort_returnTo (s : State) (e : Err) : (s.abort e).returnTo = s.returnTo := rfl

@[simp] theorem resetBlock_buf (s : State) : (s.resetBlock).buf = [] := rfl
@[simp] theorem resetBlock_phase (s : State) : (s.resetBlock).phase = .opened := rfl
@[simp] theorem resetBlock_err (s : State) : (s.resetBlock).err = .none := rfl
@[simp] theorem resetBlock_approx (s : State) : (s.resetBlock).approx = false := rfl
@[simp] theorem resetBlock_params (s : State) : (s.resetBlock).params = s.params := rfl
@[simp] theorem resetBlock_inputs (s : State) : (s.resetBlock).inputs = s.inputs := rfl
@[simp] theorem resetBlock_response (s : State) : (s.resetBlock).response = some (.reset .ok) := rfl
@[simp] theorem resetBlock_handed (s : State) : (s.resetBlock).handed = s.handed := rfl
@[simp] theorem resetBlock_buffers (s : State) : (s.resetBlock).buffers = s.buffers := rfl
@[simp] theorem resetBlock_platformError (s : State) : (s.resetBlock).platformError = s.platformError := rfl
@[simp] theorem resetBlock_memory (s : State) : (s.resetBlock).memory = s.memory := rfl
@[simp] theorem resetBlock_regs (s : State) : (s.resetBlock).regs = s.regs := rfl
@[simp] theorem resetBlock_running (s : State) : (s.resetBlock).running = s.running := rfl
@[simp] theorem resetBlock_returnTo (s : State) : (s.resetBlock).returnTo = s.returnTo := rfl

/-! ### Commands (R200 to R202) -/

@[simp] theorem doLength_buf (s : State) : (doLength s).buf = s.buf := rfl
@[simp] theorem doLength_phase (s : State) : (doLength s).phase = s.phase := rfl
@[simp] theorem doLength_err (s : State) : (doLength s).err = s.err := rfl
@[simp] theorem doLength_approx (s : State) : (doLength s).approx = s.approx := rfl
@[simp] theorem doLength_params (s : State) : (doLength s).params = s.params := rfl
@[simp] theorem doLength_inputs (s : State) : (doLength s).inputs = s.inputs := rfl
@[simp] theorem doLength_response (s : State) : (doLength s).response = some (.length .ok s.len (statusView s)) := rfl
@[simp] theorem doLength_handed (s : State) : (doLength s).handed = s.handed := rfl
@[simp] theorem doLength_buffers (s : State) : (doLength s).buffers = s.buffers := rfl
@[simp] theorem doLength_platformError (s : State) : (doLength s).platformError = s.platformError := rfl
@[simp] theorem doLength_memory (s : State) : (doLength s).memory = s.memory := rfl
@[simp] theorem doLength_regs (s : State) : (doLength s).regs = s.regs := rfl
@[simp] theorem doLength_running (s : State) : (doLength s).running = s.running := rfl
@[simp] theorem doLength_returnTo (s : State) : (doLength s).returnTo = s.returnTo := rfl

@[simp] theorem doReset_buf (s : State) : (doReset s).buf = [] := rfl
@[simp] theorem doReset_phase (s : State) : (doReset s).phase = .opened := rfl
@[simp] theorem doReset_err (s : State) : (doReset s).err = .none := rfl
@[simp] theorem doReset_approx (s : State) : (doReset s).approx = false := rfl
@[simp] theorem doReset_params (s : State) : (doReset s).params = s.params := rfl
@[simp] theorem doReset_inputs (s : State) : (doReset s).inputs = s.inputs := rfl
@[simp] theorem doReset_response (s : State) : (doReset s).response = some (.reset .ok) := rfl
@[simp] theorem doReset_handed (s : State) : (doReset s).handed = s.handed := rfl
@[simp] theorem doReset_buffers (s : State) : (doReset s).buffers = s.buffers := rfl
@[simp] theorem doReset_platformError (s : State) : (doReset s).platformError = s.platformError := rfl
@[simp] theorem doReset_memory (s : State) : (doReset s).memory = s.memory := rfl
@[simp] theorem doReset_regs (s : State) : (doReset s).regs = s.regs := rfl
@[simp] theorem doReset_running (s : State) : (doReset s).running = s.running := rfl
@[simp] theorem doReset_returnTo (s : State) : (doReset s).returnTo = s.returnTo := rfl

/-- R201, an open session: everything FINALIZE does. -/
theorem doFinalize_opened {s : State} (h : s.phase = .opened) :
    doFinalize s =
      { s with phase := .frozen, handed := s.handed ++ [s.buf], response := some (.finalize .ok (some s.buf) s.len) } := by
  unfold doFinalize
  rw [h]

/-- R201, a frozen or aborted session: only the response. -/
theorem doFinalize_closed {s : State} (h : s.phase ≠ .opened) :
    doFinalize s = s.respond (.finalize .sessionNotOpen none s.len) := by
  unfold doFinalize
  cases hp : s.phase <;> simp_all

@[simp] theorem doFinalize_buf (s : State) : (doFinalize s).buf = s.buf := by
  unfold doFinalize; split <;> rfl
@[simp] theorem doFinalize_err (s : State) : (doFinalize s).err = s.err := by
  unfold doFinalize; split <;> rfl
@[simp] theorem doFinalize_approx (s : State) : (doFinalize s).approx = s.approx := by
  unfold doFinalize; split <;> rfl
@[simp] theorem doFinalize_params (s : State) : (doFinalize s).params = s.params := by
  unfold doFinalize; split <;> rfl
@[simp] theorem doFinalize_inputs (s : State) : (doFinalize s).inputs = s.inputs := by
  unfold doFinalize; split <;> rfl
@[simp] theorem doFinalize_buffers (s : State) : (doFinalize s).buffers = s.buffers := by
  unfold doFinalize; split <;> rfl
@[simp] theorem doFinalize_platformError (s : State) : (doFinalize s).platformError = s.platformError := by
  unfold doFinalize; split <;> rfl
@[simp] theorem doFinalize_memory (s : State) : (doFinalize s).memory = s.memory := by
  unfold doFinalize; split <;> rfl
@[simp] theorem doFinalize_regs (s : State) : (doFinalize s).regs = s.regs := by
  unfold doFinalize; split <;> rfl
@[simp] theorem doFinalize_running (s : State) : (doFinalize s).running = s.running := by
  unfold doFinalize; split <;> rfl
@[simp] theorem doFinalize_returnTo (s : State) : (doFinalize s).returnTo = s.returnTo := by
  unfold doFinalize; split <;> rfl

/-! ### The target's run (R210) -/

@[simp] theorem targetRun_buf (i : Instr) (s : State) : (targetRun i s).buf = (s.buf) := rfl
@[simp] theorem targetRun_phase (i : Instr) (s : State) : (targetRun i s).phase = (s.phase) := rfl
@[simp] theorem targetRun_err (i : Instr) (s : State) : (targetRun i s).err = (s.err) := rfl
@[simp] theorem targetRun_approx (i : Instr) (s : State) : (targetRun i s).approx = (s.approx) := rfl
@[simp] theorem targetRun_params (i : Instr) (s : State) : (targetRun i s).params = (s.params) := rfl
@[simp] theorem targetRun_inputs (i : Instr) (s : State) : (targetRun i s).inputs = (s.inputs) := rfl
@[simp] theorem targetRun_response (i : Instr) (s : State) : (targetRun i s).response = (s.response) := rfl
@[simp] theorem targetRun_handed (i : Instr) (s : State) : (targetRun i s).handed = (s.handed) := rfl
@[simp] theorem targetRun_buffers (i : Instr) (s : State) : (targetRun i s).buffers = (s.buffers) := rfl
@[simp] theorem targetRun_platformError (i : Instr) (s : State) : (targetRun i s).platformError = (s.platformError) := rfl
@[simp] theorem targetRun_memory (i : Instr) (s : State) : (targetRun i s).memory = (s.memory) := rfl
@[simp] theorem targetRun_regs (i : Instr) (s : State) : (targetRun i s).regs = (targetExec i s.regs) := rfl
@[simp] theorem targetRun_running (i : Instr) (s : State) : (targetRun i s).running = (!returns i s) := rfl
@[simp] theorem targetRun_returnTo (i : Instr) (s : State) : (targetRun i s).returnTo = (s.returnTo) := rfl

/-! ### The target's registers: what a write leaves alone (R210, R211) -/

@[simp] theorem writeX_sp (r : Regs) (i : RegField) (a : DWord) : (r.writeX i a).sp = r.sp := by
  unfold Regs.writeX; split <;> rfl
@[simp] theorem writeX_v (r : Regs) (i : RegField) (a : DWord) : (r.writeX i a).v = r.v := by
  unfold Regs.writeX; split <;> rfl
@[simp] theorem writeX_nzcv (r : Regs) (i : RegField) (a : DWord) : (r.writeX i a).nzcv = r.nzcv := by
  unfold Regs.writeX; split <;> rfl
@[simp] theorem writeX_pc (r : Regs) (i : RegField) (a : DWord) : (r.writeX i a).pc = r.pc := by
  unfold Regs.writeX; split <;> rfl
@[simp] theorem writeX_fpcr (r : Regs) (i : RegField) (a : DWord) : (r.writeX i a).fpcr = r.fpcr := by
  unfold Regs.writeX; split <;> rfl
@[simp] theorem writeX_fpsr (r : Regs) (i : RegField) (a : DWord) : (r.writeX i a).fpsr = r.fpsr := by
  unfold Regs.writeX; split <;> rfl
@[simp] theorem writeXSp_v (r : Regs) (i : RegField) (a : DWord) : (r.writeXSp i a).v = r.v := by
  unfold Regs.writeXSp; split <;> rfl
@[simp] theorem writeXSp_nzcv (r : Regs) (i : RegField) (a : DWord) : (r.writeXSp i a).nzcv = r.nzcv := by
  unfold Regs.writeXSp; split <;> rfl
@[simp] theorem writeXSp_pc (r : Regs) (i : RegField) (a : DWord) : (r.writeXSp i a).pc = r.pc := by
  unfold Regs.writeXSp; split <;> rfl
@[simp] theorem writeXSp_fpcr (r : Regs) (i : RegField) (a : DWord) : (r.writeXSp i a).fpcr = r.fpcr := by
  unfold Regs.writeXSp; split <;> rfl
@[simp] theorem writeXSp_fpsr (r : Regs) (i : RegField) (a : DWord) : (r.writeXSp i a).fpsr = r.fpsr := by
  unfold Regs.writeXSp; split <;> rfl
@[simp] theorem writeV_x (r : Regs) (i : RegField) (a : QWord) : (r.writeV i a).x = r.x := rfl
@[simp] theorem writeFp_x (r : Regs) (t : FType) (i : RegField) (a : Nat) : (r.writeFp t i a).x = r.x := rfl
@[simp] theorem setFlags_x (r : Regs) (b : Bool) (n : Nzcv) : (r.setFlags b n).x = r.x := by
  unfold Regs.setFlags; split <;> rfl
@[simp] theorem advance_x (r : Regs) : r.advance.x = r.x := rfl
@[simp] theorem branchBy_x (r : Regs) (k : Int) : (r.branchBy k).x = r.x := rfl
@[simp] theorem writeV_sp (r : Regs) (i : RegField) (a : QWord) : (r.writeV i a).sp = r.sp := rfl
@[simp] theorem writeFp_sp (r : Regs) (t : FType) (i : RegField) (a : Nat) : (r.writeFp t i a).sp = r.sp := rfl
@[simp] theorem setFlags_sp (r : Regs) (b : Bool) (n : Nzcv) : (r.setFlags b n).sp = r.sp := by
  unfold Regs.setFlags; split <;> rfl
@[simp] theorem advance_sp (r : Regs) : r.advance.sp = r.sp := rfl
@[simp] theorem branchBy_sp (r : Regs) (k : Int) : (r.branchBy k).sp = r.sp := rfl
@[simp] theorem setFlags_v (r : Regs) (b : Bool) (n : Nzcv) : (r.setFlags b n).v = r.v := by
  unfold Regs.setFlags; split <;> rfl
@[simp] theorem advance_v (r : Regs) : r.advance.v = r.v := rfl
@[simp] theorem branchBy_v (r : Regs) (k : Int) : (r.branchBy k).v = r.v := rfl
@[simp] theorem writeV_nzcv (r : Regs) (i : RegField) (a : QWord) : (r.writeV i a).nzcv = r.nzcv := rfl
@[simp] theorem writeFp_nzcv (r : Regs) (t : FType) (i : RegField) (a : Nat) : (r.writeFp t i a).nzcv = r.nzcv := rfl
@[simp] theorem advance_nzcv (r : Regs) : r.advance.nzcv = r.nzcv := rfl
@[simp] theorem branchBy_nzcv (r : Regs) (k : Int) : (r.branchBy k).nzcv = r.nzcv := rfl
@[simp] theorem writeV_pc (r : Regs) (i : RegField) (a : QWord) : (r.writeV i a).pc = r.pc := rfl
@[simp] theorem writeFp_pc (r : Regs) (t : FType) (i : RegField) (a : Nat) : (r.writeFp t i a).pc = r.pc := rfl
@[simp] theorem setFlags_pc (r : Regs) (b : Bool) (n : Nzcv) : (r.setFlags b n).pc = r.pc := by
  unfold Regs.setFlags; split <;> rfl
@[simp] theorem writeV_fpcr (r : Regs) (i : RegField) (a : QWord) : (r.writeV i a).fpcr = r.fpcr := rfl
@[simp] theorem writeFp_fpcr (r : Regs) (t : FType) (i : RegField) (a : Nat) : (r.writeFp t i a).fpcr = r.fpcr := rfl
@[simp] theorem setFlags_fpcr (r : Regs) (b : Bool) (n : Nzcv) : (r.setFlags b n).fpcr = r.fpcr := by
  unfold Regs.setFlags; split <;> rfl
@[simp] theorem advance_fpcr (r : Regs) : r.advance.fpcr = r.fpcr := rfl
@[simp] theorem branchBy_fpcr (r : Regs) (k : Int) : (r.branchBy k).fpcr = r.fpcr := rfl
@[simp] theorem writeV_fpsr (r : Regs) (i : RegField) (a : QWord) : (r.writeV i a).fpsr = r.fpsr := rfl
@[simp] theorem writeFp_fpsr (r : Regs) (t : FType) (i : RegField) (a : Nat) : (r.writeFp t i a).fpsr = r.fpsr := rfl
@[simp] theorem setFlags_fpsr (r : Regs) (b : Bool) (n : Nzcv) : (r.setFlags b n).fpsr = r.fpsr := by
  unfold Regs.setFlags; split <;> rfl
@[simp] theorem advance_fpsr (r : Regs) : r.advance.fpsr = r.fpsr := rfl
@[simp] theorem branchBy_fpsr (r : Regs) (k : Int) : (r.branchBy k).fpsr = r.fpsr := rfl
@[simp] theorem advance_pc (r : Regs) : r.advance.pc = r.pc + 4 := rfl
@[simp] theorem branchBy_pc (r : Regs) (k : Int) : (r.branchBy k).pc = r.pc + BitVec.ofInt 64 (4 * k) := rfl
@[simp] theorem setFlags_true_nzcv (r : Regs) (n : Nzcv) : (r.setFlags true n).nzcv = n := rfl
@[simp] theorem setFlags_false (r : Regs) (n : Nzcv) : r.setFlags false n = r := rfl

end Sys2Proof.Machine
end

