-- ==== Sys2Proof/Laws/Host.lean ====
section
/-! SUPPORT. What each action of the host can do, said once (R42, R45 to R48, R273). -/

namespace Sys2Proof.Machine

/-- The buffer found for a source is one of the placed buffers and is of that source. -/
theorem findBuffer_some {bs : List Buffer} {n : Nat} {b : Buffer} (h : findBuffer bs n = some b) :
    b ∈ bs ∧ b.source = n := by
  refine ⟨List.mem_of_find?_eq_some h, ?_⟩
  have := List.find?_some h
  simpa using this

/-- With no source placed twice, a placed buffer is the one found for its source. -/
theorem findBuffer_of_mem {bs : List Buffer} {b : Buffer} (hn : (bs.map Buffer.source).Nodup) (hb : b ∈ bs) :
    findBuffer bs b.source = some b := by
  induction bs with
  | nil => cases hb
  | cons c cs ih =>
    simp only [List.map_cons, List.nodup_cons] at hn
    rcases List.mem_cons.mp hb with rfl | hb
    · simp [findBuffer]
    · have hne : c.source ≠ b.source := fun h => hn.1 (h ▸ List.mem_map_of_mem hb)
      simpa [findBuffer, hne] using ih hn.2 hb

/-- Two ranges share a byte exactly when some address lies in both. -/
theorem overlaps_iff {a len b n : Nat} :
    overlaps a len b n = true ↔ ∃ k, a ≤ k ∧ k < a + len ∧ b ≤ k ∧ k < b + n := by
  simp only [overlaps, decide_eq_true_eq]
  exact ⟨fun h => ⟨max a b, by omega⟩, fun ⟨k, h⟩ => by omega⟩

/-- An empty range shares no byte with another. -/
@[simp] theorem overlaps_empty (a b n : Nat) : overlaps a 0 b n = false := by
  simp [overlaps]

/-- R46: the region contains the buffer. -/
theorem regionOf_contains {p : Nat} (hp : 0 < p) (a len : Nat) :
    (regionOf p a len).start ≤ a ∧ a + len ≤ (regionOf p a len).start + (regionOf p a len).size := by
  unfold regionOf
  dsimp only
  have hd := Nat.div_add_mod (a + len - (a - a % p) + p - 1) p
  have hm := Nat.mod_lt (a + len - (a - a % p) + p - 1) hp
  have hle : (a + len - (a - a % p) + p - 1) / p * p ≤ max 2 ((a + len - (a - a % p) + p - 1) / p) * p :=
    Nat.mul_le_mul_right _ (Nat.le_max_right _ _)
  rw [Nat.mul_comm] at hd
  omega

/-- A stage change moves no buffer. -/
@[simp] theorem setStage_sources (bs : List Buffer) (n : Nat) (st : Stage) :
    (setStage bs n st).map Buffer.source = bs.map Buffer.source := by
  unfold setStage
  rw [List.map_map]
  refine List.map_congr_left fun b _ => ?_
  dsimp only [Function.comp]
  split <;> rfl

/-- The buffers after a stage change. -/
theorem mem_setStage {bs : List Buffer} {n : Nat} {st : Stage} {b : Buffer} :
    b ∈ setStage bs n st ↔ ∃ b0 ∈ bs, b = if b0.source = n then { b0 with stage := st } else b0 := by
  simp [setStage, eq_comm]

/-- The buffer found for a source after a stage change. -/
theorem findBuffer_setStage (bs : List Buffer) (n : Nat) (st : Stage) (c : Nat) :
    findBuffer (setStage bs n st) c
      = (findBuffer bs c).map fun b => if b.source = n then { b with stage := st } else b := by
  induction bs with
  | nil => rfl
  | cons b bs ih =>
    simp only [setStage, findBuffer, List.map_cons] at ih ⊢
    by_cases hn : b.source = n <;> by_cases hc : b.source = c <;> simp_all

/-- R45, R273 step 4: a load that goes on. -/
theorem hostLoad_next {n : Nat} {a : DWord} {s t : State} (h : hostLoad n a s = .next t) :
    ∃ bytes, s.handed[n]? = some bytes ∧ s.platformError = false ∧ alreadyExecutable s.buffers n = false
      ∧ a.toNat + bytes.length ≤ 2 ^ 64
      ∧ s.buffers.any (rewritesRegion a.toNat bytes.length) = false
      ∧ t = { s with
          buffers := { source := n, base := a, len := bytes.length, stage := .placed }
            :: s.buffers.filter (survives n a.toNat bytes.length)
          memory := Memory.writeBytes s.memory a.toNat bytes } := by
  unfold hostLoad at h
  split at h
  · cases h
  · rename_i bytes hb
    split at h
    · cases h
    · split at h
      · cases h
      · split at h
        · cases h
        · split at h
          · cases h
          · rename_i h1 h2 h3 h4
            cases h
            exact ⟨bytes, hb, by simpa using h1, by simpa using h2, by omega, by simpa using h4, rfl⟩

/-- R46, R47, R273 step 5: a permission request that goes on. -/
theorem hostPermission_next {n : Nat} {granted : Bool} {s t : State} (h : hostPermission n granted s = .next t) :
    s.platformError = false ∧ ∃ b, findBuffer s.buffers n = some b ∧ b.stage = .placed
      ∧ t = if granted then
          { s with buffers := setStage s.buffers n (.permitted (regionOf s.params.pageSize b.base.toNat b.len)) }
        else { s with platformError := true } := by
  unfold hostPermission at h
  split at h
  · cases h
  · rename_i hp
    split at h
    · cases h
    · rename_i b hb
      split at h
      · rename_i hs
        refine ⟨by simpa using hp, b, hb, hs, ?_⟩
        split at h <;> cases h <;> simp_all
      · cases h
      · cases h

/-- R42, R273 step 6: fetch maintenance that goes on. -/
theorem hostMaintainFetch_next {n : Nat} {s t : State} (h : hostMaintainFetch n s = .next t) :
    s.platformError = false ∧ ∃ b r, findBuffer s.buffers n = some b ∧ (b.stage = .permitted r ∨ b.stage = .ready r)
      ∧ t = { s with buffers := setStage s.buffers n (.ready r) } := by
  unfold hostMaintainFetch at h
  split at h
  · cases h
  · rename_i hp
    split at h
    · cases h
    · rename_i b hb
      split at h
      · rename_i r hs; cases h; exact ⟨by simpa using hp, b, r, hb, .inl hs, rfl⟩
      · rename_i r hs; cases h; exact ⟨by simpa using hp, b, r, hb, .inr hs, rfl⟩
      · cases h

/-- R48, R272, R273 step 7: a call that goes on. -/
theorem hostCall_next {n : Nat} {arg : CallArg} {ra : DWord} {regs : Regs} {s t : State}
    (h : hostCall n arg ra regs s = .next t) :
    s.platformError = false ∧ regs.sp.toNat % 16 = 0
      ∧ ∃ b r, findBuffer s.buffers n = some b ∧ b.stage = .ready r
        ∧ t = { s with regs := entryRegs arg ra b.base regs, running := true, returnTo := ra } := by
  unfold hostCall at h
  split at h
  · cases h
  · rename_i hp
    split at h
    · cases h
    · rename_i b hb
      split at h
      · cases h
      · cases h
      · rename_i r hs
        split at h
        · cases h
        · rename_i hsp
          cases h
          exact ⟨by simpa using hp, by omega, b, r, hb, hs, rfl⟩

/-- The host changes no state of the block and no parameter (R44, R255, R271). -/
theorem hostAct_frame {x : HostAction} {s t : State} (h : hostAct x s = .next t) :
    t.buf = s.buf ∧ t.phase = s.phase ∧ t.err = s.err ∧ t.approx = s.approx ∧ t.params = s.params
      ∧ t.inputs = s.inputs ∧ t.response = s.response ∧ t.handed = s.handed := by
  cases x with
  | load n a => obtain ⟨_, _, _, _, _, _, rfl⟩ := hostLoad_next h; exact ⟨rfl, rfl, rfl, rfl, rfl, rfl, rfl, rfl⟩
  | permission n g =>
    obtain ⟨_, _, _, _, rfl⟩ := hostPermission_next h
    cases g <;> exact ⟨rfl, rfl, rfl, rfl, rfl, rfl, rfl, rfl⟩
  | maintainFetch n => obtain ⟨_, _, _, _, _, rfl⟩ := hostMaintainFetch_next h; exact ⟨rfl, rfl, rfl, rfl, rfl, rfl, rfl, rfl⟩
  | call n arg ra regs => obtain ⟨_, _, _, _, _, _, rfl⟩ := hostCall_next h; exact ⟨rfl, rfl, rfl, rfl, rfl, rfl, rfl, rfl⟩

end Sys2Proof.Machine
end

