-- ==== Sys2Proof/Laws/Operands.lean ====
section
/-! SUPPORT. Each operand check of an encode request says what R251's list says: the value where the operand is legal,
FieldRangeError where it is not. -/

namespace Sys2Proof.Machine

@[simp] theorem required_some {α : Type} (n : String) (v : α) : required n (some v) = .ok v := rfl
@[simp] theorem required_none {α : Type} (n : String) : required n (none : Option α) = .error (.fieldRange n) := rfl

/-- A range check on a present integer. -/
theorem inRange_eq (n : String) (lo hi v : Int) :
    inRange n lo hi v = if legalInt lo hi (some v) then .ok v.toNat else .error (.fieldRange n) := by
  simp [inRange, legalInt]

/-- R53. -/
theorem checkReg_eq (n : String) (x : Option Int) :
    checkReg n x = if legalReg x then .ok (x.getD 0).toNat else .error (.fieldRange n) := by
  cases x with
  | none => rfl
  | some v => exact inRange_eq n 0 31 v

/-- R54. -/
theorem checkSf_eq (o : Operands) :
    checkSf o.sf = if legalSf o then .ok (o.sf.getD 1).toNat else .error (.fieldRange "sf") := by
  unfold checkSf legalSf legalIntOpt
  cases o.sf with
  | none => rfl
  | some v => exact inRange_eq "sf" 0 1 v

/-- R9, R100. -/
theorem checkSh_eq (o : Operands) :
    checkSh o.sh = if legalIntOpt 0 1 o.sh then .ok (o.sh.getD 0).toNat else .error (.fieldRange "sh") := by
  unfold checkSh legalIntOpt
  cases o.sh with
  | none => rfl
  | some v => exact inRange_eq "sh" 0 1 v

/-- A required immediate. -/
theorem checkImm_eq (hi : Int) (o : Operands) :
    checkImm hi o.imm = if legalInt 0 hi o.imm then .ok (immOf o) else .error (.fieldRange "imm") := by
  unfold checkImm immOf
  cases o.imm with
  | none => rfl
  | some v => exact inRange_eq "imm" 0 hi v

/-- A legal width selector is 0 or 1, as `sf = 0` is asked for or not. -/
theorem sf_of_legal {o : Operands} (h : legalSf o = true) :
    (o.sf.getD 1).toNat = if is32 o then 0 else 1 := by
  unfold legalSf legalIntOpt legalInt at h
  unfold is32
  cases hs : o.sf with
  | none => simp
  | some v =>
    rw [hs] at h
    simp only [Option.isNone_some, Bool.false_or, Bool.and_eq_true, decide_eq_true_eq] at h
    obtain rfl | rfl : v = 0 ∨ v = 1 := by omega
    · rfl
    · rfl

/-- R105, R124. -/
theorem checkAmount_eq (o : Operands) :
    checkAmount (if is32 o then 0 else 1) o.amount =
      if legalAmount o then .ok (amountOf o) else .error (.fieldRange "amount") := by
  unfold checkAmount legalAmount amountOf legalIntOpt
  cases o.amount with
  | none => cases is32 o <;> rfl
  | some v => cases is32 o <;> exact inRange_eq "amount" 0 _ v

/-- R110. -/
theorem checkNoShift_eq (x : Option String) :
    checkNoShift x = if x.isNone || decide (x = some "LSL") then .ok () else .error (.fieldRange "shift") := by
  cases x <;> simp [checkNoShift]

/-- R110. -/
theorem checkNoAmount_eq (x : Option Int) :
    checkNoAmount x = if x.isNone || decide (x = some 0) then .ok () else .error (.fieldRange "amount") := by
  cases x <;> simp [checkNoAmount]

/-- R61, R143. -/
theorem checkHwShift_eq (o : Operands) :
    checkHwShift (if is32 o then 0 else 1) o.hwShift =
      if legalLane o then .ok ((o.hwShift.getD 0) / 16).toNat else .error (.fieldRange "hw_shift") := by
  unfold checkHwShift legalLane laneShifts
  cases o.hwShift with
  | none => cases is32 o <;> rfl
  | some v => cases is32 o <;> simp

/-- A shift name is one of the four of R56, or none. -/
theorem shiftOfName_eq (n : String) :
    shiftOfName n =
      if n = "LSL" then some .lsl else if n = "LSR" then some .lsr
      else if n = "ASR" then some .asr else if n = "ROR" then some .ror else none := by
  by_cases h1 : n = "LSL"
  · subst h1; rfl
  · by_cases h2 : n = "LSR"
    · subst h2; rfl
    · by_cases h3 : n = "ASR"
      · subst h3; rfl
      · by_cases h4 : n = "ROR"
        · subst h4; rfl
        · simp [shiftOfName, allShifts, shiftName, h1, h2, h3, h4, Ne.symm h1, Ne.symm h2, Ne.symm h3, Ne.symm h4]

/-- R56, the logical forms. -/
theorem checkShift_logical (o : Operands) :
    checkShift true o.shift = if legalShift logicalShifts o then .ok (shiftOf o) else .error (.fieldRange "shift") := by
  unfold checkShift legalShift shiftOf logicalShifts
  cases o.shift with
  | none => rfl
  | some n =>
    by_cases h1 : n = "LSL"
    · subst h1; rfl
    · by_cases h2 : n = "LSR"
      · subst h2; rfl
      · by_cases h3 : n = "ASR"
        · subst h3; rfl
        · by_cases h4 : n = "ROR"
          · subst h4; rfl
          · simp [shiftOfName_eq, h1, h2, h3, h4]

/-- R56, the arithmetic forms: ROR is refused. -/
theorem checkShift_arith (o : Operands) :
    checkShift false o.shift = if legalShift arithShifts o then .ok (shiftOf o) else .error (.fieldRange "shift") := by
  unfold checkShift legalShift shiftOf arithShifts
  cases o.shift with
  | none => rfl
  | some n =>
    by_cases h1 : n = "LSL"
    · subst h1; rfl
    · by_cases h2 : n = "LSR"
      · subst h2; rfl
      · by_cases h3 : n = "ASR"
        · subst h3; rfl
        · by_cases h4 : n = "ROR"
          · subst h4; simp [shiftOfName_eq]
          · simp [shiftOfName_eq, h1, h2, h3, h4]

/-- R59. -/
theorem checkFtype_eq (o : Operands) :
    checkFtype o.ftype = if legalFtype o then .ok (ftypeOf o) else .error (.fieldRange "ftype") := by
  unfold checkFtype legalFtype ftypeOf
  cases o.ftype with
  | none => rfl
  | some n =>
    by_cases h1 : n = "H"
    · subst h1; rfl
    · by_cases h2 : n = "S"
      · subst h2; rfl
      · by_cases h3 : n = "D"
        · subst h3; rfl
        · simp [ftypeOfName, allFTypes, ftypeName, h1, h2, h3, Ne.symm h1, Ne.symm h2, Ne.symm h3]

/-- A condition name stands for a condition exactly when it is one of the 14 of R58. -/
theorem condOfName_isSome (n : String) :
    (condOfName n).isSome =
      ["EQ", "NE", "CS", "CC", "MI", "PL", "VS", "VC", "HI", "LS", "GE", "LT", "GT", "LE"].contains n := by
  unfold condOfName
  rw [Bool.eq_iff_iff, List.find?_isSome]
  have flip : ∀ a : String, (a = n) = (n = a) := fun _ => propext eq_comm
  simp [allConds, condName, flip]

/-- R58. -/
theorem checkCond_eq (o : Operands) :
    checkCond o.cond = if legalCond o then .ok (condOf o) else .error (.fieldRange "cond") := by
  unfold checkCond legalCond condOf
  cases h : o.cond with
  | none => rfl
  | some n =>
    have := condOfName_isSome n
    simp only [Option.bind_some]
    rw [← this]
    cases condOfName n <;> rfl

/-- R55. -/
theorem checkOffset_eq (w : Nat) (x : Option Int) :
    checkOffset w x =
      if legalInt (-(2 ^ (w - 1) : Int)) (2 ^ (w - 1) - 1) x then .ok ((x.getD 0) % 2 ^ w).toNat
      else .error (.fieldRange "offset") := by
  cases x with
  | none => rfl
  | some v => simp [checkOffset, legalInt, bind, Except.bind]

/-- R51: fields that fit pack into their sum. -/
theorem pack_ok {fields : List (Nat × Nat)} (h : ∀ p ∈ fields, p.1 < 2 ^ p.2) :
    pack fields = .ok (BitVec.ofNat 32 (packSum fields)) := by
  unfold pack
  rw [if_pos (by simpa [List.all_eq_true] using h)]

end Sys2Proof.Machine
end

