-- ==== Sys2Proof/Laws/Registers.lean ====
section
/-! SUPPORT. The target's registers: what a write leaves to a later read (R60, R210, R211). -/

namespace Sys2Proof.Machine

/-- Reading the zero register gives 0 (R210). -/
@[simp] theorem readX_zr (r : Regs) : r.readX 31 = 0 := rfl

/-- Index 31 of a stack-pointer field is SP (R60). -/
@[simp] theorem readXSp_sp (r : Regs) : r.readXSp 31 = r.sp := rfl

/-- A write to the zero register has no effect (R211). -/
@[simp] theorem writeX_zr (r : Regs) (v : DWord) : r.writeX 31 v = r := rfl

/-- A write to index 31 of a stack-pointer field writes SP (R60). -/
@[simp] theorem writeXSp_sp (r : Regs) (v : DWord) : r.writeXSp 31 v = { r with sp := v } := rfl

theorem lt_of_ne_zr {i : RegField} (h : i ≠ 31) : i.toNat < 31 := by
  have h2 : i.toNat ≠ 31 := fun hc => h (BitVec.eq_of_toNat_eq hc)
  have := i.isLt
  omega

/-- Away from index 31 a stack-pointer field names the same register. -/
theorem readXSp_ne {i : RegField} (r : Regs) (h : i ≠ 31) : r.readXSp i = r.readX i := by
  simp [Regs.readXSp, Regs.readX, lt_of_ne_zr h]

theorem writeXSp_ne {i : RegField} (r : Regs) (v : DWord) (h : i ≠ 31) : r.writeXSp i v = r.writeX i v := by
  simp [Regs.writeXSp, Regs.writeX, lt_of_ne_zr h]

/-- A general register reads back what was written. -/
theorem readX_writeX_same {i : RegField} (r : Regs) (v : DWord) (h : i ≠ 31) : (r.writeX i v).readX i = v := by
  simp [Regs.readX, Regs.writeX, lt_of_ne_zr h]

/-- A write leaves every other general register alone. -/
theorem readX_writeX_ne {i j : RegField} (r : Regs) (v : DWord) (h : j ≠ i) : (r.writeX i v).readX j = r.readX j := by
  have hn : i.toNat ≠ j.toNat := fun hc => h (BitVec.eq_of_toNat_eq hc.symm)
  unfold Regs.readX Regs.writeX
  split
  · split
    · simp [hn]
    · rfl
  · rfl

/-- Writing SP leaves the general registers alone. -/
theorem readX_sp (r : Regs) (v : DWord) (j : RegField) : Regs.readX { r with sp := v } j = r.readX j := rfl

/-- A write through a stack-pointer field leaves every other general register alone. -/
theorem readX_writeXSp_ne {i j : RegField} (r : Regs) (v : DWord) (h : j ≠ i) :
    (r.writeXSp i v).readX j = r.readX j := by
  by_cases hi : i = 31
  · subst hi; rfl
  · rw [writeXSp_ne _ _ hi, readX_writeX_ne _ _ h]

/-- A floating-point register reads back what was written. -/
@[simp] theorem readV_writeV_same (r : Regs) (i : RegField) (v : QWord) : (r.writeV i v).readV i = v := by
  simp [Regs.readV, Regs.writeV]

/-- A write leaves every other floating-point register alone. -/
theorem readV_writeV_ne {i j : RegField} (r : Regs) (v : QWord) (h : j ≠ i) : (r.writeV i v).readV j = r.readV j := by
  have hn : i.toNat ≠ j.toNat := fun hc => h (BitVec.eq_of_toNat_eq hc.symm)
  simp [Regs.readV, Regs.writeV, hn]

/-- A scalar write leaves the value in the low bits and zeroes the rest (R211). -/
@[simp] theorem readV_writeFp_same (r : Regs) (t : FType) (i : RegField) (v : Nat) :
    (r.writeFp t i v).readV i = BitVec.ofNat 128 (v % 2 ^ (formatOf t).width) :=
  readV_writeV_same r i _

/-- A scalar write leaves every other floating-point register alone. -/
theorem readV_writeFp_ne {i j : RegField} (r : Regs) (t : FType) (v : Nat) (h : j ≠ i) :
    (r.writeFp t i v).readV j = r.readV j :=
  readV_writeV_ne r _ h

/-- Setting the flags or moving pc changes no register a word can name. -/
@[simp] theorem readX_setFlags (r : Regs) (b : Bool) (f : Nzcv) (i : RegField) : (r.setFlags b f).readX i = r.readX i := by
  unfold Regs.readX; simp
@[simp] theorem readV_setFlags (r : Regs) (b : Bool) (f : Nzcv) (i : RegField) : (r.setFlags b f).readV i = r.readV i := by
  unfold Regs.readV; simp
@[simp] theorem readX_advance (r : Regs) (i : RegField) : r.advance.readX i = r.readX i := rfl
@[simp] theorem readV_advance (r : Regs) (i : RegField) : r.advance.readV i = r.readV i := rfl
@[simp] theorem readX_writeFp (r : Regs) (t : FType) (i j : RegField) (v : Nat) : (r.writeFp t i v).readX j = r.readX j := rfl
@[simp] theorem readV_writeX (r : Regs) (i j : RegField) (v : DWord) : (r.writeX i v).readV j = r.readV j := by
  unfold Regs.readV; simp
@[simp] theorem readV_writeXSp (r : Regs) (i j : RegField) (v : DWord) : (r.writeXSp i v).readV j = r.readV j := by
  unfold Regs.writeXSp; split <;> rfl

end Sys2Proof.Machine
end

