-- ==== Sys2Proof/Laws/Request.lean ====
section
/-! SUPPORT. What the request procedure R203 can do, said once, and that every form's meaning is that procedure. -/

namespace Sys2Proof.Machine

/-- R38: a buffer is full exactly when it has a capacity and four more bytes would exceed it. -/
theorem full_iff (s : State) :
    s.full = true ↔ ∃ c, s.params.bufferCapacity = some c ∧ c < s.len + 4 := by
  unfold State.full
  cases s.params.bufferCapacity <;> simp

/-- R203: the four ways an encode request ends, each with the state it leaves. -/
theorem request_cases (s : State) (r : Except EncErr Encoded) :
    (s.phase ≠ .opened ∧ request s r = .next (s.respond (.encode .sessionNotOpen none false)))
    ∨ (s.phase = .opened ∧ ∃ e, r = .error e ∧ request s r = .next (s.abort (encErr e)))
    ∨ (s.phase = .opened ∧ ∃ enc, r = .ok enc ∧ s.full = true ∧ request s r = .next (s.abort .capacity))
    ∨ (s.phase = .opened ∧ ∃ enc, r = .ok enc ∧ s.full = false
        ∧ request s r = .next (s.appendWord enc.word enc.warn)) := by
  by_cases hp : s.phase = .opened
  · cases r with
    | error e => exact .inr (.inl ⟨hp, e, rfl, by simp [request, hp]⟩)
    | ok enc =>
      cases hf : s.full with
      | true => exact .inr (.inr (.inl ⟨hp, enc, rfl, rfl, by simp [request, hp, hf]⟩))
      | false => exact .inr (.inr (.inr ⟨hp, enc, rfl, rfl, by simp [request, hp, hf]⟩))
  · exact .inl ⟨hp, by simp [request, hp]⟩

/-- Every encode request ends in a next state (R203). -/
theorem request_next (s : State) (r : Except EncErr Encoded) : ∃ t, request s r = .next t := by
  rcases request_cases s r with ⟨_, h⟩ | ⟨_, _, _, h⟩ | ⟨_, _, _, _, h⟩ | ⟨_, _, _, _, h⟩ <;> exact ⟨_, h⟩

/-- Every form's meaning is the request procedure on an encoder's answer that reads no state (R203). -/
theorem exec_is_request (i : Instr) : ∃ r, ∀ s, exec i s = request s r := by
  cases i
  case nop o => exact ⟨quiet (pack fieldsNop), fun _ => rfl⟩
  all_goals exact ⟨_, fun _ => rfl⟩

/-- What an encode request can leave (R203, R205). -/
theorem exec_cases (i : Instr) (s : State) :
    (s.phase ≠ .opened ∧ exec i s = .next (s.respond (.encode .sessionNotOpen none false)))
    ∨ (s.phase = .opened ∧ ∃ e, e ≠ .none ∧ exec i s = .next (s.abort e))
    ∨ (s.phase = .opened ∧ s.full = false ∧ ∃ w b, exec i s = .next (s.appendWord w b)) := by
  obtain ⟨r, hr⟩ := exec_is_request i
  rw [hr]
  rcases request_cases s r with ⟨hp, h⟩ | ⟨hp, e, _, h⟩ | ⟨hp, _, _, _, h⟩ | ⟨hp, enc, _, hf, h⟩
  · exact .inl ⟨hp, h⟩
  · exact .inr (.inl ⟨hp, _, by cases e <;> simp [encErr], h⟩)
  · exact .inr (.inl ⟨hp, .capacity, by simp, h⟩)
  · exact .inr (.inr ⟨hp, hf, _, _, h⟩)

/-- R205: an open session with room appends the word its encoder answers. -/
theorem request_ok {s : State} {enc : Encoded} (hp : s.phase = .opened) (hf : s.full = false) :
    request s (.ok enc) = .next (s.appendWord enc.word enc.warn) := by
  simp [request, hp, hf]

/-- R205: an open session is aborted by an encoder's error. -/
theorem request_error {s : State} {e : EncErr} (hp : s.phase = .opened) :
    request s (.error e) = .next (s.abort (encErr e)) := by
  simp [request, hp]

@[simp] theorem quiet_ok (w : Word) : quiet (.ok w) = .ok ⟨w, false⟩ := rfl
@[simp] theorem quiet_error (e : EncErr) : quiet (.error e) = .error e := rfl

end Sys2Proof.Machine
end

