-- ==== Sys2Proof/Laws/Step.lean ====
section
/-! SUPPORT. What one step can do, said once. -/

namespace Sys2Proof.Machine

/-- A step of the target that goes on runs the word at pc (R34, R84, R210). -/
theorem targetStep_next {s t : State} (h : targetStep s = .next t) :
    ∃ w i, targetFetch s = .ok w ∧ decodeWord w = .ok i
      ∧ (isHalf i = false ∨ s.params.targetHasFp16 = true) ∧ t = targetRun i s := by
  unfold targetStep at h
  split at h
  · cases h
  · rename_i w hw
    split at h
    · cases h
    · rename_i i hi
      split at h
      · cases h
      · rename_i hh
        cases h
        refine ⟨w, i, hw, hi, ?_, rfl⟩
        cases hf : isHalf i <;> simp_all

/-- A fetch that goes on read a whole word at a multiple of 4, the own word of a buffer made ready (R36, R278, R279). -/
theorem targetFetch_ok {s : State} {w : Word} (h : targetFetch s = .ok w) :
    s.regs.pc.toNat % 4 = 0 ∧ Memory.fetch s.memory s.regs.pc.toNat = some w
      ∧ s.buffers.any (readyAt s.regs.pc.toNat) = true := by
  unfold targetFetch at h
  dsimp only at h
  split at h
  · cases h
  · split at h
    · rename_i ha hr
      split at h
      · rename_i w' hw; cases h; exact ⟨by omega, hw, hr⟩
      · cases h
    · split at h <;> cases h

@[simp] theorem step_running {s : State} (h : s.running = true) : step s = targetStep s := by simp [step, h]

@[simp] theorem step_idle {s : State} (h : s.running = false) (hi : s.inputs = []) : step s = .next s := by
  simp [step, h, hi]

@[simp] theorem step_input {s : State} {x : Input} {rest : List Input} (h : s.running = false) (hi : s.inputs = x :: rest) :
    step s = processInput x { s with inputs := rest } := by
  simp [step, h, hi]

/-- The three ways a step goes on: the target runs a word, nothing is queued, or the oldest input is processed. -/
theorem step_cases {s t : State} (h : step s = .next t) :
    (s.running = true ∧ ∃ w i, targetFetch s = .ok w ∧ decodeWord w = .ok i ∧ t = targetRun i s)
    ∨ (s.running = false ∧ s.inputs = [] ∧ t = s)
    ∨ (s.running = false ∧ ∃ x rest, s.inputs = x :: rest ∧ processInput x { s with inputs := rest } = .next t) := by
  rcases Bool.eq_false_or_eq_true s.running with hr | hr
  · rw [step_running hr] at h
    obtain ⟨w, i, hw, hi, _, ht⟩ := targetStep_next h
    exact .inl ⟨hr, w, i, hw, hi, ht⟩
  · rcases hi : s.inputs with _ | ⟨x, rest⟩
    · rw [step_idle hr hi] at h; cases h; exact .inr (.inl ⟨hr, rfl, rfl⟩)
    · rw [step_input hr hi] at h; exact .inr (.inr ⟨hr, x, rest, rfl, h⟩)

/-- Processing a request changes nothing that is not the block's or its response's, but for the bytes FINALIZE hands over. -/
theorem processInput_frame {x : Input} {s t : State} (hx : ∀ a, x ≠ .host a) (h : processInput x s = .next t) :
    t.params = s.params ∧ t.inputs = s.inputs ∧ t.buffers = s.buffers ∧ t.platformError = s.platformError
      ∧ t.memory = s.memory ∧ t.regs = s.regs ∧ t.running = s.running ∧ t.returnTo = s.returnTo := by
  cases x with
  | encode i =>
    simp only [processInput] at h
    rcases exec_cases i s with ⟨_, he⟩ | ⟨_, _, _, he⟩ | ⟨_, _, _, _, he⟩ <;>
      · rw [he] at h; cases h; exact ⟨rfl, rfl, rfl, rfl, rfl, rfl, rfl, rfl⟩
  | finalize => simp only [processInput] at h; cases h; simp
  | length => simp only [processInput] at h; cases h; simp
  | reset => simp only [processInput] at h; cases h; simp
  | host a => exact absurd rfl (hx a)

end Sys2Proof.Machine
end

