-- ==== Sys2Proof/Laws/Words.lean ====
section
/-! SUPPORT. R51 format by format: packing the fields of a format gives their concatenation, and the widths sum to 32 (R52). -/

namespace Sys2Proof.Machine

/-- A concatenation as a number: the upper part moved up by the width of the lower. -/
theorem toNat_append_add {n m : Nat} (x : BitVec n) (y : BitVec m) : (x ++ y).toNat = x.toNat * 2 ^ m + y.toNat := by
  rw [BitVec.toNat_append, ← Nat.shiftLeft_add_eq_or_of_lt y.isLt, Nat.shiftLeft_eq]

/-- R67, ADDSUB_IMM. -/
theorem pack_fieldsAddSubImm (sf : BitVec 1) (op : BitVec 1) (s : BitVec 1) (sh : BitVec 1) (imm12 : BitVec 12) (rn : BitVec 5) (rd : BitVec 5) :
    pack (fieldsAddSubImm sf.toNat op.toNat s.toNat sh.toNat imm12.toNat rn.toNat rd.toNat) =
      .ok (sf ++ op ++ s ++ 0b100010#6 ++ sh ++ imm12 ++ rn ++ rd) := by
  have key := congrArg (fun x : BitVec _ => x.toNat) (rfl : sf ++ op ++ s ++ 0b100010#6 ++ sh ++ imm12 ++ rn ++ rd = _)
  have h_sf := sf.isLt
  have h_op := op.isLt
  have h_s := s.isLt
  have h_sh := sh.isLt
  have h_imm12 := imm12.isLt
  have h_rn := rn.isLt
  have h_rd := rd.isLt
  rw [pack_ok (by simp [fieldsAddSubImm]; omega)]
  refine congrArg Except.ok (BitVec.eq_of_toNat_eq (Eq.trans ?_ key))
  simp only [toNat_append_add, BitVec.toNat_ofNat, fieldsAddSubImm, packSum, totalWidth, List.map_cons, List.map_nil, List.sum_cons, List.sum_nil]
  omega

/-- R68, ADDSUB_SREG. -/
theorem pack_fieldsAddSubReg (sf : BitVec 1) (op : BitVec 1) (s : BitVec 1) (shift : BitVec 2) (rm : BitVec 5) (imm6 : BitVec 6) (rn : BitVec 5) (rd : BitVec 5) :
    pack (fieldsAddSubReg sf.toNat op.toNat s.toNat shift.toNat rm.toNat imm6.toNat rn.toNat rd.toNat) =
      .ok (sf ++ op ++ s ++ 0b01011#5 ++ shift ++ 0#1 ++ rm ++ imm6 ++ rn ++ rd) := by
  have key := congrArg (fun x : BitVec _ => x.toNat) (rfl : sf ++ op ++ s ++ 0b01011#5 ++ shift ++ 0#1 ++ rm ++ imm6 ++ rn ++ rd = _)
  have h_sf := sf.isLt
  have h_op := op.isLt
  have h_s := s.isLt
  have h_shift := shift.isLt
  have h_rm := rm.isLt
  have h_imm6 := imm6.isLt
  have h_rn := rn.isLt
  have h_rd := rd.isLt
  rw [pack_ok (by simp [fieldsAddSubReg]; omega)]
  refine congrArg Except.ok (BitVec.eq_of_toNat_eq (Eq.trans ?_ key))
  simp only [toNat_append_add, BitVec.toNat_ofNat, fieldsAddSubReg, packSum, totalWidth, List.map_cons, List.map_nil, List.sum_cons, List.sum_nil]
  omega

/-- R69, ADDSUB_CARRY. -/
theorem pack_fieldsAddSubCarry (sf : BitVec 1) (s : BitVec 1) (rm : BitVec 5) (rn : BitVec 5) (rd : BitVec 5) :
    pack (fieldsAddSubCarry sf.toNat s.toNat rm.toNat rn.toNat rd.toNat) =
      .ok (sf ++ 0#1 ++ s ++ 0b11010000#8 ++ rm ++ 0#6 ++ rn ++ rd) := by
  have key := congrArg (fun x : BitVec _ => x.toNat) (rfl : sf ++ 0#1 ++ s ++ 0b11010000#8 ++ rm ++ 0#6 ++ rn ++ rd = _)
  have h_sf := sf.isLt
  have h_s := s.isLt
  have h_rm := rm.isLt
  have h_rn := rn.isLt
  have h_rd := rd.isLt
  rw [pack_ok (by simp [fieldsAddSubCarry]; omega)]
  refine congrArg Except.ok (BitVec.eq_of_toNat_eq (Eq.trans ?_ key))
  simp only [toNat_append_add, BitVec.toNat_ofNat, fieldsAddSubCarry, packSum, totalWidth, List.map_cons, List.map_nil, List.sum_cons, List.sum_nil]
  omega

/-- R70, LOG_IMM. -/
theorem pack_fieldsLogImm (sf : BitVec 1) (opc : BitVec 2) (n : BitVec 1) (immr : BitVec 6) (imms : BitVec 6) (rn : BitVec 5) (rd : BitVec 5) :
    pack (fieldsLogImm sf.toNat opc.toNat n.toNat immr.toNat imms.toNat rn.toNat rd.toNat) =
      .ok (sf ++ opc ++ 0b100100#6 ++ n ++ immr ++ imms ++ rn ++ rd) := by
  have key := congrArg (fun x : BitVec _ => x.toNat) (rfl : sf ++ opc ++ 0b100100#6 ++ n ++ immr ++ imms ++ rn ++ rd = _)
  have h_sf := sf.isLt
  have h_opc := opc.isLt
  have h_n := n.isLt
  have h_immr := immr.isLt
  have h_imms := imms.isLt
  have h_rn := rn.isLt
  have h_rd := rd.isLt
  rw [pack_ok (by simp [fieldsLogImm]; omega)]
  refine congrArg Except.ok (BitVec.eq_of_toNat_eq (Eq.trans ?_ key))
  simp only [toNat_append_add, BitVec.toNat_ofNat, fieldsLogImm, packSum, totalWidth, List.map_cons, List.map_nil, List.sum_cons, List.sum_nil]
  omega

/-- R71, LOG_SREG. -/
theorem pack_fieldsLogReg (sf : BitVec 1) (opc : BitVec 2) (shift : BitVec 2) (rm : BitVec 5) (imm6 : BitVec 6) (rn : BitVec 5) (rd : BitVec 5) :
    pack (fieldsLogReg sf.toNat opc.toNat shift.toNat rm.toNat imm6.toNat rn.toNat rd.toNat) =
      .ok (sf ++ opc ++ 0b01010#5 ++ shift ++ 0#1 ++ rm ++ imm6 ++ rn ++ rd) := by
  have key := congrArg (fun x : BitVec _ => x.toNat) (rfl : sf ++ opc ++ 0b01010#5 ++ shift ++ 0#1 ++ rm ++ imm6 ++ rn ++ rd = _)
  have h_sf := sf.isLt
  have h_opc := opc.isLt
  have h_shift := shift.isLt
  have h_rm := rm.isLt
  have h_imm6 := imm6.isLt
  have h_rn := rn.isLt
  have h_rd := rd.isLt
  rw [pack_ok (by simp [fieldsLogReg]; omega)]
  refine congrArg Except.ok (BitVec.eq_of_toNat_eq (Eq.trans ?_ key))
  simp only [toNat_append_add, BitVec.toNat_ofNat, fieldsLogReg, packSum, totalWidth, List.map_cons, List.map_nil, List.sum_cons, List.sum_nil]
  omega

/-- R72, MOVEWIDE. -/
theorem pack_fieldsMoveWide (sf : BitVec 1) (opc : BitVec 2) (hw : BitVec 2) (imm16 : BitVec 16) (rd : BitVec 5) :
    pack (fieldsMoveWide sf.toNat opc.toNat hw.toNat imm16.toNat rd.toNat) =
      .ok (sf ++ opc ++ 0b100101#6 ++ hw ++ imm16 ++ rd) := by
  have key := congrArg (fun x : BitVec _ => x.toNat) (rfl : sf ++ opc ++ 0b100101#6 ++ hw ++ imm16 ++ rd = _)
  have h_sf := sf.isLt
  have h_opc := opc.isLt
  have h_hw := hw.isLt
  have h_imm16 := imm16.isLt
  have h_rd := rd.isLt
  rw [pack_ok (by simp [fieldsMoveWide]; omega)]
  refine congrArg Except.ok (BitVec.eq_of_toNat_eq (Eq.trans ?_ key))
  simp only [toNat_append_add, BitVec.toNat_ofNat, fieldsMoveWide, packSum, totalWidth, List.map_cons, List.map_nil, List.sum_cons, List.sum_nil]
  omega

/-- R73, DP3. -/
theorem pack_fieldsDp3 (sf : BitVec 1) (rm : BitVec 5) (o0 : BitVec 1) (ra : BitVec 5) (rn : BitVec 5) (rd : BitVec 5) :
    pack (fieldsDp3 sf.toNat rm.toNat o0.toNat ra.toNat rn.toNat rd.toNat) =
      .ok (sf ++ 0b00#2 ++ 0b11011#5 ++ 0b000#3 ++ rm ++ o0 ++ ra ++ rn ++ rd) := by
  have key := congrArg (fun x : BitVec _ => x.toNat) (rfl : sf ++ 0b00#2 ++ 0b11011#5 ++ 0b000#3 ++ rm ++ o0 ++ ra ++ rn ++ rd = _)
  have h_sf := sf.isLt
  have h_rm := rm.isLt
  have h_o0 := o0.isLt
  have h_ra := ra.isLt
  have h_rn := rn.isLt
  have h_rd := rd.isLt
  rw [pack_ok (by simp [fieldsDp3]; omega)]
  refine congrArg Except.ok (BitVec.eq_of_toNat_eq (Eq.trans ?_ key))
  simp only [toNat_append_add, BitVec.toNat_ofNat, fieldsDp3, packSum, totalWidth, List.map_cons, List.map_nil, List.sum_cons, List.sum_nil]
  omega

/-- R74, B. -/
theorem pack_fieldsB (imm26 : BitVec 26) :
    pack (fieldsB imm26.toNat) =
      .ok (0#1 ++ 0b00101#5 ++ imm26) := by
  have key := congrArg (fun x : BitVec _ => x.toNat) (rfl : 0#1 ++ 0b00101#5 ++ imm26 = _)
  have h_imm26 := imm26.isLt
  rw [pack_ok (by simp [fieldsB]; omega)]
  refine congrArg Except.ok (BitVec.eq_of_toNat_eq (Eq.trans ?_ key))
  simp only [toNat_append_add, BitVec.toNat_ofNat, fieldsB, packSum, totalWidth, List.map_cons, List.map_nil, List.sum_cons, List.sum_nil]
  omega

/-- R75, BCOND. -/
theorem pack_fieldsBCond (imm19 : BitVec 19) (cond : BitVec 4) :
    pack (fieldsBCond imm19.toNat cond.toNat) =
      .ok (0b0101010#7 ++ 0#1 ++ imm19 ++ 0#1 ++ cond) := by
  have key := congrArg (fun x : BitVec _ => x.toNat) (rfl : 0b0101010#7 ++ 0#1 ++ imm19 ++ 0#1 ++ cond = _)
  have h_imm19 := imm19.isLt
  have h_cond := cond.isLt
  rw [pack_ok (by simp [fieldsBCond]; omega)]
  refine congrArg Except.ok (BitVec.eq_of_toNat_eq (Eq.trans ?_ key))
  simp only [toNat_append_add, BitVec.toNat_ofNat, fieldsBCond, packSum, totalWidth, List.map_cons, List.map_nil, List.sum_cons, List.sum_nil]
  omega

/-- R76, BR_RET. -/
theorem pack_fieldsRet (rn : BitVec 5) :
    pack (fieldsRet rn.toNat) =
      .ok (0b1101011#7 ++ 0b0010#4 ++ 0b11111#5 ++ 0b000000#6 ++ rn ++ 0b00000#5) := by
  have key := congrArg (fun x : BitVec _ => x.toNat) (rfl : 0b1101011#7 ++ 0b0010#4 ++ 0b11111#5 ++ 0b000000#6 ++ rn ++ 0b00000#5 = _)
  have h_rn := rn.isLt
  rw [pack_ok (by simp [fieldsRet]; omega)]
  refine congrArg Except.ok (BitVec.eq_of_toNat_eq (Eq.trans ?_ key))
  simp only [toNat_append_add, BitVec.toNat_ofNat, fieldsRet, packSum, totalWidth, List.map_cons, List.map_nil, List.sum_cons, List.sum_nil]
  omega

/-- R78, FP_DP2. -/
theorem pack_fieldsFpDp2 (ftype : BitVec 2) (rm : BitVec 5) (opcode : BitVec 4) (rn : BitVec 5) (rd : BitVec 5) :
    pack (fieldsFpDp2 ftype.toNat rm.toNat opcode.toNat rn.toNat rd.toNat) =
      .ok (0b00011110#8 ++ ftype ++ 1#1 ++ rm ++ opcode ++ 0b10#2 ++ rn ++ rd) := by
  have key := congrArg (fun x : BitVec _ => x.toNat) (rfl : 0b00011110#8 ++ ftype ++ 1#1 ++ rm ++ opcode ++ 0b10#2 ++ rn ++ rd = _)
  have h_ftype := ftype.isLt
  have h_rm := rm.isLt
  have h_opcode := opcode.isLt
  have h_rn := rn.isLt
  have h_rd := rd.isLt
  rw [pack_ok (by simp [fieldsFpDp2]; omega)]
  refine congrArg Except.ok (BitVec.eq_of_toNat_eq (Eq.trans ?_ key))
  simp only [toNat_append_add, BitVec.toNat_ofNat, fieldsFpDp2, packSum, totalWidth, List.map_cons, List.map_nil, List.sum_cons, List.sum_nil]
  omega

/-- R79, FP_DP1. -/
theorem pack_fieldsFpDp1 (ftype : BitVec 2) (opcode : BitVec 6) (rn : BitVec 5) (rd : BitVec 5) :
    pack (fieldsFpDp1 ftype.toNat opcode.toNat rn.toNat rd.toNat) =
      .ok (0b00011110#8 ++ ftype ++ 1#1 ++ opcode ++ 0b10000#5 ++ rn ++ rd) := by
  have key := congrArg (fun x : BitVec _ => x.toNat) (rfl : 0b00011110#8 ++ ftype ++ 1#1 ++ opcode ++ 0b10000#5 ++ rn ++ rd = _)
  have h_ftype := ftype.isLt
  have h_opcode := opcode.isLt
  have h_rn := rn.isLt
  have h_rd := rd.isLt
  rw [pack_ok (by simp [fieldsFpDp1]; omega)]
  refine congrArg Except.ok (BitVec.eq_of_toNat_eq (Eq.trans ?_ key))
  simp only [toNat_append_add, BitVec.toNat_ofNat, fieldsFpDp1, packSum, totalWidth, List.map_cons, List.map_nil, List.sum_cons, List.sum_nil]
  omega

/-- R80, FP_IMM. -/
theorem pack_fieldsFpImm (ftype : BitVec 2) (imm8 : BitVec 8) (rd : BitVec 5) :
    pack (fieldsFpImm ftype.toNat imm8.toNat rd.toNat) =
      .ok (0b00011110#8 ++ ftype ++ 1#1 ++ imm8 ++ 0b100#3 ++ 0b00000#5 ++ rd) := by
  have key := congrArg (fun x : BitVec _ => x.toNat) (rfl : 0b00011110#8 ++ ftype ++ 1#1 ++ imm8 ++ 0b100#3 ++ 0b00000#5 ++ rd = _)
  have h_ftype := ftype.isLt
  have h_imm8 := imm8.isLt
  have h_rd := rd.isLt
  rw [pack_ok (by simp [fieldsFpImm]; omega)]
  refine congrArg Except.ok (BitVec.eq_of_toNat_eq (Eq.trans ?_ key))
  simp only [toNat_append_add, BitVec.toNat_ofNat, fieldsFpImm, packSum, totalWidth, List.map_cons, List.map_nil, List.sum_cons, List.sum_nil]
  omega

/-- R52: the widths of every format sum to 32. -/
theorem formats_are_32_bits (a b c d e f g h : Nat) :
    totalWidth (fieldsAddSubImm a b c d e f g) = 32 ∧ totalWidth (fieldsAddSubReg a b c d e f g h) = 32
    ∧ totalWidth (fieldsAddSubCarry a b c d e) = 32 ∧ totalWidth (fieldsLogImm a b c d e f g) = 32
    ∧ totalWidth (fieldsLogReg a b c d e f g) = 32 ∧ totalWidth (fieldsMoveWide a b c d e) = 32
    ∧ totalWidth (fieldsDp3 a b c d e f) = 32 ∧ totalWidth (fieldsB a) = 32 ∧ totalWidth (fieldsBCond a b) = 32
    ∧ totalWidth (fieldsRet a) = 32 ∧ totalWidth fieldsNop = 32 ∧ totalWidth (fieldsFpDp2 a b c d e) = 32
    ∧ totalWidth (fieldsFpDp1 a b c d) = 32 ∧ totalWidth (fieldsFpImm a b c) = 32 := by
  simp [totalWidth, fieldsAddSubImm, fieldsAddSubReg, fieldsAddSubCarry, fieldsLogImm, fieldsLogReg, fieldsMoveWide,
    fieldsDp3, fieldsB, fieldsBCond, fieldsRet, fieldsNop, fieldsFpDp2, fieldsFpDp1, fieldsFpImm]

/-- R77, HINT: the one word of NOP. -/
theorem pack_fieldsNop : pack fieldsNop = .ok 0xD503201F#32 := by decide

end Sys2Proof.Machine
end

