-- ==== Sys2Proof/Tests/Slice0.lean ====
section
/-! SUPPORT. The model's own tests. Words, requests and end values come from spec/95_test_vectors.md and from the encoding tables of
spec/30_encoding.md, written out by hand; a `witness` shows data that meet a statement's hypotheses together. -/

namespace Sys2Proof.Tests

open Machine Safety

-- one kernel evaluation at a time: each test waits for the ones before it
set_option Elab.async false

/-! ### Well-formedness: one ill-formed term for each check -/

/-- R53. -/
theorem test_illformed_reg : Instr.wellFormed (.addImm { rd := some 32, rn := some 0, imm := some 1 }) = false := by decide +kernel
/-- R53. -/
theorem test_illformed_reg_negative : Instr.wellFormed (.madd { rd := some 0, rn := some 1, rm := some 2, ra := some (-1) }) = false := by decide +kernel
/-- R9, R251. -/
theorem test_illformed_reg_absent : Instr.wellFormed (.addReg { rd := some 0, rn := some 1 }) = false := by decide +kernel
/-- R54. -/
theorem test_illformed_sf : Instr.wellFormed (.mul { rd := some 0, rn := some 0, rm := some 1, sf := some 2 }) = false := by decide +kernel
/-- R100. -/
theorem test_illformed_sh : Instr.wellFormed (.addImm { rd := some 0, rn := some 0, imm := some 1, sh := some 2 }) = false := by decide +kernel
/-- R100. -/
theorem test_illformed_imm12 : Instr.wellFormed (.cmpImm { rn := some 1, imm := some 0x1000 }) = false := by decide +kernel
/-- R100, D21. -/
theorem test_illformed_imm12_negative : Instr.wellFormed (.addImm { rd := some 0, rn := some 0, imm := some (-1) }) = false := by decide +kernel
/-- R56. -/
theorem test_illformed_arith_ror : Instr.wellFormed (.addReg { rd := some 0, rn := some 1, rm := some 2, shift := some "ROR", amount := some 1 }) = false := by decide +kernel
/-- R56. -/
theorem test_illformed_shift_name : Instr.wellFormed (.eorReg { rd := some 0, rn := some 1, rm := some 2, shift := some "lsl" }) = false := by decide +kernel
/-- R105. -/
theorem test_illformed_amount : Instr.wellFormed (.addReg { rd := some 0, rn := some 1, rm := some 2, amount := some 64 }) = false := by decide +kernel
/-- R124. -/
theorem test_illformed_amount_32 : Instr.wellFormed (.orrReg { rd := some 0, rn := some 1, rm := some 2, amount := some 32, sf := some 0 }) = false := by decide +kernel
/-- R110. -/
theorem test_illformed_carry_shift : Instr.wellFormed (.adc { rd := some 1, rn := some 2, rm := some 3, shift := some "LSR" }) = false := by decide +kernel
/-- R110. -/
theorem test_illformed_carry_amount : Instr.wellFormed (.adcs { rd := some 1, rn := some 2, rm := some 3, amount := some 1 }) = false := by decide +kernel
/-- R120. -/
theorem test_illformed_logical_range : Instr.wellFormed (.andImm { rd := some 0, rn := some 0, imm := some 0x100000000, sf := some 0 }) = false := by decide +kernel
/-- R133. -/
theorem test_illformed_mask : Instr.wellFormed (.andImm { rd := some 0, rn := some 0, imm := some 5 }) = false := by decide +kernel
/-- R129. -/
theorem test_illformed_mask_zero : Instr.wellFormed (.eorImm { rd := some 0, rn := some 0, imm := some 0 }) = false := by decide +kernel
/-- R129. -/
theorem test_illformed_mask_ones : Instr.wellFormed (.movBitmask { rd := some 0, imm := some 0xFFFFFFFF, sf := some 0 }) = false := by decide +kernel
/-- R143. -/
theorem test_illformed_imm16 : Instr.wellFormed (.movz { rd := some 0, imm := some 0x10000 }) = false := by decide +kernel
/-- R61. -/
theorem test_illformed_lane : Instr.wellFormed (.movz { rd := some 0, imm := some 1, hwShift := some 8 }) = false := by decide +kernel
/-- R61. -/
theorem test_illformed_lane_32 : Instr.wellFormed (.movk { rd := some 4, imm := some 1, hwShift := some 48, sf := some 0 }) = false := by decide +kernel
/-- R58. -/
theorem test_illformed_cond : Instr.wellFormed (.bCond { cond := some "AL", offset := some 1 }) = false := by decide +kernel
/-- R58. -/
theorem test_illformed_cond_case : Instr.wellFormed (.bCond { cond := some "eq", offset := some 1 }) = false := by decide +kernel
/-- R55. -/
theorem test_illformed_offset19 : Instr.wellFormed (.bCond { cond := some "EQ", offset := some 262144 }) = false := by decide +kernel
/-- R55. -/
theorem test_illformed_offset26 : Instr.wellFormed (.b { offset := some 33554432 }) = false := by decide +kernel
/-- R168. -/
theorem test_illformed_ret : Instr.wellFormed (.ret { rn := some 32 }) = false := by decide +kernel
/-- R59. -/
theorem test_illformed_ftype : Instr.wellFormed (.fadd { rd := some 0, rn := some 1, rm := some 2, ftype := some "Q" }) = false := by decide +kernel
/-- R185. -/
theorem test_illformed_fval : Instr.wellFormed (.fmovImm { rd := some 0 }) = false := by decide +kernel

/-! ### Decoding: every constructor from a word written out field by field (R67 to R80) -/

theorem test_decode_addImm : decodeWord (0b1#1 ++ 0b0#1 ++ 0b0#1 ++ 0b100010#6 ++ 0b1#1 ++ 0b111111111111#12 ++ 0b00010#5 ++ 0b00001#5)
    = .ok (.addImm { sf := some 1, sh := some 1, imm := some 4095, rn := some 2, rd := some 1 }) := by decide +kernel
theorem test_decode_addsImm : decodeWord (0b1#1 ++ 0b0#1 ++ 0b1#1 ++ 0b100010#6 ++ 0b0#1 ++ 0b000001100100#12 ++ 0b00110#5 ++ 0b00101#5)
    = .ok (.addsImm { sf := some 1, sh := some 0, imm := some 100, rn := some 6, rd := some 5 }) := by decide +kernel
theorem test_decode_subImm : decodeWord (0b0#1 ++ 0b1#1 ++ 0b0#1 ++ 0b100010#6 ++ 0b0#1 ++ 0b000000000001#12 ++ 0b11111#5 ++ 0b11111#5)
    = .ok (.subImm { sf := some 0, sh := some 0, imm := some 1, rn := some 31, rd := some 31 }) := by decide +kernel
theorem test_decode_subsImm : decodeWord (0b0#1 ++ 0b1#1 ++ 0b1#1 ++ 0b100010#6 ++ 0b0#1 ++ 0b000000000000#12 ++ 0b00011#5 ++ 0b00010#5)
    = .ok (.subsImm { sf := some 0, sh := some 0, imm := some 0, rn := some 3, rd := some 2 }) := by decide +kernel
theorem test_decode_addReg : decodeWord (0b0#1 ++ 0b0#1 ++ 0b0#1 ++ 0b01011#5 ++ 0b10#2 ++ 0b0#1 ++ 0b00010#5 ++ 0b000011#6 ++ 0b00001#5 ++ 0b00000#5)
    = .ok (.addReg { sf := some 0, shift := some "ASR", rm := some 2, amount := some 3, rn := some 1, rd := some 0 }) := by decide +kernel
theorem test_decode_addsReg : decodeWord (0b1#1 ++ 0b0#1 ++ 0b1#1 ++ 0b01011#5 ++ 0b00#2 ++ 0b0#1 ++ 0b00001#5 ++ 0b000000#6 ++ 0b00000#5 ++ 0b00010#5)
    = .ok (.addsReg { sf := some 1, shift := some "LSL", rm := some 1, amount := some 0, rn := some 0, rd := some 2 }) := by decide +kernel
theorem test_decode_subReg : decodeWord (0b1#1 ++ 0b1#1 ++ 0b0#1 ++ 0b01011#5 ++ 0b01#2 ++ 0b0#1 ++ 0b00110#5 ++ 0b000010#6 ++ 0b00101#5 ++ 0b00100#5)
    = .ok (.subReg { sf := some 1, shift := some "LSR", rm := some 6, amount := some 2, rn := some 5, rd := some 4 }) := by decide +kernel
theorem test_decode_subsReg : decodeWord (0b0#1 ++ 0b1#1 ++ 0b1#1 ++ 0b01011#5 ++ 0b00#2 ++ 0b0#1 ++ 0b01001#5 ++ 0b000000#6 ++ 0b01000#5 ++ 0b00111#5)
    = .ok (.subsReg { sf := some 0, shift := some "LSL", rm := some 9, amount := some 0, rn := some 8, rd := some 7 }) := by decide +kernel
theorem test_decode_adc : decodeWord (0b0#1 ++ 0b0#1 ++ 0b0#1 ++ 0b11010000#8 ++ 0b00011#5 ++ 0b000000#6 ++ 0b00010#5 ++ 0b00001#5)
    = .ok (.adc { sf := some 0, rm := some 3, rn := some 2, rd := some 1 }) := by decide +kernel
theorem test_decode_adcs : decodeWord (0b1#1 ++ 0b0#1 ++ 0b1#1 ++ 0b11010000#8 ++ 0b00110#5 ++ 0b000000#6 ++ 0b00101#5 ++ 0b00100#5)
    = .ok (.adcs { sf := some 1, rm := some 6, rn := some 5, rd := some 4 }) := by decide +kernel
theorem test_decode_cmpImm : decodeWord (0b1#1 ++ 0b1#1 ++ 0b1#1 ++ 0b100010#6 ++ 0b0#1 ++ 0b000000000101#12 ++ 0b00001#5 ++ 0b11111#5)
    = .ok (.cmpImm { sf := some 1, sh := some 0, imm := some 5, rn := some 1 }) := by decide +kernel
theorem test_decode_cmnImm : decodeWord (0b0#1 ++ 0b0#1 ++ 0b1#1 ++ 0b100010#6 ++ 0b0#1 ++ 0b000000000001#12 ++ 0b00010#5 ++ 0b11111#5)
    = .ok (.cmnImm { sf := some 0, sh := some 0, imm := some 1, rn := some 2 }) := by decide +kernel
theorem test_decode_cmpReg : decodeWord (0b1#1 ++ 0b1#1 ++ 0b1#1 ++ 0b01011#5 ++ 0b00#2 ++ 0b0#1 ++ 0b00010#5 ++ 0b000000#6 ++ 0b00001#5 ++ 0b11111#5)
    = .ok (.cmpReg { sf := some 1, shift := some "LSL", rm := some 2, amount := some 0, rn := some 1 }) := by decide +kernel
theorem test_decode_cmnReg : decodeWord (0b1#1 ++ 0b0#1 ++ 0b1#1 ++ 0b01011#5 ++ 0b00#2 ++ 0b0#1 ++ 0b00100#5 ++ 0b000010#6 ++ 0b00011#5 ++ 0b11111#5)
    = .ok (.cmnReg { sf := some 1, shift := some "LSL", rm := some 4, amount := some 2, rn := some 3 }) := by decide +kernel
theorem test_decode_andImm : decodeWord (0b1#1 ++ 0b00#2 ++ 0b100100#6 ++ 0b1#1 ++ 0b000001#6 ++ 0b000001#6 ++ 0b00010#5 ++ 0b00001#5)
    = .ok (.andImm { sf := some 1, imm := some 0x8000000000000001, rn := some 2, rd := some 1 }) := by decide +kernel
theorem test_decode_orrImm : decodeWord (0b0#1 ++ 0b01#2 ++ 0b100100#6 ++ 0b0#1 ++ 0b010000#6 ++ 0b001111#6 ++ 0b00100#5 ++ 0b00011#5)
    = .ok (.orrImm { sf := some 0, imm := some 0xFFFF0000, rn := some 4, rd := some 3 }) := by decide +kernel
theorem test_decode_eorImm : decodeWord (0b1#1 ++ 0b10#2 ++ 0b100100#6 ++ 0b0#1 ++ 0b000000#6 ++ 0b110011#6 ++ 0b00001#5 ++ 0b00001#5)
    = .ok (.eorImm { sf := some 1, imm := some 0xF0F0F0F0F0F0F0F, rn := some 1, rd := some 1 }) := by decide +kernel
theorem test_decode_andReg : decodeWord (0b0#1 ++ 0b00#2 ++ 0b01010#5 ++ 0b10#2 ++ 0b0#1 ++ 0b00010#5 ++ 0b011111#6 ++ 0b00001#5 ++ 0b00000#5)
    = .ok (.andReg { sf := some 0, shift := some "ASR", rm := some 2, amount := some 31, rn := some 1, rd := some 0 }) := by decide +kernel
theorem test_decode_orrReg : decodeWord (0b1#1 ++ 0b01#2 ++ 0b01010#5 ++ 0b00#2 ++ 0b0#1 ++ 0b00001#5 ++ 0b000001#6 ++ 0b11111#5 ++ 0b00000#5)
    = .ok (.orrReg { sf := some 1, shift := some "LSL", rm := some 1, amount := some 1, rn := some 31, rd := some 0 }) := by decide +kernel
theorem test_decode_eorReg : decodeWord (0b1#1 ++ 0b10#2 ++ 0b01010#5 ++ 0b11#2 ++ 0b0#1 ++ 0b00101#5 ++ 0b000111#6 ++ 0b00100#5 ++ 0b00011#5)
    = .ok (.eorReg { sf := some 1, shift := some "ROR", rm := some 5, amount := some 7, rn := some 4, rd := some 3 }) := by decide +kernel
theorem test_decode_movReg : decodeWord (0b0#1 ++ 0b01#2 ++ 0b01010#5 ++ 0b00#2 ++ 0b0#1 ++ 0b00001#5 ++ 0b000000#6 ++ 0b11111#5 ++ 0b00000#5)
    = .ok (.movReg { sf := some 0, rm := some 1, rd := some 0 }) := by decide +kernel
theorem test_decode_movSp : decodeWord (0b1#1 ++ 0b0#1 ++ 0b0#1 ++ 0b100010#6 ++ 0b0#1 ++ 0b000000000000#12 ++ 0b11111#5 ++ 0b11101#5)
    = .ok (.movSp { sf := some 1, rn := some 31, rd := some 29 }) := by decide +kernel
theorem test_decode_movBitmask : decodeWord (0b1#1 ++ 0b01#2 ++ 0b100100#6 ++ 0b1#1 ++ 0b000000#6 ++ 0b000111#6 ++ 0b11111#5 ++ 0b00000#5)
    = .ok (.movBitmask { sf := some 1, imm := some 255, rd := some 0 }) := by decide +kernel
theorem test_decode_movz : decodeWord (0b0#1 ++ 0b10#2 ++ 0b100101#6 ++ 0b01#2 ++ 0b0001001000110100#16 ++ 0b00000#5)
    = .ok (.movz { sf := some 0, hwShift := some 16, imm := some 0x1234, rd := some 0 }) := by decide +kernel
theorem test_decode_movn : decodeWord (0b1#1 ++ 0b00#2 ++ 0b100101#6 ++ 0b01#2 ++ 0b0000000000000101#16 ++ 0b00010#5)
    = .ok (.movn { sf := some 1, hwShift := some 16, imm := some 5, rd := some 2 }) := by decide +kernel
theorem test_decode_movk : decodeWord (0b1#1 ++ 0b11#2 ++ 0b100101#6 ++ 0b11#2 ++ 0b1011111011101111#16 ++ 0b00000#5)
    = .ok (.movk { sf := some 1, hwShift := some 48, imm := some 0xBEEF, rd := some 0 }) := by decide +kernel
theorem test_decode_madd : decodeWord (0b1#1 ++ 0b00#2 ++ 0b11011#5 ++ 0b000#3 ++ 0b00010#5 ++ 0b0#1 ++ 0b00011#5 ++ 0b00001#5 ++ 0b00000#5)
    = .ok (.madd { sf := some 1, rm := some 2, ra := some 3, rn := some 1, rd := some 0 }) := by decide +kernel
theorem test_decode_msub : decodeWord (0b1#1 ++ 0b00#2 ++ 0b11011#5 ++ 0b000#3 ++ 0b00010#5 ++ 0b1#1 ++ 0b00011#5 ++ 0b00001#5 ++ 0b00000#5)
    = .ok (.msub { sf := some 1, rm := some 2, ra := some 3, rn := some 1, rd := some 0 }) := by decide +kernel
theorem test_decode_mul : decodeWord (0b0#1 ++ 0b00#2 ++ 0b11011#5 ++ 0b000#3 ++ 0b00100#5 ++ 0b0#1 ++ 0b11111#5 ++ 0b00011#5 ++ 0b00010#5)
    = .ok (.mul { sf := some 0, rm := some 4, rn := some 3, rd := some 2 }) := by decide +kernel
theorem test_decode_mneg : decodeWord (0b1#1 ++ 0b00#2 ++ 0b11011#5 ++ 0b000#3 ++ 0b00010#5 ++ 0b1#1 ++ 0b11111#5 ++ 0b00001#5 ++ 0b00000#5)
    = .ok (.mneg { sf := some 1, rm := some 2, rn := some 1, rd := some 0 }) := by decide +kernel
theorem test_decode_b : decodeWord (0b0#1 ++ 0b00101#5 ++ 0b11111111111111111111111111#26)
    = .ok (.b { offset := some (-1) }) := by decide +kernel
theorem test_decode_bCond : decodeWord (0b0101010#7 ++ 0b0#1 ++ 0b1111111111111111101#19 ++ 0b0#1 ++ 0b0001#4)
    = .ok (.bCond { cond := some "NE", offset := some (-3) }) := by decide +kernel
theorem test_decode_ret : decodeWord (0b1101011#7 ++ 0b0010#4 ++ 0b11111#5 ++ 0b000000#6 ++ 0b11110#5 ++ 0b00000#5)
    = .ok (.ret { rn := some 30 }) := by decide +kernel
theorem test_decode_nop : decodeWord (0b11010101000000110010#20 ++ 0b0000#4 ++ 0b000#3 ++ 0b11111#5)
    = .ok (.nop {}) := by decide +kernel
theorem test_decode_fadd : decodeWord (0b00011110#8 ++ 0b11#2 ++ 0b1#1 ++ 0b00010#5 ++ 0b0010#4 ++ 0b10#2 ++ 0b00001#5 ++ 0b00000#5)
    = .ok (.fadd { ftype := some "H", rm := some 2, rn := some 1, rd := some 0 }) := by decide +kernel
theorem test_decode_fmul : decodeWord (0b00011110#8 ++ 0b01#2 ++ 0b1#1 ++ 0b00001#5 ++ 0b0000#4 ++ 0b10#2 ++ 0b00000#5 ++ 0b00000#5)
    = .ok (.fmul { ftype := some "D", rm := some 1, rn := some 0, rd := some 0 }) := by decide +kernel
theorem test_decode_fneg : decodeWord (0b00011110#8 ++ 0b01#2 ++ 0b1#1 ++ 0b000010#6 ++ 0b10000#5 ++ 0b00001#5 ++ 0b00000#5)
    = .ok (.fneg { ftype := some "D", rn := some 1, rd := some 0 }) := by decide +kernel
theorem test_decode_fmovReg : decodeWord (0b00011110#8 ++ 0b00#2 ++ 0b1#1 ++ 0b000000#6 ++ 0b10000#5 ++ 0b00001#5 ++ 0b00000#5)
    = .ok (.fmovReg { ftype := some "S", rn := some 1, rd := some 0 }) := by decide +kernel
theorem test_decode_fmovImm : decodeWord (0b00011110#8 ++ 0b00#2 ++ 0b1#1 ++ 0b10000100#8 ++ 0b100#3 ++ 0b00000#5 ++ 0b00000#5)
    = .ok (.fmovImm { ftype := some "S", fval := some 0xC004000000000000, rd := some 0 }) := by decide +kernel

/-- R83: the reserved field values are refused by name. -/
theorem test_decode_reserved :
    decodeWord (0b1#1 ++ 0#1 ++ 0#1 ++ 0b01011#5 ++ 0b11#2 ++ 0#1 ++ 0#5 ++ 0#6 ++ 0#5 ++ 0#5) = .error .reservedShift
    ∧ decodeWord (0b0#1 ++ 0b00#2 ++ 0b01010#5 ++ 0b00#2 ++ 0#1 ++ 0#5 ++ 32#6 ++ 0#5 ++ 0#5) = .error .reservedAmount
    ∧ decodeWord (0b0#1 ++ 0b00#2 ++ 0b100100#6 ++ 1#1 ++ 0#6 ++ 0#6 ++ 0#5 ++ 0#5) = .error .reservedBitmask
    ∧ decodeWord (0b1#1 ++ 0b00#2 ++ 0b100100#6 ++ 1#1 ++ 0#6 ++ 63#6 ++ 0#5 ++ 0#5) = .error .reservedBitmask
    ∧ decodeWord (0b0#1 ++ 0b10#2 ++ 0b100101#6 ++ 0b10#2 ++ 0#16 ++ 0#5) = .error .reservedLane
    ∧ decodeWord (0b00011110#8 ++ 0b10#2 ++ 1#1 ++ 0#5 ++ 0b0010#4 ++ 0b10#2 ++ 0#5 ++ 0#5) = .error .reservedFtype
    ∧ decodeWord (0b0101010#7 ++ 0#1 ++ 0#19 ++ 0#1 ++ 0b1110#4) = .error .unnamedCondition
    ∧ decodeWord 0x9BC07C00 = .error .notAForm := by decide +kernel

/-! ### Requests: the words of spec/95_test_vectors.md section 2 -/

/-- The status, word and warning an encode request is answered with. -/
def answer (i : Instr) (s : State) : Option (Status × Option Word × Bool) :=
  match exec i s with
  | .next t =>
    match t.response with
    | some (.encode st w warn) => some (st, w, warn)
    | _ => none
  | _ => none

theorem test_request_addImm : answer (.addImm { rd := some 1, rn := some 2, imm := some 0xFFF, sh := some 1 }) State.reset
    = some (.ok, some 0x917FFC41, false) := by decide +kernel
theorem test_request_addsImm : answer (.addsImm { rd := some 5, rn := some 6, imm := some 100 }) State.reset
    = some (.ok, some 0xB10190C5, false) := by decide +kernel
theorem test_request_subImm : answer (.subImm { rd := some 31, rn := some 31, imm := some 32 }) State.reset
    = some (.ok, some 0xD10083FF, false) := by decide +kernel
theorem test_request_subsImm : answer (.subsImm { rd := some 2, rn := some 3, imm := some 0, sf := some 0 }) State.reset
    = some (.ok, some 0x71000062, false) := by decide +kernel
theorem test_request_addReg : answer (.addReg { rd := some 0, rn := some 1, rm := some 2, shift := some "ASR", amount := some 3, sf := some 0 }) State.reset
    = some (.ok, some 0x0B820C20, false) := by decide +kernel
theorem test_request_addsReg : answer (.addsReg { rd := some 2, rn := some 0, rm := some 1 }) State.reset
    = some (.ok, some 0xAB010002, false) := by decide +kernel
theorem test_request_subReg : answer (.subReg { rd := some 4, rn := some 5, rm := some 6, shift := some "LSR", amount := some 2 }) State.reset
    = some (.ok, some 0xCB4608A4, false) := by decide +kernel
theorem test_request_subsReg : answer (.subsReg { rd := some 7, rn := some 8, rm := some 9, sf := some 0 }) State.reset
    = some (.ok, some 0x6B090107, false) := by decide +kernel
theorem test_request_adc : answer (.adc { rd := some 1, rn := some 2, rm := some 3, sf := some 0 }) State.reset
    = some (.ok, some 0x1A030041, false) := by decide +kernel
theorem test_request_adcs : answer (.adcs { rd := some 4, rn := some 5, rm := some 6 }) State.reset
    = some (.ok, some 0xBA0600A4, false) := by decide +kernel
theorem test_request_cmpImm : answer (.cmpImm { rn := some 1, imm := some 5 }) State.reset
    = some (.ok, some 0xF100143F, false) := by decide +kernel
theorem test_request_cmnImm : answer (.cmnImm { rn := some 2, imm := some 1, sf := some 0 }) State.reset
    = some (.ok, some 0x3100045F, false) := by decide +kernel
theorem test_request_cmpReg : answer (.cmpReg { rn := some 1, rm := some 2 }) State.reset
    = some (.ok, some 0xEB02003F, false) := by decide +kernel
theorem test_request_cmnReg : answer (.cmnReg { rn := some 3, rm := some 4, shift := some "LSL", amount := some 2 }) State.reset
    = some (.ok, some 0xAB04087F, false) := by decide +kernel
theorem test_request_andImm : answer (.andImm { rd := some 1, rn := some 2, imm := some 0x8000000000000001 }) State.reset
    = some (.ok, some 0x92410441, false) := by decide +kernel
theorem test_request_orrImm : answer (.orrImm { rd := some 3, rn := some 4, imm := some 0xFFFF0000, sf := some 0 }) State.reset
    = some (.ok, some 0x32103C83, false) := by decide +kernel
theorem test_request_eorImm : answer (.eorImm { rd := some 1, rn := some 1, imm := some 0xF0F0F0F0F0F0F0F }) State.reset
    = some (.ok, some 0xD200CC21, false) := by decide +kernel
theorem test_request_andReg : answer (.andReg { rd := some 0, rn := some 1, rm := some 2, shift := some "ASR", amount := some 31, sf := some 0 }) State.reset
    = some (.ok, some 0x0A827C20, false) := by decide +kernel
theorem test_request_orrReg : answer (.orrReg { rd := some 0, rn := some 31, rm := some 1 }) State.reset
    = some (.ok, some 0xAA0103E0, false) := by decide +kernel
theorem test_request_eorReg : answer (.eorReg { rd := some 3, rn := some 4, rm := some 5, shift := some "ROR", amount := some 7 }) State.reset
    = some (.ok, some 0xCAC51C83, false) := by decide +kernel
theorem test_request_movReg : answer (.movReg { rd := some 0, rm := some 1, sf := some 0 }) State.reset
    = some (.ok, some 0x2A0103E0, false) := by decide +kernel
theorem test_request_movSp : answer (.movSp { rd := some 29, rn := some 31 }) State.reset
    = some (.ok, some 0x910003FD, false) := by decide +kernel
theorem test_request_movBitmask : answer (.movBitmask { rd := some 0, imm := some 255 }) State.reset
    = some (.ok, some 0xB2401FE0, false) := by decide +kernel
theorem test_request_movz : answer (.movz { rd := some 0, imm := some 0x1234, hwShift := some 16, sf := some 0 }) State.reset
    = some (.ok, some 0x52A24680, false) := by decide +kernel
theorem test_request_movn : answer (.movn { rd := some 2, imm := some 5, hwShift := some 16 }) State.reset
    = some (.ok, some 0x92A000A2, false) := by decide +kernel
theorem test_request_movk : answer (.movk { rd := some 0, imm := some 0xBEEF, hwShift := some 16 }) State.reset
    = some (.ok, some 0xF2B7DDE0, false) := by decide +kernel
theorem test_request_madd : answer (.madd { rd := some 0, rn := some 1, rm := some 2, ra := some 3 }) State.reset
    = some (.ok, some 0x9B020C20, false) := by decide +kernel
theorem test_request_msub : answer (.msub { rd := some 0, rn := some 1, rm := some 2, ra := some 3 }) State.reset
    = some (.ok, some 0x9B028C20, false) := by decide +kernel
theorem test_request_mul : answer (.mul { rd := some 2, rn := some 3, rm := some 4, sf := some 0 }) State.reset
    = some (.ok, some 0x1B047C62, false) := by decide +kernel
theorem test_request_mneg : answer (.mneg { rd := some 0, rn := some 1, rm := some 2 }) State.reset
    = some (.ok, some 0x9B02FC20, false) := by decide +kernel
theorem test_request_b : answer (.b { offset := some (-33554432) }) State.reset
    = some (.ok, some 0x16000000, false) := by decide +kernel
theorem test_request_bCond : answer (.bCond { cond := some "LT", offset := some (-262144) }) State.reset
    = some (.ok, some 0x5480000B, false) := by decide +kernel
theorem test_request_ret : answer (.ret {}) State.reset
    = some (.ok, some 0xD65F03C0, false) := by decide +kernel
theorem test_request_nop : answer (.nop {}) State.reset
    = some (.ok, some 0xD503201F, false) := by decide +kernel
theorem test_request_fadd : answer (.fadd { rd := some 0, rn := some 1, rm := some 2, ftype := some "H" }) State.reset
    = some (.ok, some 0x1EE22820, false) := by decide +kernel
theorem test_request_fmul : answer (.fmul { rd := some 0, rn := some 0, rm := some 1 }) State.reset
    = some (.ok, some 0x1E610800, false) := by decide +kernel
theorem test_request_fneg : answer (.fneg { rd := some 0, rn := some 1 }) State.reset
    = some (.ok, some 0x1E614020, false) := by decide +kernel
theorem test_request_fmovReg : answer (.fmovReg { rd := some 0, rn := some 1, ftype := some "S" }) State.reset
    = some (.ok, some 0x1E204020, false) := by decide +kernel
theorem test_request_fmovImm : answer (.fmovImm { rd := some 0, fval := some 0xC004000000000000, ftype := some "S" }) State.reset
    = some (.ok, some 0x1E309000, false) := by decide +kernel

/-- R190, 0.1: a value outside the exact set is emitted as 0.125 with the warning. -/
theorem test_request_fmovImm_warns : answer (.fmovImm { rd := some 0, fval := some 0x3FB999999999999A }) State.reset
    = some (.ok, some 0x1E681000, true) := by decide +kernel

/-- R258: a bad register comes before an unrepresentable mask. -/
theorem test_priority : answer (.andImm { rd := some 32, rn := some 0, imm := some 5 }) State.reset
    = some (.fieldRange, none, false) := by decide +kernel

/-- R252. -/
theorem test_unrepresentable : answer (.andImm { rd := some 0, rn := some 0, imm := some 5 }) State.reset
    = some (.immUnrepresentable, none, false) := by decide +kernel

/-- R190: the table's saturating and truncating rows, 1.1, 15.9, -0.0, 1e10, and 31.5. -/
theorem test_compress : compress 0x3FF199999999999A = (0x71, true) ∧ compress 0x402FCCCCCCCCCCCD = (0x2F, true)
    ∧ compress 0x8000000000000000 = (0xC0, true) ∧ compress 0x4202A05F20000000 = (0x3F, true)
    ∧ compress 0x403F800000000000 = (0x3F, true) := by decide +kernel

/-- R136: three of the worked traces. -/
theorem test_canonicalize : canonicalize 0xF0 = some ⟨1, 60, 0b000011⟩ ∧ canonicalize 0x6666666666666666 = some ⟨0, 3, 0b111001⟩
    ∧ canonicalize 0b1011 = none := by decide +kernel

/-- R46: the rows of E9. -/
theorem test_region : regionOf 4096 0x10FF0 8200 = ⟨0x10000, 3 * 4096⟩ ∧ regionOf 16384 0x40000004 32 = ⟨0x40000000, 32768⟩ := by
  decide

/-! ### The target: one word each, on registers of a helper -/

/-- X1, X2 and X3 hold three values, SP another; everything else is as at reset. -/
def sample (a b c sp : DWord) : Regs :=
  ((({ Regs.initial with sp := sp }).writeX 1 a).writeX 2 b).writeX 3 c

/-- R214: SP is read and written, 32-bit arithmetic zeroes the upper half. -/
theorem test_target_addImm : (targetExec (.addImm { rd := some 31, rn := some 31, imm := some 1, sf := some 0 })
    (sample 0 0 0 0x1FFFFFFFF)).sp = 0 := by decide +kernel

/-- R214, R222: 5 compared with 7 is lower, and less. -/
theorem test_target_cmpImm : (targetExec (.cmpImm { rn := some 1, imm := some 7 }) (sample 5 0 0 0)).nzcv
    = ⟨true, false, false, false⟩ := by decide +kernel

/-- R215: a shifted operand, and the overflow of the most negative number. -/
theorem test_target_subsReg : (targetExec (.subsReg { rd := some 0, rn := some 1, rm := some 2, shift := some "LSR", amount := some 4 })
    (sample 0x8000000000000000 0x10 0 0)).nzcv = ⟨false, false, true, true⟩ := by decide +kernel

/-- R216: the carry is added. -/
theorem test_target_adc : (targetExec (.adc { rd := some 0, rn := some 1, rm := some 2 })
    { sample 3 4 0 0 with nzcv := ⟨false, false, true, false⟩ }).readX 0 = 8 := by decide +kernel

/-- R217: the destination of a logical immediate may be SP. -/
theorem test_target_orrImm : (targetExec (.orrImm { rd := some 31, rn := some 1, imm := some 0xFF }) (sample 0x100 0 0 9)).sp = 0x1FF := by
  decide +kernel

/-- R218: ROR, at 32 bits. -/
theorem test_target_eorReg : (targetExec (.eorReg
    { rd := some 0, rn := some 1, rm := some 2, shift := some "ROR", amount := some 4, sf := some 0 })
    (sample 0xFFFFFFFF00000000 0x0000000F 0 0)).readX 0 = 0xF0000000 := by decide +kernel

/-- R219: MOVK keeps the other lanes. -/
theorem test_target_movk : (targetExec (.movk { rd := some 1, imm := some 0xBEEF, hwShift := some 16 })
    (sample 0x1111222233334444 0 0 0)).readX 1 = 0x11112222BEEF4444 := by decide +kernel

/-- R220. -/
theorem test_target_msub : (targetExec (.msub { rd := some 0, rn := some 1, rm := some 2, ra := some 3 }) (sample 6 7 40 0)).readX 0
    = 0xFFFFFFFFFFFFFFFE := by decide +kernel

/-- R222, R221: a taken branch backwards. -/
theorem test_target_bCond : (targetExec (.bCond { cond := some "EQ", offset := some (-2) })
    { sample 0 0 0 0 with pc := 0x1000, nzcv := ⟨false, true, false, false⟩ }).pc = 0xFF8 := by decide +kernel

/-- R225: 1.5 + 2.25 in single precision, rounded to nearest: 3.75, exact. -/
theorem test_target_fadd : ((targetExec (.fadd { rd := some 0, rn := some 1, rm := some 2, ftype := some "S" })
    ((Regs.initial.writeV 1 0x3FC00000).writeV 2 0x40100000)).readV 0) = 0x40700000 := by decide +kernel

/-- R225: 0.1 * 0.1 in double precision rounds up to 0x3F847AE147AE147C and is inexact. -/
theorem test_target_fmul : (targetExec (.fmul { rd := some 0, rn := some 1, rm := some 1 })
    (Regs.initial.writeV 1 0x3FB999999999999A)).readV 0 = 0x3F847AE147AE147C := by decide +kernel

/-- R226: the immediate 0x84, -2.5, in half precision. -/
theorem test_target_fmovImm : (targetExec (.fmovImm { rd := some 31, fval := some 0xC004000000000000, ftype := some "H" })
    Regs.initial).readV 31 = 0xC100 := by decide +kernel

/-! ### Steps -/

/-- A session of a phase whose next input is given, with the bytes of one NOP in the buffer. -/
def session (p : Phase) (e : Err) (xs : List Input) : State :=
  { State.reset with buf := [0x1F, 0x20, 0x03, 0xD5], phase := p, err := e, inputs := xs }

/-- A session whose buffer holds at most four bytes. -/
def tight : State := { State.reset with params := { Config.Params.initial with bufferCapacity := some 4 } }

/-- Half-precision 1.0 in V1, and a word at 0x1000 in a placed buffer of a given stage, with the target at it. -/
def live (w : Word) (st : Stage) : State :=
  { State.reset with
    memory := Memory.writeBytes [] 0x1000 (bytesOfWord w)
    handed := [bytesOfWord w]
    buffers := [{ source := 0, base := 0x1000, len := 4, stage := st }]
    regs := { Regs.initial.writeV 1 0x3C00 with pc := 0x1000 }
    running := true }

/-- The region of the buffer of `live` (R46). -/
def liveRegion : Region := regionOf 4096 0x1000 4

/-- The next step of a state, where there is one. -/
def nextOf (s : State) : Option State :=
  match step s with
  | .next t => some t
  | _ => none

/-- R38: the fourth byte fits, the eighth does not. -/
theorem test_capacity : (answer (.nop {}) tight).map Prod.fst = some .ok
    ∧ (answer (.nop {}) { tight with buf := [0x1F, 0x20, 0x03, 0xD5] }).map Prod.fst = some .capacity := by decide +kernel

/-- R256. -/
theorem test_not_open : answer (.nop {}) (session .frozen .none []) = some (.sessionNotOpen, none, false) := by decide +kernel

/-- R200. -/
theorem test_reset : (nextOf (session .aborted .capacity [.reset])).map (fun t => (t.buf, t.phase, t.err))
    = some ([], .opened, .none) := by decide +kernel

/-- R201. -/
theorem test_finalize : (nextOf (session .opened .none [.finalize])).bind State.response
    = some (.finalize .ok (some [0x1F, 0x20, 0x03, 0xD5]) 4) := by decide +kernel

/-- R202: ABORTED with CAPACITY reads as 0b01110. -/
theorem test_length : (nextOf (session .aborted .capacity [.length])).bind State.response
    = some (.length .ok 4 0b01110) := by decide +kernel

/-- R45, R33. -/
theorem test_load : (nextOf { session .frozen .none [.host (.load 1 0x2000)] with handed := [[3], [1, 2]] }).map
    (fun t => t.memory) = some [(0x2000, 1), (0x2001, 2)] := by decide +kernel

/-- R48, R223: a RET to the return address ends the call. -/
theorem test_return : (nextOf { live 0xD65F03C0 (.ready liveRegion) with returnTo := 0 }).map State.running = some false := by
  decide +kernel

/-! ### Every row of the opcode table is the first instruction run after reset (R81) -/

/-- The `match` words of R81, in the table's order but for LOG_IMM, whose all-zero fields name the mask of one bit in 32. -/
def tableWords : List Nat :=
  [0x11000000, 0x31000000, 0x51000000, 0x71000000, 0x0B000000, 0x2B000000, 0x4B000000, 0x6B000000, 0x1A000000, 0x3A000000,
   0x7100001F, 0x3100001F, 0x6B00001F, 0x2B00001F, 0x12000000, 0x32000000, 0x52000000, 0x0A000000, 0x2A000000, 0x4A000000,
   0x2A0003E0, 0x11000000, 0x320003E0, 0x52800000, 0x12800000, 0x72800000, 0x1B000000, 0x1B008000, 0x1B007C00, 0x1B00FC00,
   0x14000000, 0x54000000, 0xD65F0000, 0xD503201F, 0x1E202800, 0x1E200800, 0x1E214000, 0x1E204000, 0x1E201000]

theorem test_table_words_run : (tableWords.all fun w =>
    ((nextOf (State.reset.withFetchWord 32 w)).bind State.response) == some (.encode .ok (some (BitVec.ofNat 32 w)) false)) = true := by
  decide +kernel

/-! ### Witnesses: data that meet the statements' hypotheses, each clause at a boundary of its range -/

theorem accepts_reset : accepts State.reset := ⟨rfl, fun _ h => by simp [State.reset, Config.Params.initial] at h⟩

theorem accepts_tight : accepts tight := ⟨rfl, fun _ h => by cases h; decide⟩

theorem witness_AddSubtractImmediateAppendsItsWord :
    let o : Operands := { sf := some 0, sh := some 1, imm := some 4095, rn := some 31, rd := some 31 }
    accepts tight ∧ isFieldOr 1 o.sf 0#1 ∧ isFieldOr 0 o.sh 1#1 ∧ isField o.imm 4095#12 ∧ isField o.rn 31#5 ∧ isField o.rd 31#5 :=
  ⟨accepts_tight, rfl, rfl, rfl, rfl, rfl⟩

theorem witness_AddSubtractRegisterAppendsItsWord :
    let o : Operands := { sf := some 0, shift := some "ASR", amount := some 31, rm := some 31, rn := some 0, rd := some 0 }
    accepts tight ∧ isFieldOr 1 o.sf 0#1 ∧ isShift arithShiftCodes o 0#1 0b10#2 31#6
      ∧ isField o.rm 31#5 ∧ isField o.rn 0#5 ∧ isField o.rd 0#5 :=
  ⟨accepts_tight, rfl, ⟨by decide, rfl, fun _ => by decide⟩, rfl, rfl, rfl⟩

theorem witness_AddSubtractRegister_defaults :
    isFieldOr 1 ({} : Operands).sf 1#1 ∧ isShift arithShiftCodes {} 1#1 0b00#2 0#6
      ∧ isShift arithShiftCodes { amount := some 63 } 1#1 0b00#2 63#6 :=
  ⟨rfl, ⟨by decide, rfl, fun h => by simp at h⟩, ⟨by decide, rfl, fun h => by simp at h⟩⟩

theorem witness_AddWithCarryAppendsItsWord :
    let o : Operands := { shift := some "LSL", amount := some 0, rm := some 31, rn := some 0, rd := some 31 }
    accepts State.reset ∧ isFieldOr 1 o.sf 1#1 ∧ (o.shift = none ∨ o.shift = some "LSL") ∧ (o.amount = none ∨ o.amount = some 0)
      ∧ isField o.rm 31#5 ∧ isField o.rn 0#5 ∧ isField o.rd 31#5 :=
  ⟨accepts_reset, rfl, .inr rfl, .inr rfl, rfl, rfl, rfl⟩

theorem witness_LogicalImmediateAppendsItsWord :
    let o : Operands := { sf := some 0, imm := some 0xFFFFFFFE, rn := some 31, rd := some 31 }
    accepts State.reset ∧ isFieldOr 1 o.sf 0#1 ∧ isField o.imm 0xFFFFFFFE#64 ∧ ((0#1 = 0#1) → (0xFFFFFFFE#64).toNat < 2 ^ 32)
      ∧ canonicalize (0xFFFFFFFE#32 ++ 0xFFFFFFFE#32) = some ⟨0, 31, 0b011110⟩ ∧ isField o.rd 31#5 ∧ isField o.rn 31#5 :=
  ⟨accepts_reset, rfl, rfl, fun _ => by decide, by decide +kernel, rfl, rfl⟩

theorem witness_LogicalImmediate_64 :
    isField (some 0x8000000000000001) 0x8000000000000001#64
      ∧ canonicalize (if (1#1 = 1#1) then 0x8000000000000001#64 else 0) = some ⟨1, 1, 1⟩ :=
  ⟨rfl, by decide +kernel⟩

theorem witness_LogicalRegisterAppendsItsWord :
    let o : Operands := { shift := some "ROR", amount := some 63, rm := some 31, rn := some 31, rd := some 0 }
    accepts State.reset ∧ isFieldOr 1 o.sf 1#1 ∧ isShift logicalShiftCodes o 1#1 0b11#2 63#6
      ∧ isField o.rm 31#5 ∧ isField o.rn 31#5 ∧ isField o.rd 0#5 :=
  ⟨accepts_reset, rfl, ⟨by decide, rfl, fun h => by simp at h⟩, rfl, rfl, rfl⟩

theorem witness_MovesAppendTheirWord :
    let o : Operands := { hwShift := some 48, imm := some 65535, rm := some 31, rn := some 31, rd := some 31 }
    accepts State.reset ∧ isFieldOr 1 o.sf 1#1 ∧ isField o.rd 31#5 ∧ isField o.rm 31#5 ∧ isField o.rn 31#5
      ∧ o.hwShift.getD 0 = 16 * ((3#2).toNat : Int) ∧ ((1#1 : BitVec 1) = 0 → (3#2).toNat < 2) ∧ isField o.imm 65535#16 :=
  ⟨accepts_reset, rfl, rfl, rfl, rfl, rfl, fun h => by simp at h, rfl⟩

theorem witness_Moves_32 :
    let o : Operands := { sf := some 0, hwShift := some 16, imm := some 0, rd := some 0 }
    isFieldOr 1 o.sf 0#1 ∧ o.hwShift.getD 0 = 16 * ((1#2).toNat : Int) ∧ ((0#1 : BitVec 1) = 0 → (1#2).toNat < 2)
      ∧ isField o.imm 0#16 ∧ isField o.rd 0#5 :=
  ⟨rfl, rfl, fun _ => by decide, rfl, rfl⟩

theorem witness_MultipliesAppendTheirWord :
    let o : Operands := { rm := some 31, ra := some 31, rn := some 31, rd := some 31 }
    accepts State.reset ∧ isFieldOr 1 o.sf 1#1 ∧ isField o.rm 31#5 ∧ isField o.rn 31#5 ∧ isField o.rd 31#5 ∧ isField o.ra 31#5 :=
  ⟨accepts_reset, rfl, rfl, rfl, rfl, rfl⟩

theorem witness_BranchesAppendTheirWord :
    accepts State.reset ∧ (some (-33554432) : Option Int) = some (BitVec.toInt 0x2000000#26)
      ∧ ("LE", 0b1101#4) ∈ condCodes ∧ (some (-262144) : Option Int) = some (BitVec.toInt 0x40000#19)
      ∧ isFieldOr 30 none 30#5 ∧ isFieldOr 30 (some 31) 31#5 :=
  ⟨accepts_reset, by decide, by decide, by decide, rfl, rfl⟩

theorem witness_FloatingPointAppendsItsWord :
    let o : Operands := { ftype := some "H", rm := some 31, rn := some 31, rd := some 31 }
    accepts State.reset ∧ (o.ftype.getD "D", 0b11#2) ∈ ftypeCodes ∧ isField o.rn 31#5 ∧ isField o.rd 31#5 ∧ isField o.rm 31#5 :=
  ⟨accepts_reset, by decide, rfl, rfl, rfl⟩

theorem witness_FloatImmediateAppendsItsWord :
    accepts State.reset ∧ (Option.getD none "D", 0b01#2) ∈ ftypeCodes ∧ isField (some 31) 31#5
      ∧ (false = false ↔ ∃ imm8, 0x3FF0000000000000#64 = imm8ToDouble imm8) ∧ (true = false ↔ ∃ imm8, 0#64 = imm8ToDouble imm8) :=
  ⟨accepts_reset, by decide, rfl, by decide +kernel, by decide +kernel⟩

theorem witness_RequestsEmitTheEncodersWord :
    accepts tight ∧ Instr.wellFormed (.andImm { rd := some 0, rn := some 0, imm := some 0xFF }) = true :=
  ⟨accepts_tight, by decide +kernel⟩

theorem witness_FieldRangeExactlyWhenAnOperandIsIllegal :
    State.reset.phase = .opened ∧ fieldsLegal (.ret { rn := some 32 }) = false ∧ fieldsLegal (.ret { rn := some 31 }) = true := by
  decide +kernel

theorem witness_UnrepresentableExactlyWhenCanonicalizationFails :
    State.reset.phase = .opened ∧ fieldsLegal (.andImm { rd := some 0, rn := some 0, imm := some 0 }) = true
      ∧ canonicalize (maskOf 0 1) = none ∧ canonicalize (maskOf 5 1) = none ∧ canonicalize (maskOf 1 1) ≠ none := by decide +kernel

theorem witness_CapacityExactlyWhenTheBufferIsFull :
    tight.phase = .opened ∧ Instr.wellFormed (.nop {}) = true ∧ ¬ 4 < tight.len + 4
      ∧ 4 < ({ tight with buf := [0x1F, 0x20, 0x03, 0xD5] } : State).len + 4 := by decide +kernel

theorem witness_ClosedSessionsRefuseRequests :
    (session .frozen .none []).phase ≠ .opened ∧ (session .aborted .capacity []).phase ≠ .opened := by decide

theorem witness_FailedRequestsAbortTheSession :
    (answer (.ret { rn := some 32 }) State.reset).map Prod.fst = some .fieldRange
      ∧ (answer (.movBitmask { rd := some 0, imm := some 0 }) State.reset).map Prod.fst = some .immUnrepresentable
      ∧ (answer (.nop {}) { tight with buf := [0x1F, 0x20, 0x03, 0xD5] }).map Prod.fst = some .capacity := by decide +kernel

theorem witness_ResetGivesTheResetState :
    issues (session .aborted .capacity [.reset]) .reset [] ∧ issues (session .frozen .none [.reset, .length]) .reset [.length]
      ∧ State.reset.buf = [] ∧ State.reset.phase = .opened ∧ State.reset.err = .none ∧ State.reset.approx = false :=
  ⟨⟨rfl, rfl⟩, ⟨rfl, rfl⟩, rfl, rfl, rfl, rfl⟩

theorem witness_FinalizeFreezesAnOpenSession :
    issues (session .opened .none [.finalize]) .finalize [] ∧ (session .opened .none [.finalize]).phase = .opened
      ∧ issues (session .frozen .none [.finalize]) .finalize [] ∧ (session .frozen .none [.finalize]).phase ≠ .opened :=
  ⟨⟨rfl, rfl⟩, rfl, ⟨rfl, rfl⟩, by decide⟩

theorem witness_LengthReportsTheStatus : issues (session .aborted .capacity [.length]) .length [] := ⟨rfl, rfl⟩

/-- Each edge of PHASE is taken by a step. -/
theorem witness_PhaseMovesOnlyAlongItsEdges :
    (nextOf (session .opened .none [.finalize])).map State.phase = some .frozen
      ∧ (nextOf (session .opened .none [.encode (.ret { rn := some 32 })])).map State.phase = some .aborted
      ∧ (nextOf (session .frozen .none [.reset])).map State.phase = some .opened
      ∧ (nextOf (session .opened .none [.length])).map State.phase = some .opened := by decide +kernel

/-- APPROX is set by a value outside the 256, stays, and is cleared by RESET. -/
theorem witness_ApproxIsStickyUntilReset :
    (nextOf (session .opened .none [.encode (.fmovImm { rd := some 0, fval := some 0 })])).map State.approx = some true
      ∧ (nextOf { session .opened .none [.encode (.nop {})] with approx := true }).map State.approx = some true
      ∧ (nextOf { session .opened .none [.reset] with approx := true }).map State.approx = some false
      ∧ ¬ ∃ imm8, 0#64 = imm8ToDouble imm8 := by decide +kernel

theorem witness_BufferOnlyGrowsByWholeWords :
    (nextOf (session .opened .none [.encode (.nop {})])).map State.len = some 8
      ∧ (nextOf (session .opened .none [.reset])).map State.len = some 0
      ∧ (nextOf (session .opened .none [.finalize])).map State.len = some 4 := by decide +kernel

theorem witness_SequencesOfRequestsFillTheBuffer :
    let s := session .opened .none [.encode (.nop {}), .encode (.ret {}), .finalize]
    s.running = false ∧ s.phase = .opened ∧ s.params.bufferCapacity = none
      ∧ s.inputs = [Instr.nop {}, .ret {}].map Input.encode ++ [.finalize] ∧ ∀ i ∈ [Instr.nop {}, .ret {}], i.wellFormed = true := by
  decide +kernel

theorem witness_ParametersAreFixed : (nextOf { tight with inputs := [.reset] }).map State.params = some tight.params := by decide +kernel

theorem witness_HandedBytesAreImmutable :
    (nextOf { session .opened .none [.finalize] with handed := [[1]] }).map State.handed = some [[1], [0x1F, 0x20, 0x03, 0xD5]]
      ∧ (nextOf { session .frozen .none [.reset] with handed := [[1]] }).map State.handed = some [[1]] := by decide +kernel

theorem witness_DecodingReadsTheEncodingBack :
    Instr.wellFormed (.addImm { rd := some 31, rn := some 31, imm := some 4095, sh := some 1 }) = true
      ∧ Instr.wellFormed (.bCond { cond := some "LE", offset := some (-262144) }) = true := by decide +kernel

theorem witness_DecodedWordsAreEncodings :
    decodeWord 0xD65F03E0 = .ok (.ret { rn := some 31 })
      ∧ decodeWord 0x92407C00 = .ok (.andImm { sf := some 1, imm := some 0xFFFFFFFF, rn := some 0, rd := some 0 }) := by decide +kernel

theorem witness_PackPlacesEveryField :
    totalWidth (fieldsB (2 ^ 26 - 1)) = 32 ∧ (∀ p ∈ fieldsB (2 ^ 26 - 1), p.1 < 2 ^ p.2)
      ∧ totalWidth (fieldsB (2 ^ 26)) = 32 ∧ ∃ p ∈ fieldsB (2 ^ 26), 2 ^ p.2 ≤ p.1 := by decide

theorem witness_CanonicalizationInvertsTheDecode :
    canonicalize 0xFFFFFFFFFFFFFFFE = some ⟨1, 63, 0b111110⟩ ∧ decodeBitMasks ⟨1, 63, 0b111110⟩ = some 0xFFFFFFFFFFFFFFFE
      ∧ highestSetBit ((1#1 ++ ~~~ 0b111110#6).toNat) 7 = some 6 ∧ canonicalize (1#32 ++ 1#32) = some ⟨0, 0, 0⟩ := by decide +kernel

theorem witness_CompressionIsMonotoneAndSaturates :
    (0x3FBFFFFFFFFFFFFF#64).toNat < 0x3FC0000000000000 ∧ 0x403F000000000000 ≤ (0x7FFFFFFFFFFFFFFF#64).toNat
      ∧ (0x7FFFFFFFFFFFFFFF#64).toNat < 2 ^ 63 ∧ (0x7FEFFFFFFFFFFFFF#64).toNat ≤ (0x7FF0000000000000#64).toNat
      ∧ (0x7FF0000000000000#64).toNat ≤ 0x7FF0000000000000
      ∧ ((BitVec.ofNat 16 (toHalf 0x3FC0000000000000)).extractLsb' 10 5).toNat = 12
      ∧ ((BitVec.ofNat 16 (toHalf 0xC03FFF0000000000)).extractLsb' 10 5).toNat = 20
      ∧ ((BitVec.ofNat 16 (toHalf 0x403F000000000000)).extractLsb' 10 5).toNat = 19
      ∧ ((BitVec.ofNat 16 (toHalf 0)).extractLsb' 10 5).toNat = 0 := by decide +kernel

/-- R187, D28: inside the window the fraction is cut, not rounded: 1 + 1/16 + 15/256 gives the immediate of 1 + 1/16. -/
theorem test_compress_truncates : compress 0x3FF1F00000000000 = (0x71, true) := by decide +kernel

theorem witness_ToHalfRoundsToNearest :
    valueOf fmtDouble (0x3FF0000000000000#64).toNat = some 1
      ∧ fmtDouble.unpack (0xFFF0000000000000#64).toNat = .inf true ∧ fmtDouble.unpack (0x7FF8000000000000#64).toNat = .nan false := by
  refine ⟨?_, by decide +kernel, by decide +kernel⟩
  rw [valueOf, show fmtDouble.unpack (0x3FF0000000000000#64).toNat = .finite false (2 ^ 52) (-52) by decide +kernel]
  norm_num [ratOf]

theorem witness_StepRunsTheRequestedInstruction :
    decodeTableWord 32 0xD503201F = some (.nop {}) ∧ decodeTableWord 32 0x14000000 = some (.b { offset := some 0 })
      ∧ issues (session .opened .none [.encode (.nop {})]) (.encode (.nop {})) [] :=
  ⟨by decide +kernel, by decide +kernel, rfl, rfl⟩

theorem witness_StepRunsTheFetchedWord :
    let s := live 0x1EE12820 (.ready liveRegion)
    s.running = true ∧ targetFetch s = .ok 0x1EE12820
      ∧ decodeWord 0x1EE12820 = .ok (.fadd { ftype := some "H", rm := some 1, rn := some 1, rd := some 0 })
      ∧ s.params.targetHasFp16 = true ∧ isHalf (.fadd { ftype := some "S", rm := some 1, rn := some 1, rd := some 0 }) = false :=
  ⟨rfl, rfl, by decide +kernel, rfl, by decide⟩

theorem witness_TargetStopsWhereNoWordCanRun :
    let s := live 0x1EE12820 (.permitted liveRegion)
    let t := live 0x1EE12820 (.ready liveRegion)
    s.running = true ∧ s.regs.pc.toNat % 4 = 0 ∧ Memory.fetch s.memory 0x1000 = some 0x1EE12820
      ∧ (∃ b ∈ s.buffers, b.holds 0x1000 = true) ∧ (∀ b ∈ s.buffers, readyAt 0x1000 b = false)
      ∧ (∃ b ∈ t.buffers, readyAt 0x1000 b = true) ∧ (∀ b ∈ t.buffers, b.holds 0x1004 = false)
      ∧ (∃ b ∈ t.buffers, readyAt 0x1000 b = true ∧ Memory.fetch [] 0x1000 = none) ∧ (0x1002#64).toNat % 4 ≠ 0
      ∧ decodeWord 0xFFFFFFFF = .error .notAForm
      ∧ isHalf (.fadd { ftype := some "H", rm := some 1, rn := some 1, rd := some 0 }) = true := by decide +kernel

theorem witness_LoadPlacesTheBytes :
    let s : State := { session .frozen .none [.host (.load 0 0xFFFFFFFFFFFFFFFE)] with handed := [[1, 2]] }
    let t (n : Nat) (a : DWord) : State :=
      { live 0xD503201F (.ready liveRegion) with running := false, inputs := [.host (.load n a)], handed := [bytesOfWord 0xD503201F, [1], []] }
    issues s (.host (.load 0 0xFFFFFFFFFFFFFFFE)) [] ∧ s.handed[0]? = some [1, 2] ∧ s.platformError = false
      ∧ (0xFFFFFFFFFFFFFFFE#64).toNat + 2 ≤ 2 ^ 64 ∧ alreadyExecutable s.buffers 0 = false
      ∧ (∀ b ∈ s.buffers, rewritesRegion 0xFFFFFFFFFFFFFFFE 2 b = false)
      ∧ issues (t 1 0x2FFF) (.host (.load 1 0x2FFF)) [] ∧ (t 1 0x2FFF).handed[1]? = some [1]
      ∧ alreadyExecutable (t 1 0x2FFF).buffers 1 = false ∧ (∃ b ∈ (t 1 0x2FFF).buffers, rewritesRegion 0x2FFF 1 b = true)
      ∧ alreadyExecutable (t 0 0x8000).buffers 0 = true ∧ (t 2 0x1000).handed[2]? = some [] :=
  ⟨⟨rfl, rfl⟩, rfl, rfl, by decide, by decide, by decide, ⟨rfl, rfl⟩, rfl, by decide, by decide +kernel, by decide, rfl⟩

/-- R47, R201, D32: an empty buffer placed at the start of a ready one, or inside its region, leaves it in place. -/
theorem test_load_empty : ([0x1000, 0x1002, 0x2000].all fun a =>
    (nextOf { live 0xD503201F (.ready liveRegion) with
        running := false, inputs := [.host (.load 1 a)], handed := [bytesOfWord 0xD503201F, []] }).map (fun t => t.buffers)
      == some [⟨1, a, 0, .placed⟩, ⟨0, 0x1000, 4, .ready liveRegion⟩]) = true := by decide +kernel

theorem witness_RegionContainsTheBuffer : 0 < 1 ∧ regionOf 1 7 3 = ⟨7, 3⟩ ∧ regionOf 4096 8191 0 = ⟨4096, 8192⟩ := by decide

theorem witness_PermissionIsGrantedOnce :
    let b : Buffer := { source := 0, base := 0x1000, len := 4, stage := .placed }
    let s (x : HostAction) (st : Stage) : State := { live 0xD503201F st with running := false, inputs := [.host x] }
    findBuffer (s (.permission 0 true) .placed).buffers 0 = some b
      ∧ issues (s (.permission 0 true) .placed) (.host (.permission 0 true)) []
      ∧ issues (s (.permission 0 false) .placed) (.host (.permission 0 false)) []
      ∧ issues (s (.maintainFetch 0) (.permitted liveRegion)) (.host (.maintainFetch 0)) []
      ∧ (findBuffer (s (.maintainFetch 0) (.permitted liveRegion)).buffers 0).map Buffer.stage
        = some (.permitted liveRegion)
      ∧ (s (.permission 0 true) .placed).platformError = false :=
  ⟨rfl, ⟨rfl, rfl⟩, ⟨rfl, rfl⟩, ⟨rfl, rfl⟩, rfl, rfl⟩

theorem witness_CallsEnterReadyBuffersAtTheirStart :
    let s (st : Stage) : State :=
      { live 0xD503201F st with running := false, inputs := [.host (.call 0 (.int 3) 0x8000 Regs.initial)] }
    issues (s (.ready liveRegion)) (.host (.call 0 (.int 3) 0x8000 Regs.initial)) []
      ∧ (s .placed).platformError = false
      ∧ (findBuffer (s (.ready liveRegion)).buffers 0).map Buffer.stage = some (.ready liveRegion)
      ∧ (findBuffer (s .placed).buffers 0).map Buffer.stage = some .placed ∧ (∀ r, Stage.placed ≠ .ready r)
      ∧ Regs.initial.sp.toNat % 16 = 0 ∧ (8#64).toNat % 16 ≠ 0 :=
  ⟨⟨rfl, rfl⟩, rfl, rfl, rfl, fun _ h => by simp at h, rfl, by decide⟩

theorem witness_AddSubtractWordsOnTheTarget :
    let o : Operands := { sf := some 0, sh := some 1, imm := some 4095, shift := some "ASR", amount := some 31,
                          rm := some 31, rn := some 31, rd := some 31 }
    isFieldOr 1 o.sf 0#1 ∧ (32 : Nat) = (if (0#1 : BitVec 1) = 1 then 64 else 32) ∧ isField o.rn 31#5 ∧ isFieldOr 0 o.sh 1#1
      ∧ isField o.imm 4095#12 ∧ isField o.rd 31#5 ∧ isField o.rm 31#5 ∧ (shiftName .asr, 0b10#2) ∈ arithShiftCodes
      ∧ isShift arithShiftCodes o 0#1 0b10#2 31#6 :=
  ⟨rfl, by decide, rfl, rfl, rfl, rfl, rfl, by decide, ⟨by decide, rfl, fun _ => by decide⟩⟩

theorem witness_LogicalWordsOnTheTarget :
    let o : Operands := { imm := some 0x8000000000000001, shift := some "ROR", amount := some 63, rm := some 31, rn := some 0, rd := some 31 }
    isFieldOr 1 o.sf 1#1 ∧ (64 : Nat) = (if (1#1 : BitVec 1) = 1 then 64 else 32) ∧ isField o.rd 31#5
      ∧ isField o.imm 0x8000000000000001#64 ∧ isField o.rn 0#5 ∧ isField o.rm 31#5
      ∧ (shiftName .ror, 0b11#2) ∈ logicalShiftCodes ∧ isShift logicalShiftCodes o 1#1 0b11#2 63#6 :=
  ⟨rfl, by decide, rfl, rfl, rfl, rfl, by decide, ⟨by decide, rfl, fun h => by simp at h⟩⟩

theorem witness_WideMovesOnTheTarget :
    let o : Operands := { hwShift := some 48, imm := some 65535, rd := some 30 }
    isFieldOr 1 o.sf 1#1 ∧ (64 : Nat) = (if (1#1 : BitVec 1) = 1 then 64 else 32) ∧ o.hwShift.getD 0 = 16 * ((3#2).toNat : Int)
      ∧ ((1#1 : BitVec 1) = 0 → (3#2).toNat < 2) ∧ isField o.imm 65535#16 ∧ isField o.rd 30#5 :=
  ⟨rfl, by decide, rfl, fun h => by simp at h, rfl, rfl⟩

theorem witness_MultiplyWordsOnTheTarget :
    let o : Operands := { sf := some 0, rm := some 31, ra := some 30, rn := some 0, rd := some 31 }
    isFieldOr 1 o.sf 0#1 ∧ (32 : Nat) = (if (0#1 : BitVec 1) = 1 then 64 else 32) ∧ isField o.rm 31#5 ∧ isField o.rn 0#5
      ∧ isField o.rd 31#5 ∧ isField o.ra 30#5 :=
  ⟨rfl, by decide, rfl, rfl, rfl, rfl⟩

theorem witness_BranchWordsOnTheTarget :
    (some 33554431 : Option Int) = some (BitVec.toInt 0x1FFFFFF#26) ∧ (some (-262144) : Option Int) = some (BitVec.toInt 0x40000#19)
      ∧ 0 < 1 := by decide

theorem witness_ReturnWordsOnTheTarget :
    isFieldOr 30 (none : Option Int) 30#5 ∧ isFieldOr 30 (some 31) 31#5
      ∧ (live 0xD65F03C0 (.ready liveRegion)).regs.readX 30 = (live 0xD65F03C0 (.ready liveRegion)).returnTo
      ∧ (live 0xD65F03C0 (.ready liveRegion)).returnTo.toNat % 4 = 0 ∧ (live 0xD65F03C0 (.ready liveRegion)).running = true
      ∧ (0x1001#64).toNat % 4 ≠ 0 :=
  ⟨rfl, rfl, rfl, rfl, rfl, by decide⟩

theorem witness_NonBranchingWordsAdvance :
    conditionHolds (condOf { cond := some "EQ", offset := some 1 }) Regs.initial.nzcv = false
      ∧ (∀ o, Instr.movz {} ≠ .b o) ∧ (∀ o, Instr.movz {} ≠ .ret o) ∧ ∀ o, Instr.movz {} ≠ .bCond o :=
  ⟨by decide, fun _ h => by simp at h, fun _ h => by simp at h, fun _ h => by simp at h⟩

theorem witness_FloatWordsOnTheTarget :
    let o : Operands := { ftype := some "H", fval := some 0, rm := some 31, rn := some 31, rd := some 31 }
    o.ftype.getD "D" = ftypeName .h ∧ (ftypeName .h, 16) ∈ ftypeWidths ∧ isField o.rd 31#5 ∧ isField o.rn 31#5 ∧ isField o.rm 31#5
      ∧ o.fval = some 0 ∧ (ftypeName .d, 64) ∈ ftypeWidths :=
  ⟨rfl, by decide, rfl, rfl, rfl, rfl, by decide⟩

theorem witness_FloatArithmeticIsCorrectlyRounded :
    Fpcr.flushes ⟨.tieEven, false, false, true⟩ .s = false ∧ valueOf fmtSingle 0x3F800000 = some 1
      ∧ valueOf fmtHalf 0x7BFF = some 65504 ∧ valueOf fmtDouble 0 = some 0 := by
  refine ⟨rfl, ?_, ?_, ?_⟩
  · rw [valueOf, show fmtSingle.unpack 0x3F800000 = .finite false (2 ^ 23) (-23) by decide +kernel]
    norm_num [ratOf]
  · rw [valueOf, show fmtHalf.unpack 0x7BFF = .finite false 2047 5 by decide +kernel]
    norm_num [ratOf]
  · rw [valueOf, show fmtDouble.unpack 0 = .finite false 0 (-1074) by decide +kernel]
    norm_num [ratOf]

/-- The special operands of the same statement: infinities of both signs, a quiet and a signalling NaN, a zero and a nonzero operand. -/
theorem witness_FloatArithmetic_special :
    fmtSingle.unpack 0x7F800000 = .inf false ∧ fmtSingle.unpack 0xFF800000 = .inf true ∧ fmtSingle.unpack 0x7FC00000 = .nan false
      ∧ fmtSingle.unpack 0x7F800001 = .nan true ∧ valueOf fmtSingle 0x80000000 = some 0 ∧ fmtSingle.signOf 0x80000000 = true := by
  refine ⟨by decide +kernel, by decide +kernel, by decide +kernel, by decide +kernel, ?_, by decide +kernel⟩
  rw [valueOf, show fmtSingle.unpack 0x80000000 = .finite true 0 (-149) by decide +kernel]
  norm_num [ratOf]

theorem witness_NarrowWritesZeroTheRest :
    let i : Instr := .addImm { sf := some 0, rd := some 31, rn := some 0, imm := some 1 }
    i.operands.sf = some 0 ∧ writesX i = some 31 ∧ writesSp i = true
      ∧ writesX (.addReg { sf := some 0, rd := some 31, rn := some 0, rm := some 0 }) = some 31
      ∧ writesSp (.addReg { sf := some 0, rd := some 31, rn := some 0, rm := some 0 }) = false
      ∧ writesX (.movz { rd := some 31, imm := some 1 }) = some 31 ∧ writesSp (.movz { rd := some 31, imm := some 1 }) = false
      ∧ writesX (.movz { sf := some 0, rd := some 30, imm := some 1 }) = some 30
      ∧ writesV (.fneg { ftype := some "S", rd := some 31, rn := some 0 }) = some 31
      ∧ (ftypeName (ftypeOf { ftype := some "S", rd := some 31, rn := some 0 }), 32) ∈ ftypeWidths := by decide

theorem witness_WordsChangeOnlyTheirDestinations :
    writesX (.movz { rd := some 0, imm := some 1 }) ≠ some 1 ∧ writesSp (.movSp { rd := some 31, rn := some 0 }) = true
      ∧ writesSp (.nop {}) = false ∧ writesV (.nop {}) ≠ some 0 ∧ setsFlags (.adc {}) = false ∧ roundsResult (.fneg {}) = false := by
  decide

theorem witness_AddWithCarrySetsTheFlags : 0 < 1 := by decide

theorem witness_ShiftRegMovesTheBits : 63 < 64 ∧ 0 < 64 := by decide

/-- A NOP in a ready buffer, with the target at it, meets the invariant. -/
theorem inv_live : Inv (live 0xD503201F (.ready liveRegion)) := by
  refine ⟨by decide, rfl, fun bytes h => ?_, writeBytes_wf _ _ _ List.Pairwise.nil, by decide, fun b hb => ?_⟩
  · obtain rfl := List.mem_singleton.mp h
    decide +kernel
  · obtain rfl := List.mem_singleton.mp hb
    refine ⟨by decide, fun r hr => ?_, bytesOfWord 0xD503201F, rfl, rfl, by decide +kernel⟩
    cases hr; rfl

theorem witness_EveryStepKeepsTheInvariant :
    Inv (live 0xD503201F (.ready liveRegion)) ∧ (nextOf (live 0xD503201F (.ready liveRegion))).isSome = true :=
  ⟨inv_live, by decide +kernel⟩

theorem witness_ExecutableBuffersPersist :
    let s : State := { live 0xD503201F (.ready liveRegion) with running := true }
    Inv s ∧ (nextOf s).isSome = true ∧ (∃ b ∈ s.buffers, b.stage.region = some liveRegion ∧ b.stage = .ready liveRegion)
      ∧ liveRegion.start ≤ 0x1000 ∧ 0x1000 < liveRegion.start + liveRegion.size :=
  ⟨inv_live, by decide +kernel, ⟨_, List.mem_singleton.mpr rfl, rfl, rfl⟩, by decide, by decide⟩

theorem witness_ReadyBuffersRun :
    Inv (live 0xD503201F (.ready liveRegion)) ∧ (live 0xD503201F (.ready liveRegion)).running = true
      ∧ atReadyWord (live 0xD503201F (.ready liveRegion)) ∧ (live 0xD503201F (.ready liveRegion)).params.targetHasFp16 = true :=
  ⟨inv_live, rfl, ⟨_, List.mem_singleton.mpr rfl, ⟨_, rfl⟩, by decide, 0, by decide, by decide⟩, rfl⟩

end Sys2Proof.Tests
end

section
/-! SUPPORT. The block over one step (10_state.md): what a step does to BUF, PHASE, ERR and APPROX, said once, and the statements about
the session that follow from it. -/

namespace Sys2Proof.Proofs

open Machine Safety

/-! ### The 256 values without a warning (R62, R186) -/

theorem doubleExp_code (sign : Bool) {e frac : Nat} (he : e < 2 ^ 11) (hf : frac < 2 ^ 52) :
    fmtDouble.expOf (fmtDouble.code sign e frac) = e := by
  cases sign <;> simp [FpFormat.expOf, FpFormat.code, FpFormat.width, fmtDouble] <;> omega

theorem doubleFrac_code (sign : Bool) {e frac : Nat} (hf : frac < 2 ^ 52) :
    fmtDouble.fracOf (fmtDouble.code sign e frac) = frac := by
  cases sign <;> simp [FpFormat.fracOf, FpFormat.code, FpFormat.width, fmtDouble] <;> omega

theorem doubleCode_lt (sign : Bool) {e frac : Nat} (he : e < 2 ^ 11) (hf : frac < 2 ^ 52) :
    fmtDouble.code sign e frac < 2 ^ 64 := by
  cases sign <;> simp [FpFormat.code, FpFormat.width, fmtDouble] <;> omega

/-- A binary64 code is put together again from its three fields. -/
theorem doubleCode_fields {x : Nat} (hx : x < 2 ^ 64) :
    fmtDouble.code (fmtDouble.signOf x) (fmtDouble.expOf x) (fmtDouble.fracOf x) = x := by
  simp only [FpFormat.code, FpFormat.signOf, FpFormat.expOf, FpFormat.fracOf, FpFormat.width, fmtDouble,
    Nat.testBit_eq_decide_div_mod_eq, decide_eq_true_eq]
  split <;> omega

/-- The immediate `a:b:cd:efgh` of an exponent `1020 + e` and the upper four fraction bits `k`. -/
def imm8OfFields (sign : Bool) (e : Fin 8) (k : Fin 16) : BitVec 8 :=
  BitVec.ofBool sign ++ BitVec.ofNat 3 (e + 4) ++ BitVec.ofNat 4 k

theorem expandImm8_imm8OfFields :
    ∀ (sign : Bool) (e : Fin 8) (k : Fin 16),
      expandImm8 fmtDouble (imm8OfFields sign e k) = fmtDouble.code sign (1020 + e) (k * 2 ^ 48) := by decide

/-- R62: an immediate expands to an exponent in `-3..4` and a fraction of four bits. -/
theorem expandImm8_fields (imm8 : BitVec 8) :
    ∃ sign e k, 1020 ≤ e ∧ e ≤ 1027 ∧ k < 16 ∧ expandImm8 fmtDouble imm8 = fmtDouble.code sign e (k * 2 ^ 48) := by
  have hcd := (imm8.extractLsb' 4 2).isLt
  refine ⟨imm8.getLsbD 7, _, (imm8.extractLsb' 0 4).toNat, ?_, ?_, (imm8.extractLsb' 0 4).isLt, rfl⟩ <;>
    · simp only [fmtDouble]
      split <;> omega

/-- R186: the set that the warning is decided by is the set of the values of the 256 immediates. -/
theorem inFp8Set_iff (x : DWord) : inFp8Set x = true ↔ ∃ imm8, x = imm8ToDouble imm8 := by
  simp only [inFp8Set, Bool.and_eq_true, decide_eq_true_eq]
  constructor
  · rintro ⟨⟨hlo, hhi⟩, hlow⟩
    have hfrac : fmtDouble.fracOf x.toNat < 2 ^ 52 := Nat.mod_lt _ (by decide)
    have hexpand := expandImm8_imm8OfFields (fmtDouble.signOf x.toNat) ⟨fmtDouble.expOf x.toNat - 1020, by omega⟩
      ⟨fmtDouble.fracOf x.toNat / 2 ^ 48, by omega⟩
    dsimp only at hexpand
    rw [Nat.add_sub_cancel' hlo, Nat.div_mul_cancel (Nat.dvd_of_mod_eq_zero hlow), doubleCode_fields x.isLt] at hexpand
    exact ⟨_, by rw [imm8ToDouble, hexpand, BitVec.ofNat_toNat, BitVec.setWidth_eq]⟩
  · rintro ⟨imm8, rfl⟩
    obtain ⟨sign, e, k, hlo, hhi, hk, hexpand⟩ := expandImm8_fields imm8
    have he : e < 2 ^ 11 := by omega
    have hf : k * 2 ^ 48 < 2 ^ 52 := by omega
    rw [imm8ToDouble, hexpand, BitVec.toNat_ofNat, Nat.mod_eq_of_lt (doubleCode_lt sign he hf), doubleExp_code sign he hf,
      doubleFrac_code sign hf]
    exact ⟨⟨hlo, hhi⟩, Nat.mul_mod_left k _⟩

/-! ### Which requests warn (R18, R186, R253) -/

/-- The request is FMOV_imm of a value that is not one of the 256. -/
def InexactFmov (i : Instr) : Prop :=
  ∃ o x, i = .fmovImm o ∧ o.fval = some x ∧ ¬ ∃ imm8, x = imm8ToDouble imm8

/-- An answer of a composed check comes from an answer of its first part. -/
theorem except_bind_ok {α β : Type} {x : Except EncErr α} {f : α → Except EncErr β} {b : β} (h : x >>= f = .ok b) :
    ∃ a, x = .ok a ∧ f a = .ok b := by
  cases x with
  | error e => cases h
  | ok a => exact ⟨a, rfl, h⟩

/-- R185: FMOV_imm answers a word only for a value that is present, and the warning is that value's. -/
theorem fpImm_ok {o : Operands} {enc : Encoded} (h : fpImm o = .ok enc) :
    ∃ x, o.fval = some x ∧ enc.warn = !inFp8Set x := by
  obtain ⟨_, _, h⟩ := except_bind_ok h
  obtain ⟨_, _, h⟩ := except_bind_ok h
  obtain ⟨x, hx, h⟩ := except_bind_ok h
  obtain ⟨_, _, h⟩ := except_bind_ok h
  cases h
  cases hf : o.fval with
  | none => simp [hf] at hx
  | some y => rw [hf] at hx; cases hx; exact ⟨_, rfl, rfl⟩

theorem fpImm_warn {o : Operands} {enc : Encoded} (h : fpImm o = .ok enc) :
    enc.warn = true ↔ InexactFmov (.fmovImm o) := by
  obtain ⟨x, hx, hw⟩ := fpImm_ok h
  simp only [InexactFmov, hw, Bool.not_eq_true', ← inFp8Set_iff, Bool.not_eq_true]
  constructor
  · exact fun hin => ⟨o, x, rfl, hx, hin⟩
  · rintro ⟨_, y, ⟨⟩, hy, hin⟩
    obtain rfl : x = y := Option.some.inj (hx.symm.trans hy)
    exact hin

theorem quiet_warn {r : Except EncErr Word} {enc : Encoded} (h : quiet r = .ok enc) : enc.warn = false := by
  cases r <;> cases h
  rfl

/-- Every form's meaning is the request procedure on an answer that carries the warning for the inexact FMOV_imm alone. -/
theorem exec_is_request_warning (i : Instr) :
    ∃ r, (∀ s, exec i s = request s r) ∧ ∀ enc, r = .ok enc → (enc.warn = true ↔ InexactFmov i) := by
  cases i
  case fmovImm o => exact ⟨fpImm o, fun _ => rfl, fun _ => fpImm_warn⟩
  case nop o => exact ⟨quiet (pack fieldsNop), fun _ => rfl, fun _ h => by simp [quiet_warn h, InexactFmov]⟩
  all_goals exact ⟨quiet _, fun _ => rfl, fun _ h => by simp [quiet_warn h, InexactFmov]⟩

/-- The three ways an encode request ends, with the warning (R203, R253, R257). -/
theorem exec_next {i : Instr} {s t : State} (h : exec i s = .next t) :
    (s.phase ≠ .opened ∧ t = s.respond (.encode .sessionNotOpen none false))
    ∨ (s.phase = .opened ∧ ∃ e, e ≠ .none ∧ t = s.abort e)
    ∨ (s.phase = .opened ∧ ∃ w warn, t = s.appendWord w warn ∧ (warn = true ↔ InexactFmov i)) := by
  obtain ⟨r, hr, hwarn⟩ := exec_is_request_warning i
  rw [hr] at h
  rcases request_cases s r with ⟨hp, he⟩ | ⟨hp, e, _, he⟩ | ⟨hp, _, _, _, he⟩ | ⟨hp, enc, hok, _, he⟩ <;>
    rw [he] at h <;> cases h
  · exact .inl ⟨hp, rfl⟩
  · exact .inr (.inl ⟨hp, encErr e, by cases e <;> simp [encErr], rfl⟩)
  · exact .inr (.inl ⟨hp, .capacity, by simp, rfl⟩)
  · exact .inr (.inr ⟨hp, enc.word, enc.warn, rfl, hwarn enc hok⟩)

/-- R250: the status of an error is one of the three that abort a session. -/
theorem errStatus_of_ne_none {e : Err} (h : e ≠ .none) :
    errStatus e = .fieldRange ∨ errStatus e = .immUnrepresentable ∨ errStatus e = .capacity := by
  cases e <;> simp_all [errStatus]

/-- A failed encode request does not answer OK (R250, R257). -/
theorem abort_response_ne_ok (s : State) {e : Err} (h : e ≠ .none) (w : Option Word) (warn : Bool) :
    (s.abort e).response ≠ some (.encode .ok w warn) := by
  rcases errStatus_of_ne_none h with he | he | he <;> simp [he]

/-- R18: an inexact FMOV_imm that answers OK leaves APPROX set. -/
theorem exec_ok_approx {i : Instr} {s t : State} {w : Option Word} {warn : Bool} (h : exec i s = .next t)
    (hok : t.response = some (.encode .ok w warn)) (hi : InexactFmov i) : t.approx = true := by
  rcases exec_next h with ⟨_, rfl⟩ | ⟨_, e, hne, rfl⟩ | ⟨_, _, b, rfl, hb⟩
  · simp at hok
  · exact absurd hok (abort_response_ne_ok s hne w warn)
  · simp [hb.mpr hi]

/-! ### The block over one step -/

/-- BUF, PHASE and APPROX are as before. -/
def KeepsSession (s t : State) : Prop := t.buf = s.buf ∧ t.phase = s.phase ∧ t.approx = s.approx

theorem step_encode {s : State} {i : Instr} {rest : List Input} (h : issues s (.encode i) rest) :
    step s = exec i { s with inputs := rest } :=
  step_input h.1 h.2

/-- A step has one input. -/
theorem issues_unique {s : State} {x y : Input} {rest rest' : List Input} (hx : issues s x rest) (hy : issues s y rest') :
    x = y :=
  (List.cons.inj (hx.2.symm.trans hy.2)).1

theorem doFinalize_cases (s : State) :
    KeepsSession s (doFinalize s)
    ∨ (s.phase = .opened ∧ (doFinalize s).phase = .frozen
        ∧ (doFinalize s).response = some (.finalize .ok (some s.buf) s.len)) := by
  by_cases hp : s.phase = .opened
  · exact .inr ⟨hp, by simp [doFinalize_opened hp], by simp [doFinalize_opened hp]⟩
  · exact .inl (by simp [KeepsSession, doFinalize_closed hp])

/-- What a step can do to the session: run an encode request, RESET it, freeze it by FINALIZE, or leave it. -/
theorem step_session {s t : State} (h : step s = .next t) :
    (∃ i rest, issues s (.encode i) rest ∧ exec i { s with inputs := rest } = .next t)
    ∨ (∃ rest, issues s .reset rest ∧ t = doReset { s with inputs := rest })
    ∨ (∃ rest, issues s .finalize rest ∧ t = doFinalize { s with inputs := rest })
    ∨ (KeepsSession s t ∧ ∀ i rest, ¬ issues s (.encode i) rest) := by
  rcases step_cases h with ⟨hr, _, _, _, _, rfl⟩ | ⟨_, hnil, rfl⟩ | ⟨hr, x, rest, hin, hp⟩
  · exact .inr (.inr (.inr ⟨⟨rfl, rfl, rfl⟩, fun _ _ hi => by simp [hi.1] at hr⟩))
  · exact .inr (.inr (.inr ⟨⟨rfl, rfl, rfl⟩, fun _ _ hi => by simp [hi.2] at hnil⟩))
  · have hx : issues s x rest := ⟨hr, hin⟩
    cases x with
    | encode i => exact .inl ⟨i, rest, hx, hp⟩
    | reset => cases hp; exact .inr (.inl ⟨rest, hx, rfl⟩)
    | finalize => cases hp; exact .inr (.inr (.inl ⟨rest, hx, rfl⟩))
    | length => cases hp; exact .inr (.inr (.inr ⟨⟨rfl, rfl, rfl⟩, fun _ _ hi => by cases issues_unique hx hi⟩))
    | host a =>
      obtain ⟨hbuf, hphase, _, happrox, _⟩ := hostAct_frame hp
      exact .inr (.inr (.inr ⟨⟨hbuf, hphase, happrox⟩, fun _ _ hi => by cases issues_unique hx hi⟩))

/-- R18: APPROX over one step stays, is cleared by RESET, or takes the warning of the word an encode request appends. -/
theorem step_approx {s t : State} (h : step s = .next t) :
    t.approx = s.approx
    ∨ (∃ rest, issues s .reset rest ∧ t.approx = false)
    ∨ (∃ i rest w warn, issues s (.encode i) rest ∧ t.response = some (.encode .ok (some w) warn)
        ∧ t.approx = (s.approx || warn) ∧ (warn = true ↔ InexactFmov i)) := by
  rcases step_session h with ⟨i, rest, hi, he⟩ | ⟨rest, hi, rfl⟩ | ⟨rest, hi, rfl⟩ | ⟨⟨_, _, happrox⟩, _⟩
  · rcases exec_next he with ⟨_, rfl⟩ | ⟨_, _, _, rfl⟩ | ⟨_, w, warn, rfl, hwarn⟩
    · exact .inl rfl
    · exact .inl rfl
    · exact .inr (.inr ⟨i, rest, w, warn, hi, rfl, rfl, hwarn⟩)
  · exact .inr (.inl ⟨rest, hi, rfl⟩)
  · exact .inl (doFinalize_approx _)
  · exact .inl happrox

/-! ### The statements -/

/-- Settles O21: an encode request that fails aborts an open session, FINALIZE freezes one, and what is left keeps PHASE. -/
theorem phaseMovesOnlyAlongItsEdges : Obligations.PhaseMovesOnlyAlongItsEdges := by
  intro s t h
  rcases step_session h with ⟨i, rest, hi, he⟩ | ⟨rest, hi, rfl⟩ | ⟨rest, hi, rfl⟩ | ⟨⟨_, hphase, _⟩, _⟩
  · rcases exec_next he with ⟨_, rfl⟩ | ⟨hopen, e, hne, rfl⟩ | ⟨_, _, _, rfl, _⟩
    · exact .inl rfl
    · exact .inr (.inr (.inl ⟨i, rest, errStatus e, hi, hopen, rfl, rfl, errStatus_of_ne_none hne⟩))
    · exact .inl rfl
  · exact .inr (.inr (.inr ⟨rest, hi, rfl⟩))
  · rcases doFinalize_cases { s with inputs := rest } with ⟨_, hphase, _⟩ | ⟨hopen, hfrozen, hresp⟩
    · exact .inl hphase
    · exact .inr (.inl ⟨rest, s.buf, s.len, hi, hopen, hfrozen, hresp⟩)
  · exact .inl hphase

/-- Settles O22: the word that an inexact FMOV_imm appends sets APPROX, and `step_approx` says what else a step does to it. -/
theorem approxIsStickyUntilReset : Obligations.ApproxIsStickyUntilReset := by
  intro s t h
  refine ⟨fun o x w warn rest hi hx hset hok => ?_, fun hs ht => ?_, fun hs ht => ?_⟩
  · rw [step_encode hi] at h
    exact exec_ok_approx h hok ⟨o, x, rfl, hx, hset⟩
  · rcases step_approx h with hsame | ⟨_, _, hclear⟩ | ⟨i, rest, w, warn, hi, hresp, happrox, hwarn⟩
    · simp [hsame, hs] at ht
    · simp [hclear] at ht
    · obtain rfl : warn = true := by simpa [happrox, hs] using ht
      obtain ⟨o, x, rfl, hx, hset⟩ := hwarn.mp rfl
      exact ⟨o, x, some w, rest, hi, hx, hset, hresp⟩
  · rcases step_approx h with hsame | ⟨rest, hi, _⟩ | ⟨_, _, _, _, _, _, happrox, _⟩
    · simp [hsame, hs] at ht
    · exact ⟨rest, hi⟩
    · simp [happrox, hs] at ht

/-- Settles O23: BUF grows where an encode request appends its word, and no other end of one answers OK. -/
theorem bufferOnlyGrowsByWholeWords : Obligations.BufferOnlyGrowsByWholeWords := by
  intro s t h
  rcases step_session h with ⟨i, rest, hi, he⟩ | ⟨rest, hi, rfl⟩ | ⟨rest, hi, rfl⟩ | ⟨⟨hbuf, _, _⟩, hno⟩
  · rcases exec_next he with ⟨_, rfl⟩ | ⟨_, e, hne, rfl⟩ | ⟨_, w, warn, rfl, _⟩
    · exact .inr (.inr ⟨rfl, fun ⟨_, _, _, _, _, hok⟩ => by simp at hok⟩)
    · exact .inr (.inr ⟨rfl, fun ⟨_, _, w, warn, _, hok⟩ => abort_response_ne_ok _ hne w warn hok⟩)
    · exact .inr (.inl ⟨i, rest, w, warn, hi, rfl, rfl⟩)
  · exact .inl ⟨rest, hi, rfl⟩
  · exact .inr (.inr ⟨by simp, fun ⟨_, _, _, _, hj, _⟩ => by cases issues_unique hi hj⟩)
  · exact .inr (.inr ⟨hbuf, fun ⟨j, rest, _, _, hj, _⟩ => hno j rest hj⟩)

/-- R21: the STATUS view of an open session without error or approximation. -/
theorem statusView_open {s : State} (hp : s.phase = .opened) (he : s.err = .none) (ha : s.approx = false) :
    statusView s = 0 := by
  rw [statusView, hp, he, ha]
  decide

/-- Settles O18. -/
theorem resetGivesTheResetState : Obligations.ResetGivesTheResetState := by
  refine ⟨fun s rest hi => ?_, fun s hbuf hp he ha => ⟨?_, statusView_open hp he ha⟩, rfl, rfl, rfl, rfl⟩
  · rw [step_input hi.1 hi.2]
    rfl
  · rw [State.len, hbuf]
    rfl

end Sys2Proof.Proofs
end

section
/-! SUPPORT. Well-formed requests (R251, R252): a check of a legal operand answers a value that fits its field, so the encoder answers
the word of its fields; and what R38 and R254 say of such a request. -/

namespace Sys2Proof.Proofs

open Machine Safety

/-! ### The value a legal operand passes on fits its field -/

theorem legalInt_iff {lo hi : Int} {x : Option Int} : legalInt lo hi x = true ↔ ∃ v, x = some v ∧ lo ≤ v ∧ v ≤ hi := by
  cases x <;> simp [legalInt]

/-- A legal operand of an unsigned range is at most the range's end. -/
theorem legalInt_toNat_le {hi dflt : Int} {x : Option Int} (h : legalInt 0 hi x = true) : ((x.getD dflt).toNat : Int) ≤ hi := by
  obtain ⟨v, rfl, hlo, hhi⟩ := legalInt_iff.mp h
  rwa [Option.getD_some, Int.toNat_of_nonneg hlo]

/-- A legal optional operand keeps to its range when the default does. -/
theorem legalIntOpt_toNat_le {hi dflt : Int} {x : Option Int} (h : legalIntOpt 0 hi x = true) (hd : (dflt.toNat : Int) ≤ hi) :
    ((x.getD dflt).toNat : Int) ≤ hi := by
  cases x with
  | none => exact hd
  | some v => exact legalInt_toNat_le h

/-- R53. -/
theorem checkReg_legal (n : String) {x : Option Int} (h : legalReg x = true) :
    checkReg n x = .ok (x.getD 0).toNat ∧ (x.getD 0).toNat < 32 := by
  have := legalInt_toNat_le (dflt := 0) h
  exact ⟨by rw [checkReg_eq, if_pos h], by omega⟩

/-- R54. -/
theorem checkSf_legal {o : Operands} (h : legalSf o = true) :
    checkSf o.sf = .ok (o.sf.getD 1).toNat ∧ (o.sf.getD 1).toNat < 2 := by
  have := legalIntOpt_toNat_le (dflt := 1) h (by decide)
  exact ⟨by rw [checkSf_eq, if_pos h], by omega⟩

/-- R9, R100. -/
theorem checkSh_legal {o : Operands} (h : legalIntOpt 0 1 o.sh = true) :
    checkSh o.sh = .ok (o.sh.getD 0).toNat ∧ (o.sh.getD 0).toNat < 2 := by
  have := legalIntOpt_toNat_le (dflt := 0) h (by decide)
  exact ⟨by rw [checkSh_eq, if_pos h], by omega⟩

/-- A required immediate. -/
theorem checkImm_legal {hi : Int} {o : Operands} (h : legalInt 0 hi o.imm = true) :
    checkImm hi o.imm = .ok (immOf o) ∧ (immOf o : Int) ≤ hi :=
  ⟨by rw [checkImm_eq, if_pos h], legalInt_toNat_le h⟩

/-- R105, R124. -/
theorem checkAmount_legal {o : Operands} (hsf : legalSf o = true) (h : legalAmount o = true) :
    checkAmount (o.sf.getD 1).toNat o.amount = .ok (amountOf o) ∧ amountOf o < 64 := by
  have hle : (if is32 o then (31 : Int) else 63) ≤ 63 := by split <;> decide
  have := legalIntOpt_toNat_le (dflt := 0) h (by split <;> decide)
  exact ⟨by rw [sf_of_legal hsf, checkAmount_eq, if_pos h], by rw [amountOf]; omega⟩

/-- R61, R143. -/
theorem checkHwShift_legal {o : Operands} (hsf : legalSf o = true) (h : legalLane o = true) :
    checkHwShift (o.sf.getD 1).toNat o.hwShift = .ok (o.hwShift.getD 0 / 16).toNat ∧ (o.hwShift.getD 0 / 16).toNat < 4 := by
  refine ⟨by rw [sf_of_legal hsf, checkHwShift_eq, if_pos h], ?_⟩
  unfold legalLane at h
  cases hv : o.hwShift with
  | none => decide
  | some v =>
    have hle : v ≤ 48 := by
      cases h32 : is32 o <;> simp [hv, h32] at h <;> omega
    rw [Option.getD_some]
    omega

theorem shiftCode_lt (t : ShiftType) : shiftCode t < 4 := by cases t <;> decide
theorem ftypeCode_lt (t : FType) : ftypeCode t < 4 := by cases t <;> decide
theorem condCode_lt (c : Cond) : condCode c < 16 := by cases c <;> decide

/-- R55: the two's-complement code of a legal offset. -/
theorem checkOffset_legal {w : Nat} {x : Option Int} (h : legalInt (-(2 ^ (w - 1) : Int)) (2 ^ (w - 1) - 1) x = true) :
    checkOffset w x = .ok ((x.getD 0) % 2 ^ w).toNat ∧ ((x.getD 0) % 2 ^ w).toNat < 2 ^ w := by
  have hpos : (0 : Int) < 2 ^ w := Int.pow_pos (by decide)
  have hlt := Int.emod_lt_of_pos (x.getD 0) hpos
  have hnn := Int.emod_nonneg (x.getD 0) hpos.ne'
  exact ⟨by rw [checkOffset_eq, if_pos h], by zify; omega⟩

/-- A check that passes hands its value on. -/
@[simp] theorem except_ok_bind {α β : Type} (a : α) (f : α → Except EncErr β) : (Except.ok a >>= f) = f a := rfl

/-! ### The word each encoder answers for legal operands -/

/-- R51: the word of the fields of a format. -/
def packed (fields : List (Nat × Nat)) : Word := BitVec.ofNat 32 (packSum fields)

/-- R51. -/
theorem pack_packed {fields : List (Nat × Nat)} (h : ∀ p ∈ fields, p.1 < 2 ^ p.2) : pack fields = .ok (packed fields) :=
  pack_ok h

/-- R67, R100. -/
theorem addSubImm_legal {op s : Nat} {rd rn : Option Int} {o : Operands} (h : legalAddSubImm o = true) (hd : legalReg rd = true)
    (hn : legalReg rn = true) (hop : op < 2 := by decide) (hs : s < 2 := by decide) :
    addSubImm op s rd rn o = .ok (packed (fieldsAddSubImm (o.sf.getD 1).toNat op s (o.sh.getD 0).toNat
      (immOf o) (rn.getD 0).toNat (rd.getD 0).toNat)) := by
  simp only [legalAddSubImm, Bool.and_eq_true] at h
  obtain ⟨⟨hsf, hsh⟩, himm⟩ := h
  obtain ⟨esf, bsf⟩ := checkSf_legal hsf
  obtain ⟨ed, bd⟩ := checkReg_legal "rd" hd
  obtain ⟨en, bn⟩ := checkReg_legal "rn" hn
  obtain ⟨esh, bsh⟩ := checkSh_legal hsh
  obtain ⟨eimm, bimm⟩ := checkImm_legal himm
  simp only [addSubImm, esf, ed, en, esh, eimm, except_ok_bind]
  exact pack_packed (by simp [fieldsAddSubImm]; omega)

/-- R68, R105. -/
theorem addSubReg_legal {op s : Nat} {rd : Option Int} {o : Operands} (h : legalShifted arithShifts o = true)
    (hd : legalReg rd = true) (hn : legalReg o.rn = true) (hm : legalReg o.rm = true) (hop : op < 2 := by decide)
    (hs : s < 2 := by decide) :
    addSubReg op s rd o = .ok (packed (fieldsAddSubReg (o.sf.getD 1).toNat op s (shiftCode (shiftOf o)) (o.rm.getD 0).toNat
      (amountOf o) (o.rn.getD 0).toNat (rd.getD 0).toNat)) := by
  simp only [legalShifted, Bool.and_eq_true] at h
  obtain ⟨⟨hsf, hshift⟩, hamount⟩ := h
  obtain ⟨esf, bsf⟩ := checkSf_legal hsf
  obtain ⟨ed, bd⟩ := checkReg_legal "rd" hd
  obtain ⟨en, bn⟩ := checkReg_legal "rn" hn
  obtain ⟨em, bm⟩ := checkReg_legal "rm" hm
  obtain ⟨eamount, bamount⟩ := checkAmount_legal hsf hamount
  have bshift := shiftCode_lt (shiftOf o)
  simp only [addSubReg, esf, ed, en, em, checkShift_arith, hshift, if_true, eamount, except_ok_bind]
  exact pack_packed (by simp [fieldsAddSubReg]; omega)

/-- R69, R110. -/
theorem addSubCarry_legal {s : Nat} {o : Operands} (h : legalCarry o = true) (hs : s < 2 := by decide) :
    addSubCarry s o = .ok (packed (fieldsAddSubCarry (o.sf.getD 1).toNat s (o.rm.getD 0).toNat (o.rn.getD 0).toNat
      (o.rd.getD 0).toNat)) := by
  rw [legalCarry, Bool.and_eq_true, Bool.and_eq_true] at h
  obtain ⟨⟨hregs, hshift⟩, hamount⟩ := h
  simp only [Bool.and_eq_true] at hregs
  obtain ⟨⟨⟨hsf, hd⟩, hn⟩, hm⟩ := hregs
  obtain ⟨esf, bsf⟩ := checkSf_legal hsf
  obtain ⟨ed, bd⟩ := checkReg_legal "rd" hd
  obtain ⟨en, bn⟩ := checkReg_legal "rn" hn
  obtain ⟨em, bm⟩ := checkReg_legal "rm" hm
  simp only [addSubCarry, esf, ed, en, em, checkNoShift_eq, hshift, checkNoAmount_eq, hamount, if_true, except_ok_bind]
  exact pack_packed (by simp [fieldsAddSubCarry]; omega)

/-- R70, R120: the fields of a logical immediate are those of its canonical encoding. -/
theorem logImm_legal {opc : Nat} {rd rn : Option Int} {o : Operands} {f : BitmaskFields} (h : legalLogImm o = true)
    (hd : legalReg rd = true) (hn : legalReg rn = true) (hf : canonicalize (maskOfOperands o) = some f)
    (hopc : opc < 4 := by decide) :
    logImm opc rd rn o = .ok (packed (fieldsLogImm (o.sf.getD 1).toNat opc f.n.toNat f.immr.toNat f.imms.toNat
      (rn.getD 0).toNat (rd.getD 0).toNat)) := by
  rw [legalLogImm, Bool.and_eq_true] at h
  obtain ⟨hsf, himm⟩ := h
  obtain ⟨esf, bsf⟩ := checkSf_legal hsf
  obtain ⟨ed, bd⟩ := checkReg_legal "rd" hd
  obtain ⟨en, bn⟩ := checkReg_legal "rn" hn
  have hhi : (if (o.sf.getD 1).toNat = 1 then 2 ^ 64 - 1 else 2 ^ 32 - 1 : Int) = if is32 o then 2 ^ 32 - 1 else 2 ^ 64 - 1 := by
    rw [sf_of_legal hsf]
    cases is32 o <;> rfl
  have emask : checkBitmask (maskOf (immOf o) (o.sf.getD 1).toNat) = .ok f := by
    rw [sf_of_legal hsf, checkBitmask]
    rw [maskOfOperands] at hf
    rw [hf]
  have bN := f.n.isLt
  have bimmr := f.immr.isLt
  have bimms := f.imms.isLt
  simp only [logImm, esf, ed, en, except_ok_bind, hhi, (checkImm_legal himm).1, emask]
  exact pack_packed (by simp [fieldsLogImm]; omega)

/-- R71, R124. -/
theorem logReg_legal {opc : Nat} {o : Operands} (h : legalShifted logicalShifts o = true) (hd : legalReg o.rd = true)
    (hn : legalReg o.rn = true) (hm : legalReg o.rm = true) (hopc : opc < 4 := by decide) :
    logReg opc o.rn o.shift o.amount o = .ok (packed (fieldsLogReg (o.sf.getD 1).toNat opc (shiftCode (shiftOf o))
      (o.rm.getD 0).toNat (amountOf o) (o.rn.getD 0).toNat (o.rd.getD 0).toNat)) := by
  simp only [legalShifted, Bool.and_eq_true] at h
  obtain ⟨⟨hsf, hshift⟩, hamount⟩ := h
  obtain ⟨esf, bsf⟩ := checkSf_legal hsf
  obtain ⟨ed, bd⟩ := checkReg_legal "rd" hd
  obtain ⟨en, bn⟩ := checkReg_legal "rn" hn
  obtain ⟨em, bm⟩ := checkReg_legal "rm" hm
  obtain ⟨eamount, bamount⟩ := checkAmount_legal hsf hamount
  have bshift := shiftCode_lt (shiftOf o)
  simp only [logReg, esf, ed, en, em, checkShift_logical, hshift, if_true, eamount, except_ok_bind]
  exact pack_packed (by simp [fieldsLogReg]; omega)

/-- R72, R143. -/
theorem moveWide_legal {opc : Nat} {o : Operands} (h : legalMoveWide o = true) (hopc : opc < 4 := by decide) :
    moveWide opc o = .ok (packed (fieldsMoveWide (o.sf.getD 1).toNat opc (o.hwShift.getD 0 / 16).toNat (immOf o)
      (o.rd.getD 0).toNat)) := by
  simp only [legalMoveWide, Bool.and_eq_true] at h
  obtain ⟨⟨⟨hsf, hd⟩, himm⟩, hlane⟩ := h
  obtain ⟨esf, bsf⟩ := checkSf_legal hsf
  obtain ⟨ed, bd⟩ := checkReg_legal "rd" hd
  obtain ⟨eimm, bimm⟩ := checkImm_legal himm
  obtain ⟨ehw, bhw⟩ := checkHwShift_legal hsf hlane
  simp only [moveWide, esf, ed, eimm, ehw, except_ok_bind]
  exact pack_packed (by simp [fieldsMoveWide]; omega)

/-- R73, R155. -/
theorem mulAcc_legal {o0 : Nat} {ra : Option Int} {o : Operands} (hsf : legalSf o = true) (hd : legalReg o.rd = true)
    (hn : legalReg o.rn = true) (hm : legalReg o.rm = true) (ha : legalReg ra = true) (ho0 : o0 < 2 := by decide) :
    mulAcc o0 ra o = .ok (packed (fieldsDp3 (o.sf.getD 1).toNat (o.rm.getD 0).toNat o0 (ra.getD 0).toNat (o.rn.getD 0).toNat
      (o.rd.getD 0).toNat)) := by
  obtain ⟨esf, bsf⟩ := checkSf_legal hsf
  obtain ⟨ed, bd⟩ := checkReg_legal "rd" hd
  obtain ⟨en, bn⟩ := checkReg_legal "rn" hn
  obtain ⟨em, bm⟩ := checkReg_legal "rm" hm
  obtain ⟨ea, ba⟩ := checkReg_legal "ra" ha
  simp only [mulAcc, esf, ed, en, em, ea, except_ok_bind]
  exact pack_packed (by simp [fieldsDp3]; omega)

/-- R74, R166. -/
theorem encB_legal {o : Operands} (h : legalInt (-33554432) 33554431 o.offset = true) :
    encB o = .ok (packed (fieldsB ((o.offset.getD 0) % 2 ^ 26).toNat)) := by
  obtain ⟨eoff, boff⟩ := checkOffset_legal (w := 26) h
  simp only [encB, eoff, except_ok_bind]
  exact pack_packed (by simp [fieldsB]; omega)

/-- R75, R167. -/
theorem encBCond_legal {o : Operands} (hc : legalCond o = true) (h : legalInt (-262144) 262143 o.offset = true) :
    encBCond o = .ok (packed (fieldsBCond ((o.offset.getD 0) % 2 ^ 19).toNat (condCode (condOf o)))) := by
  obtain ⟨eoff, boff⟩ := checkOffset_legal (w := 19) h
  have bcond := condCode_lt (condOf o)
  simp only [encBCond, checkCond_eq, hc, if_true, eoff, except_ok_bind]
  exact pack_packed (by simp [fieldsBCond]; omega)

/-- R76, R168: the return register is 30 by default. -/
theorem encRet_legal {o : Operands} (h : legalIntOpt 0 31 o.rn = true) :
    encRet o = .ok (packed (fieldsRet (o.rn.getD 30).toNat)) := by
  have bn := legalIntOpt_toNat_le (dflt := 30) h (by decide)
  have en : inRange "rn" 0 31 (o.rn.getD 30) = .ok (o.rn.getD 30).toNat := by
    cases hn : o.rn with
    | none => rfl
    | some v =>
      rw [hn] at h
      exact (inRange_eq _ _ _ _).trans (if_pos h)
  simp only [encRet, en, except_ok_bind]
  exact pack_packed (by simp [fieldsRet]; omega)

/-- R78, R181, R182. -/
theorem fpDp2_legal {opcode : Nat} {o : Operands} (ht : legalFtype o = true) (hd : legalReg o.rd = true)
    (hn : legalReg o.rn = true) (hm : legalReg o.rm = true) (hop : opcode < 16 := by decide) :
    fpDp2 opcode o = .ok (packed (fieldsFpDp2 (ftypeCode (ftypeOf o)) (o.rm.getD 0).toNat opcode (o.rn.getD 0).toNat
      (o.rd.getD 0).toNat)) := by
  obtain ⟨ed, bd⟩ := checkReg_legal "rd" hd
  obtain ⟨en, bn⟩ := checkReg_legal "rn" hn
  obtain ⟨em, bm⟩ := checkReg_legal "rm" hm
  have bt := ftypeCode_lt (ftypeOf o)
  simp only [fpDp2, checkFtype_eq, ht, if_true, ed, en, em, except_ok_bind]
  exact pack_packed (by simp [fieldsFpDp2]; omega)

/-- R79, R183, R184. -/
theorem fpDp1_legal {opcode : Nat} {o : Operands} (ht : legalFtype o = true) (hd : legalReg o.rd = true)
    (hn : legalReg o.rn = true) (hop : opcode < 64 := by decide) :
    fpDp1 opcode o = .ok (packed (fieldsFpDp1 (ftypeCode (ftypeOf o)) opcode (o.rn.getD 0).toNat (o.rd.getD 0).toNat)) := by
  obtain ⟨ed, bd⟩ := checkReg_legal "rd" hd
  obtain ⟨en, bn⟩ := checkReg_legal "rn" hn
  have bt := ftypeCode_lt (ftypeOf o)
  simp only [fpDp1, checkFtype_eq, ht, if_true, ed, en, except_ok_bind]
  exact pack_packed (by simp [fieldsFpDp1]; omega)

/-- R80, R185. -/
theorem fpImm_legal {o : Operands} {x : DWord} (ht : legalFtype o = true) (hd : legalReg o.rd = true) (hx : o.fval = some x) :
    fpImm o = .ok ⟨packed (fieldsFpImm (ftypeCode (ftypeOf o)) (compress x).1.toNat (o.rd.getD 0).toNat), (compress x).2⟩ := by
  obtain ⟨ed, bd⟩ := checkReg_legal "rd" hd
  have bt := ftypeCode_lt (ftypeOf o)
  have bimm := (compress x).1.isLt
  have hpack := pack_packed (fields := fieldsFpImm (ftypeCode (ftypeOf o)) (compress x).1.toNat (o.rd.getD 0).toNat)
    (by simp [fieldsFpImm]; omega)
  simp only [fpImm, checkFtype_eq, ht, if_true, ed, hx, required_some, hpack, except_ok_bind]

/-! ### Every well-formed request -/

/-- The request's meaning is the request procedure on a word (R203). -/
def AnswersWord (i : Instr) : Prop := ∃ enc, ∀ s, exec i s = request s (.ok enc)

theorem answersWord_of_quiet {i : Instr} {r : Except EncErr Word} {w : Word} (hexec : ∀ s, exec i s = request s (quiet r))
    (hr : r = .ok w) : AnswersWord i :=
  ⟨⟨w, false⟩, fun s => by rw [hexec, hr, quiet_ok]⟩

/-- R252: with a representable immediate the mask has a canonical encoding, and a logical immediate form answers a word. -/
theorem answersWord_of_logImm {i : Instr} {opc : Nat} {rd rn : Option Int} {o : Operands}
    (hexec : ∀ s, exec i s = request s (quiet (logImm opc rd rn o))) (h : legalLogImm o = true) (hd : legalReg rd = true)
    (hn : legalReg rn = true) (hrep : (canonicalize (maskOfOperands o)).isSome = true) (hopc : opc < 4 := by decide) :
    AnswersWord i := by
  obtain ⟨f, hf⟩ := Option.isSome_iff_exists.mp hrep
  exact answersWord_of_quiet hexec (logImm_legal h hd hn hf hopc)

/-- R251, R252: the encoder of a well-formed request raises no error. -/
theorem answersWord_of_wellFormed {i : Instr} (h : i.wellFormed = true) : AnswersWord i := by
  obtain ⟨hf, hrep⟩ := Bool.and_eq_true_iff.mp h
  clear h
  cases i with
  | addImm o | addsImm o | subImm o | subsImm o =>
    simp only [fieldsLegal, Bool.and_eq_true] at hf
    obtain ⟨⟨ho, hd⟩, hn⟩ := hf
    exact answersWord_of_quiet (fun _ => rfl) (addSubImm_legal ho hd hn)
  | cmpImm o | cmnImm o =>
    simp only [fieldsLegal, Bool.and_eq_true] at hf
    obtain ⟨ho, hn⟩ := hf
    exact answersWord_of_quiet (fun _ => rfl) (addSubImm_legal ho rfl hn)
  | movSp o =>
    simp only [fieldsLegal, Bool.and_eq_true] at hf
    obtain ⟨⟨hsf, hd⟩, hn⟩ := hf
    have ho : legalAddSubImm { o with imm := some 0, sh := some 0 } = true := by
      simp only [legalAddSubImm, Bool.and_eq_true]
      exact ⟨⟨hsf, rfl⟩, rfl⟩
    exact answersWord_of_quiet (fun _ => rfl) (addSubImm_legal ho hd hn)
  | addReg o | addsReg o | subReg o | subsReg o =>
    simp only [fieldsLegal, Bool.and_eq_true] at hf
    obtain ⟨⟨⟨ho, hd⟩, hn⟩, hm⟩ := hf
    exact answersWord_of_quiet (fun _ => rfl) (addSubReg_legal ho hd hn hm)
  | cmpReg o | cmnReg o =>
    simp only [fieldsLegal, Bool.and_eq_true] at hf
    obtain ⟨⟨ho, hn⟩, hm⟩ := hf
    exact answersWord_of_quiet (fun _ => rfl) (addSubReg_legal ho rfl hn hm)
  | adc o | adcs o => exact answersWord_of_quiet (fun _ => rfl) (addSubCarry_legal hf)
  | andImm o | orrImm o | eorImm o =>
    simp only [fieldsLegal, Bool.and_eq_true] at hf
    obtain ⟨⟨ho, hd⟩, hn⟩ := hf
    exact answersWord_of_logImm (fun _ => rfl) ho hd hn hrep
  | movBitmask o =>
    simp only [fieldsLegal, Bool.and_eq_true] at hf
    obtain ⟨ho, hd⟩ := hf
    exact answersWord_of_logImm (fun _ => rfl) ho hd rfl hrep
  | andReg o | orrReg o | eorReg o =>
    simp only [fieldsLegal, Bool.and_eq_true] at hf
    obtain ⟨⟨⟨ho, hd⟩, hn⟩, hm⟩ := hf
    exact answersWord_of_quiet (fun _ => rfl) (logReg_legal ho hd hn hm)
  | movReg o =>
    simp only [fieldsLegal, Bool.and_eq_true] at hf
    obtain ⟨⟨hsf, hd⟩, hm⟩ := hf
    have ho : legalShifted logicalShifts { o with rn := some 31, shift := some "LSL", amount := some 0 } = true := by
      simp only [legalShifted, Bool.and_eq_true]
      exact ⟨⟨hsf, rfl⟩, by unfold legalAmount; split <;> rfl⟩
    exact answersWord_of_quiet (fun _ => rfl) (logReg_legal ho hd rfl hm)
  | movz o | movn o | movk o => exact answersWord_of_quiet (fun _ => rfl) (moveWide_legal hf)
  | madd o | msub o =>
    simp only [fieldsLegal, Bool.and_eq_true] at hf
    obtain ⟨⟨⟨⟨hsf, hd⟩, hn⟩, hm⟩, ha⟩ := hf
    exact answersWord_of_quiet (fun _ => rfl) (mulAcc_legal hsf hd hn hm ha)
  | mul o | mneg o =>
    simp only [fieldsLegal, Bool.and_eq_true] at hf
    obtain ⟨⟨⟨hsf, hd⟩, hn⟩, hm⟩ := hf
    exact answersWord_of_quiet (fun _ => rfl) (mulAcc_legal hsf hd hn hm rfl)
  | b o => exact answersWord_of_quiet (fun _ => rfl) (encB_legal hf)
  | bCond o =>
    obtain ⟨hc, hoff⟩ := Bool.and_eq_true_iff.mp hf
    exact answersWord_of_quiet (fun _ => rfl) (encBCond_legal hc hoff)
  | ret o => exact answersWord_of_quiet (fun _ => rfl) (encRet_legal hf)
  | nop o => exact answersWord_of_quiet (r := pack fieldsNop) (fun _ => rfl) pack_fieldsNop
  | fadd o | fmul o =>
    simp only [fieldsLegal, Bool.and_eq_true] at hf
    obtain ⟨⟨⟨ht, hd⟩, hn⟩, hm⟩ := hf
    exact answersWord_of_quiet (fun _ => rfl) (fpDp2_legal ht hd hn hm)
  | fneg o | fmovReg o =>
    simp only [fieldsLegal, Bool.and_eq_true] at hf
    obtain ⟨⟨ht, hd⟩, hn⟩ := hf
    exact answersWord_of_quiet (fun _ => rfl) (fpDp1_legal ht hd hn)
  | fmovImm o =>
    simp only [fieldsLegal, Bool.and_eq_true] at hf
    obtain ⟨⟨ht, hd⟩, hx⟩ := hf
    obtain ⟨x, hx⟩ := Option.isSome_iff_exists.mp hx
    exact ⟨_, fun s => congrArg (request s) (fpImm_legal ht hd hx)⟩

/-! ### The statement -/

/-- R254: in an open session a request whose encoder answers a word is aborted with CAPACITY exactly when the buffer is full. -/
theorem request_ok_capacity_iff {s : State} (hp : s.phase = .opened) (enc : Encoded) :
    request s (.ok enc) = .next (afterAbort s .capacity .capacity) ↔ s.full = true := by
  cases hfull : s.full with
  | true => simp [request, hp, hfull, State.abort, errStatus, afterAbort]
  | false =>
    rw [request_ok hp hfull]
    simp only [Bool.false_eq_true, iff_false]
    intro h
    have hphase : (s.appendWord enc.word enc.warn).phase = .aborted := by rw [Host.Outcome.next.inj h]; rfl
    simp [hp] at hphase

/-- Settles O14: no check of a well-formed request fails, so what is left is whether the buffer is full. -/
theorem capacityExactlyWhenTheBufferIsFull : Obligations.CapacityExactlyWhenTheBufferIsFull := by
  intro i s hp hwf
  obtain ⟨enc, hexec⟩ := answersWord_of_wellFormed hwf
  rw [hexec, request_ok_capacity_iff hp, full_iff]

end Sys2Proof.Proofs
end

section
/-! SUPPORT. The field packer (R51) over every list of fields: the sum of a concatenation, its bound, where a field stands in it, and
the statement about it. -/

namespace Sys2Proof.Proofs

open Machine Safety

@[simp] theorem totalWidth_cons (v n : Nat) (rest : List (Nat × Nat)) : totalWidth ((v, n) :: rest) = n + totalWidth rest := rfl

@[simp] theorem totalWidth_append (xs ys : List (Nat × Nat)) : totalWidth (xs ++ ys) = totalWidth xs + totalWidth ys := by
  simp [totalWidth]

@[simp] theorem packSum_cons (v n : Nat) (rest : List (Nat × Nat)) :
    packSum ((v, n) :: rest) = v * 2 ^ totalWidth rest + packSum rest := rfl

/-- The fields in front are moved up by the width of the fields behind. -/
theorem packSum_append (xs ys : List (Nat × Nat)) : packSum (xs ++ ys) = packSum xs * 2 ^ totalWidth ys + packSum ys := by
  induction xs with
  | nil => simp [packSum]
  | cons p xs ih =>
    obtain ⟨v, n⟩ := p
    rw [List.cons_append, packSum_cons, packSum_cons, ih, totalWidth_append, pow_add]
    ring

/-- Fields that fit their widths sum to a value that fits the total width. -/
theorem packSum_lt {fields : List (Nat × Nat)} (h : ∀ p ∈ fields, p.1 < 2 ^ p.2) : packSum fields < 2 ^ totalWidth fields := by
  induction fields with
  | nil => decide
  | cons p rest ih =>
    obtain ⟨v, n⟩ := p
    obtain ⟨hv, hrest⟩ := List.forall_mem_cons.mp h
    calc packSum ((v, n) :: rest)
      _ < (v + 1) * 2 ^ totalWidth rest := by rw [packSum_cons, Nat.succ_mul]; exact Nat.add_lt_add_left (ih hrest) _
      _ ≤ 2 ^ n * 2 ^ totalWidth rest := Nat.mul_le_mul_right _ hv
      _ = 2 ^ totalWidth ((v, n) :: rest) := by rw [totalWidth_cons, pow_add]

/-- Dividing drops the fields behind, the remainder drops the fields in front. -/
theorem packSum_read_field {pre post : List (Nat × Nat)} {v n : Nat} (hv : v < 2 ^ n) (hpost : ∀ p ∈ post, p.1 < 2 ^ p.2) :
    packSum (pre ++ (v, n) :: post) / 2 ^ totalWidth post % 2 ^ n = v := by
  have hsum : packSum (pre ++ (v, n) :: post) = packSum post + 2 ^ totalWidth post * (v + 2 ^ n * packSum pre) := by
    rw [packSum_append, packSum_cons, totalWidth_cons, pow_add]
    ring
  rw [hsum, Nat.add_mul_div_left _ _ (Nat.two_pow_pos _), Nat.div_eq_of_lt (packSum_lt hpost), Nat.zero_add,
    Nat.add_mul_mod_self_left, Nat.mod_eq_of_lt hv]

/-- R51: 32 bits of fields that fit lose nothing in the word. -/
theorem packed_toNat {fields : List (Nat × Nat)} (hw : totalWidth fields = 32) (h : ∀ p ∈ fields, p.1 < 2 ^ p.2) :
    (packed fields).toNat = packSum fields := by
  rw [packed, BitVec.toNat_ofNat, ← hw, Nat.mod_eq_of_lt (packSum_lt h)]

/-- R51: a value that does not fit its width is an error. -/
theorem pack_error {fields : List (Nat × Nat)} (h : ∃ p ∈ fields, 2 ^ p.2 ≤ p.1) : pack fields = .error (.fieldRange "field") := by
  obtain ⟨p, hmem, hp⟩ := h
  have hnot : ¬ fields.all (fun p => decide (p.1 < 2 ^ p.2)) = true := fun hall =>
    absurd (of_decide_eq_true (List.all_eq_true.mp hall p hmem)) (Nat.not_lt.mpr hp)
  exact if_neg hnot

/-- Settles O30: the word is the fields' sum, and in that sum every field stands above the fields behind it. -/
theorem packPlacesEveryField : Obligations.PackPlacesEveryField := by
  intro fields hw
  refine ⟨fun hfit => ⟨packed fields, pack_packed hfit, ?_⟩, fun hbig => ⟨_, pack_error hbig⟩⟩
  intro pre v n post heq
  rw [packed_toNat hw hfit]
  subst heq
  obtain ⟨hv, hpost⟩ := List.forall_mem_cons.mp (List.forall_mem_append.mp hfit).2
  exact packSum_read_field hv hpost

end Sys2Proof.Proofs
end

section
/-! SUPPORT. Codes of a format and the values they stand for (R62): the magnitude of a code without its sign bit is an increasing function
of that code, and the value of a code is that magnitude with the sign. -/

namespace Sys2Proof.Proofs

open Machine Safety

/-- The exponent of the smallest subnormal: every finite value of the format is a whole multiple of `2 ^ quantumExp f`. -/
def quantumExp (f : FpFormat) : Int := f.minExp - f.fracBits

/-- The magnitude of the code `c` without its sign bit, counted in smallest subnormals. It goes on past the largest finite code as if the
exponent field had no bound. -/
def magQuanta (f : FpFormat) (c : Nat) : Nat :=
  (if c / 2 ^ f.fracBits = 0 then c % 2 ^ f.fracBits else c % 2 ^ f.fracBits + 2 ^ f.fracBits) * 2 ^ (c / 2 ^ f.fracBits - 1)

/-- The magnitude of the code `c` without its sign bit. -/
def magVal (f : FpFormat) (c : Nat) : ℚ := magQuanta f c * 2 ^ quantumExp f

/-- The code of infinity without its sign bit, the first one that is not finite. -/
def infMag (f : FpFormat) : Nat := f.maxExp * 2 ^ f.fracBits

/-- A code without its sign bit. -/
def magOf (f : FpFormat) (x : Nat) : Nat := x % 2 ^ (f.expBits + f.fracBits)

/-- The factor of a sign bit. -/
def signFactor (s : Bool) : ℚ := if s then -1 else 1

@[simp] theorem abs_signFactor (s : Bool) : |signFactor s| = 1 := by
  cases s <;> simp [signFactor]

theorem magVal_nonneg (f : FpFormat) (c : Nat) : 0 ≤ magVal f c := by
  unfold magVal
  positivity

@[simp] theorem abs_magVal (f : FpFormat) (c : Nat) : |magVal f c| = magVal f c := abs_of_nonneg (magVal_nonneg f c)

/-! ### Magnitudes increase with their codes -/

/-- Consecutive multiples of one unit in the last place have consecutive codes, up to the multiple that carries into the next exponent. -/
theorem magQuanta_add_mul {f : FpFormat} {n k : Nat} (hn : n ≤ 2 ^ (f.fracBits + 1)) (hk : k = 0 ∨ 2 ^ f.fracBits ≤ n) :
    magQuanta f (n + k * 2 ^ f.fracBits) = n * 2 ^ k := by
  have hpos : 0 < 2 ^ f.fracBits := Nat.two_pow_pos _
  rw [pow_succ] at hn
  unfold magQuanta
  rw [Nat.add_mul_div_right _ _ hpos, Nat.add_mul_mod_self_right]
  rcases lt_or_ge n (2 ^ f.fracBits) with hsub | hnorm
  · obtain rfl : k = 0 := hk.resolve_right (by omega)
    simp [Nat.div_eq_of_lt hsub, Nat.mod_eq_of_lt hsub]
  · obtain ⟨r, rfl⟩ := Nat.exists_eq_add_of_le' hnorm
    rw [Nat.add_div_right _ hpos, Nat.add_mod_right]
    rcases lt_or_ge r (2 ^ f.fracBits) with hr | hr
    · simp [Nat.div_eq_of_lt hr, Nat.mod_eq_of_lt hr, show 1 + k - 1 = k by omega]
    · obtain rfl : r = 2 ^ f.fracBits := by omega
      simp [Nat.div_self hpos, show 1 + 1 + k - 1 = k + 1 by omega, pow_succ]
      ring

/-- Every code is a number of units in the last place and an exponent step. -/
theorem exists_units (f : FpFormat) (c : Nat) :
    ∃ n k, c = n + k * 2 ^ f.fracBits ∧ n < 2 ^ (f.fracBits + 1) ∧ (k = 0 ∨ 2 ^ f.fracBits ≤ n) := by
  have hmod : c % 2 ^ f.fracBits < 2 ^ f.fracBits := Nat.mod_lt _ (Nat.two_pow_pos _)
  have hdiv : c % 2 ^ f.fracBits + c / 2 ^ f.fracBits * 2 ^ f.fracBits = c := by rw [mul_comm, Nat.mod_add_div]
  rcases Nat.eq_zero_or_eq_succ_pred (c / 2 ^ f.fracBits) with he | he
  · exact ⟨c, 0, by simp, by rw [he] at hdiv; rw [pow_succ]; omega, .inl rfl⟩
  · rw [he, Nat.succ_mul] at hdiv
    exact ⟨c % 2 ^ f.fracBits + 2 ^ f.fracBits, (c / 2 ^ f.fracBits).pred, by omega, by rw [pow_succ]; omega, .inr (by omega)⟩

theorem magQuanta_strictMono (f : FpFormat) : StrictMono (magQuanta f) := by
  refine strictMono_nat_of_lt_succ fun c => ?_
  obtain ⟨n, k, rfl, hn, hk⟩ := exists_units f c
  rw [add_right_comm, magQuanta_add_mul hn.le hk, magQuanta_add_mul hn (by omega)]
  exact Nat.mul_lt_mul_of_pos_right n.lt_succ_self (Nat.two_pow_pos k)

theorem magVal_strictMono (f : FpFormat) : StrictMono (magVal f) := fun c d h => by
  have hq : magQuanta f c < magQuanta f d := magQuanta_strictMono f h
  unfold magVal
  gcongr

/-- A number of units in the last place, as a value. -/
theorem magVal_add_mul {f : FpFormat} {n k : Nat} (hn : n ≤ 2 ^ (f.fracBits + 1)) (hk : k = 0 ∨ 2 ^ f.fracBits ≤ n) :
    magVal f (n + k * 2 ^ f.fracBits) = n * 2 ^ (quantumExp f + k) := by
  rw [magVal, magQuanta_add_mul hn hk, zpow_add₀ two_ne_zero, zpow_natCast]
  push_cast
  ring

/-! ### Fields of a code -/

theorem expOf_eq (f : FpFormat) (x : Nat) : f.expOf x = magOf f x / 2 ^ f.fracBits := by
  rw [FpFormat.expOf, magOf, add_comm, pow_add, Nat.mod_mul_right_div_self]

theorem fracOf_eq (f : FpFormat) (x : Nat) : f.fracOf x = magOf f x % 2 ^ f.fracBits := by
  rw [FpFormat.fracOf, magOf, Nat.mod_mod_of_dvd _ (pow_dvd_pow 2 (Nat.le_add_left _ _))]

theorem infMag_lt (f : FpFormat) : infMag f < 2 ^ (f.expBits + f.fracBits) := by
  rw [infMag, FpFormat.maxExp, pow_add]
  exact Nat.mul_lt_mul_of_pos_right (Nat.sub_lt (Nat.two_pow_pos _) one_pos) (Nat.two_pow_pos _)

theorem infMag_pos {f : FpFormat} (hE : 2 ≤ f.expBits) : 0 < infMag f :=
  Nat.mul_pos (Nat.sub_pos_of_lt (Nat.one_lt_two_pow (by omega))) (Nat.two_pow_pos _)

/-- A code in its fields is the sign bit over the magnitude. -/
theorem code_eq (f : FpFormat) (s : Bool) (e frac : Nat) : f.code s e frac = f.code s 0 (e * 2 ^ f.fracBits + frac) := by
  simp only [FpFormat.code]
  ring

theorem magOf_code {f : FpFormat} (s : Bool) {c : Nat} (hc : c < 2 ^ (f.expBits + f.fracBits)) : magOf f (f.code s 0 c) = c := by
  cases s <;> simp [magOf, FpFormat.code, FpFormat.width, Nat.mod_eq_of_lt hc]

theorem signOf_code {f : FpFormat} (s : Bool) {c : Nat} (hc : c < 2 ^ (f.expBits + f.fracBits)) :
    f.signOf (f.code s 0 c) = s := by
  cases s <;> simp [FpFormat.signOf, FpFormat.code, FpFormat.width, Nat.testBit_two_pow_add_eq, Nat.testBit_lt_two_pow hc]

theorem code_lt {f : FpFormat} (s : Bool) {c : Nat} (hc : c < 2 ^ (f.expBits + f.fracBits)) : f.code s 0 c < 2 ^ f.width := by
  cases s <;> simp [FpFormat.code, FpFormat.width, pow_succ] <;> omega

/-- The sign bit stands above the last bit of the fraction. -/
theorem code_mod_two {f : FpFormat} (hF : 1 ≤ f.fracBits) (s : Bool) (c : Nat) : f.code s 0 c % 2 = c % 2 := by
  have htop : 2 ∣ 2 ^ (f.width - 1) := dvd_pow_self 2 (by simp only [FpFormat.width]; omega)
  cases s <;> simp [FpFormat.code]
  omega

/-! ### The value of a code -/

theorem unpack_finite_sign {f : FpFormat} {x m : Nat} {s : Bool} {e : Int} (h : f.unpack x = .finite s m e) : s = f.signOf x := by
  simp only [FpFormat.unpack] at h
  split_ifs at h <;> cases h <;> rfl

theorem unpack_inf_sign {f : FpFormat} {x : Nat} {s : Bool} (h : f.unpack x = .inf s) : s = f.signOf x := by
  simp only [FpFormat.unpack] at h
  split_ifs at h
  cases h
  rfl

theorem unpack_inf {f : FpFormat} {x : Nat} (h : magOf f x = infMag f) : f.unpack x = .inf (f.signOf x) := by
  simp [FpFormat.unpack, expOf_eq, fracOf_eq, h, infMag]

/-- A code below infinity's has its magnitude, with its sign, as its value. -/
theorem valueOf_eq {f : FpFormat} {x : Nat} (h : f.expOf x ≠ f.maxExp) :
    valueOf f x = some (signFactor (f.signOf x) * magVal f (magOf f x)) := by
  rw [valueOf, FpFormat.unpack, if_neg h, magVal, magQuanta, ← expOf_eq, ← fracOf_eq]
  split_ifs with he
  · simp [ratOf, signFactor, he, quantumExp]
  · simp only [ratOf, signFactor, quantumExp]
    rw [zpow_add₀ two_ne_zero, zpow_natCast]
    push_cast
    congr 1
    ring

/-- Infinities and NaNs have no value. -/
theorem expOf_ne_maxExp {f : FpFormat} {x : Nat} {z : ℚ} (h : valueOf f x = some z) : f.expOf x ≠ f.maxExp := by
  intro he
  rw [valueOf, FpFormat.unpack, if_pos he] at h
  split_ifs at h <;> cases h

theorem abs_of_valueOf {f : FpFormat} {x : Nat} {z : ℚ} (h : valueOf f x = some z) : |z| = magVal f (magOf f x) := by
  obtain rfl := Option.some.inj ((valueOf_eq (expOf_ne_maxExp h)).symm.trans h)
  simp [abs_mul]

theorem valueOf_code {f : FpFormat} (s : Bool) {c : Nat} (hc : c < infMag f) :
    valueOf f (f.code s 0 c) = some (signFactor s * magVal f c) := by
  have hlt := hc.trans (infMag_lt f)
  have hexp : f.expOf (f.code s 0 c) ≠ f.maxExp := by
    rw [expOf_eq, magOf_code s hlt]
    exact (Nat.div_lt_of_lt_mul ((mul_comm _ _).trans_gt hc)).ne
  rw [valueOf_eq hexp, signOf_code s hlt, magOf_code s hlt]

theorem unpack_code_infMag (f : FpFormat) (s : Bool) : f.unpack (f.code s 0 (infMag f)) = .inf s := by
  rw [unpack_inf (magOf_code s (infMag_lt f)), signOf_code s (infMag_lt f)]

end Sys2Proof.Proofs
end

section
/-! SUPPORT. Rounding (R188, R225): the two codes between which `roundPack` chooses, the choice to nearest with ties to even, and that it is
the correctly rounded result. -/

namespace Sys2Proof.Proofs

open Machine Safety

/-! ### The two codes around an exact magnitude -/

/-- The exponent of the last place that rounding `m * 2 ^ e` keeps. -/
def lastPlace (f : FpFormat) (m : Nat) (e : Int) : Int :=
  max ((Nat.log2 m : Int) + e - f.fracBits) (f.minExp - f.fracBits)

/-- The unit that the discarded part of the magnitude is counted against. -/
def dropUnit (f : FpFormat) (m : Nat) (e : Int) : Nat := 2 ^ (lastPlace f m e - e).toNat

/-- The magnitude over the last place, cut to an integer. -/
def kept (f : FpFormat) (m : Nat) (e : Int) : Nat := m * 2 ^ (e - lastPlace f m e).toNat / dropUnit f m e

/-- The discarded part. -/
def dropped (f : FpFormat) (m : Nat) (e : Int) : Nat := m * 2 ^ (e - lastPlace f m e).toNat % dropUnit f m e

/-- How many exponents the last place stands above the lowest one. -/
def placeShift (f : FpFormat) (m : Nat) (e : Int) : Nat := (lastPlace f m e - quantumExp f).toNat

/-- The code of the magnitude cut to the format. -/
def cutMag (f : FpFormat) (m : Nat) (e : Int) : Nat := kept f m e + placeShift f m e * 2 ^ f.fracBits

/-- The code of the rounded magnitude, as if the exponent field had no bound. -/
def roundMag (f : FpFormat) (mode : RMode) (s : Bool) (m : Nat) (e : Int) : Nat :=
  (if roundsUp mode s (kept f m e) (dropped f m e) (dropUnit f m e) then kept f m e + 1 else kept f m e)
    + placeShift f m e * 2 ^ f.fracBits

/-- Rounding answers one of the two consecutive codes. -/
theorem roundMag_eq (f : FpFormat) (mode : RMode) (s : Bool) (m : Nat) (e : Int) :
    roundMag f mode s m e
      = if roundsUp mode s (kept f m e) (dropped f m e) (dropUnit f m e) then cutMag f m e + 1 else cutMag f m e := by
  simp only [roundMag, cutMag]
  split_ifs <;> ring

/-- Without flush-to-zero, the code `roundPack` answers. -/
theorem roundPack_fst (f : FpFormat) (mode : RMode) (s : Bool) (m : Nat) (e : Int) :
    (f.roundPack mode false s m e).1
      = if infMag f ≤ roundMag f mode s m e then
          if overflowsToInf mode s then f.code s f.maxExp 0 else f.code s (f.maxExp - 1) (2 ^ f.fracBits - 1)
        else f.code s 0 (roundMag f mode s m e) := by
  simp only [FpFormat.roundPack, Bool.and_false, Bool.false_eq_true, if_false]
  exact apply_ite Prod.fst _ _ _

/-- To nearest, an overflow is to infinity, the code after the largest finite one. -/
theorem roundPack_tieEven (f : FpFormat) (s : Bool) (m : Nat) (e : Int) :
    (f.roundPack .tieEven false s m e).1 = f.code s 0 (min (roundMag f .tieEven s m e) (infMag f)) := by
  rw [roundPack_fst]
  rcases lt_or_ge (roundMag f .tieEven s m e) (infMag f) with h | h
  · rw [if_neg h.not_ge, min_eq_left h.le]
  · rw [if_pos h, min_eq_right h, code_eq]
    rfl

/-- The exact magnitude in last places: what is kept and the part of a unit that is discarded. -/
theorem exact_eq_kept (f : FpFormat) (m : Nat) (e : Int) :
    (m : ℚ) * 2 ^ e = (kept f m e + dropped f m e / dropUnit f m e) * 2 ^ lastPlace f m e := by
  have hdiv : (dropUnit f m e * kept f m e + dropped f m e : ℚ) = m * 2 ^ (e - lastPlace f m e).toNat := by
    exact_mod_cast Nat.div_add_mod (m * 2 ^ (e - lastPlace f m e).toNat) (dropUnit f m e)
  have hunit : (dropUnit f m e : ℚ) = 2 ^ ((lastPlace f m e - e).toNat : Int) := by
    rw [dropUnit, zpow_natCast]
    push_cast
    rfl
  have hexp : e = ((e - lastPlace f m e).toNat : Int) - (lastPlace f m e - e).toNat + lastPlace f m e := by omega
  calc (m : ℚ) * 2 ^ e
    _ = m * 2 ^ (e - lastPlace f m e).toNat / 2 ^ ((lastPlace f m e - e).toNat : Int) * 2 ^ lastPlace f m e := by
      conv_lhs => rw [hexp, zpow_add₀ two_ne_zero, zpow_sub₀ two_ne_zero, zpow_natCast]
      ring
    _ = _ := by
      rw [← hdiv, ← hunit]
      have : (dropUnit f m e : ℚ) ≠ 0 := by simp [dropUnit]
      field_simp

theorem dropped_lt (f : FpFormat) (m : Nat) (e : Int) : dropped f m e < dropUnit f m e :=
  Nat.mod_lt _ (Nat.two_pow_pos _)

theorem kept_mul_le (f : FpFormat) (m : Nat) (e : Int) : kept f m e * 2 ^ lastPlace f m e ≤ (m : ℚ) * 2 ^ e := by
  rw [exact_eq_kept f m e]
  gcongr
  exact le_add_of_nonneg_right (by positivity)

theorem lt_kept_succ_mul (f : FpFormat) (m : Nat) (e : Int) : (m : ℚ) * 2 ^ e < (kept f m e + 1) * 2 ^ lastPlace f m e := by
  have hdrop := dropped_lt f m e
  rw [exact_eq_kept f m e]
  gcongr
  rw [div_lt_one (by exact_mod_cast hdrop.pos)]
  exact_mod_cast hdrop

theorem lastPlace_eq (f : FpFormat) (m : Nat) (e : Int) : lastPlace f m e = quantumExp f + placeShift f m e := by
  have : quantumExp f ≤ lastPlace f m e := le_max_right _ _
  simp only [placeShift]
  omega

theorem kept_lt (f : FpFormat) (m : Nat) (e : Int) : kept f m e < 2 ^ (f.fracBits + 1) := by
  have hlog : (m : ℚ) < 2 ^ (m.log2 + 1) := by exact_mod_cast Nat.lt_log2_self
  have hle : (m.log2 : Int) + e - f.fracBits ≤ lastPlace f m e := le_max_left _ _
  have hmul : (kept f m e : ℚ) * 2 ^ lastPlace f m e < 2 ^ (f.fracBits + 1) * 2 ^ lastPlace f m e :=
    calc (kept f m e : ℚ) * 2 ^ lastPlace f m e
      _ ≤ m * 2 ^ e := kept_mul_le f m e
      _ < 2 ^ (m.log2 + 1) * 2 ^ e := by gcongr
      _ ≤ 2 ^ (f.fracBits + 1) * 2 ^ lastPlace f m e := by
        rw [← zpow_natCast, ← zpow_natCast, ← zpow_add₀ two_ne_zero, ← zpow_add₀ two_ne_zero]
        exact zpow_le_zpow_right₀ one_le_two (by push_cast; omega)
  have hlt := lt_of_mul_lt_mul_right hmul (by positivity)
  exact_mod_cast hlt

/-- Above the subnormals the leading bit is kept. -/
theorem le_kept {m : Nat} (hm : m ≠ 0) (f : FpFormat) (e : Int) : placeShift f m e = 0 ∨ 2 ^ f.fracBits ≤ kept f m e := by
  refine or_iff_not_imp_left.mpr fun hshift => ?_
  have hplace : lastPlace f m e = m.log2 + e - f.fracBits := by
    simp only [placeShift, quantumExp, lastPlace] at hshift ⊢
    omega
  have hlog : (2 ^ m.log2 : ℚ) ≤ m := by exact_mod_cast Nat.log2_self_le hm
  have hmul : (2 ^ f.fracBits : ℚ) * 2 ^ lastPlace f m e < (kept f m e + 1) * 2 ^ lastPlace f m e :=
    calc (2 ^ f.fracBits : ℚ) * 2 ^ lastPlace f m e
      _ = 2 ^ m.log2 * 2 ^ e := by
        rw [← zpow_natCast, ← zpow_natCast, ← zpow_add₀ two_ne_zero, ← zpow_add₀ two_ne_zero, hplace]
        congr 1
        omega
      _ ≤ m * 2 ^ e := by gcongr
      _ < (kept f m e + 1) * 2 ^ lastPlace f m e := lt_kept_succ_mul f m e
  have hlt := lt_of_mul_lt_mul_right hmul (by positivity)
  exact Nat.lt_succ_iff.mp (by exact_mod_cast hlt)

theorem magVal_cutMag {m : Nat} (hm : m ≠ 0) (f : FpFormat) (e : Int) :
    magVal f (cutMag f m e) = kept f m e * 2 ^ lastPlace f m e := by
  rw [cutMag, magVal_add_mul (kept_lt f m e).le (le_kept hm f e), lastPlace_eq]

theorem magVal_cutMag_succ {m : Nat} (hm : m ≠ 0) (f : FpFormat) (e : Int) :
    magVal f (cutMag f m e + 1) = (kept f m e + 1) * 2 ^ lastPlace f m e := by
  have hk := (le_kept hm f e).imp_right Nat.le_succ_of_le
  rw [cutMag, add_right_comm, magVal_add_mul (kept_lt f m e) hk, lastPlace_eq]
  push_cast
  rfl

theorem magVal_cutMag_le {m : Nat} (hm : m ≠ 0) (f : FpFormat) (e : Int) : magVal f (cutMag f m e) ≤ m * 2 ^ e := by
  rw [magVal_cutMag hm]
  exact kept_mul_le f m e

theorem lt_magVal_cutMag_succ {m : Nat} (hm : m ≠ 0) (f : FpFormat) (e : Int) :
    (m : ℚ) * 2 ^ e < magVal f (cutMag f m e + 1) := by
  rw [magVal_cutMag_succ hm]
  exact lt_kept_succ_mul f m e

/-! ### To nearest, ties to even -/

/-- The code `c` is the nearer one of the two codes around the magnitude `a`, and the even one of them if `a` is halfway. -/
def NearestEven (f : FpFormat) (a : ℚ) (c : Nat) : Prop :=
  ∃ b, magVal f b ≤ a ∧ a < magVal f (b + 1)
    ∧ ((c = b ∧ (2 * a < magVal f b + magVal f (b + 1) ∨ 2 * a = magVal f b + magVal f (b + 1) ∧ b % 2 = 0))
      ∨ (c = b + 1 ∧ (magVal f b + magVal f (b + 1) < 2 * a ∨ 2 * a = magVal f b + magVal f (b + 1) ∧ b % 2 = 1)))

/-- The magnitude compares with the midpoint of its two codes as twice the discarded part with its unit. -/
theorem midpoint_sub {m : Nat} (hm : m ≠ 0) (f : FpFormat) (e : Int) :
    (2 * (m * 2 ^ e) - (magVal f (cutMag f m e) + magVal f (cutMag f m e + 1))) * dropUnit f m e
      = ((2 * dropped f m e : Nat) - dropUnit f m e : ℚ) * 2 ^ lastPlace f m e := by
  have hunit : (dropUnit f m e : ℚ) ≠ 0 := by simp [dropUnit]
  rw [magVal_cutMag hm, magVal_cutMag_succ hm, exact_eq_kept f]
  push_cast
  field_simp
  ring

theorem cutMag_mod_two {f : FpFormat} (hF : 1 ≤ f.fracBits) (m : Nat) (e : Int) : cutMag f m e % 2 = kept f m e % 2 := by
  have : 2 ∣ placeShift f m e * 2 ^ f.fracBits := Dvd.dvd.mul_left (dvd_pow_self 2 (by omega)) _
  simp only [cutMag]
  omega

theorem roundMag_nearestEven {f : FpFormat} (hF : 1 ≤ f.fracBits) (s : Bool) {m : Nat} (hm : m ≠ 0) (e : Int) :
    NearestEven f (m * 2 ^ e) (roundMag f .tieEven s m e) := by
  refine ⟨cutMag f m e, magVal_cutMag_le hm f e, lt_magVal_cutMag_succ hm f e, ?_⟩
  have hunit : (0 : ℚ) < dropUnit f m e := by simp [dropUnit]
  have hplace : (0 : ℚ) < 2 ^ lastPlace f m e := by positivity
  have hmid := midpoint_sub hm f e
  have hpar := cutMag_mod_two hF m e
  rcases lt_trichotomy (2 * dropped f m e) (dropUnit f m e) with hlt | heq | hgt
  · have hneg : ((2 * dropped f m e : Nat) - dropUnit f m e : ℚ) < 0 := sub_neg.mpr (by exact_mod_cast hlt)
    refine .inl ⟨by simp [roundMag_eq, roundsUp]; omega, .inl (sub_neg.mp ?_)⟩
    exact neg_of_mul_neg_left (hmid ▸ mul_neg_of_neg_of_pos hneg hplace) hunit.le
  · have htie := sub_eq_zero.mp ((mul_eq_zero_iff_right hunit.ne').mp (hmid.trans (by rw [heq, sub_self, zero_mul])))
    rcases Nat.mod_two_eq_zero_or_one (cutMag f m e) with heven | hodd
    · exact .inl ⟨by simp [roundMag_eq, roundsUp]; omega, .inr ⟨htie, heven⟩⟩
    · exact .inr ⟨by simp [roundMag_eq, roundsUp]; omega, .inr ⟨htie, hodd⟩⟩
  · have hpos : (0 : ℚ) < (2 * dropped f m e : Nat) - dropUnit f m e := sub_pos.mpr (by exact_mod_cast hgt)
    refine .inr ⟨by simp [roundMag_eq, roundsUp]; omega, .inl (sub_pos.mp ?_)⟩
    exact (mul_pos_iff_of_pos_right hunit).mp (hmid ▸ mul_pos hpos hplace)

/-- Of all codes, unbounded in the exponent, none is nearer, and an equally near one leaves the chosen code even. -/
theorem NearestEven.dist_le {f : FpFormat} {a : ℚ} {c : Nat} (h : NearestEven f a c) (d : Nat) :
    |magVal f c - a| ≤ |magVal f d - a| ∧ (|magVal f c - a| = |magVal f d - a| → d ≠ c → c % 2 = 0) := by
  obtain ⟨b, hlo, hhi, hc⟩ := h
  have hlow : |magVal f b - a| = a - magVal f b := by rw [abs_of_nonpos (by linarith)]; ring
  have hhigh : |magVal f (b + 1) - a| = magVal f (b + 1) - a := abs_of_pos (by linarith)
  rcases Nat.lt_or_ge b d with hd | hd
  · have hmono : magVal f (b + 1) ≤ magVal f d := (magVal_strictMono f).monotone hd
    have hdist : |magVal f d - a| = magVal f d - a := abs_of_pos (by linarith)
    rcases hc with ⟨rfl, hcmp⟩ | ⟨rfl, hcmp⟩
    · rw [hlow, hdist]
      rcases hcmp with hcmp | ⟨hcmp, heven⟩
      · exact ⟨by linarith, fun heq => by linarith⟩
      · exact ⟨by linarith, fun _ _ => heven⟩
    · rw [hhigh, hdist]
      exact ⟨by linarith, fun heq hne => absurd ((magVal_strictMono f).injective (by linarith)) hne⟩
  · have hmono : magVal f d ≤ magVal f b := (magVal_strictMono f).monotone hd
    have hdist : |magVal f d - a| = a - magVal f d := by rw [abs_of_nonpos (by linarith)]; ring
    rcases hc with ⟨rfl, hcmp⟩ | ⟨rfl, hcmp⟩
    · rw [hlow, hdist]
      exact ⟨by linarith, fun heq hne => absurd ((magVal_strictMono f).injective (by linarith)) hne⟩
    · rw [hhigh, hdist]
      rcases hcmp with hcmp | ⟨hcmp, hodd⟩
      · exact ⟨by linarith, fun heq => by linarith⟩
      · exact ⟨by linarith, fun _ _ => by omega⟩

/-! ### The bound of the overflow -/

/-- The bound is halfway between the largest finite magnitude and the next one. -/
theorem two_mul_overflowBound {f : FpFormat} (hE : 2 ≤ f.expBits) :
    2 * overflowBound f = magVal f (infMag f - 1) + magVal f (infMag f) := by
  have hpos : 0 < 2 ^ f.fracBits := Nat.two_pow_pos _
  have hmax : f.maxExp = 2 * f.bias + 1 := by
    have := Nat.two_pow_pos (f.expBits - 1)
    rw [FpFormat.maxExp, FpFormat.bias, ← Nat.two_pow_pred_mul_two (by omega)]
    omega
  have hbias : 1 ≤ f.bias := by
    have := Nat.pow_le_pow_right two_pos (show 1 ≤ f.expBits - 1 by omega)
    simp only [FpFormat.bias]
    omega
  have hinf : infMag f = 2 ^ (f.fracBits + 1) + (2 * f.bias - 1) * 2 ^ f.fracBits := by
    rw [infMag, hmax, pow_succ', ← Nat.add_mul, show 2 + (2 * f.bias - 1) = 2 * f.bias + 1 by omega]
  have hlast : infMag f - 1 = (2 ^ (f.fracBits + 1) - 1) + (2 * f.bias - 1) * 2 ^ f.fracBits := by
    rw [hinf, Nat.sub_add_comm (Nat.two_pow_pos _)]
  have hexp : quantumExp f + (2 * f.bias - 1 : Nat) = f.bias - f.fracBits := by
    simp only [quantumExp, FpFormat.minExp]
    omega
  rw [hlast, hinf, magVal_add_mul (Nat.sub_le _ _) (.inr (by rw [pow_succ]; omega)),
    magVal_add_mul le_rfl (.inr (by rw [pow_succ]; omega)), hexp, overflowBound, Nat.cast_sub (Nat.two_pow_pos _),
    zpow_sub₀ two_ne_zero, zpow_neg, zpow_add₀ two_ne_zero, zpow_natCast, zpow_natCast]
  push_cast
  field_simp
  ring

/-- The rounded code reaches infinity exactly from the bound on: the largest finite code is odd, so the tie at the bound goes up. -/
theorem NearestEven.infMag_le_iff {f : FpFormat} (hE : 2 ≤ f.expBits) (hF : 1 ≤ f.fracBits) {a : ℚ} {c : Nat}
    (h : NearestEven f a c) : infMag f ≤ c ↔ overflowBound f ≤ a := by
  obtain ⟨b, hlo, hhi, hc⟩ := h
  have hbound := two_mul_overflowBound hE
  have hpos := infMag_pos hE
  have heven : 2 ∣ infMag f := Dvd.dvd.mul_left (dvd_pow_self 2 (by omega)) _
  have hmono := (magVal_strictMono f).monotone
  have hstep : magVal f (infMag f - 1) < magVal f (infMag f) := magVal_strictMono f (by omega)
  rcases lt_trichotomy (b + 1) (infMag f) with hb | hb | hb
  · have hle : magVal f (b + 1) ≤ magVal f (infMag f - 1) := hmono (by omega)
    exact iff_of_false (by omega) (by linarith)
  · rw [← hb, Nat.add_sub_cancel] at hbound
    rcases hc with ⟨rfl, hcmp | ⟨_, _⟩⟩ | ⟨rfl, hcmp⟩
    · exact iff_of_false (by omega) (by linarith)
    · omega
    · exact iff_of_true hb.ge (by rcases hcmp with hcmp | ⟨hcmp, _⟩ <;> linarith)
  · have hle : magVal f (infMag f) ≤ magVal f b := hmono (by omega)
    exact iff_of_true (by omega) (by linarith)

/-! ### Correct rounding to nearest -/

theorem correctlyRounded_tieEven_of_inf {f : FpFormat} {v : ℚ} {x : Nat} {s : Bool} (h : f.unpack x = .inf s) :
    correctlyRounded f .tieEven v x ↔ if s then v ≤ -overflowBound f else overflowBound f ≤ v := by
  simp [correctlyRounded, h]

theorem correctlyRounded_tieEven_of_value {f : FpFormat} {u v : ℚ} {x : Nat} (h : valueOf f x = some u) :
    correctlyRounded f .tieEven v x
      ↔ |v| < overflowBound f
        ∧ ∀ y z, valueOf f y = some z → |u - v| ≤ |z - v| ∧ (|u - v| = |z - v| → z ≠ u → x % 2 = 0) := by
  unfold valueOf at h
  unfold correctlyRounded
  cases hx : f.unpack x with
  | nan q => rw [hx] at h; cases h
  | inf s => rw [hx] at h; cases h
  | finite s m e =>
    rw [hx] at h
    simp [h]

/-- Against the values of both signs: one of the other sign is further away than its magnitude. -/
theorem NearestEven.signed_dist_le {f : FpFormat} {a : ℚ} {c : Nat} (h : NearestEven f a c) (ha : 0 < a) (s : Bool) {y : Nat}
    {z : ℚ} (hz : valueOf f y = some z) :
    |signFactor s * magVal f c - signFactor s * a| ≤ |z - signFactor s * a|
      ∧ (|signFactor s * magVal f c - signFactor s * a| = |z - signFactor s * a| → z ≠ signFactor s * magVal f c → c % 2 = 0) := by
  have habs := abs_of_valueOf hz
  obtain ⟨hle, htie⟩ := h.dist_le (magOf f y)
  have hfar : |magVal f (magOf f y) - a| ≤ |z - signFactor s * a| := by
    simpa [abs_mul, habs, abs_of_pos ha] using abs_abs_sub_abs_le z (signFactor s * a)
  rw [← mul_sub, abs_mul, abs_signFactor, one_mul]
  refine ⟨hle.trans hfar, fun heq hne => ?_⟩
  by_cases hd : magOf f y = c
  · rw [hd] at habs
    have hopp : z = -(signFactor s * magVal f c) := by
      refine (abs_eq_abs.mp ?_).resolve_left hne
      rw [habs, abs_mul, abs_signFactor, one_mul, abs_magVal]
    have hsum : |z - signFactor s * a| = magVal f c + a := by
      rw [hopp, ← neg_add', abs_neg, ← mul_add, abs_mul, abs_signFactor, one_mul,
        abs_of_nonneg (add_nonneg (magVal_nonneg f c) ha.le)]
    have hzero : magVal f c = 0 := by
      rcases abs_cases (magVal f c - a) with ⟨habs', _⟩ | ⟨habs', _⟩ <;> linarith [magVal_nonneg f c]
    exact absurd (by rw [hopp, hzero]; simp) hne
  · exact htie (le_antisymm hle (heq ▸ hfar)) hd

/-- R188, R225: `roundPack` to nearest answers the correctly rounded code of the exact value, in every format. -/
theorem roundPack_tieEven_correctlyRounded {f : FpFormat} (hE : 2 ≤ f.expBits) (hF : 1 ≤ f.fracBits) (s : Bool) {m : Nat}
    (hm : m ≠ 0) (e : Int) :
    correctlyRounded f .tieEven (signFactor s * (m * 2 ^ e)) (f.roundPack .tieEven false s m e).1 := by
  have hnear := roundMag_nearestEven hF s hm e
  have hpos : (0 : ℚ) < m * 2 ^ e := mul_pos (by exact_mod_cast Nat.pos_of_ne_zero hm) (by positivity)
  rw [roundPack_tieEven]
  rcases lt_or_ge (roundMag f .tieEven s m e) (infMag f) with hfin | hinf
  · rw [min_eq_left hfin.le, correctlyRounded_tieEven_of_value (valueOf_code s hfin), abs_mul, abs_signFactor, one_mul,
      abs_of_pos hpos, code_mod_two hF]
    exact ⟨lt_of_not_ge fun hle => hfin.not_ge ((hnear.infMag_le_iff hE hF).mpr hle),
      fun _ _ hz => hnear.signed_dist_le hpos s hz⟩
  · have hbound := (hnear.infMag_le_iff hE hF).mp hinf
    rw [min_eq_right hinf, correctlyRounded_tieEven_of_inf (unpack_code_infMag f s)]
    cases s <;> simpa [signFactor] using hbound

theorem overflowBound_pos {f : FpFormat} (hE : 2 ≤ f.expBits) : 0 < overflowBound f := by
  have hbound := two_mul_overflowBound hE
  have hstep : magVal f (infMag f - 1) < magVal f (infMag f) :=
    magVal_strictMono f (Nat.sub_lt (infMag_pos hE) one_pos)
  linarith [magVal_nonneg f (infMag f - 1)]

/-- Zero of either sign is the rounding of zero. -/
theorem zero_correctlyRounded {f : FpFormat} (hE : 2 ≤ f.expBits) (s : Bool) :
    correctlyRounded f .tieEven 0 (f.code s 0 0) := by
  have hval : valueOf f (f.code s 0 0) = some 0 := by
    simp [valueOf_code s (infMag_pos hE), magVal, magQuanta]
  rw [correctlyRounded_tieEven_of_value hval]
  refine ⟨by simpa using overflowBound_pos hE, fun y z _ => ⟨by simp, fun heq hne => absurd ?_ hne⟩⟩
  simpa using heq.symm

end Sys2Proof.Proofs
end

section
/-! SUPPORT. ToHalf (R188): its three cases, the sign it keeps, and the statement about it. -/

namespace Sys2Proof.Proofs

open Machine Safety

theorem toHalf_nan {x : DWord} {q : Bool} (h : fmtDouble.unpack x.toNat = .nan q) :
    toHalf x = fmtHalf.code (fmtDouble.signOf x.toNat) 0 (infMag fmtHalf + 0x200) := by
  rw [toHalf, h, infMag]
  exact code_eq _ _ _ _

theorem toHalf_inf {x : DWord} {s : Bool} (h : fmtDouble.unpack x.toNat = .inf s) :
    toHalf x = fmtHalf.code s 0 (infMag fmtHalf) := by
  rw [toHalf, h, infMag]
  exact code_eq _ _ _ _

theorem toHalf_finite {x : DWord} {s : Bool} {m : Nat} {e : Int} (h : fmtDouble.unpack x.toNat = .finite s m e) :
    toHalf x = if m = 0 then fmtHalf.code s 0 0 else (fmtHalf.roundPack .tieEven false s m e).1 := by
  rw [toHalf, h]

/-- R188: in every case the sign bit is kept over a magnitude of 15 bits. -/
theorem toHalf_eq_code (x : DWord) : ∃ c < 2 ^ (fmtHalf.expBits + fmtHalf.fracBits), toHalf x = fmtHalf.code x.msb 0 c := by
  have hsign : fmtDouble.signOf x.toNat = x.msb := by
    rw [BitVec.msb_eq_getLsbD_last]
    rfl
  have hinf := infMag_lt fmtHalf
  cases hx : fmtDouble.unpack x.toNat with
  | nan q => exact ⟨infMag fmtHalf + 0x200, by decide, by rw [toHalf_nan hx, hsign]⟩
  | inf s => exact ⟨_, hinf, by rw [toHalf_inf hx, unpack_inf_sign hx, hsign]⟩
  | finite s m e =>
    rw [toHalf_finite hx, unpack_finite_sign hx, hsign]
    split_ifs
    · exact ⟨0, by decide, rfl⟩
    · exact ⟨_, (min_le_right _ _).trans_lt hinf, roundPack_tieEven _ _ _ _⟩

/-- R188: the code of a finite value is that value rounded to nearest, ties to even. -/
theorem toHalf_correctlyRounded {x : DWord} {v : ℚ} (h : valueOf fmtDouble x.toNat = some v) :
    correctlyRounded fmtHalf .tieEven v (toHalf x) := by
  unfold valueOf at h
  cases hx : fmtDouble.unpack x.toNat with
  | nan q => rw [hx] at h; cases h
  | inf s => rw [hx] at h; cases h
  | finite s m e =>
    rw [hx] at h
    obtain rfl : signFactor s * m * 2 ^ e = v := Option.some.inj h
    rw [toHalf_finite hx, mul_assoc]
    split_ifs with hm
    · simpa [hm] using zero_correctlyRounded (f := fmtHalf) (by decide) s
    · exact roundPack_tieEven_correctlyRounded (by decide) (by decide) s hm e

/-- Settles O36: a finite value by the rounding of `roundPack`, an infinity and a NaN by their codes. -/
theorem toHalfRoundsToNearest : Obligations.ToHalfRoundsToNearest := by
  intro x
  refine ⟨fun v => toHalf_correctlyRounded, fun s hs => ?_, fun q hq => ?_, ?_⟩
  · rw [toHalf_inf hs, unpack_code_infMag]
  · rw [toHalf_nan hq]
    cases fmtDouble.signOf x.toNat <;> exact ⟨false, by decide⟩
  · obtain ⟨c, hc, hcode⟩ := toHalf_eq_code x
    rw [hcode]
    exact ⟨signOf_code _ hc, code_lt _ hc⟩

end Sys2Proof.Proofs
end

section
/-! SUPPORT. FINALIZE and LENGTH over one step (R201, R202), and the fields of the STATUS view (R21). -/

namespace Sys2Proof.Proofs

open Machine Safety

/-! ### The fields of the STATUS view, from the low end (R21) -/

theorem statusView_phase (s : State) : (statusView s).extractLsb' 0 2 = phaseCode s.phase :=
  BitVec.extractLsb'_append_eq_right

theorem statusView_err (s : State) : (statusView s).extractLsb' 2 3 = errCode s.err :=
  calc (statusView s).extractLsb' 2 3
    _ = (0#26 ++ BitVec.ofBool s.approx ++ errCode s.err).extractLsb' 0 3 := BitVec.extractLsb'_append_eq_of_le le_rfl
    _ = errCode s.err := BitVec.extractLsb'_append_eq_right

theorem statusView_approx (s : State) : (statusView s).getLsbD 5 = s.approx :=
  calc (statusView s).getLsbD 5
    _ = (0#26 ++ BitVec.ofBool s.approx ++ errCode s.err).getLsbD 3 := BitVec.getLsbD_append
    _ = (0#26 ++ BitVec.ofBool s.approx).getLsbD 0 := BitVec.getLsbD_append
    _ = (BitVec.ofBool s.approx).getLsbD 0 := BitVec.getLsbD_append
    _ = s.approx := BitVec.getLsbD_ofBool _ _

theorem statusView_reserved (s : State) : (statusView s).extractLsb' 6 26 = 0 :=
  calc (statusView s).extractLsb' 6 26
    _ = (0#26 ++ BitVec.ofBool s.approx ++ errCode s.err).extractLsb' 4 26 :=
      BitVec.extractLsb'_append_eq_of_le (by decide)
    _ = (0#26 ++ BitVec.ofBool s.approx).extractLsb' 1 26 := BitVec.extractLsb'_append_eq_of_le (by decide)
    _ = 0 := BitVec.extractLsb'_append_eq_left

/-! ### The next request -/

theorem step_of_issues {s : State} {x : Input} {rest : List Input} (h : issues s x rest) :
    step s = processInput x { s with inputs := rest } := by
  obtain ⟨hidle, hnext⟩ := h
  exact step_input hidle hnext

/-! ### The statements -/

/-- Settles O19, by the two cases of FINALIZE: an open session, and a frozen or aborted one. -/
theorem finalizeFreezesAnOpenSession : Obligations.FinalizeFreezesAnOpenSession := by
  intro s rest hi
  rw [step_of_issues hi]
  refine ⟨fun hopen => ?_, fun hclosed => ?_⟩
  · exact congrArg Host.Outcome.next (doFinalize_opened hopen)
  · exact congrArg Host.Outcome.next (doFinalize_closed hclosed)

/-- Settles O20: the word LENGTH answers with is the STATUS view, read field by field. -/
theorem lengthReportsTheStatus : Obligations.LengthReportsTheStatus := by
  intro s rest hi
  refine ⟨statusView s, step_of_issues hi, statusView_reserved s, statusView_approx s, ?_, ?_⟩
  · rw [statusView_phase]
    cases s.phase <;> rfl
  · rw [statusView_err]
    cases s.err <;> rfl

end Sys2Proof.Proofs
end

section
/-! SUPPORT. AddWithCarry and ShiftReg at every width (R212, R213): the result, each flag as a fact about the operands, and what
the flags say after a compare (R222). -/

namespace Sys2Proof.Proofs

open Machine Safety

/-! ### AddWithCarry (R212) -/

theorem addWithCarry_toNat {w : Nat} (x y : BitVec w) (c : Bool) :
    (addWithCarry x y c).1.toNat = (x.toNat + y.toNat + c.toNat) % 2 ^ w :=
  BitVec.toNat_ofNat _ _

theorem addWithCarry_toInt {w : Nat} (x y : BitVec w) (c : Bool) :
    (addWithCarry x y c).1.toInt = (x.toInt + y.toInt + c.toNat).bmod (2 ^ w) := by
  rw [BitVec.toInt_eq_toNat_bmod, addWithCarry_toNat, BitVec.toInt_eq_toNat_bmod x, BitVec.toInt_eq_toNat_bmod y,
    Int.natCast_emod, Int.emod_bmod, Nat.cast_add, Nat.cast_add, add_assoc, add_assoc, Int.bmod_add_bmod, add_left_comm,
    add_left_comm (x.toNat : Int), Int.bmod_add_bmod]

theorem addWithCarry_zero_iff {w : Nat} (x y : BitVec w) (c : Bool) :
    (addWithCarry x y c).2.z = true ↔ (addWithCarry x y c).1 = 0 :=
  decide_eq_true_iff

theorem addWithCarry_carry_iff {w : Nat} (x y : BitVec w) (c : Bool) :
    (addWithCarry x y c).2.c = true ↔ (addWithCarry x y c).1.toNat ≠ x.toNat + y.toNat + c.toNat :=
  decide_eq_true_iff

theorem addWithCarry_carry_iff_le {w : Nat} (x y : BitVec w) (c : Bool) :
    (addWithCarry x y c).2.c = true ↔ 2 ^ w ≤ x.toNat + y.toNat + c.toNat := by
  rw [addWithCarry_carry_iff, addWithCarry_toNat, ne_eq, Nat.mod_eq_iff_lt (by positivity), not_lt]

theorem addWithCarry_negative_iff {w : Nat} (x y : BitVec w) (c : Bool) :
    (addWithCarry x y c).2.n = true ↔ (addWithCarry x y c).1.toInt < 0 := by
  change (addWithCarry x y c).1.msb = true ↔ _
  rw [BitVec.msb_eq_toInt, decide_eq_true_iff]

theorem addWithCarry_overflow_iff {w : Nat} (x y : BitVec w) (c : Bool) :
    (addWithCarry x y c).2.v = true ↔ (addWithCarry x y c).1.toInt ≠ x.toInt + y.toInt + c.toNat :=
  decide_eq_true_iff

/-- The balanced remainder changes exactly the integers outside the signed range. -/
theorem bmod_two_pow_ne_iff {w : Nat} (hw : 0 < w) (d : Int) :
    d.bmod (2 ^ w) ≠ d ↔ d < -(2 ^ (w - 1) : Int) ∨ (2 ^ (w - 1) : Int) ≤ d := by
  have htwo : 2 ^ w = 2 * 2 ^ (w - 1) := (mul_pow_sub_one hw.ne' 2).symm
  rw [ne_eq, Int.bmod_eq_iff (by positivity), sub_self, htwo]
  push_cast
  generalize (2 : Int) ^ (w - 1) = M
  have hdvd : 2 * M ∣ 0 := dvd_zero _
  omega

/-- Settles O44: each flag is its own fact about the sum. -/
theorem addWithCarrySetsTheFlags : Obligations.AddWithCarrySetsTheFlags := by
  intro w x y c hw
  refine ⟨addWithCarry_toNat x y c, BitVec.msb_eq_getLsbD_last _, addWithCarry_zero_iff x y c, addWithCarry_carry_iff x y c,
    addWithCarry_carry_iff_le x y c, addWithCarry_overflow_iff x y c, ?_⟩
  rw [addWithCarry_overflow_iff, addWithCarry_toInt]
  exact bmod_two_pow_ne_iff hw _

/-! ### A compare, AddWithCarry with the complement and carry in (R222) -/

theorem addWithCarry_not_toNat_sum {w : Nat} (a b : BitVec w) :
    a.toNat + (~~~ b).toNat + true.toNat + b.toNat = a.toNat + 2 ^ w := by
  have hb := b.isLt
  rw [BitVec.toNat_not, Bool.toNat_true]
  omega

theorem addWithCarry_not {w : Nat} (a b : BitVec w) : (addWithCarry a (~~~ b) true).1 = a - b := by
  rw [BitVec.sub_eq_add_neg, BitVec.neg_eq_not_add, ← BitVec.add_assoc]
  apply BitVec.eq_of_toNat_eq
  simp [addWithCarry_toNat]

theorem toInt_not_eq_neg_sub_one {w : Nat} (hw : 0 < w) (b : BitVec w) : (~~~ b).toInt = - b.toInt - 1 := by
  have hb := b.isLt
  have htwo : 2 ^ w = 2 * 2 ^ (w - 1) := (mul_pow_sub_one hw.ne' 2).symm
  rw [BitVec.toInt_eq_toNat_cond, BitVec.toInt_eq_toNat_cond, BitVec.toNat_not]
  generalize 2 ^ (w - 1) = M at htwo
  split <;> split <;> omega

/-- The flags a compare of `a` with `b` sets. -/
def compareFlags {w : Nat} (a b : BitVec w) : Nzcv := (addWithCarry a (~~~ b) true).2

theorem compareFlags_z_iff {w : Nat} (a b : BitVec w) : (compareFlags a b).z = true ↔ a = b := by
  rw [compareFlags, addWithCarry_zero_iff, addWithCarry_not, BitVec.sub_eq_iff_eq_add, zero_add]

theorem compareFlags_c_iff {w : Nat} (a b : BitVec w) : (compareFlags a b).c = true ↔ b.toNat ≤ a.toNat := by
  have hsum := addWithCarry_not_toNat_sum a b
  rw [compareFlags, addWithCarry_carry_iff_le]
  omega

theorem compareFlags_n_iff {w : Nat} (a b : BitVec w) : (compareFlags a b).n = true ↔ (a - b).toInt < 0 := by
  rw [compareFlags, addWithCarry_negative_iff, addWithCarry_not]

theorem compareFlags_v_iff {w : Nat} (hw : 0 < w) (a b : BitVec w) :
    (compareFlags a b).v = true ↔ (a - b).toInt ≠ a.toInt - b.toInt := by
  rw [compareFlags, addWithCarry_overflow_iff, addWithCarry_not, toInt_not_eq_neg_sub_one hw, Bool.toNat_true,
    show a.toInt + (-b.toInt - 1) + ((1 : Nat) : Int) = a.toInt - b.toInt by push_cast; ring]

/-- N and V agree after a compare exactly where the signed order says that the first operand is not the smaller one: where the true
difference is out of range, its sign is the opposite of N. -/
theorem compareFlags_n_eq_v_iff {w : Nat} (hw : 0 < w) (a b : BitVec w) :
    (compareFlags a b).n = (compareFlags a b).v ↔ b.toInt ≤ a.toInt := by
  have htwo : (2 : Int) ^ w = 2 * 2 ^ (w - 1) := (mul_pow_sub_one hw.ne' 2).symm
  have ha := BitVec.toInt_lt (x := a)
  have hb := BitVec.toInt_lt (x := b)
  have ha' := BitVec.le_toInt a
  have hb' := BitVec.le_toInt b
  rw [Bool.eq_iff_iff, compareFlags_n_iff, compareFlags_v_iff hw, BitVec.toInt_sub, bmod_two_pow_ne_iff hw,
    Int.bmod_neg_iff (by push_cast; omega) (by push_cast; omega)]
  push_cast
  omega

/-! ### ShiftReg (R213) -/

/-- Settles O45, shift type by shift type. -/
theorem shiftRegMovesTheBits : Obligations.ShiftRegMovesTheBits := by
  intro w v n k hn hk
  refine ⟨?lsl, ?lsr, ?asr, ?ror⟩
  case lsl =>
    rw [shiftReg, BitVec.getLsbD_shiftLeft, decide_eq_true hk, Bool.true_and, ← decide_not, decide_eq_decide.mpr not_lt]
  case lsr => rw [shiftReg, BitVec.getLsbD_ushiftRight, Nat.add_comm]
  case asr =>
    rw [shiftReg, BitVec.getLsbD_sshiftRight, BitVec.msb_eq_getLsbD_last, Nat.add_comm n k, decide_eq_false (by omega)]
    rfl
  case ror =>
    rw [shiftReg, BitVec.getLsbD_rotateRight, Nat.mod_eq_of_lt hn]
    by_cases hlow : k < w - n
    · rw [Nat.mod_eq_of_lt (by omega), Nat.add_comm k n]
      simp [hlow]
    · have hwrap : (k + n) % w = k - (w - n) := by
        rw [Nat.mod_eq_sub_mod (by omega), Nat.mod_eq_of_lt (by omega)]
        omega
      simp [hlow, hk, hwrap]

end Sys2Proof.Proofs
end

section
/-! SUPPORT. What the integer and branch words do to the registers (R214 to R224): the operands a word reads from a request's record
(R54 to R58), and each statement from the rule of its family. -/

namespace Sys2Proof.Proofs

open Machine Safety

/-! ### The operands of a word -/

theorem regField_of_isField {x : Option Int} {v : RegField} (h : isField x v) : regField x = v := by
  rw [regField, h, Option.getD_some, BitVec.ofInt_natCast, BitVec.ofNat_toNat, BitVec.setWidth_eq]

theorem immOf_of_isField {n : Nat} {o : Operands} {v : BitVec n} (h : isField o.imm v) : immOf o = v.toNat := by
  rw [immOf, h, Option.getD_some, Int.toNat_natCast]

theorem toNat_of_isFieldOr {n : Nat} {dflt : Int} {x : Option Int} {v : BitVec n} (h : isFieldOr dflt x v) :
    (x.getD dflt).toNat = v.toNat := by
  rw [show x.getD dflt = (v.toNat : Int) from h, Int.toNat_natCast]

theorem lanePos_of_hw {o : Operands} {hw : BitVec 2} (h : o.hwShift.getD 0 = 16 * (hw.toNat : Int)) : lanePos o = 16 * hw.toNat := by
  rw [lanePos, h]
  omega

theorem datasize_of_sf {o : Operands} {sf : BitVec 1} (h : isFieldOr 1 o.sf sf) : datasize o = if sf = 1 then 64 else 32 := by
  have hval : o.sf.getD 1 = 1 ↔ sf = 1 := by
    rw [show o.sf.getD 1 = (sf.toNat : Int) from h, BitVec.toNat_eq]
    exact Nat.cast_eq_one
  simp only [datasize, hval]

theorem datasize_le (o : Operands) : datasize o ≤ 64 := by
  rw [datasize]
  split <;> decide

/-- R56: a code determines its name; the arithmetic forms' table is a part of this one. -/
theorem name_eq_of_code_eq {n n' : String} {code : BitVec 2} (h : (n, code) ∈ logicalShiftCodes)
    (h' : (n', code) ∈ logicalShiftCodes) : n = n' := by
  have hinj : ∀ p ∈ logicalShiftCodes, ∀ q ∈ logicalShiftCodes, p.2 = q.2 → p.1 = q.1 := by decide
  exact hinj _ h _ h' rfl

theorem arithShiftCodes_subset : arithShiftCodes ⊆ logicalShiftCodes := by decide

@[simp] theorem shiftOfName_shiftName (t : ShiftType) : shiftOfName (shiftName t) = some t := by cases t <;> rfl

theorem shiftOf_of_getD {o : Operands} {t : ShiftType} (h : o.shift.getD "LSL" = shiftName t) : shiftOf o = t := by
  cases hs : o.shift with
  | none =>
    rw [hs, Option.getD_none] at h
    rw [shiftOf, hs]
    have ht : shiftOfName "LSL" = some t := by rw [h, shiftOfName_shiftName]
    exact Option.some.inj ht
  | some n =>
    rw [hs, Option.getD_some] at h
    rw [shiftOf, hs, h, Option.bind_some, shiftOfName_shiftName, Option.getD_some]

theorem shiftOf_of_isShift {names : List (String × BitVec 2)} (hsub : names ⊆ logicalShiftCodes) {o : Operands} {sf : BitVec 1}
    {shift : BitVec 2} {amount : BitVec 6} {t : ShiftType} (ht : (shiftName t, shift) ∈ names) (h : isShift names o sf shift amount) :
    shiftOf o = t ∧ amountOf o = amount.toNat := by
  obtain ⟨hname, hamount, -⟩ := h
  exact ⟨shiftOf_of_getD (name_eq_of_code_eq (hsub hname) (hsub ht)), toNat_of_isFieldOr hamount⟩

@[simp] theorem condOfName_condName (c : Cond) : condOfName (condName c) = some c := by cases c <;> rfl

theorem condOf_of_cond {o : Operands} {c : Cond} (h : o.cond = some (condName c)) : condOf o = c := by
  rw [condOf, h, Option.bind_some, condOfName_condName, Option.getD_some]

/-! ### The add and subtract words (R214 to R216) -/

theorem ofNat_mul_two_pow {n : Nat} (w k : Nat) (x : BitVec n) : BitVec.ofNat w (x.toNat * 2 ^ k) = x.setWidth w <<< k := by
  apply BitVec.eq_of_toNat_eq
  rw [BitVec.toNat_shiftLeft, BitVec.toNat_ofNat, BitVec.toNat_setWidth, Nat.shiftLeft_eq, Nat.mod_mul_mod]

theorem addWithCarry_zero {w : Nat} (x : BitVec w) : (addWithCarry x (BitVec.ofNat w 0) false).1 = x := by
  apply BitVec.eq_of_toNat_eq
  simp [addWithCarry_toNat, Nat.mod_eq_of_lt x.isLt]

/-- Settles O46, family by family: the operands are the fields', the rest is the family's rule. -/
theorem addSubtractWordsOnTheTarget : Obligations.AddSubtractWordsOnTheTarget := by
  intro r o sf sh imm12 shift amount rm rn rd w hsf hw hn
  rw [← datasize_of_sf hsf] at hw
  subst hw
  have en := regField_of_isField hn
  refine ⟨fun hsh himm => ?immediate, fun hd => ?movSp, fun hm t ht hshift => ?shifted, fun hm hd => ?carry⟩
  case immediate =>
    simp only [targetExec, targetAddSubImm, en, immOf_of_isField himm, toNat_of_isFieldOr hsh, ofNat_mul_two_pow]
    refine ⟨fun hd => ?_, rfl, rfl⟩
    rw [regField_of_isField hd]
    exact ⟨rfl, rfl, rfl, rfl⟩
  case movSp =>
    simp only [targetExec, regField_of_isField hd, en, targetAddSubImm]
    exact congrArg (fun v : BitVec _ => (r.writeXSp rd (v.setWidth 64)).advance) (addWithCarry_zero _)
  case shifted =>
    obtain ⟨et, eamount⟩ := shiftOf_of_isShift arithShiftCodes_subset ht hshift
    simp only [targetExec, targetAddSubReg, en, regField_of_isField hm, et, eamount]
    refine ⟨fun hd => ?_, rfl, rfl⟩
    rw [regField_of_isField hd]
    exact ⟨rfl, rfl, rfl, rfl⟩
  case carry =>
    simp only [targetExec, targetCarry, regField_of_isField hd, en, regField_of_isField hm]
    exact ⟨rfl, rfl⟩

/-! ### The wide moves (R219) -/

/-- R61: a legal lane lies in the register. -/
theorem lane_fits {sf : BitVec 1} {hw : BitVec 2} (h : sf = 0 → hw.toNat < 2) :
    16 * hw.toNat + 16 ≤ if sf = 1 then 64 else 32 := by
  have hlt := hw.isLt
  split
  · omega
  · have hnarrow := h ((BitVec.eq_zero_or_eq_one sf).resolve_right ‹_›)
    omega

/-- A lane of a register: the immediate's bits in it, zero outside. -/
theorem lane_getLsbD {w pos : Nat} (h : pos + 16 ≤ w) (imm : BitVec 16) (k : Nat) :
    (BitVec.ofNat w imm.toNat <<< pos).getLsbD k = (decide (pos ≤ k ∧ k < pos + 16) && imm.getLsbD (k - pos)) := by
  rw [BitVec.getLsbD_shiftLeft, BitVec.ofNat_toNat, BitVec.getLsbD_setWidth]
  by_cases hlane : pos ≤ k ∧ k < pos + 16
  · obtain ⟨hlo, hhi⟩ := hlane
    simp [hlo, hhi, show k < w by omega, show k - pos < w by omega]
  · by_cases hlo : k < pos
    · simp [hlo, hlane]
    · rw [BitVec.getLsbD_of_ge imm _ (by omega)]
      simp

theorem getLsbD_setWidth_of_le {w v : Nat} (h : w ≤ v) (x : BitVec w) (k : Nat) : (x.setWidth v).getLsbD k = x.getLsbD k := by
  rw [BitVec.getLsbD_setWidth, Bool.and_eq_right_iff_imp, decide_eq_true_iff]
  exact fun hk => (BitVec.lt_of_getLsbD hk).trans_le h

theorem movz_getLsbD {w pos : Nat} (hw : w ≤ 64) (h : pos + 16 ≤ w) (imm : BitVec 16) (k : Nat) :
    ((BitVec.ofNat w imm.toNat <<< pos).setWidth 64).getLsbD k
      = (decide (pos ≤ k ∧ k < pos + 16) && imm.getLsbD (k - pos)) := by
  rw [getLsbD_setWidth_of_le hw, lane_getLsbD h]

theorem movn_getLsbD {w pos : Nat} (hw : w ≤ 64) (h : pos + 16 ≤ w) (imm : BitVec 16) (k : Nat) :
    ((~~~ (BitVec.ofNat w imm.toNat <<< pos)).setWidth 64).getLsbD k
      = (decide (k < w) && !(decide (pos ≤ k ∧ k < pos + 16) && imm.getLsbD (k - pos))) := by
  rw [getLsbD_setWidth_of_le hw, BitVec.getLsbD_not, lane_getLsbD h]

/-- The mask of the lane is the lane of the all-ones immediate: where it is set the new bits stand, elsewhere the old ones. -/
theorem movk_getLsbD {w pos : Nat} (hw : w ≤ 64) (h : pos + 16 ≤ w) (old : DWord) (imm : BitVec 16) (k : Nat) :
    (((old.setWidth w &&& ~~~ (BitVec.ofNat w 0xFFFF <<< pos)) ||| (BitVec.ofNat w imm.toNat <<< pos)).setWidth 64).getLsbD k
      = (if decide (pos ≤ k ∧ k < pos + 16) then decide (pos ≤ k ∧ k < pos + 16) && imm.getLsbD (k - pos)
        else decide (k < w) && old.getLsbD k) := by
  have hmask := lane_getLsbD h (BitVec.allOnes 16) k
  rw [show (BitVec.allOnes 16).toNat = 0xFFFF from rfl, BitVec.getLsbD_allOnes] at hmask
  rw [getLsbD_setWidth_of_le hw, BitVec.getLsbD_or, BitVec.getLsbD_and, BitVec.getLsbD_not, BitVec.getLsbD_setWidth, hmask,
    lane_getLsbD h]
  by_cases hlane : pos ≤ k ∧ k < pos + 16
  · simp [hlane, show k - pos < 16 by omega]
  · by_cases hk : k < w <;> simp [hlane, hk]

/-- Settles O48: the value written is a lane, its complement, or a lane put into the old value. -/
theorem wideMovesOnTheTarget : Obligations.WideMovesOnTheTarget := by
  intro r o sf hw imm16 rd w hsf hwidth hlane hhw himm hd
  have hfits : 16 * hw.toNat + 16 ≤ w := hwidth ▸ lane_fits hhw
  rw [← datasize_of_sf hsf] at hwidth
  subst hwidth
  have hle := datasize_le o
  simp only [targetExec, targetMovz, targetMovn, targetMovk, regField_of_isField hd, immOf_of_isField himm, lanePos_of_hw hlane]
  exact ⟨_, _, _, rfl, rfl, rfl,
    fun k => ⟨movz_getLsbD hle hfits imm16 k, movn_getLsbD hle hfits imm16 k, movk_getLsbD hle hfits (r.readX rd) imm16 k⟩⟩

/-! ### The multiplies (R220) -/

theorem ofInt_toNat_mod {n : Nat} (w : Nat) (x : BitVec n) : BitVec.ofInt w (x.toNat % 2 ^ w : Nat) = x.setWidth w := by
  rw [BitVec.ofInt_natCast, ← BitVec.toNat_setWidth, BitVec.ofNat_toNat, BitVec.setWidth_eq]

theorem setWidth_ofInt {w v : Nat} (h : w ≤ v) (z : Int) : (BitVec.ofInt w z).setWidth v = BitVec.ofInt v (z % 2 ^ w) := by
  have hpos : (0 : Int) < 2 ^ w := by positivity
  have hle : (2 : Int) ^ w ≤ 2 ^ v := pow_le_pow_right₀ (by decide) h
  apply BitVec.eq_of_toNat_eq
  rw [BitVec.toNat_setWidth_of_le h, BitVec.toNat_ofInt, BitVec.toNat_ofInt]
  push_cast
  rw [Int.emod_eq_of_lt (Int.emod_nonneg _ hpos.ne') ((Int.emod_lt_of_pos _ hpos).trans_le hle)]

/-- What a multiply word writes, as an integer: the accumulator with the product added or taken off. -/
def mulAccValue (sub : Bool) (a n m : DWord) (w : Nat) : Int :=
  let p : Int := (n.toNat % 2 ^ w : Nat) * (m.toNat % 2 ^ w : Nat)
  if sub then (a.toNat % 2 ^ w : Nat) - p else (a.toNat % 2 ^ w : Nat) + p

theorem mulAccValue_zr_add (r : Regs) (n m : DWord) (w : Nat) :
    mulAccValue false (r.readX 31) n m w = (n.toNat % 2 ^ w : Nat) * (m.toNat % 2 ^ w : Nat) := by
  rw [readX_zr]
  simp [mulAccValue]

theorem mulAccValue_zr_sub (r : Regs) (n m : DWord) (w : Nat) :
    mulAccValue true (r.readX 31) n m w = 0 - (n.toNat % 2 ^ w : Nat) * (m.toNat % 2 ^ w : Nat) := by
  rw [readX_zr, mulAccValue, if_pos rfl]
  rfl

theorem targetMulAcc_eq {o : Operands} {rn rm rd : RegField} (hn : isField o.rn rn) (hm : isField o.rm rm) (hd : isField o.rd rd)
    (sub : Bool) (ra : RegField) (r : Regs) :
    targetMulAcc sub ra o r = r.writeX rd (BitVec.ofInt 64
      (mulAccValue sub (r.readX ra) (r.readX rn) (r.readX rm) (datasize o) % 2 ^ datasize o)) := by
  rw [← setWidth_ofInt (datasize_le o)]
  simp only [targetMulAcc, regField_of_isField hn, regField_of_isField hm, regField_of_isField hd, mulAccValue]
  cases sub
  · rw [if_neg Bool.false_ne_true, if_neg Bool.false_ne_true]
    simp only [BitVec.ofInt_add, BitVec.ofInt_mul, ofInt_toNat_mod]
  · rw [if_pos rfl, if_pos rfl]
    simp only [Int.sub_eq_add_neg, BitVec.sub_eq_add_neg, BitVec.ofInt_add, BitVec.ofInt_neg, BitVec.ofInt_mul, ofInt_toNat_mod]

/-- Settles O49: MUL and MNEG are MADD and MSUB with the zero register as accumulator. -/
theorem multiplyWordsOnTheTarget : Obligations.MultiplyWordsOnTheTarget := by
  intro r o sf rm ra rn rd w hsf hw hm hn hd
  rw [← datasize_of_sf hsf] at hw
  subst hw
  refine ⟨fun ha => ?accumulate, ?mul, ?mneg⟩
  case accumulate =>
    simp only [targetExec, regField_of_isField ha, targetMulAcc_eq hn hm hd]
    exact ⟨rfl, rfl⟩
  case mul =>
    rw [targetExec, targetMulAcc_eq hn hm hd, mulAccValue_zr_add]
  case mneg =>
    rw [targetExec, targetMulAcc_eq hn hm hd, mulAccValue_zr_sub]

/-! ### The conditions, flag by flag (R222) -/

theorem conditionHolds_eq (f : Nzcv) : conditionHolds .eq f = true ↔ f.z = true := Iff.rfl
theorem conditionHolds_ne (f : Nzcv) : conditionHolds .ne f = true ↔ f.z = false := iff_of_eq (Bool.not_eq_true' _)
theorem conditionHolds_cs (f : Nzcv) : conditionHolds .cs f = true ↔ f.c = true := Iff.rfl
theorem conditionHolds_cc (f : Nzcv) : conditionHolds .cc f = true ↔ f.c = false := iff_of_eq (Bool.not_eq_true' _)
theorem conditionHolds_mi (f : Nzcv) : conditionHolds .mi f = true ↔ f.n = true := Iff.rfl
theorem conditionHolds_pl (f : Nzcv) : conditionHolds .pl f = true ↔ f.n = false := iff_of_eq (Bool.not_eq_true' _)
theorem conditionHolds_vs (f : Nzcv) : conditionHolds .vs f = true ↔ f.v = true := Iff.rfl
theorem conditionHolds_vc (f : Nzcv) : conditionHolds .vc f = true ↔ f.v = false := iff_of_eq (Bool.not_eq_true' _)
theorem conditionHolds_hi (f : Nzcv) : conditionHolds .hi f = true ↔ f.c = true ∧ f.z = false := by
  simp [conditionHolds]
theorem conditionHolds_ls (f : Nzcv) : conditionHolds .ls f = true ↔ ¬ (f.c = true ∧ f.z = false) := by
  rw [← conditionHolds_hi, Bool.not_eq_true, ← Bool.not_eq_true']
  rfl
theorem conditionHolds_ge (f : Nzcv) : conditionHolds .ge f = true ↔ f.n = f.v := beq_iff_eq
theorem conditionHolds_lt (f : Nzcv) : conditionHolds .lt f = true ↔ f.n ≠ f.v := bne_iff_ne
theorem conditionHolds_gt (f : Nzcv) : conditionHolds .gt f = true ↔ f.z = false ∧ f.n = f.v := by
  simp [conditionHolds]
theorem conditionHolds_le (f : Nzcv) : conditionHolds .le f = true ↔ ¬ (f.z = false ∧ f.n = f.v) := by
  rw [← conditionHolds_gt, Bool.not_eq_true, ← Bool.not_eq_true']
  rfl

/-! ### The branches (R221, R222) -/

theorem branchBy_toInt {n : Nat} (r : Regs) (imm : BitVec n) :
    r.branchBy imm.toInt = { r with pc := r.pc + (imm ++ 0b00#2).signExtend 64 } := by
  rw [Regs.branchBy, BitVec.signExtend, BitVec.toInt_append_zero]
  rfl

theorem bCond_iff {r : Regs} {o : Operands} {imm19 : BitVec 19} {c : Cond} {p : Prop} (hoff : o.offset = some imm19.toInt)
    (hp : conditionHolds c r.nzcv = true ↔ p) (hc : o.cond = some (condName c)) :
    (p → targetExec (.bCond o) r = { r with pc := r.pc + (imm19 ++ 0b00#2).signExtend 64 })
      ∧ (¬ p → targetExec (.bCond o) r = { r with pc := r.pc + 4 }) := by
  rw [targetExec, condOf_of_cond hc, hoff, Option.getD_some, branchBy_toInt, ← hp]
  exact ⟨fun h => if_pos h, fun h => if_neg h⟩

/-- Settles O50: B by its offset, B_cond condition by condition, and the conditions by the flags a compare sets. -/
theorem branchWordsOnTheTarget : Obligations.BranchWordsOnTheTarget := by
  refine ⟨fun r o imm26 hoff => ?_, fun r o imm19 hoff => ?_, fun w a b hw => ?_⟩
  · rw [targetExec, hoff, Option.getD_some, branchBy_toInt]
  · exact ⟨bCond_iff hoff (conditionHolds_eq _), bCond_iff hoff (conditionHolds_ne _),
      bCond_iff hoff (conditionHolds_cs _), bCond_iff hoff (conditionHolds_cc _),
      bCond_iff hoff (conditionHolds_mi _), bCond_iff hoff (conditionHolds_pl _),
      bCond_iff hoff (conditionHolds_vs _), bCond_iff hoff (conditionHolds_vc _),
      bCond_iff hoff (conditionHolds_hi _), bCond_iff hoff (conditionHolds_ls _),
      bCond_iff hoff (conditionHolds_ge _), bCond_iff hoff (conditionHolds_lt _),
      bCond_iff hoff (conditionHolds_gt _), bCond_iff hoff (conditionHolds_le _)⟩
  · intro f
    have hz : f.z = true ↔ a = b := compareFlags_z_iff a b
    have hc : f.c = true ↔ b.toNat ≤ a.toNat := compareFlags_c_iff a b
    have hn : f.n = true ↔ (a - b).toInt < 0 := compareFlags_n_iff a b
    have hv : f.v = true ↔ (a - b).toInt ≠ a.toInt - b.toInt := compareFlags_v_iff hw a b
    have hnv : f.n = f.v ↔ b.toInt ≤ a.toInt := compareFlags_n_eq_v_iff hw a b
    have hunsigned : a = b ↔ a.toNat = b.toNat := BitVec.toNat_eq
    have hsigned : a = b ↔ a.toInt = b.toInt := BitVec.toInt_inj.symm
    clear_value f
    refine ⟨(conditionHolds_eq f).trans hz, ?ne, (conditionHolds_cs f).trans hc, ?cc, (conditionHolds_mi f).trans hn, ?pl,
      (conditionHolds_vs f).trans hv, ?vc, ?hi, ?ls, (conditionHolds_ge f).trans hnv, ?lt, ?gt, ?le⟩
    case ne => rw [conditionHolds_ne, ← Bool.not_eq_true, hz]
    case cc => rw [conditionHolds_cc, ← Bool.not_eq_true, hc, not_le]
    case pl => rw [conditionHolds_pl, ← Bool.not_eq_true, hn, not_lt]
    case vc => rw [conditionHolds_vc, ← Bool.not_eq_true, hv, ne_eq, not_not]
    case hi => rw [conditionHolds_hi, ← Bool.not_eq_true, hc, hz, hunsigned]; omega
    case ls => rw [conditionHolds_ls, ← Bool.not_eq_true, hc, hz, hunsigned]; omega
    case lt => rw [conditionHolds_lt, ne_eq, hnv, not_le]
    case gt => rw [conditionHolds_gt, ← Bool.not_eq_true, hnv, hz, hsigned]; omega
    case le => rw [conditionHolds_le, ← Bool.not_eq_true, hnv, hz, hsigned]; omega

/-! ### pc after each family (R224) -/

@[simp] theorem targetAddSubImm_pc (sub s : Bool) (rd rn : RegField) (imm12 sh : Nat) (o : Operands) (r : Regs) :
    (targetAddSubImm sub s rd rn imm12 sh o r).pc = r.pc := by
  cases s <;> simp [targetAddSubImm]

@[simp] theorem targetAddSubReg_pc (sub s : Bool) (rd : RegField) (o : Operands) (r : Regs) :
    (targetAddSubReg sub s rd o r).pc = r.pc := by
  simp [targetAddSubReg]

@[simp] theorem targetCarry_pc (s : Bool) (o : Operands) (r : Regs) : (targetCarry s o r).pc = r.pc := by
  simp [targetCarry]

@[simp] theorem targetLogImm_pc (op : LogOp) (rn : RegField) (o : Operands) (r : Regs) : (targetLogImm op rn o r).pc = r.pc :=
  writeXSp_pc _ _ _

@[simp] theorem targetLogReg_pc (op : LogOp) (rn : RegField) (o : Operands) (r : Regs) : (targetLogReg op rn o r).pc = r.pc :=
  writeX_pc _ _ _

@[simp] theorem targetMovz_pc (o : Operands) (r : Regs) : (targetMovz o r).pc = r.pc := writeX_pc _ _ _
@[simp] theorem targetMovn_pc (o : Operands) (r : Regs) : (targetMovn o r).pc = r.pc := writeX_pc _ _ _
@[simp] theorem targetMovk_pc (o : Operands) (r : Regs) : (targetMovk o r).pc = r.pc := writeX_pc _ _ _

@[simp] theorem targetMulAcc_pc (sub : Bool) (ra : RegField) (o : Operands) (r : Regs) : (targetMulAcc sub ra o r).pc = r.pc :=
  writeX_pc _ _ _

@[simp] theorem targetFpDp2_pc (op : Fpcr → FType → Nat → Nat → Nat × Fpsr) (o : Operands) (r : Regs) :
    (targetFpDp2 op o r).pc = r.pc := rfl
@[simp] theorem targetFneg_pc (o : Operands) (r : Regs) : (targetFneg o r).pc = r.pc := rfl
@[simp] theorem targetFmovReg_pc (o : Operands) (r : Regs) : (targetFmovReg o r).pc = r.pc := rfl
@[simp] theorem targetFmovImm_pc (o : Operands) (r : Regs) : (targetFmovImm o r).pc = r.pc := rfl

/-- Settles O52: a word that is no branch is an operation that leaves pc alone, and then the advance. -/
theorem nonBranchingWordsAdvance : Obligations.NonBranchingWordsAdvance := by
  intro i r
  refine ⟨fun o hi => by rw [hi]; rfl, fun hb hret hcond => ?_⟩
  cases i
  case b o => exact absurd rfl (hb o)
  case ret o => exact absurd rfl (hret o)
  case bCond o => rw [targetExec, hcond o rfl]; rfl
  all_goals simp [targetExec]

end Sys2Proof.Proofs
end

section
/-! SUPPORT. The errors of an encode request (R250 to R258): an encoder that raises no FieldRangeError has passed every check of R251's
list, a logical immediate with legal operands fails by its mask alone (R252), and what a failed request and a closed session leave. -/

namespace Sys2Proof.Proofs

open Machine Safety

/-! ### Every check an encoder passes is a legal operand (R251) -/

/-- The encoder raises no FieldRangeError. -/
def NoFieldRange {α : Type} (r : Except EncErr α) : Prop := ∀ n, r ≠ .error (.fieldRange n)

/-- An encoder raises no FieldRangeError only if its first check passes and what follows raises none. -/
theorem noFieldRange_check {α β : Type} {x : Except EncErr α} {f : α → Except EncErr β} {legal : Bool} {v : α} {n : String}
    (hx : x = if legal then .ok v else .error (.fieldRange n)) (h : NoFieldRange (x >>= f)) :
    legal = true ∧ NoFieldRange (f v) := by
  subst hx
  cases legal with
  | false => exact absurd rfl (h n)
  | true => exact ⟨rfl, h⟩

theorem noFieldRange_of_quiet {r : Except EncErr Word} (h : NoFieldRange (quiet r)) : NoFieldRange r :=
  fun n hr => h n (by rw [hr, quiet_error])

/-- R105, R124: the limit of the amount is that of a legal width selector. -/
theorem checkAmount_eq_of_legalSf {o : Operands} (hsf : legalSf o = true) :
    checkAmount (o.sf.getD 1).toNat o.amount = if legalAmount o then .ok (amountOf o) else .error (.fieldRange "amount") := by
  rw [sf_of_legal hsf, checkAmount_eq]

/-- R61, R143: the lanes are those of a legal width selector. -/
theorem checkHwShift_eq_of_legalSf {o : Operands} (hsf : legalSf o = true) :
    checkHwShift (o.sf.getD 1).toNat o.hwShift
      = if legalLane o then .ok ((o.hwShift.getD 0) / 16).toNat else .error (.fieldRange "hw_shift") := by
  rw [sf_of_legal hsf, checkHwShift_eq]

/-- R120: the range of a logical immediate is that of a legal width selector. -/
theorem checkImm_logical {o : Operands} (hsf : legalSf o = true) :
    checkImm (if (o.sf.getD 1).toNat = 1 then 2 ^ 64 - 1 else 2 ^ 32 - 1) o.imm
      = if legalInt 0 (if is32 o then 2 ^ 32 - 1 else 2 ^ 64 - 1) o.imm then .ok (immOf o) else .error (.fieldRange "imm") := by
  rw [sf_of_legal hsf, checkImm_eq]
  cases is32 o <;> rfl

/-- R168: a register index with a default. -/
theorem inRange_rn_eq (o : Operands) :
    inRange "rn" 0 31 (o.rn.getD 30)
      = if legalIntOpt 0 31 o.rn then .ok (o.rn.getD 30).toNat else .error (.fieldRange "rn") := by
  cases o.rn with
  | none => rfl
  | some v => exact inRange_eq "rn" 0 31 v

/-- R185: a required value. -/
theorem required_eq {α : Type} [Inhabited α] (n : String) (x : Option α) :
    required n x = if x.isSome then .ok (x.getD default) else .error (.fieldRange n) := by
  cases x <;> rfl

/-! ### Encoder by encoder, in the order of its checks -/

/-- R100. -/
theorem addSubImm_checked {op s : Nat} {rd rn : Option Int} {o : Operands} (h : NoFieldRange (addSubImm op s rd rn o)) :
    legalAddSubImm o = true ∧ legalReg rd = true ∧ legalReg rn = true := by
  obtain ⟨hsf, h⟩ := noFieldRange_check (checkSf_eq o) h
  obtain ⟨hd, h⟩ := noFieldRange_check (checkReg_eq "rd" rd) h
  obtain ⟨hn, h⟩ := noFieldRange_check (checkReg_eq "rn" rn) h
  obtain ⟨hsh, h⟩ := noFieldRange_check (checkSh_eq o) h
  obtain ⟨himm, _⟩ := noFieldRange_check (checkImm_eq 4095 o) h
  exact ⟨by simp [legalAddSubImm, hsf, hsh, himm], hd, hn⟩

/-- R105. -/
theorem addSubReg_checked {op s : Nat} {rd : Option Int} {o : Operands} (h : NoFieldRange (addSubReg op s rd o)) :
    legalShifted arithShifts o = true ∧ legalReg rd = true ∧ legalReg o.rn = true ∧ legalReg o.rm = true := by
  obtain ⟨hsf, h⟩ := noFieldRange_check (checkSf_eq o) h
  obtain ⟨hd, h⟩ := noFieldRange_check (checkReg_eq "rd" rd) h
  obtain ⟨hn, h⟩ := noFieldRange_check (checkReg_eq "rn" o.rn) h
  obtain ⟨hm, h⟩ := noFieldRange_check (checkReg_eq "rm" o.rm) h
  obtain ⟨hshift, h⟩ := noFieldRange_check (checkShift_arith o) h
  obtain ⟨hamount, _⟩ := noFieldRange_check (checkAmount_eq_of_legalSf hsf) h
  exact ⟨by simp [legalShifted, hsf, hshift, hamount], hd, hn, hm⟩

/-- R110. -/
theorem addSubCarry_checked {s : Nat} {o : Operands} (h : NoFieldRange (addSubCarry s o)) : legalCarry o = true := by
  obtain ⟨hsf, h⟩ := noFieldRange_check (checkSf_eq o) h
  obtain ⟨hd, h⟩ := noFieldRange_check (checkReg_eq "rd" o.rd) h
  obtain ⟨hn, h⟩ := noFieldRange_check (checkReg_eq "rn" o.rn) h
  obtain ⟨hm, h⟩ := noFieldRange_check (checkReg_eq "rm" o.rm) h
  obtain ⟨hshift, h⟩ := noFieldRange_check (checkNoShift_eq o.shift) h
  obtain ⟨hamount, _⟩ := noFieldRange_check (checkNoAmount_eq o.amount) h
  rw [legalCarry, hsf, hd, hn, hm, hshift, hamount]
  rfl

/-- R120. -/
theorem logImm_checked {opc : Nat} {rd rn : Option Int} {o : Operands} (h : NoFieldRange (logImm opc rd rn o)) :
    legalLogImm o = true ∧ legalReg rd = true ∧ legalReg rn = true := by
  obtain ⟨hsf, h⟩ := noFieldRange_check (checkSf_eq o) h
  obtain ⟨hd, h⟩ := noFieldRange_check (checkReg_eq "rd" rd) h
  obtain ⟨hn, h⟩ := noFieldRange_check (checkReg_eq "rn" rn) h
  obtain ⟨himm, _⟩ := noFieldRange_check (checkImm_logical hsf) h
  exact ⟨by rw [legalLogImm, hsf, himm]; rfl, hd, hn⟩

/-- R124. -/
theorem logReg_checked {opc : Nat} {o : Operands} (h : NoFieldRange (logReg opc o.rn o.shift o.amount o)) :
    legalShifted logicalShifts o = true ∧ legalReg o.rd = true ∧ legalReg o.rn = true ∧ legalReg o.rm = true := by
  obtain ⟨hsf, h⟩ := noFieldRange_check (checkSf_eq o) h
  obtain ⟨hd, h⟩ := noFieldRange_check (checkReg_eq "rd" o.rd) h
  obtain ⟨hn, h⟩ := noFieldRange_check (checkReg_eq "rn" o.rn) h
  obtain ⟨hm, h⟩ := noFieldRange_check (checkReg_eq "rm" o.rm) h
  obtain ⟨hshift, h⟩ := noFieldRange_check (checkShift_logical o) h
  obtain ⟨hamount, _⟩ := noFieldRange_check (checkAmount_eq_of_legalSf hsf) h
  exact ⟨by simp [legalShifted, hsf, hshift, hamount], hd, hn, hm⟩

/-- R140: MOV_reg sets the shift operands of ORR_reg itself, and of its own it has `sf`, `rd` and `rm`. -/
theorem movReg_checked {opc : Nat} {o : Operands} (h : NoFieldRange (logReg opc (some 31) (some "LSL") (some 0) o)) :
    legalSf o = true ∧ legalReg o.rd = true ∧ legalReg o.rm = true := by
  obtain ⟨hsf, h⟩ := noFieldRange_check (checkSf_eq o) h
  obtain ⟨hd, h⟩ := noFieldRange_check (checkReg_eq "rd" o.rd) h
  obtain ⟨_, h⟩ := noFieldRange_check (checkReg_eq "rn" (some 31)) h
  obtain ⟨hm, _⟩ := noFieldRange_check (checkReg_eq "rm" o.rm) h
  exact ⟨hsf, hd, hm⟩

/-- R143. -/
theorem moveWide_checked {opc : Nat} {o : Operands} (h : NoFieldRange (moveWide opc o)) : legalMoveWide o = true := by
  obtain ⟨hsf, h⟩ := noFieldRange_check (checkSf_eq o) h
  obtain ⟨hd, h⟩ := noFieldRange_check (checkReg_eq "rd" o.rd) h
  obtain ⟨himm, h⟩ := noFieldRange_check (checkImm_eq 65535 o) h
  obtain ⟨hlane, _⟩ := noFieldRange_check (checkHwShift_eq_of_legalSf hsf) h
  simp [legalMoveWide, hsf, hd, himm, hlane]

/-- R155. -/
theorem mulAcc_checked {o0 : Nat} {ra : Option Int} {o : Operands} (h : NoFieldRange (mulAcc o0 ra o)) :
    legalSf o = true ∧ legalReg o.rd = true ∧ legalReg o.rn = true ∧ legalReg o.rm = true ∧ legalReg ra = true := by
  obtain ⟨hsf, h⟩ := noFieldRange_check (checkSf_eq o) h
  obtain ⟨hd, h⟩ := noFieldRange_check (checkReg_eq "rd" o.rd) h
  obtain ⟨hn, h⟩ := noFieldRange_check (checkReg_eq "rn" o.rn) h
  obtain ⟨hm, h⟩ := noFieldRange_check (checkReg_eq "rm" o.rm) h
  obtain ⟨ha, _⟩ := noFieldRange_check (checkReg_eq "ra" ra) h
  exact ⟨hsf, hd, hn, hm, ha⟩

/-- R166. -/
theorem encB_checked {o : Operands} (h : NoFieldRange (encB o)) : legalInt (-33554432) 33554431 o.offset = true := by
  obtain ⟨hoff, _⟩ := noFieldRange_check (checkOffset_eq 26 o.offset) h
  exact hoff

/-- R167. -/
theorem encBCond_checked {o : Operands} (h : NoFieldRange (encBCond o)) :
    legalCond o = true ∧ legalInt (-262144) 262143 o.offset = true := by
  obtain ⟨hc, h⟩ := noFieldRange_check (checkCond_eq o) h
  obtain ⟨hoff, _⟩ := noFieldRange_check (checkOffset_eq 19 o.offset) h
  exact ⟨hc, hoff⟩

/-- R168. -/
theorem encRet_checked {o : Operands} (h : NoFieldRange (encRet o)) : legalIntOpt 0 31 o.rn = true := by
  obtain ⟨hn, _⟩ := noFieldRange_check (inRange_rn_eq o) h
  exact hn

/-- R181, R182. -/
theorem fpDp2_checked {opcode : Nat} {o : Operands} (h : NoFieldRange (fpDp2 opcode o)) :
    legalFtype o = true ∧ legalReg o.rd = true ∧ legalReg o.rn = true ∧ legalReg o.rm = true := by
  obtain ⟨ht, h⟩ := noFieldRange_check (checkFtype_eq o) h
  obtain ⟨hd, h⟩ := noFieldRange_check (checkReg_eq "rd" o.rd) h
  obtain ⟨hn, h⟩ := noFieldRange_check (checkReg_eq "rn" o.rn) h
  obtain ⟨hm, _⟩ := noFieldRange_check (checkReg_eq "rm" o.rm) h
  exact ⟨ht, hd, hn, hm⟩

/-- R183, R184. -/
theorem fpDp1_checked {opcode : Nat} {o : Operands} (h : NoFieldRange (fpDp1 opcode o)) :
    legalFtype o = true ∧ legalReg o.rd = true ∧ legalReg o.rn = true := by
  obtain ⟨ht, h⟩ := noFieldRange_check (checkFtype_eq o) h
  obtain ⟨hd, h⟩ := noFieldRange_check (checkReg_eq "rd" o.rd) h
  obtain ⟨hn, _⟩ := noFieldRange_check (checkReg_eq "rn" o.rn) h
  exact ⟨ht, hd, hn⟩

/-- R185. -/
theorem fpImm_checked {o : Operands} (h : NoFieldRange (fpImm o)) :
    legalFtype o = true ∧ legalReg o.rd = true ∧ o.fval.isSome = true := by
  obtain ⟨ht, h⟩ := noFieldRange_check (checkFtype_eq o) h
  obtain ⟨hd, h⟩ := noFieldRange_check (checkReg_eq "rd" o.rd) h
  obtain ⟨hx, _⟩ := noFieldRange_check (required_eq "fval" o.fval) h
  exact ⟨ht, hd, hx⟩

/-! ### What each request's encoder answers (R251, R252) -/

/-- Every form's meaning is the request procedure on an encoder's answer, which is a FieldRangeError unless the operands are legal. -/
theorem exec_is_request_checked (i : Instr) :
    ∃ r, (∀ s, exec i s = request s r) ∧ (NoFieldRange r → fieldsLegal i = true) := by
  cases i with
  | addImm o | addsImm o | subImm o | subsImm o =>
    refine ⟨quiet _, fun _ => rfl, fun h => ?_⟩
    obtain ⟨ho, hd, hn⟩ := addSubImm_checked (noFieldRange_of_quiet h)
    simp [fieldsLegal, ho, hd, hn]
  | cmpImm o | cmnImm o =>
    refine ⟨quiet _, fun _ => rfl, fun h => ?_⟩
    obtain ⟨ho, _, hn⟩ := addSubImm_checked (noFieldRange_of_quiet h)
    simp [fieldsLegal, ho, hn]
  | movSp o =>
    refine ⟨quiet _, fun _ => rfl, fun h => ?_⟩
    obtain ⟨ho, hd, hn⟩ := addSubImm_checked (noFieldRange_of_quiet h)
    simp only [legalAddSubImm, Bool.and_eq_true] at ho
    obtain ⟨⟨hsf, _⟩, _⟩ := ho
    have hsf : legalSf o = true := hsf
    simp [fieldsLegal, hsf, hd, hn]
  | addReg o | addsReg o | subReg o | subsReg o =>
    refine ⟨quiet _, fun _ => rfl, fun h => ?_⟩
    obtain ⟨ho, hd, hn, hm⟩ := addSubReg_checked (noFieldRange_of_quiet h)
    simp [fieldsLegal, ho, hd, hn, hm]
  | cmpReg o | cmnReg o =>
    refine ⟨quiet _, fun _ => rfl, fun h => ?_⟩
    obtain ⟨ho, _, hn, hm⟩ := addSubReg_checked (noFieldRange_of_quiet h)
    simp [fieldsLegal, ho, hn, hm]
  | adc o | adcs o => exact ⟨quiet _, fun _ => rfl, fun h => addSubCarry_checked (noFieldRange_of_quiet h)⟩
  | andImm o | orrImm o | eorImm o =>
    refine ⟨quiet _, fun _ => rfl, fun h => ?_⟩
    obtain ⟨ho, hd, hn⟩ := logImm_checked (noFieldRange_of_quiet h)
    simp [fieldsLegal, ho, hd, hn]
  | movBitmask o =>
    refine ⟨quiet _, fun _ => rfl, fun h => ?_⟩
    obtain ⟨ho, hd, _⟩ := logImm_checked (noFieldRange_of_quiet h)
    simp [fieldsLegal, ho, hd]
  | andReg o | orrReg o | eorReg o =>
    refine ⟨quiet _, fun _ => rfl, fun h => ?_⟩
    obtain ⟨ho, hd, hn, hm⟩ := logReg_checked (noFieldRange_of_quiet h)
    simp [fieldsLegal, ho, hd, hn, hm]
  | movReg o =>
    refine ⟨quiet _, fun _ => rfl, fun h => ?_⟩
    obtain ⟨hsf, hd, hm⟩ := movReg_checked (noFieldRange_of_quiet h)
    simp [fieldsLegal, hsf, hd, hm]
  | movz o | movn o | movk o => exact ⟨quiet _, fun _ => rfl, fun h => moveWide_checked (noFieldRange_of_quiet h)⟩
  | madd o | msub o =>
    refine ⟨quiet _, fun _ => rfl, fun h => ?_⟩
    obtain ⟨hsf, hd, hn, hm, ha⟩ := mulAcc_checked (noFieldRange_of_quiet h)
    simp [fieldsLegal, hsf, hd, hn, hm, ha]
  | mul o | mneg o =>
    refine ⟨quiet _, fun _ => rfl, fun h => ?_⟩
    obtain ⟨hsf, hd, hn, hm, _⟩ := mulAcc_checked (noFieldRange_of_quiet h)
    simp [fieldsLegal, hsf, hd, hn, hm]
  | b o => exact ⟨quiet _, fun _ => rfl, fun h => encB_checked (noFieldRange_of_quiet h)⟩
  | bCond o =>
    refine ⟨quiet _, fun _ => rfl, fun h => ?_⟩
    obtain ⟨hc, hoff⟩ := encBCond_checked (noFieldRange_of_quiet h)
    simp [fieldsLegal, hc, hoff]
  | ret o => exact ⟨quiet _, fun _ => rfl, fun h => encRet_checked (noFieldRange_of_quiet h)⟩
  | nop o => exact ⟨quiet (pack fieldsNop), fun _ => rfl, fun _ => rfl⟩
  | fadd o | fmul o =>
    refine ⟨quiet _, fun _ => rfl, fun h => ?_⟩
    obtain ⟨ht, hd, hn, hm⟩ := fpDp2_checked (noFieldRange_of_quiet h)
    simp [fieldsLegal, ht, hd, hn, hm]
  | fneg o | fmovReg o =>
    refine ⟨quiet _, fun _ => rfl, fun h => ?_⟩
    obtain ⟨ht, hd, hn⟩ := fpDp1_checked (noFieldRange_of_quiet h)
    simp [fieldsLegal, ht, hd, hn]
  | fmovImm o =>
    refine ⟨fpImm o, fun _ => rfl, fun h => ?_⟩
    obtain ⟨ht, hd, hx⟩ := fpImm_checked h
    simp [fieldsLegal, ht, hd, hx]

/-- The request's meaning is the request procedure on an error of R251's or R252's kind. -/
def AnswersError (i : Instr) (e : Err) : Prop := ∃ x, encErr x = e ∧ ∀ s, exec i s = request s (.error x)

/-- R251: an operand outside its domain, or a required one absent, is a FieldRangeError. -/
theorem answersError_of_illegal {i : Instr} (h : fieldsLegal i = false) : AnswersError i .fieldRange := by
  obtain ⟨r, hexec, hlegal⟩ := exec_is_request_checked i
  have hraises : ¬ NoFieldRange r := fun hr => by simp [hlegal hr] at h
  simp only [NoFieldRange, ne_eq, not_forall, not_not] at hraises
  obtain ⟨n, rfl⟩ := hraises
  exact ⟨.fieldRange n, rfl, hexec⟩

/-- R120, R252: with legal operands the mask is what is left to fail. -/
theorem logImm_unrepresentable {opc : Nat} {rd rn : Option Int} {o : Operands} (h : legalLogImm o = true)
    (hd : legalReg rd = true) (hn : legalReg rn = true) (hnone : canonicalize (maskOfOperands o) = none) :
    logImm opc rd rn o = .error (.immUnrepresentable (maskOfOperands o).toNat) := by
  rw [legalLogImm, Bool.and_eq_true] at h
  obtain ⟨hsf, himm⟩ := h
  obtain ⟨esf, _⟩ := checkSf_legal hsf
  obtain ⟨ed, _⟩ := checkReg_legal "rd" hd
  obtain ⟨en, _⟩ := checkReg_legal "rn" hn
  have emask : checkBitmask (maskOf (immOf o) (o.sf.getD 1).toNat) = .error (.immUnrepresentable (maskOfOperands o).toNat) := by
    rw [sf_of_legal hsf, checkBitmask, ← maskOfOperands, hnone]
  simp only [logImm, esf, ed, en, checkImm_logical hsf, himm, if_true, emask, except_ok_bind]
  rfl

/-- R252: which requests have a mask without a canonical encoding. -/
theorem immRepresentable_eq_false_iff (i : Instr) :
    immRepresentable i = false
      ↔ ∃ o, (i = .andImm o ∨ i = .orrImm o ∨ i = .eorImm o ∨ i = .movBitmask o) ∧ canonicalize (maskOfOperands o) = none := by
  cases i <;> simp [immRepresentable]

theorem answersError_of_logImm {i : Instr} {opc : Nat} {rd rn : Option Int} {o : Operands}
    (hexec : ∀ s, exec i s = request s (quiet (logImm opc rd rn o))) (h : legalLogImm o = true) (hd : legalReg rd = true)
    (hn : legalReg rn = true) (hnone : canonicalize (maskOfOperands o) = none) : AnswersError i .immUnrepresentable :=
  ⟨_, rfl, fun s => by rw [hexec, logImm_unrepresentable h hd hn hnone, quiet_error]⟩

/-- R252: a logical immediate form with legal operands and no canonical encoding is an ImmediateUnrepresentableError. -/
theorem answersError_of_unrepresentable {i : Instr} (hf : fieldsLegal i = true) (h : immRepresentable i = false) :
    AnswersError i .immUnrepresentable := by
  obtain ⟨o, hi, hnone⟩ := (immRepresentable_eq_false_iff i).mp h
  rcases hi with rfl | rfl | rfl | rfl <;> simp only [fieldsLegal, Bool.and_eq_true] at hf
  case inr.inr.inr =>
    obtain ⟨ho, hd⟩ := hf
    exact answersError_of_logImm (fun _ => rfl) ho hd rfl hnone
  all_goals
    obtain ⟨⟨ho, hd⟩, hn⟩ := hf
    exact answersError_of_logImm (fun _ => rfl) ho hd hn hnone

/-- R251, R252: the three answers of an encoder, each with the requests that get it. -/
theorem answer_cases (i : Instr) :
    (fieldsLegal i = false ∧ AnswersError i .fieldRange)
    ∨ (fieldsLegal i = true ∧ immRepresentable i = false ∧ AnswersError i .immUnrepresentable)
    ∨ (fieldsLegal i = true ∧ immRepresentable i = true ∧ AnswersWord i) := by
  cases hf : fieldsLegal i with
  | false => exact .inl ⟨rfl, answersError_of_illegal hf⟩
  | true =>
    cases hr : immRepresentable i with
    | false => exact .inr (.inl ⟨rfl, rfl, answersError_of_unrepresentable hf hr⟩)
    | true => exact .inr (.inr ⟨rfl, rfl, answersWord_of_wellFormed (Bool.and_eq_true_iff.mpr ⟨hf, hr⟩)⟩)

/-! ### How an open session answers (R203, R257) -/

/-- R257: the state the spec gives after a failed request is the one the block leaves. -/
theorem abort_eq_afterAbort (s : State) (e : Err) : s.abort e = afterAbort s e (errStatus e) := rfl

/-- An encoder's error aborts the session with its own status and with no other. -/
theorem exec_error_eq_afterAbort_iff {i : Instr} {s : State} {e e' : Err} (hp : s.phase = .opened) (h : AnswersError i e) :
    exec i s = .next (afterAbort s e' (errStatus e')) ↔ e = e' := by
  obtain ⟨x, rfl, hexec⟩ := h
  rw [hexec, request_error hp, abort_eq_afterAbort]
  constructor
  · exact fun heq => congrArg State.err (Host.Outcome.next.inj heq)
  · rintro rfl
    rfl

/-- R38, R203: an open session without room is aborted by the word it cannot take. -/
theorem request_full {s : State} {enc : Encoded} (hp : s.phase = .opened) (hf : s.full = true) :
    request s (.ok enc) = .next (s.abort .capacity) := by
  simp [request, hp, hf]

/-- R258: once the encoder has answered a word, CAPACITY is the only error left. -/
theorem exec_word_ne_afterAbort {i : Instr} {s : State} {e : Err} {st : Status} (hp : s.phase = .opened) (h : AnswersWord i)
    (he : e ≠ .capacity) : exec i s ≠ .next (afterAbort s e st) := by
  obtain ⟨enc, hexec⟩ := h
  rw [hexec]
  intro heq
  cases hfull : s.full with
  | true =>
    rw [request_full hp hfull] at heq
    exact he (congrArg State.err (Host.Outcome.next.inj heq)).symm
  | false =>
    rw [request_ok hp hfull] at heq
    have hphase : s.phase = .aborted := congrArg State.phase (Host.Outcome.next.inj heq)
    simp [hp] at hphase

/-- R252: the mask of legal operands, as the statement writes it. -/
theorem maskOf_eq_maskOfOperands {o : Operands} (hsf : legalSf o = true) :
    maskOf (immOf o) (o.sf.getD 1).toNat = maskOfOperands o := by
  rw [sf_of_legal hsf, maskOfOperands]

/-- A logical immediate form reads its width selector. -/
theorem legalSf_of_logImm {i : Instr} {o : Operands} (hf : fieldsLegal i = true)
    (hi : i = .andImm o ∨ i = .orrImm o ∨ i = .eorImm o ∨ i = .movBitmask o) : legalSf o = true := by
  have himm : legalLogImm o = true := by
    rcases hi with rfl | rfl | rfl | rfl <;> simp only [fieldsLegal, Bool.and_eq_true] at hf <;> tauto
  exact (Bool.and_eq_true_iff.mp himm).1

/-! ### The statements -/

/-- R256, for every encode request. -/
theorem exec_closed (i : Instr) {s : State} (h : s.phase ≠ .opened) :
    exec i s = .next { s with response := some (.encode .sessionNotOpen none false) } := by
  rcases exec_cases i s with ⟨_, he⟩ | ⟨hp, _⟩ | ⟨hp, _⟩
  · exact he
  · exact absurd hp h
  · exact absurd hp h

/-- R256, for FINALIZE. -/
theorem finalize_closed {s : State} (h : s.phase ≠ .opened) :
    processInput .finalize s = .next { s with response := some (.finalize .sessionNotOpen none s.len) } :=
  congrArg Host.Outcome.next (doFinalize_closed h)

/-- Settles O15: each kind of request by its own lemma. -/
theorem closedSessionsRefuseRequests : Obligations.ClosedSessionsRefuseRequests :=
  fun _ h => ⟨fun i => exec_closed i h, finalize_closed h⟩

/-- A request that answers one of the three errors has aborted its session and done nothing else (R257). -/
theorem exec_failed {i : Instr} {s t : State} {st : Status} {w : Option Word} {warn : Bool} (h : exec i s = .next t)
    (hresp : t.response = some (.encode st w warn)) (hst : st = .fieldRange ∨ st = .immUnrepresentable ∨ st = .capacity) :
    ∃ e, errStatus e = st ∧ t = s.abort e := by
  rcases exec_next h with ⟨_, rfl⟩ | ⟨_, e, _, rfl⟩ | ⟨_, _, _, rfl, _⟩
  · obtain ⟨rfl, _⟩ : Status.sessionNotOpen = st ∧ _ := by simpa using hresp
    simp at hst
  · obtain ⟨he, _⟩ : errStatus e = st ∧ _ := by simpa using hresp
    exact ⟨e, he, rfl⟩
  · obtain ⟨rfl, _⟩ : Status.ok = st ∧ _ := by simpa using hresp
    simp at hst

/-- Settles O16: the failed request leaves an aborted session, which is closed to requests and to FINALIZE and open to LENGTH and RESET. -/
theorem failedRequestsAbortTheSession : Obligations.FailedRequestsAbortTheSession := by
  intro i s t st w warn h hresp hst
  obtain ⟨e, rfl, rfl⟩ := exec_failed h hresp hst
  have hclosed : (s.abort e).phase ≠ .opened := by simp
  exact ⟨⟨e, rfl, rfl⟩, ⟨statusView (s.abort e), rfl⟩, finalize_closed hclosed, fun j => exec_closed j hclosed,
    doReset (s.abort e), rfl, rfl⟩

/-- Settles O12: of the three answers of an encoder only the FieldRangeError of illegal operands aborts with FIELD_RANGE. -/
theorem fieldRangeExactlyWhenAnOperandIsIllegal : Obligations.FieldRangeExactlyWhenAnOperandIsIllegal := by
  intro i s hp
  rcases answer_cases i with ⟨hf, herr⟩ | ⟨hf, _, herr⟩ | ⟨hf, _, hword⟩
  · exact iff_of_true hf ((exec_error_eq_afterAbort_iff hp herr).mpr rfl)
  · refine iff_of_false (by simp [hf]) fun h => ?_
    cases (exec_error_eq_afterAbort_iff hp herr).mp h
  · exact iff_of_false (by simp [hf]) (exec_word_ne_afterAbort hp hword (by decide))

/-- With legal operands IMM_UNREPRESENTABLE is the answer exactly where R252's representability fails. -/
theorem exec_unrepresentable_iff {i : Instr} {s : State} (hp : s.phase = .opened) (hf : fieldsLegal i = true) :
    exec i s = .next (afterAbort s .immUnrepresentable .immUnrepresentable) ↔ immRepresentable i = false := by
  rcases answer_cases i with ⟨hf', _⟩ | ⟨_, hr, herr⟩ | ⟨_, hr, hword⟩
  · simp [hf] at hf'
  · exact iff_of_true ((exec_error_eq_afterAbort_iff hp herr).mpr rfl) hr
  · exact iff_of_false (exec_word_ne_afterAbort hp hword (by decide)) (by simp [hr])

/-- Settles O13: `immRepresentable` fails for the four forms alone, and there by the mask of the form's operands. -/
theorem unrepresentableExactlyWhenCanonicalizationFails : Obligations.UnrepresentableExactlyWhenCanonicalizationFails := by
  intro i s hp hf
  rw [exec_unrepresentable_iff hp hf, immRepresentable_eq_false_iff]
  refine exists_congr fun o => and_congr_right fun hi => ?_
  rw [maskOf_eq_maskOfOperands (legalSf_of_logImm hf hi)]

end Sys2Proof.Proofs
end

section
/-! SUPPORT. The word each request appends (R67 to R80, R100 to R188), from the fields of its operands: every check of a field's value
answers that value, every encoder packs its format, and an accepting state appends the word. -/

namespace Sys2Proof.Proofs

open Machine Safety

/-! ### An accepting state (R203, R205) -/

theorem request_accepts {s : State} (h : accepts s) (enc : Encoded) :
    request s (.ok enc) = .next (afterOk s enc.word enc.warn) := by
  obtain ⟨hopen, hroom⟩ := h
  refine request_ok hopen (Bool.not_eq_true _ ▸ fun hfull => ?_)
  obtain ⟨c, hc, hlt⟩ := (full_iff s).mp hfull
  exact absurd (hroom c hc) (by omega)

theorem exec_quiet_word {i : Instr} {s : State} {r : Except EncErr Word} {w : Word} (h : accepts s)
    (hexec : exec i s = request s (quiet r)) (hr : r = .ok w) : exec i s = .next (afterOk s w false) := by
  rw [hexec, hr, quiet_ok, request_accepts h]

/-! ### Every check passes a field's value on -/

theorem inRange_field {n : Nat} (name : String) {hi v : Int} {x : BitVec n} (hv : v = (x.toNat : Int)) (h : (x.toNat : Int) ≤ hi) :
    inRange name 0 hi v = .ok x.toNat := by
  subst hv
  rw [inRange, if_pos ⟨Int.natCast_nonneg _, h⟩, Int.toNat_natCast]

/-- R53. -/
theorem checkReg_field (name : String) {x : Option Int} {v : RegField} (h : isField x v) : checkReg name x = .ok v.toNat := by
  have := v.isLt
  rw [checkReg, h, required_some, except_ok_bind]
  exact inRange_field name rfl (by omega)

/-- R54. -/
theorem checkSf_field {o : Operands} {sf : BitVec 1} (h : isFieldOr 1 o.sf sf) : checkSf o.sf = .ok sf.toNat :=
  inRange_field "sf" h (by have := sf.isLt; omega)

/-- R9, R100. -/
theorem checkSh_field {o : Operands} {sh : BitVec 1} (h : isFieldOr 0 o.sh sh) : checkSh o.sh = .ok sh.toNat :=
  inRange_field "sh" h (by have := sh.isLt; omega)

/-- An immediate within its bound. -/
theorem checkImm_field {n : Nat} {hi : Int} {x : Option Int} {v : BitVec n} (h : isField x v) (hle : (v.toNat : Int) ≤ hi) :
    checkImm hi x = .ok v.toNat := by
  rw [checkImm, h, required_some, except_ok_bind]
  exact inRange_field "imm" rfl hle

/-- R56: the names of the arithmetic forms. -/
theorem checkShift_arith_field {x : Option String} {shift : BitVec 2} (h : (x.getD "LSL", shift) ∈ arithShiftCodes) :
    ∃ t, checkShift false x = .ok t ∧ shiftCode t = shift.toNat := by
  simp only [arithShiftCodes, List.mem_cons, Prod.mk.injEq, List.not_mem_nil, or_false] at h
  unfold checkShift
  rcases h with ⟨hn, rfl⟩ | ⟨hn, rfl⟩ | ⟨hn, rfl⟩ <;> rw [hn] <;> exact ⟨_, rfl, rfl⟩

/-- R56: the names of the logical forms. -/
theorem checkShift_logical_field {x : Option String} {shift : BitVec 2} (h : (x.getD "LSL", shift) ∈ logicalShiftCodes) :
    ∃ t, checkShift true x = .ok t ∧ shiftCode t = shift.toNat := by
  simp only [logicalShiftCodes, List.mem_cons, Prod.mk.injEq, List.not_mem_nil, or_false] at h
  unfold checkShift
  rcases h with ⟨hn, rfl⟩ | ⟨hn, rfl⟩ | ⟨hn, rfl⟩ | ⟨hn, rfl⟩ <;> rw [hn] <;> exact ⟨_, rfl, rfl⟩

theorem ite_toNat_eq_one {α : Type} (sf : BitVec 1) (a b : α) : (if sf.toNat = 1 then a else b) = if sf = 1 then a else b :=
  if_congr (BitVec.toNat_eq (x := sf) (y := 1)).symm rfl rfl

/-- A bound that `sf` chooses holds when it holds for each width. -/
theorem le_ite_sf {sf : BitVec 1} {v wide narrow : Int} (h : v ≤ wide) (h32 : sf = 0 → v ≤ narrow) :
    v ≤ if sf.toNat = 1 then wide else narrow := by
  rcases BitVec.eq_zero_or_eq_one sf with rfl | rfl
  · exact h32 rfl
  · exact h

/-- The zero register's field. -/
theorem isField_zr : isField (some 31) 31#5 := rfl

/-- R105, R124. -/
theorem checkAmount_field {sf : BitVec 1} {x : Option Int} {amount : BitVec 6} (h : isFieldOr 0 x amount)
    (h32 : sf = 0 → amount.toNat < 32) : checkAmount sf.toNat x = .ok amount.toNat := by
  have hlt := amount.isLt
  exact inRange_field "amount" h (le_ite_sf (by omega) fun h0 => by have := h32 h0; omega)

/-- R61, R143: the lane index of a lane shift. -/
theorem checkHwShift_field {sf : BitVec 1} {x : Option Int} {hw : BitVec 2} (h : x.getD 0 = 16 * (hw.toNat : Int))
    (h32 : sf = 0 → hw.toNat < 2) : checkHwShift sf.toNat x = .ok hw.toNat := by
  have hlegal : x.getD 0 ∈ laneShifts sf.toNat := by
    have hlt := hw.isLt
    rw [h, laneShifts, ite_toNat_eq_one]
    split
    · simp only [List.mem_cons, List.not_mem_nil]
      omega
    · have := h32 ((BitVec.eq_zero_or_eq_one sf).resolve_right ‹_›)
      simp only [List.mem_cons, List.not_mem_nil]
      omega
  rw [checkHwShift, if_pos hlegal, h]
  exact congrArg Except.ok (by omega)

/-- R55: an offset's code is the field whose signed value it is. -/
theorem checkOffset_field {w : Nat} {x : Option Int} {imm : BitVec w} (h : x = some imm.toInt) :
    checkOffset w x = .ok imm.toNat := by
  have hlo := BitVec.le_toInt imm
  have hhi := BitVec.toInt_lt (x := imm)
  have hcode : (imm.toInt % 2 ^ w).toNat = imm.toNat := by
    have := BitVec.toNat_ofInt (n := w) imm.toInt
    rw [BitVec.ofInt_toInt] at this
    exact_mod_cast this.symm
  rw [h, checkOffset, required_some, except_ok_bind, if_pos ⟨hlo, by omega⟩, hcode]

/-- R58. -/
theorem checkCond_field {x : Option String} {name : String} {code : BitVec 4} (h : (name, code) ∈ condCodes) (hx : x = some name) :
    ∃ c, checkCond x = .ok c ∧ condCode c = code.toNat := by
  have hall : ∀ p ∈ condCodes, ∃ c, condOfName p.1 = some c ∧ condCode c = p.2.toNat := by
    simp only [condCodes, List.forall_mem_cons, List.not_mem_nil]
    exact ⟨⟨.eq, rfl, rfl⟩, ⟨.ne, rfl, rfl⟩, ⟨.cs, rfl, rfl⟩, ⟨.cc, rfl, rfl⟩, ⟨.mi, rfl, rfl⟩, ⟨.pl, rfl, rfl⟩, ⟨.vs, rfl, rfl⟩,
      ⟨.vc, rfl, rfl⟩, ⟨.hi, rfl, rfl⟩, ⟨.ls, rfl, rfl⟩, ⟨.ge, rfl, rfl⟩, ⟨.lt, rfl, rfl⟩, ⟨.gt, rfl, rfl⟩, ⟨.le, rfl, rfl⟩,
      fun _ h => h.elim⟩
  obtain ⟨c, hc, hcode⟩ := hall _ h
  exact ⟨c, by rw [checkCond, hx, Option.bind_some, hc], hcode⟩

/-- R59. -/
theorem checkFtype_field {x : Option String} {ftype : BitVec 2} (h : (x.getD "D", ftype) ∈ ftypeCodes) :
    ∃ t, checkFtype x = .ok t ∧ ftypeCode t = ftype.toNat := by
  simp only [ftypeCodes, List.mem_cons, Prod.mk.injEq, List.not_mem_nil, or_false] at h
  unfold checkFtype
  rcases h with ⟨hn, rfl⟩ | ⟨hn, rfl⟩ | ⟨hn, rfl⟩ <;> rw [hn] <;> exact ⟨_, rfl, rfl⟩

/-! ### Every encoder packs the word of its fields -/

/-- R67, R100. -/
theorem addSubImm_fields {o : Operands} {rd' rn' : Option Int} {sf sh : BitVec 1} {imm12 : BitVec 12} {rn rd : RegField}
    (hsf : isFieldOr 1 o.sf sf) (hsh : isFieldOr 0 o.sh sh) (himm : isField o.imm imm12) (hn : isField rn' rn)
    (hd : isField rd' rd) (op s : BitVec 1) :
    addSubImm op.toNat s.toNat rd' rn' o = .ok (sf ++ op ++ s ++ 0b100010#6 ++ sh ++ imm12 ++ rn ++ rd) := by
  have hlt := imm12.isLt
  simp only [addSubImm, checkSf_field hsf, checkReg_field _ hd, checkReg_field _ hn, checkSh_field hsh,
    checkImm_field (hi := 4095) himm (by omega), except_ok_bind]
  exact pack_fieldsAddSubImm sf op s sh imm12 rn rd

/-- R68, R105. -/
theorem addSubReg_fields {o : Operands} {rd' : Option Int} {sf : BitVec 1} {shift : BitVec 2} {amount : BitVec 6} {rm rn rd : RegField}
    (hsf : isFieldOr 1 o.sf sf) (hshift : isShift arithShiftCodes o sf shift amount) (hm : isField o.rm rm)
    (hn : isField o.rn rn) (hd : isField rd' rd) (op s : BitVec 1) :
    addSubReg op.toNat s.toNat rd' o = .ok (sf ++ op ++ s ++ 0b01011#5 ++ shift ++ 0#1 ++ rm ++ amount ++ rn ++ rd) := by
  obtain ⟨hname, hamount, h32⟩ := hshift
  obtain ⟨t, ht, hcode⟩ := checkShift_arith_field hname
  simp only [addSubReg, checkSf_field hsf, checkReg_field _ hd, checkReg_field _ hn, checkReg_field _ hm, ht, hcode,
    checkAmount_field hamount h32, except_ok_bind]
  exact pack_fieldsAddSubReg sf op s shift rm amount rn rd

/-- R69, R110. -/
theorem addSubCarry_fields {o : Operands} {sf : BitVec 1} {rm rn rd : RegField} (hsf : isFieldOr 1 o.sf sf)
    (hshift : o.shift = none ∨ o.shift = some "LSL") (hamount : o.amount = none ∨ o.amount = some 0) (hm : isField o.rm rm)
    (hn : isField o.rn rn) (hd : isField o.rd rd) (s : BitVec 1) :
    addSubCarry s.toNat o = .ok (sf ++ 0#1 ++ s ++ 0b11010000#8 ++ rm ++ 0#6 ++ rn ++ rd) := by
  simp only [addSubCarry, checkSf_field hsf, checkReg_field _ hd, checkReg_field _ hn, checkReg_field _ hm, checkNoShift,
    if_pos hshift, checkNoAmount, if_pos hamount, except_ok_bind]
  exact pack_fieldsAddSubCarry sf s rm rn rd

/-- R128: the mask of an immediate and a width selector. -/
theorem maskOf_field (imm : DWord) (sf : BitVec 1) :
    maskOf imm.toNat sf.toNat = if sf = 1 then imm else imm.extractLsb' 0 32 ++ imm.extractLsb' 0 32 := by
  have hlow : BitVec.ofNat 32 imm.toNat = imm.extractLsb' 0 32 := by
    apply BitVec.eq_of_toNat_eq
    simp
  simp only [maskOf, ite_toNat_eq_one, hlow, BitVec.ofNat_toNat, BitVec.setWidth_eq]

/-- R70, R120. -/
theorem logImm_fields {o : Operands} {rd' rn' : Option Int} {sf : BitVec 1} {imm : DWord} {f : BitmaskFields} {rn rd : RegField}
    (hsf : isFieldOr 1 o.sf sf) (himm : isField o.imm imm) (h32 : sf = 0 → imm.toNat < 2 ^ 32)
    (hf : canonicalize (if sf = 1 then imm else imm.extractLsb' 0 32 ++ imm.extractLsb' 0 32) = some f)
    (hn : isField rn' rn) (hd : isField rd' rd) (opc : BitVec 2) :
    logImm opc.toNat rd' rn' o = .ok (sf ++ opc ++ 0b100100#6 ++ f.n ++ f.immr ++ f.imms ++ rn ++ rd) := by
  have hlt := imm.isLt
  have hle : (imm.toNat : Int) ≤ if sf.toNat = 1 then 2 ^ 64 - 1 else 2 ^ 32 - 1 :=
    le_ite_sf (by omega) fun h0 => by have := h32 h0; omega
  have hmask : checkBitmask (maskOf imm.toNat sf.toNat) = .ok f := by
    rw [maskOf_field, checkBitmask, hf]
  simp only [logImm, checkSf_field hsf, checkReg_field _ hd, checkReg_field _ hn, checkImm_field himm hle, hmask, except_ok_bind]
  exact pack_fieldsLogImm sf opc f.n f.immr f.imms rn rd

/-- R71, R124. -/
theorem logReg_fields {o : Operands} {rn' amount' : Option Int} {shift' : Option String} {sf : BitVec 1} {shift : BitVec 2}
    {amount : BitVec 6} {rm rn rd : RegField} (hsf : isFieldOr 1 o.sf sf)
    (hname : (shift'.getD "LSL", shift) ∈ logicalShiftCodes) (hamount : isFieldOr 0 amount' amount)
    (h32 : sf = 0 → amount.toNat < 32) (hm : isField o.rm rm) (hn : isField rn' rn) (hd : isField o.rd rd) (opc : BitVec 2) :
    logReg opc.toNat rn' shift' amount' o
      = .ok (sf ++ opc ++ 0b01010#5 ++ shift ++ 0#1 ++ rm ++ amount ++ rn ++ rd) := by
  obtain ⟨t, ht, hcode⟩ := checkShift_logical_field hname
  simp only [logReg, checkSf_field hsf, checkReg_field _ hd, checkReg_field _ hn, checkReg_field _ hm, ht, hcode,
    checkAmount_field hamount h32, except_ok_bind]
  exact pack_fieldsLogReg sf opc shift rm amount rn rd

/-- R72, R143. -/
theorem moveWide_fields {o : Operands} {sf : BitVec 1} {hw : BitVec 2} {imm16 : BitVec 16} {rd : RegField}
    (hsf : isFieldOr 1 o.sf sf) (hlane : o.hwShift.getD 0 = 16 * (hw.toNat : Int)) (h32 : sf = 0 → hw.toNat < 2)
    (himm : isField o.imm imm16) (hd : isField o.rd rd) (opc : BitVec 2) :
    moveWide opc.toNat o = .ok (sf ++ opc ++ 0b100101#6 ++ hw ++ imm16 ++ rd) := by
  have hlt := imm16.isLt
  simp only [moveWide, checkSf_field hsf, checkReg_field _ hd, checkImm_field (hi := 65535) himm (by omega),
    checkHwShift_field hlane h32, except_ok_bind]
  exact pack_fieldsMoveWide sf opc hw imm16 rd

/-- R73, R155. -/
theorem mulAcc_fields {o : Operands} {ra' : Option Int} {sf : BitVec 1} {rm ra rn rd : RegField} (hsf : isFieldOr 1 o.sf sf)
    (hm : isField o.rm rm) (hn : isField o.rn rn) (hd : isField o.rd rd) (ha : isField ra' ra) (o0 : BitVec 1) :
    mulAcc o0.toNat ra' o = .ok (sf ++ 0b00#2 ++ 0b11011#5 ++ 0b000#3 ++ rm ++ o0 ++ ra ++ rn ++ rd) := by
  simp only [mulAcc, checkSf_field hsf, checkReg_field _ hd, checkReg_field _ hn, checkReg_field _ hm, checkReg_field _ ha,
    except_ok_bind]
  exact pack_fieldsDp3 sf rm o0 ra rn rd

/-- R74, R166. -/
theorem encB_fields {o : Operands} {imm26 : BitVec 26} (h : o.offset = some imm26.toInt) :
    encB o = .ok (0#1 ++ 0b00101#5 ++ imm26) := by
  simp only [encB, checkOffset_field h, except_ok_bind]
  exact pack_fieldsB imm26

/-- R75, R167. -/
theorem encBCond_fields {o : Operands} {name : String} {code : BitVec 4} {imm19 : BitVec 19} (hname : (name, code) ∈ condCodes)
    (hcond : o.cond = some name) (h : o.offset = some imm19.toInt) :
    encBCond o = .ok (0b0101010#7 ++ 0#1 ++ imm19 ++ 0#1 ++ code) := by
  obtain ⟨c, hc, hcode⟩ := checkCond_field hname hcond
  simp only [encBCond, hc, hcode, checkOffset_field h, except_ok_bind]
  exact pack_fieldsBCond imm19 code

/-- R76, R168. -/
theorem encRet_fields {o : Operands} {rn : RegField} (h : isFieldOr 30 o.rn rn) :
    encRet o = .ok (0b1101011#7 ++ 0b0010#4 ++ 0b11111#5 ++ 0b000000#6 ++ rn ++ 0b00000#5) := by
  have hlt := rn.isLt
  simp only [encRet, inRange_field "rn" (hi := 31) h (by omega), except_ok_bind]
  exact pack_fieldsRet rn

/-- R78, R181, R182. -/
theorem fpDp2_fields {o : Operands} {ftype : BitVec 2} {rm rn rd : RegField} (ht : (o.ftype.getD "D", ftype) ∈ ftypeCodes)
    (hm : isField o.rm rm) (hn : isField o.rn rn) (hd : isField o.rd rd) (opcode : BitVec 4) :
    fpDp2 opcode.toNat o = .ok (0b00011110#8 ++ ftype ++ 1#1 ++ rm ++ opcode ++ 0b10#2 ++ rn ++ rd) := by
  obtain ⟨t, ht, hcode⟩ := checkFtype_field ht
  simp only [fpDp2, ht, hcode, checkReg_field _ hd, checkReg_field _ hn, checkReg_field _ hm, except_ok_bind]
  exact pack_fieldsFpDp2 ftype rm opcode rn rd

/-- R79, R183, R184. -/
theorem fpDp1_fields {o : Operands} {ftype : BitVec 2} {rn rd : RegField} (ht : (o.ftype.getD "D", ftype) ∈ ftypeCodes)
    (hn : isField o.rn rn) (hd : isField o.rd rd) (opcode : BitVec 6) :
    fpDp1 opcode.toNat o = .ok (0b00011110#8 ++ ftype ++ 1#1 ++ opcode ++ 0b10000#5 ++ rn ++ rd) := by
  obtain ⟨t, ht, hcode⟩ := checkFtype_field ht
  simp only [fpDp1, ht, hcode, checkReg_field _ hd, checkReg_field _ hn, except_ok_bind]
  exact pack_fieldsFpDp1 ftype opcode rn rd

/-- R80, R185. -/
theorem fpImm_fields {o : Operands} {ftype : BitVec 2} {x : DWord} {rd : RegField} (ht : (o.ftype.getD "D", ftype) ∈ ftypeCodes)
    (hx : o.fval = some x) (hd : isField o.rd rd) :
    fpImm o = .ok ⟨0b00011110#8 ++ ftype ++ 1#1 ++ (compress x).1 ++ 0b100#3 ++ 0b00000#5 ++ rd, (compress x).2⟩ := by
  obtain ⟨t, ht, hcode⟩ := checkFtype_field ht
  simp only [fpImm, ht, hcode, checkReg_field _ hd, hx, required_some, pack_fieldsFpImm, except_ok_bind]

/-! ### The statements -/

/-- Settles O1: one format, its two bits `op` and `S` form by form; a compare has destination 31. -/
theorem addSubtractImmediateAppendsItsWord : Obligations.AddSubtractImmediateAppendsItsWord := by
  intro s o sf sh imm12 rn rd h hsf hsh himm hn
  have henc {rd' : Option Int} {rd : RegField} (hd : isField rd' rd) := addSubImm_fields hsf hsh himm hn hd
  exact ⟨fun hd => ⟨exec_quiet_word h rfl (henc hd 0 0), exec_quiet_word h rfl (henc hd 0 1),
      exec_quiet_word h rfl (henc hd 1 0), exec_quiet_word h rfl (henc hd 1 1)⟩,
    exec_quiet_word h rfl (henc isField_zr 1 1), exec_quiet_word h rfl (henc isField_zr 0 1)⟩

/-- Settles O2, likewise. -/
theorem addSubtractRegisterAppendsItsWord : Obligations.AddSubtractRegisterAppendsItsWord := by
  intro s o sf shift amount rm rn rd h hsf hshift hm hn
  have henc {rd' : Option Int} {rd : RegField} (hd : isField rd' rd) := addSubReg_fields hsf hshift hm hn hd
  exact ⟨fun hd => ⟨exec_quiet_word h rfl (henc hd 0 0), exec_quiet_word h rfl (henc hd 0 1),
      exec_quiet_word h rfl (henc hd 1 0), exec_quiet_word h rfl (henc hd 1 1)⟩,
    exec_quiet_word h rfl (henc isField_zr 1 1), exec_quiet_word h rfl (henc isField_zr 0 1)⟩

/-- Settles O3. -/
theorem addWithCarryAppendsItsWord : Obligations.AddWithCarryAppendsItsWord := by
  intro s o sf rm rn rd h hsf hshift hamount hm hn hd
  have henc := addSubCarry_fields hsf hshift hamount hm hn hd
  exact ⟨exec_quiet_word h rfl (henc 0), exec_quiet_word h rfl (henc 1)⟩

/-- Settles O4: MOV_bitmask is ORR_imm of the zero register. -/
theorem logicalImmediateAppendsItsWord : Obligations.LogicalImmediateAppendsItsWord := by
  intro s o sf imm f rn rd h hsf himm h32 hf hd
  have henc {rn' : Option Int} {rn : RegField} (hn : isField rn' rn) := logImm_fields hsf himm h32 hf hn hd
  exact ⟨fun hn => ⟨exec_quiet_word h rfl (henc hn 0), exec_quiet_word h rfl (henc hn 1), exec_quiet_word h rfl (henc hn 2)⟩,
    exec_quiet_word h rfl (henc isField_zr 1)⟩

/-- Settles O5. -/
theorem logicalRegisterAppendsItsWord : Obligations.LogicalRegisterAppendsItsWord := by
  intro s o sf shift amount rm rn rd h hsf hshift hm hn hd
  obtain ⟨hname, hamount, h32⟩ := hshift
  have henc := logReg_fields hsf hname hamount h32 hm hn hd
  exact ⟨exec_quiet_word h rfl (henc 0), exec_quiet_word h rfl (henc 1), exec_quiet_word h rfl (henc 2)⟩

/-- Settles O6: MOV_reg by ORR_reg and MOV_sp by ADD_imm, each with the operands it fixes. -/
theorem movesAppendTheirWord : Obligations.MovesAppendTheirWord := by
  intro s o sf hw imm16 rm rn rd h hsf hd
  refine ⟨fun hm => ?movReg, fun hn => ?movSp, fun hlane h32 himm => ?moveWide⟩
  case movReg =>
    exact exec_quiet_word h rfl (logReg_fields (shift' := some "LSL") (amount' := some 0) (shift := 0) (amount := 0) hsf (by decide) rfl
      (fun _ => by decide) hm isField_zr hd 1)
  case movSp =>
    exact exec_quiet_word h rfl
      (addSubImm_fields (o := { o with imm := some 0, sh := some 0 }) (sh := 0) (imm12 := 0) hsf rfl rfl hn hd 0 0)
  case moveWide =>
    have henc := moveWide_fields hsf hlane h32 himm hd
    exact ⟨exec_quiet_word h rfl (henc 2), exec_quiet_word h rfl (henc 0), exec_quiet_word h rfl (henc 3)⟩

/-- Settles O7: MUL and MNEG have accumulator 31. -/
theorem multipliesAppendTheirWord : Obligations.MultipliesAppendTheirWord := by
  intro s o sf rm ra rn rd h hsf hm hn hd
  have henc {ra' : Option Int} {ra : RegField} (ha : isField ra' ra) := mulAcc_fields hsf hm hn hd ha
  exact ⟨fun ha => ⟨exec_quiet_word h rfl (henc ha 0), exec_quiet_word h rfl (henc ha 1)⟩,
    exec_quiet_word h rfl (henc isField_zr 0), exec_quiet_word h rfl (henc isField_zr 1)⟩

/-- Settles O8. -/
theorem branchesAppendTheirWord : Obligations.BranchesAppendTheirWord := by
  intro s o h
  exact ⟨fun imm26 hoff => exec_quiet_word h rfl (encB_fields hoff),
    fun name code imm19 hname hcond hoff => exec_quiet_word h rfl (encBCond_fields hname hcond hoff),
    fun rn hn => exec_quiet_word h rfl (encRet_fields hn),
    exec_quiet_word (r := pack fieldsNop) h rfl pack_fieldsNop⟩

/-- Settles O9. -/
theorem floatingPointAppendsItsWord : Obligations.FloatingPointAppendsItsWord := by
  intro s o ftype rm rn rd h ht hn hd
  exact ⟨fun hm => ⟨exec_quiet_word h rfl (fpDp2_fields ht hm hn hd 2), exec_quiet_word h rfl (fpDp2_fields ht hm hn hd 0)⟩,
    exec_quiet_word h rfl (fpDp1_fields ht hn hd 2), exec_quiet_word h rfl (fpDp1_fields ht hn hd 0)⟩

/-- Settles O10: the warning is that of the set of the 256 values. -/
theorem floatImmediateAppendsItsWord : Obligations.FloatImmediateAppendsItsWord := by
  intro s o ftype x rd warn h ht hx hd hwarn
  obtain rfl : (compress x).2 = warn := by
    rw [← inFp8Set_iff] at hwarn
    rw [show (compress x).2 = !inFp8Set x from rfl, Bool.eq_iff_iff, Bool.not_eq_true', ← Bool.not_eq_true, ← hwarn,
      Bool.not_eq_false]
  calc exec (.fmovImm o) s
    _ = request s (fpImm o) := rfl
    _ = _ := by rw [fpImm_fields ht hx hd, request_accepts h]

end Sys2Proof.Proofs
end

section
/-! SUPPORT. The encoder written from the opcode map (R81) against the formats (R67 to R80): a word as the bits fixed for its form and its
fields in their places, the fields of a well-formed instruction, and the pseudo-ops as base forms with fixed operands (R82). -/

namespace Sys2Proof.Proofs

open Machine Safety

/-! ### A field in its place -/

/-- The field `v` at bit `lo` of an otherwise empty word. -/
def place {n : Nat} (lo : Nat) (v : BitVec n) : Word := v.setWidth 32 <<< lo

theorem place_zero_word (w : Word) : place 0 w = w := by
  rw [place, BitVec.setWidth_eq, BitVec.shiftLeft_zero]

/-- The lower part of a concatenation keeps its place, the upper one stands above it. -/
theorem place_append {n m : Nat} (lo : Nat) (x : BitVec n) (y : BitVec m) :
    place lo (x ++ y) = place (lo + m) x ||| place lo y := by
  apply BitVec.eq_of_getLsbD_eq
  intro i hi
  simp only [place, BitVec.getLsbD_or, BitVec.getLsbD_shiftLeft, BitVec.getLsbD_setWidth, BitVec.getLsbD_append, hi, decide_true,
    Bool.true_and, show i - lo < 32 by omega, show i - (lo + m) < 32 by omega]
  by_cases hlo : i < lo
  · simp [hlo, show i < lo + m by omega]
  · by_cases hm : i - lo < m
    · simp [hlo, hm, show i < lo + m by omega]
    · simp [hlo, hm, show ¬ i < lo + m by omega, show i - lo - m = i - (lo + m) by omega,
        BitVec.getLsbD_of_ge y (i - lo) (by omega)]

theorem put_toNat {n : Nat} (lo : Nat) (v : BitVec n) : put lo n (v.toNat : Int) = place lo v := by
  rw [put, place, BitVec.ofInt_natCast, BitVec.ofNat_toNat, BitVec.setWidth_eq]

theorem putOp_field {n lo : Nat} {x : Option Int} {v : BitVec n} (h : isField x v) (dflt : Int) : putOp lo n x dflt = place lo v := by
  rw [putOp, h, Option.getD_some, put_toNat]

theorem putOp_fieldOr {n lo : Nat} {x : Option Int} {dflt : Int} {v : BitVec n} (h : isFieldOr dflt x v) :
    putOp lo n x dflt = place lo v := by
  rw [putOp, show x.getD dflt = (v.toNat : Int) from h, put_toNat]

/-- R55: a signed offset as a field. -/
theorem putOp_offset {n lo : Nat} {x : Option Int} {v : BitVec n} (h : x = some v.toInt) (dflt : Int) :
    putOp lo n x dflt = place lo v := by
  rw [putOp, h, Option.getD_some, put, BitVec.ofInt_toInt, place]

/-! ### The fields of legal operands (R251) -/

theorem field_of_legalInt {n : Nat} {hi : Int} {x : Option Int} (h : legalInt 0 hi x = true) (hn : hi < 2 ^ n) :
    ∃ v : BitVec n, isField x v := by
  obtain ⟨v, rfl, hlo, hhi⟩ := legalInt_iff.mp h
  refine ⟨BitVec.ofNat n v.toNat, ?_⟩
  have hlt : v.toNat < 2 ^ n := by zify; omega
  rw [isField, BitVec.toNat_ofNat, Nat.mod_eq_of_lt hlt, Int.toNat_of_nonneg hlo]

theorem fieldOr_of_legalIntOpt {n : Nat} {hi : Int} {dflt : BitVec n} {x : Option Int} (h : legalIntOpt 0 hi x = true)
    (hn : hi < 2 ^ n) : ∃ v : BitVec n, isFieldOr dflt.toNat x v := by
  cases x with
  | none => exact ⟨dflt, rfl⟩
  | some z =>
    obtain ⟨v, hv⟩ := field_of_legalInt (x := some z) h hn
    exact ⟨v, congrArg (Option.getD · _) hv⟩

theorem field_of_legalReg {x : Option Int} (h : legalReg x = true) : ∃ v : RegField, isField x v :=
  field_of_legalInt h (by decide)

theorem field_of_legalSf {o : Operands} (h : legalSf o = true) : ∃ sf : BitVec 1, isFieldOr 1 o.sf sf :=
  fieldOr_of_legalIntOpt (dflt := 1) h (by decide)

/-- `sf = 0` is asked for exactly when the field is 0. -/
theorem is32_iff {o : Operands} {sf : BitVec 1} (h : isFieldOr 1 o.sf sf) : is32 o = true ↔ sf = 0 := by
  have hlt := sf.isLt
  have hsf : sf = 0 ↔ sf.toNat = 0 := BitVec.toNat_eq
  rw [is32, decide_eq_true_iff, hsf]
  cases ho : o.sf with
  | none =>
    rw [ho] at h
    have : (1 : Int) = sf.toNat := h
    simp only [reduceCtorEq, false_iff]
    omega
  | some z =>
    rw [ho] at h
    obtain rfl : z = sf.toNat := h
    simp

theorem offset_of_legalInt {n : Nat} (hn : 0 < n) {x : Option Int}
    (h : legalInt (-(2 ^ (n - 1) : Int)) (2 ^ (n - 1) - 1) x = true) : ∃ v : BitVec n, x = some v.toInt := by
  obtain ⟨v, rfl, hlo, hhi⟩ := legalInt_iff.mp h
  have htwo : (2 : Int) ^ n = 2 * 2 ^ (n - 1) := (mul_pow_sub_one hn.ne' 2).symm
  refine ⟨BitVec.ofInt n v, ?_⟩
  rw [BitVec.toInt_ofInt, Int.bmod_eq_of_le] <;> push_cast <;> omega

theorem shift_of_legalShift_arith {o : Operands} (h : legalShift arithShifts o = true) :
    ∃ shift, (o.shift.getD "LSL", shift) ∈ arithShiftCodes ∧ shift.toNat = shiftCode (shiftOf o) := by
  unfold legalShift at h
  unfold shiftOf
  cases hs : o.shift with
  | none => exact ⟨0, by decide, rfl⟩
  | some n =>
    rw [hs] at h
    have hn : n = "LSL" ∨ n = "LSR" ∨ n = "ASR" := by simpa [arithShifts] using h
    rcases hn with rfl | rfl | rfl
    · exact ⟨0, by decide, rfl⟩
    · exact ⟨1, by decide, rfl⟩
    · exact ⟨2, by decide, rfl⟩

theorem shift_of_legalShift_logical {o : Operands} (h : legalShift logicalShifts o = true) :
    ∃ shift, (o.shift.getD "LSL", shift) ∈ logicalShiftCodes ∧ shift.toNat = shiftCode (shiftOf o) := by
  unfold legalShift at h
  unfold shiftOf
  cases hs : o.shift with
  | none => exact ⟨0, by decide, rfl⟩
  | some n =>
    rw [hs] at h
    have hn : n = "LSL" ∨ n = "LSR" ∨ n = "ASR" ∨ n = "ROR" := by simpa [logicalShifts] using h
    rcases hn with rfl | rfl | rfl | rfl
    · exact ⟨0, by decide, rfl⟩
    · exact ⟨1, by decide, rfl⟩
    · exact ⟨2, by decide, rfl⟩
    · exact ⟨3, by decide, rfl⟩

theorem amount_of_legalAmount {o : Operands} {sf : BitVec 1} (hsf : isFieldOr 1 o.sf sf) (h : legalAmount o = true) :
    ∃ amount : BitVec 6, isFieldOr 0 o.amount amount ∧ (sf = 0 → amount.toNat < 32) := by
  unfold legalAmount at h
  obtain ⟨amount, ha⟩ := fieldOr_of_legalIntOpt (n := 6) (dflt := 0) h (by split <;> decide)
  refine ⟨amount, ha, fun h0 => ?_⟩
  have hle := legalIntOpt_toNat_le (dflt := 0) h (by split <;> decide)
  have ha' : o.amount.getD 0 = (amount.toNat : Int) := ha
  rw [if_pos ((is32_iff hsf).mpr h0), ha', Int.toNat_natCast] at hle
  omega

/-- The fields of the shift operands, with the code the encoder puts. -/
theorem fields_of_legalShifted_arith {o : Operands} (h : legalShifted arithShifts o = true) :
    ∃ sf shift amount, isFieldOr 1 o.sf sf ∧ isShift arithShiftCodes o sf shift amount ∧ shift.toNat = shiftCode (shiftOf o) := by
  simp only [legalShifted, Bool.and_eq_true] at h
  obtain ⟨⟨hsf, hshift⟩, hamount⟩ := h
  obtain ⟨sf, hsf⟩ := field_of_legalSf hsf
  obtain ⟨shift, hname, hcode⟩ := shift_of_legalShift_arith hshift
  obtain ⟨amount, ha, h32⟩ := amount_of_legalAmount hsf hamount
  exact ⟨sf, shift, amount, hsf, ⟨hname, ha, h32⟩, hcode⟩

theorem fields_of_legalShifted_logical {o : Operands} (h : legalShifted logicalShifts o = true) :
    ∃ sf shift amount, isFieldOr 1 o.sf sf ∧ isShift logicalShiftCodes o sf shift amount ∧ shift.toNat = shiftCode (shiftOf o) := by
  simp only [legalShifted, Bool.and_eq_true] at h
  obtain ⟨⟨hsf, hshift⟩, hamount⟩ := h
  obtain ⟨sf, hsf⟩ := field_of_legalSf hsf
  obtain ⟨shift, hname, hcode⟩ := shift_of_legalShift_logical hshift
  obtain ⟨amount, ha, h32⟩ := amount_of_legalAmount hsf hamount
  exact ⟨sf, shift, amount, hsf, ⟨hname, ha, h32⟩, hcode⟩

/-- R67, R100. -/
theorem fields_of_legalAddSubImm {o : Operands} (h : legalAddSubImm o = true) :
    ∃ (sf sh : BitVec 1) (imm12 : BitVec 12), isFieldOr 1 o.sf sf ∧ isFieldOr 0 o.sh sh ∧ isField o.imm imm12 := by
  simp only [legalAddSubImm, Bool.and_eq_true] at h
  obtain ⟨⟨hsf, hsh⟩, himm⟩ := h
  obtain ⟨sf, hsf⟩ := field_of_legalSf hsf
  obtain ⟨sh, hsh⟩ := fieldOr_of_legalIntOpt (n := 1) (dflt := 0) hsh (by decide)
  obtain ⟨imm12, himm⟩ := field_of_legalInt (n := 12) himm (by decide)
  exact ⟨sf, sh, imm12, hsf, hsh, himm⟩

/-- R69, R110. -/
theorem fields_of_legalCarry {o : Operands} (h : legalCarry o = true) :
    ∃ (sf : BitVec 1) (rm rn rd : RegField), isFieldOr 1 o.sf sf ∧ (o.shift = none ∨ o.shift = some "LSL")
      ∧ (o.amount = none ∨ o.amount = some 0) ∧ isField o.rm rm ∧ isField o.rn rn ∧ isField o.rd rd := by
  simp only [legalCarry, Bool.and_eq_true, Bool.or_eq_true, Option.isNone_iff_eq_none, decide_eq_true_eq] at h
  obtain ⟨⟨⟨⟨⟨hsf, hd⟩, hn⟩, hm⟩, hshift⟩, hamount⟩ := h
  obtain ⟨sf, hsf⟩ := field_of_legalSf hsf
  obtain ⟨rd, hd⟩ := field_of_legalReg hd
  obtain ⟨rn, hn⟩ := field_of_legalReg hn
  obtain ⟨rm, hm⟩ := field_of_legalReg hm
  exact ⟨sf, rm, rn, rd, hsf, hshift, hamount, hm, hn, hd⟩

/-- R70, R120: the immediate as a 64-bit value, and its mask as R128 gives it. -/
theorem fields_of_legalLogImm {o : Operands} (h : legalLogImm o = true) :
    ∃ (sf : BitVec 1) (imm : DWord), isFieldOr 1 o.sf sf ∧ isField o.imm imm ∧ (sf = 0 → imm.toNat < 2 ^ 32)
      ∧ maskOfOperands o = if sf = 1 then imm else imm.extractLsb' 0 32 ++ imm.extractLsb' 0 32 := by
  simp only [legalLogImm, Bool.and_eq_true] at h
  obtain ⟨hlegal, himm⟩ := h
  obtain ⟨sf, hsf⟩ := field_of_legalSf hlegal
  obtain ⟨imm, hfield⟩ := field_of_legalInt (n := 64) himm (by split <;> decide)
  refine ⟨sf, imm, hsf, hfield, fun h0 => ?_, ?_⟩
  · have hle := legalInt_toNat_le (dflt := 0) himm
    rw [if_pos ((is32_iff hsf).mpr h0), hfield, Option.getD_some, Int.toNat_natCast] at hle
    omega
  · rw [← maskOf_eq_maskOfOperands hlegal, toNat_of_isFieldOr hsf, immOf_of_isField hfield, maskOf_field]

/-- R61, R72, R143. -/
theorem fields_of_legalMoveWide {o : Operands} (h : legalMoveWide o = true) :
    ∃ (sf : BitVec 1) (hw : BitVec 2) (imm16 : BitVec 16) (rd : RegField), isFieldOr 1 o.sf sf
      ∧ o.hwShift.getD 0 = 16 * (hw.toNat : Int) ∧ (sf = 0 → hw.toNat < 2) ∧ isField o.imm imm16 ∧ isField o.rd rd := by
  simp only [legalMoveWide, Bool.and_eq_true] at h
  obtain ⟨⟨⟨hsf, hd⟩, himm⟩, hlane⟩ := h
  obtain ⟨sf, hsf⟩ := field_of_legalSf hsf
  obtain ⟨rd, hd⟩ := field_of_legalReg hd
  obtain ⟨imm16, himm⟩ := field_of_legalInt (n := 16) himm (by decide)
  have hlane : o.hwShift.getD 0 = 0 ∨ o.hwShift.getD 0 = 16
      ∨ sf ≠ 0 ∧ (o.hwShift.getD 0 = 32 ∨ o.hwShift.getD 0 = 48) := by
    unfold legalLane at hlane
    have h32 := is32_iff hsf
    cases hv : o.hwShift with
    | none => exact .inl rfl
    | some v =>
      rw [hv, decide_eq_true_eq] at hlane
      split at hlane
      · have : v = 0 ∨ v = 16 := by simpa using hlane
        exact this.imp_right .inl
      · have : v = 0 ∨ v = 16 ∨ v = 32 ∨ v = 48 := by simpa using hlane
        exact this.imp_right (Or.imp_right fun hv => ⟨fun h0 => ‹¬ _› (h32.mpr h0), hv⟩)
  rcases hlane with h | h | ⟨hne, h | h⟩
  · exact ⟨sf, 0, imm16, rd, hsf, h, fun _ => by decide, himm, hd⟩
  · exact ⟨sf, 1, imm16, rd, hsf, h, fun _ => by decide, himm, hd⟩
  · exact ⟨sf, 2, imm16, rd, hsf, h, fun h0 => absurd h0 hne, himm, hd⟩
  · exact ⟨sf, 3, imm16, rd, hsf, h, fun h0 => absurd h0 hne, himm, hd⟩

/-- R58. -/
theorem code_of_legalCond {o : Operands} (h : legalCond o = true) :
    ∃ name code, o.cond = some name ∧ (name, code) ∈ condCodes ∧ code.toNat = condCode (condOf o) := by
  unfold legalCond at h
  cases ho : o.cond with
  | none => simp [ho] at h
  | some n =>
    rw [ho] at h
    obtain ⟨c, hc⟩ := Option.isSome_iff_exists.mp ((condOfName_isSome n).trans h)
    have hn : condName c = n := of_decide_eq_true (List.find?_some (p := fun c => decide (condName c = n)) hc)
    rw [condOf_of_cond (c := c) (by rw [ho, hn]), ← hn]
    exact ⟨_, BitVec.ofNat 4 (condCode c), rfl, by cases c <;> decide, by cases c <;> rfl⟩

/-- R59. -/
theorem code_of_legalFtype {o : Operands} (h : legalFtype o = true) :
    ∃ ftype, (o.ftype.getD "D", ftype) ∈ ftypeCodes ∧ ftype.toNat = ftypeCode (ftypeOf o) := by
  unfold legalFtype at h
  unfold ftypeOf
  cases hs : o.ftype with
  | none => exact ⟨1, by decide, rfl⟩
  | some n =>
    rw [hs] at h
    have hn : n = "H" ∨ n = "S" ∨ n = "D" := by simpa using h
    rcases hn with rfl | rfl | rfl
    · exact ⟨3, by decide, rfl⟩
    · exact ⟨0, by decide, rfl⟩
    · exact ⟨1, by decide, rfl⟩

/-! ### The parts of the encoder -/

theorem putSf_field {o : Operands} {sf : BitVec 1} (h : isFieldOr 1 o.sf sf) : putSf o = place 31 sf := putOp_fieldOr h
theorem putRd_field {o : Operands} {rd : RegField} (h : isField o.rd rd) : putRd o = place 0 rd := putOp_field h 0
theorem putRn_field {o : Operands} {rn : RegField} (h : isField o.rn rn) : putRn o = place 5 rn := putOp_field h 0
theorem putRm_field {o : Operands} {rm : RegField} (h : isField o.rm rm) : putRm o = place 16 rm := putOp_field h 0
theorem putRa_field {o : Operands} {ra : RegField} (h : isField o.ra ra) : putRa o = place 10 ra := putOp_field h 0

theorem putAddSubImm_field {o : Operands} {sh : BitVec 1} {imm12 : BitVec 12} (hsh : isFieldOr 0 o.sh sh) (himm : isField o.imm imm12) :
    putAddSubImm o = place 22 sh ||| place 10 imm12 := by
  rw [putAddSubImm, putOp_fieldOr hsh, putOp_field himm]

theorem putShift_field {o : Operands} {shift : BitVec 2} {amount : BitVec 6} (hcode : shift.toNat = shiftCode (shiftOf o))
    (ha : isFieldOr 0 o.amount amount) : putShift o = place 22 shift ||| place 10 amount := by
  rw [putShift, ← hcode, put_toNat, putOp_fieldOr ha]

theorem putBitmask_field {o : Operands} {f : BitmaskFields} (hf : canonicalize (maskOfOperands o) = some f) :
    putBitmask o = place 22 f.n ||| place 16 f.immr ||| place 10 f.imms := by
  simp only [putBitmask, hf, put_toNat]

theorem putMoveWide_field {o : Operands} {hw : BitVec 2} {imm16 : BitVec 16} (hlane : o.hwShift.getD 0 = 16 * (hw.toNat : Int))
    (himm : isField o.imm imm16) : putMoveWide o = place 21 hw ||| place 5 imm16 := by
  rw [putMoveWide, hlane, Int.mul_ediv_cancel_left _ (by decide), put_toNat, putOp_field himm]

theorem putFtype_field {o : Operands} {ftype : BitVec 2} (hcode : ftype.toNat = ftypeCode (ftypeOf o)) :
    putFtype o = place 22 ftype := by
  rw [putFtype, ← hcode, put_toNat]

theorem putImm8_field {o : Operands} {x : DWord} (hx : o.fval = some x) : putImm8 o = place 13 (compress x).1 := by
  rw [putImm8, hx, Option.getD_some, put_toNat]

/-! ### A format's word as the bits of its form and its fields -/

theorem word_or_left_comm (a b c : Word) : a ||| (b ||| c) = b ||| (a ||| c) := by ac_rfl

/-- R67. -/
theorem word_addSubImm (sf op s sh : BitVec 1) (imm12 : BitVec 12) (rn rd : RegField) :
    place 0 (sf ++ op ++ s ++ 0b100010#6 ++ sh ++ imm12 ++ rn ++ rd)
      = (place 30 op ||| place 29 s ||| place 23 0b100010#6) ||| place 31 sf ||| (place 22 sh ||| place 10 imm12) ||| place 5 rn
        ||| place 0 rd := by
  simp only [place_append]
  simp only [Nat.reduceAdd, BitVec.or_assoc, BitVec.or_comm, word_or_left_comm]

/-- R68. -/
theorem word_addSubReg (sf op s : BitVec 1) (shift : BitVec 2) (amount : BitVec 6) (rm rn rd : RegField) :
    place 0 (sf ++ op ++ s ++ 0b01011#5 ++ shift ++ 0#1 ++ rm ++ amount ++ rn ++ rd)
      = (place 30 op ||| place 29 s ||| place 24 0b01011#5 ||| place 21 0#1) ||| place 31 sf ||| (place 22 shift ||| place 10 amount)
        ||| place 16 rm ||| place 5 rn ||| place 0 rd := by
  simp only [place_append]
  simp only [Nat.reduceAdd, BitVec.or_assoc, BitVec.or_comm, word_or_left_comm]

/-- R69. -/
theorem word_addSubCarry (sf s : BitVec 1) (rm rn rd : RegField) :
    place 0 (sf ++ 0#1 ++ s ++ 0b11010000#8 ++ rm ++ 0#6 ++ rn ++ rd)
      = (place 30 0#1 ||| place 29 s ||| place 21 0b11010000#8 ||| place 10 0#6) ||| place 31 sf ||| place 16 rm ||| place 5 rn
        ||| place 0 rd := by
  simp only [place_append]
  simp only [Nat.reduceAdd, BitVec.or_assoc, BitVec.or_comm, word_or_left_comm]

/-- R70. -/
theorem word_logImm (sf : BitVec 1) (opc : BitVec 2) (n : BitVec 1) (immr imms : BitVec 6) (rn rd : RegField) :
    place 0 (sf ++ opc ++ 0b100100#6 ++ n ++ immr ++ imms ++ rn ++ rd)
      = (place 29 opc ||| place 23 0b100100#6) ||| place 31 sf ||| (place 22 n ||| place 16 immr ||| place 10 imms) ||| place 5 rn
        ||| place 0 rd := by
  simp only [place_append]
  simp only [Nat.reduceAdd, BitVec.or_assoc, BitVec.or_comm, word_or_left_comm]

/-- R71. -/
theorem word_logReg (sf : BitVec 1) (opc shift : BitVec 2) (amount : BitVec 6) (rm rn rd : RegField) :
    place 0 (sf ++ opc ++ 0b01010#5 ++ shift ++ 0#1 ++ rm ++ amount ++ rn ++ rd)
      = (place 29 opc ||| place 24 0b01010#5 ||| place 21 0#1) ||| place 31 sf ||| (place 22 shift ||| place 10 amount)
        ||| place 16 rm ||| place 5 rn ||| place 0 rd := by
  simp only [place_append]
  simp only [Nat.reduceAdd, BitVec.or_assoc, BitVec.or_comm, word_or_left_comm]

/-- R72. -/
theorem word_moveWide (sf : BitVec 1) (opc hw : BitVec 2) (imm16 : BitVec 16) (rd : RegField) :
    place 0 (sf ++ opc ++ 0b100101#6 ++ hw ++ imm16 ++ rd)
      = (place 29 opc ||| place 23 0b100101#6) ||| place 31 sf ||| (place 21 hw ||| place 5 imm16) ||| place 0 rd := by
  simp only [place_append]
  simp only [Nat.reduceAdd, BitVec.or_assoc, BitVec.or_comm, word_or_left_comm]

/-- R73. -/
theorem word_dp3 (sf o0 : BitVec 1) (rm ra rn rd : RegField) :
    place 0 (sf ++ 0b00#2 ++ 0b11011#5 ++ 0b000#3 ++ rm ++ o0 ++ ra ++ rn ++ rd)
      = (place 29 0b00#2 ||| place 24 0b11011#5 ||| place 21 0b000#3 ||| place 15 o0) ||| place 31 sf ||| place 16 rm
        ||| place 10 ra ||| place 5 rn ||| place 0 rd := by
  simp only [place_append]
  simp only [Nat.reduceAdd, BitVec.or_assoc, BitVec.or_comm, word_or_left_comm]

/-- R74. -/
theorem word_b (imm26 : BitVec 26) :
    place 0 (0#1 ++ 0b00101#5 ++ imm26)
      = (place 31 0#1 ||| place 26 0b00101#5) ||| place 0 imm26 := by
  simp only [place_append]

/-- R75. -/
theorem word_bCond (imm19 : BitVec 19) (code : BitVec 4) :
    place 0 (0b0101010#7 ++ 0#1 ++ imm19 ++ 0#1 ++ code)
      = (place 25 0b0101010#7 ||| place 24 0#1 ||| place 4 0#1) ||| place 5 imm19 ||| place 0 code := by
  simp only [place_append]
  simp only [Nat.reduceAdd, BitVec.or_assoc, BitVec.or_comm, word_or_left_comm]

/-- R76. -/
theorem word_ret (rn : RegField) :
    place 0 (0b1101011#7 ++ 0b0010#4 ++ 0b11111#5 ++ 0b000000#6 ++ rn ++ 0b00000#5)
      = (place 25 0b1101011#7 ||| place 21 0b0010#4 ||| place 16 0b11111#5 ||| place 10 0b000000#6 ||| place 0 0b00000#5)
        ||| place 5 rn := by
  simp only [place_append]
  simp only [Nat.reduceAdd, BitVec.or_comm, word_or_left_comm]

/-- R78. -/
theorem word_fpDp2 (ftype : BitVec 2) (opcode : BitVec 4) (rm rn rd : RegField) :
    place 0 (0b00011110#8 ++ ftype ++ 1#1 ++ rm ++ opcode ++ 0b10#2 ++ rn ++ rd)
      = (place 24 0b00011110#8 ||| place 21 1#1 ||| place 12 opcode ||| place 10 0b10#2) ||| place 22 ftype ||| place 16 rm
        ||| place 5 rn ||| place 0 rd := by
  simp only [place_append]
  simp only [Nat.reduceAdd, BitVec.or_comm, word_or_left_comm]

/-- R79. -/
theorem word_fpDp1 (ftype : BitVec 2) (opcode : BitVec 6) (rn rd : RegField) :
    place 0 (0b00011110#8 ++ ftype ++ 1#1 ++ opcode ++ 0b10000#5 ++ rn ++ rd)
      = (place 24 0b00011110#8 ||| place 21 1#1 ||| place 15 opcode ||| place 10 0b10000#5) ||| place 22 ftype ||| place 5 rn
        ||| place 0 rd := by
  simp only [place_append]
  simp only [Nat.reduceAdd, BitVec.or_comm, word_or_left_comm]

/-- R80. -/
theorem word_fpImm (ftype : BitVec 2) (imm8 : BitVec 8) (rd : RegField) :
    place 0 (0b00011110#8 ++ ftype ++ 1#1 ++ imm8 ++ 0b100#3 ++ 0b00000#5 ++ rd)
      = (place 24 0b00011110#8 ||| place 21 1#1 ||| place 10 0b100#3 ||| place 5 0b00000#5) ||| place 22 ftype ||| place 13 imm8
        ||| place 0 rd := by
  simp only [place_append]
  simp only [Nat.reduceAdd, BitVec.or_comm, word_or_left_comm]

/-! ### Pseudo-ops (R27, R82) -/

/-- The base form a pseudo-op is, with the operands it fixes. -/
def baseForm : Instr → Instr
  | .cmpImm o => .subsImm { o with rd := some 31 }
  | .cmnImm o => .addsImm { o with rd := some 31 }
  | .cmpReg o => .subsReg { o with rd := some 31 }
  | .cmnReg o => .addsReg { o with rd := some 31 }
  | .movReg o => .orrReg { o with rn := some 31, shift := some "LSL", amount := some 0 }
  | .movSp o => .addImm { o with imm := some 0, sh := some 0 }
  | .movBitmask o => .orrImm { o with rn := some 31 }
  | .mul o => .madd { o with ra := some 31 }
  | .mneg o => .msub { o with ra := some 31 }
  | i => i

theorem exec_baseForm (i : Instr) (s : State) : exec (baseForm i) s = exec i s := by
  cases i <;> rfl

theorem warns_baseForm (i : Instr) : warns (baseForm i) = warns i := by
  cases i <;> rfl

theorem putBitmask_congr {o o' : Operands} (himm : o.imm = o'.imm) (hsf : o.sf = o'.sf) : putBitmask o = putBitmask o' := by
  simp only [putBitmask, maskOfOperands, immOf, is32, himm, hsf]
  rfl

theorem putShift_none {o : Operands} (hs : shiftOf o = .lsl) (ha : o.amount.getD 0 = 0) : putShift o = 0 := by
  rw [putShift, putOp, hs, ha]
  decide

theorem putAddSubImm_zero {o : Operands} (himm : o.imm = some 0) (hsh : o.sh = some 0) : putAddSubImm o = 0 := by
  rw [putAddSubImm, himm, hsh]
  decide

/-- The bits of a field with a fixed value belong to the bits fixed for the form, wherever the field stands. -/
theorem or_fixed_last (k k' a b c : Word) : k ||| a ||| b ||| c ||| k' = (k ||| k') ||| a ||| b ||| c := by ac_rfl
theorem or_fixed_last' (k k' a b c d : Word) : k ||| a ||| b ||| c ||| d ||| k' = (k ||| k') ||| a ||| b ||| c ||| d := by ac_rfl
theorem or_fixed_inner (k k' a b c : Word) : k ||| a ||| b ||| k' ||| c = (k ||| k') ||| a ||| b ||| c := by ac_rfl
theorem or_fixed_second (k k' a b c : Word) : k ||| a ||| k' ||| b ||| c = (k ||| k') ||| a ||| b ||| c := by ac_rfl
theorem or_fixed_third (k k' a b c d : Word) : k ||| a ||| b ||| k' ||| c ||| d = (k ||| k') ||| a ||| b ||| c ||| d := by ac_rfl
theorem or_fixed_two (k k' k'' a b c : Word) : k ||| a ||| k' ||| b ||| k'' ||| c = (k ||| k' ||| k'') ||| a ||| b ||| c := by ac_rfl

theorem encode_baseForm (i : Instr) : encode (baseForm i) = encode i := by
  cases i with
  | cmpImm o => exact or_fixed_last 0x71000000 0x1F _ _ _
  | cmnImm o => exact or_fixed_last 0x31000000 0x1F _ _ _
  | cmpReg o => exact or_fixed_last' 0x6B000000 0x1F _ _ _ _
  | cmnReg o => exact or_fixed_last' 0x2B000000 0x1F _ _ _ _
  | movReg o =>
    calc encode (.orrReg { o with rn := some 31, shift := some "LSL", amount := some 0 })
      _ = 0x2A000000 ||| putSf o ||| putShift { o with rn := some 31, shift := some "LSL", amount := some 0 } ||| putRm o
        ||| 0x3E0 ||| putRd o := rfl
      _ = 0x2A0003E0 ||| putSf o ||| putRm o ||| putRd o := by
        rw [putShift_none rfl rfl, or_fixed_two]
        rfl
  | movSp o =>
    calc encode (.addImm { o with imm := some 0, sh := some 0 })
      _ = 0x11000000 ||| putSf o ||| putAddSubImm { o with imm := some 0, sh := some 0 } ||| putRn o ||| putRd o := rfl
      _ = 0x11000000 ||| putSf o ||| putRn o ||| putRd o := by
        rw [putAddSubImm_zero rfl rfl, or_fixed_second]
        rfl
  | movBitmask o =>
    calc encode (.orrImm { o with rn := some 31 })
      _ = 0x32000000 ||| putSf o ||| putBitmask { o with rn := some 31 } ||| 0x3E0 ||| putRd o := rfl
      _ = 0x320003E0 ||| putSf o ||| putBitmask o ||| putRd o := by
        rw [putBitmask_congr (o' := o) rfl rfl, or_fixed_inner]
        rfl
  | mul o => exact or_fixed_third 0x1B000000 0x7C00 _ _ _ _
  | mneg o => exact or_fixed_third 0x1B008000 0x7C00 _ _ _ _
  | _ => rfl

end Sys2Proof.Proofs
end

section
/-! SUPPORT. The request procedure as the encoder written from the opcode map: every encoder of the block, on legal operands, answers the
encoder's word; and sequences of requests (R203, R204). -/

namespace Sys2Proof.Proofs

open Machine Safety

/-! ### Every encoder's word is the bits of its form and its operands' fields -/

theorem eq_of_place {w w' : Word} (h : place 0 w = w') : w = w' := (place_zero_word w).symm.trans h

/-- R67. -/
theorem addSubImm_word {o : Operands} (h : (legalAddSubImm o && legalReg o.rd && legalReg o.rn) = true)
    (op s : BitVec 1) {k : Word} (hk : place 30 op ||| place 29 s ||| place 23 0b100010#6 = k) :
    addSubImm op.toNat s.toNat o.rd o.rn o = .ok (k ||| putSf o ||| putAddSubImm o ||| putRn o ||| putRd o) := by
  simp only [Bool.and_eq_true] at h
  obtain ⟨⟨ho, hd⟩, hn⟩ := h
  obtain ⟨sf, sh, imm12, hsf, hsh, himm⟩ := fields_of_legalAddSubImm ho
  obtain ⟨rd, hd⟩ := field_of_legalReg hd
  obtain ⟨rn, hn⟩ := field_of_legalReg hn
  rw [addSubImm_fields hsf hsh himm hn hd, putSf_field hsf, putAddSubImm_field hsh himm, putRn_field hn, putRd_field hd, ← hk]
  exact congrArg Except.ok (eq_of_place (word_addSubImm sf op s sh imm12 rn rd))

/-- R68. -/
theorem addSubReg_word {o : Operands} (h : (legalShifted arithShifts o && legalReg o.rd && legalReg o.rn && legalReg o.rm) = true)
    (op s : BitVec 1) {k : Word}
    (hk : place 30 op ||| place 29 s ||| place 24 0b01011#5 ||| place 21 0#1 = k) :
    addSubReg op.toNat s.toNat o.rd o = .ok (k ||| putSf o ||| putShift o ||| putRm o ||| putRn o ||| putRd o) := by
  simp only [Bool.and_eq_true] at h
  obtain ⟨⟨⟨ho, hd⟩, hn⟩, hm⟩ := h
  obtain ⟨sf, shift, amount, hsf, hshift, hcode⟩ := fields_of_legalShifted_arith ho
  obtain ⟨rd, hd⟩ := field_of_legalReg hd
  obtain ⟨rn, hn⟩ := field_of_legalReg hn
  obtain ⟨rm, hm⟩ := field_of_legalReg hm
  rw [addSubReg_fields hsf hshift hm hn hd, putSf_field hsf, putShift_field hcode hshift.2.1, putRm_field hm, putRn_field hn,
    putRd_field hd, ← hk]
  exact congrArg Except.ok (eq_of_place (word_addSubReg sf op s shift amount rm rn rd))

/-- R69. -/
theorem addSubCarry_word {o : Operands} (h : legalCarry o = true) (s : BitVec 1) {k : Word}
    (hk : place 30 0#1 ||| place 29 s ||| place 21 0b11010000#8 ||| place 10 0#6 = k) :
    addSubCarry s.toNat o = .ok (k ||| putSf o ||| putRm o ||| putRn o ||| putRd o) := by
  obtain ⟨sf, rm, rn, rd, hsf, hshift, hamount, hm, hn, hd⟩ := fields_of_legalCarry h
  rw [addSubCarry_fields hsf hshift hamount hm hn hd, putSf_field hsf, putRm_field hm, putRn_field hn, putRd_field hd, ← hk]
  exact congrArg Except.ok (eq_of_place (word_addSubCarry sf s rm rn rd))

/-- R70: with a representable immediate. -/
theorem logImm_word {o : Operands} (h : (legalLogImm o && legalReg o.rd && legalReg o.rn) = true)
    (hrep : (canonicalize (maskOfOperands o)).isSome = true) (opc : BitVec 2) {k : Word}
    (hk : place 29 opc ||| place 23 0b100100#6 = k) :
    logImm opc.toNat o.rd o.rn o = .ok (k ||| putSf o ||| putBitmask o ||| putRn o ||| putRd o) := by
  simp only [Bool.and_eq_true] at h
  obtain ⟨⟨ho, hd⟩, hn⟩ := h
  obtain ⟨sf, imm, hsf, himm, h32, hmask⟩ := fields_of_legalLogImm ho
  obtain ⟨rd, hd⟩ := field_of_legalReg hd
  obtain ⟨rn, hn⟩ := field_of_legalReg hn
  obtain ⟨f, hf⟩ := Option.isSome_iff_exists.mp hrep
  rw [logImm_fields hsf himm h32 (hmask ▸ hf) hn hd, putSf_field hsf, putBitmask_field hf, putRn_field hn, putRd_field hd, ← hk]
  exact congrArg Except.ok (eq_of_place (word_logImm sf opc f.n f.immr f.imms rn rd))

/-- R71. -/
theorem logReg_word {o : Operands} (h : (legalShifted logicalShifts o && legalReg o.rd && legalReg o.rn && legalReg o.rm) = true)
    (opc : BitVec 2) {k : Word}
    (hk : place 29 opc ||| place 24 0b01010#5 ||| place 21 0#1 = k) :
    logReg opc.toNat o.rn o.shift o.amount o = .ok (k ||| putSf o ||| putShift o ||| putRm o ||| putRn o ||| putRd o) := by
  simp only [Bool.and_eq_true] at h
  obtain ⟨⟨⟨ho, hd⟩, hn⟩, hm⟩ := h
  obtain ⟨sf, shift, amount, hsf, ⟨hname, ha, h32⟩, hcode⟩ := fields_of_legalShifted_logical ho
  obtain ⟨rd, hd⟩ := field_of_legalReg hd
  obtain ⟨rn, hn⟩ := field_of_legalReg hn
  obtain ⟨rm, hm⟩ := field_of_legalReg hm
  rw [logReg_fields hsf hname ha h32 hm hn hd, putSf_field hsf, putShift_field hcode ha, putRm_field hm, putRn_field hn,
    putRd_field hd, ← hk]
  exact congrArg Except.ok (eq_of_place (word_logReg sf opc shift amount rm rn rd))

/-- R72. -/
theorem moveWide_word {o : Operands} (h : legalMoveWide o = true) (opc : BitVec 2) {k : Word}
    (hk : place 29 opc ||| place 23 0b100101#6 = k) :
    moveWide opc.toNat o = .ok (k ||| putSf o ||| putMoveWide o ||| putRd o) := by
  obtain ⟨sf, hw, imm16, rd, hsf, hlane, h32, himm, hd⟩ := fields_of_legalMoveWide h
  rw [moveWide_fields hsf hlane h32 himm hd, putSf_field hsf, putMoveWide_field hlane himm, putRd_field hd, ← hk]
  exact congrArg Except.ok (eq_of_place (word_moveWide sf opc hw imm16 rd))

/-- R73. -/
theorem mulAcc_word {o : Operands} (h : (legalSf o && legalReg o.rd && legalReg o.rn && legalReg o.rm && legalReg o.ra) = true)
    (o0 : BitVec 1) {k : Word}
    (hk : place 29 0b00#2 ||| place 24 0b11011#5 ||| place 21 0b000#3 ||| place 15 o0 = k) :
    mulAcc o0.toNat o.ra o = .ok (k ||| putSf o ||| putRm o ||| putRa o ||| putRn o ||| putRd o) := by
  simp only [Bool.and_eq_true] at h
  obtain ⟨⟨⟨⟨hsf, hd⟩, hn⟩, hm⟩, ha⟩ := h
  obtain ⟨sf, hsf⟩ := field_of_legalSf hsf
  obtain ⟨rd, hd⟩ := field_of_legalReg hd
  obtain ⟨rn, hn⟩ := field_of_legalReg hn
  obtain ⟨rm, hm⟩ := field_of_legalReg hm
  obtain ⟨ra, ha⟩ := field_of_legalReg ha
  rw [mulAcc_fields hsf hm hn hd ha, putSf_field hsf, putRm_field hm, putRa_field ha, putRn_field hn, putRd_field hd, ← hk]
  exact congrArg Except.ok (eq_of_place (word_dp3 sf o0 rm ra rn rd))

/-- R74. -/
theorem encB_word {o : Operands} (h : legalInt (-33554432) 33554431 o.offset = true) :
    encB o = .ok (0x14000000 ||| putOp 0 26 o.offset 0) := by
  obtain ⟨imm26, hoff⟩ := offset_of_legalInt (n := 26) (by decide) h
  rw [encB_fields hoff, putOp_offset hoff]
  exact congrArg Except.ok (eq_of_place (word_b imm26))

/-- R75. -/
theorem encBCond_word {o : Operands} (h : (legalCond o && legalInt (-262144) 262143 o.offset) = true) :
    encBCond o = .ok (0x54000000 ||| putOp 5 19 o.offset 0 ||| put 0 4 (condCode (condOf o))) := by
  obtain ⟨hc, hoff⟩ := Bool.and_eq_true_iff.mp h
  obtain ⟨imm19, hoff⟩ := offset_of_legalInt (n := 19) (by decide) hoff
  obtain ⟨name, code, hcond, hname, hcode⟩ := code_of_legalCond hc
  rw [encBCond_fields hname hcond hoff, putOp_offset hoff, ← hcode, put_toNat]
  exact congrArg Except.ok (eq_of_place (word_bCond imm19 code))

/-- R76. -/
theorem encRet_word {o : Operands} (h : legalIntOpt 0 31 o.rn = true) : encRet o = .ok (0xD65F0000 ||| putOp 5 5 o.rn 30) := by
  obtain ⟨rn, hn⟩ := fieldOr_of_legalIntOpt (n := 5) (dflt := 30) h (by decide)
  have hn : isFieldOr 30 o.rn rn := hn
  rw [encRet_fields hn, putOp_fieldOr hn]
  exact congrArg Except.ok (eq_of_place (word_ret rn))

/-- R78. -/
theorem fpDp2_word {o : Operands} (h : (legalFtype o && legalReg o.rd && legalReg o.rn && legalReg o.rm) = true)
    (opcode : BitVec 4) {k : Word}
    (hk : place 24 0b00011110#8 ||| place 21 1#1 ||| place 12 opcode ||| place 10 0b10#2 = k) :
    fpDp2 opcode.toNat o = .ok (k ||| putFtype o ||| putRm o ||| putRn o ||| putRd o) := by
  simp only [Bool.and_eq_true] at h
  obtain ⟨⟨⟨ht, hd⟩, hn⟩, hm⟩ := h
  obtain ⟨ftype, ht, hcode⟩ := code_of_legalFtype ht
  obtain ⟨rd, hd⟩ := field_of_legalReg hd
  obtain ⟨rn, hn⟩ := field_of_legalReg hn
  obtain ⟨rm, hm⟩ := field_of_legalReg hm
  rw [fpDp2_fields ht hm hn hd, putFtype_field hcode, putRm_field hm, putRn_field hn, putRd_field hd, ← hk]
  exact congrArg Except.ok (eq_of_place (word_fpDp2 ftype opcode rm rn rd))

/-- R79. -/
theorem fpDp1_word {o : Operands} (h : (legalFtype o && legalReg o.rd && legalReg o.rn) = true)
    (opcode : BitVec 6) {k : Word} (hk : place 24 0b00011110#8 ||| place 21 1#1 ||| place 15 opcode ||| place 10 0b10000#5 = k) :
    fpDp1 opcode.toNat o = .ok (k ||| putFtype o ||| putRn o ||| putRd o) := by
  simp only [Bool.and_eq_true] at h
  obtain ⟨⟨ht, hd⟩, hn⟩ := h
  obtain ⟨ftype, ht, hcode⟩ := code_of_legalFtype ht
  obtain ⟨rd, hd⟩ := field_of_legalReg hd
  obtain ⟨rn, hn⟩ := field_of_legalReg hn
  rw [fpDp1_fields ht hn hd, putFtype_field hcode, putRn_field hn, putRd_field hd, ← hk]
  exact congrArg Except.ok (eq_of_place (word_fpDp1 ftype opcode rn rd))

/-- R80, R186. -/
theorem fpImm_word {o : Operands} (h : (legalFtype o && legalReg o.rd && o.fval.isSome) = true) :
    fpImm o = .ok ⟨0x1E201000 ||| putFtype o ||| putImm8 o ||| putRd o, !inFp8Set (o.fval.getD 0)⟩ := by
  simp only [Bool.and_eq_true] at h
  obtain ⟨⟨ht, hd⟩, hx⟩ := h
  obtain ⟨ftype, ht, hcode⟩ := code_of_legalFtype ht
  obtain ⟨rd, hd⟩ := field_of_legalReg hd
  obtain ⟨x, hx⟩ := Option.isSome_iff_exists.mp hx
  rw [fpImm_fields ht hx hd, putFtype_field hcode, putImm8_field hx, putRd_field hd, hx, eq_of_place (word_fpImm ftype (compress x).1 rd)]
  rfl

/-! ### Every well-formed request -/

theorem baseForm_baseForm (i : Instr) : baseForm (baseForm i) = baseForm i := by
  cases i <;> rfl

/-- The operands a pseudo-op fixes are legal ones of its base form. -/
theorem wellFormed_baseForm {i : Instr} (h : i.wellFormed = true) : (baseForm i).wellFormed = true := by
  obtain ⟨hf, hrep⟩ := Bool.and_eq_true_iff.mp h
  refine Bool.and_eq_true_iff.mpr ?_
  cases i with
  | cmpImm o | cmnImm o =>
    obtain ⟨ho, hn⟩ := Bool.and_eq_true_iff.mp hf
    exact ⟨Bool.and_eq_true_iff.mpr ⟨Bool.and_eq_true_iff.mpr ⟨ho, rfl⟩, hn⟩, rfl⟩
  | cmpReg o | cmnReg o =>
    simp only [fieldsLegal, Bool.and_eq_true] at hf
    obtain ⟨⟨ho, hn⟩, hm⟩ := hf
    simp only [baseForm, fieldsLegal, Bool.and_eq_true]
    exact ⟨⟨⟨⟨ho, rfl⟩, hn⟩, hm⟩, rfl⟩
  | movReg o =>
    simp only [fieldsLegal, Bool.and_eq_true] at hf
    obtain ⟨⟨hsf, hd⟩, hm⟩ := hf
    have ho : legalShifted logicalShifts { o with rn := some 31, shift := some "LSL", amount := some 0 } = true := by
      simp only [legalShifted, Bool.and_eq_true]
      exact ⟨⟨hsf, rfl⟩, by unfold legalAmount; split <;> rfl⟩
    simp only [baseForm, fieldsLegal, ho, Bool.true_and, Bool.and_eq_true]
    exact ⟨⟨⟨hd, rfl⟩, hm⟩, rfl⟩
  | movSp o =>
    simp only [fieldsLegal, Bool.and_eq_true] at hf
    obtain ⟨⟨hsf, hd⟩, hn⟩ := hf
    simp only [baseForm, fieldsLegal, legalAddSubImm, Bool.and_eq_true]
    exact ⟨⟨⟨⟨⟨hsf, rfl⟩, rfl⟩, hd⟩, hn⟩, rfl⟩
  | movBitmask o => exact ⟨Bool.and_eq_true_iff.mpr ⟨hf, rfl⟩, hrep⟩
  | mul o | mneg o => exact ⟨Bool.and_eq_true_iff.mpr ⟨hf, rfl⟩, rfl⟩
  | _ => exact ⟨hf, hrep⟩

/-- The base forms. -/
theorem exec_encode_of_base {i : Instr} {s : State} (hs : accepts s) (hbase : baseForm i = i) (h : i.wellFormed = true) :
    exec i s = .next (afterOk s (encode i) (warns i)) := by
  obtain ⟨hf, hrep⟩ := Bool.and_eq_true_iff.mp h
  cases i with
  | cmpImm | cmnImm | cmpReg | cmnReg | movReg | movSp | movBitmask | mul | mneg => cases hbase
  | addImm o => exact exec_quiet_word hs rfl (addSubImm_word hf 0 0 (by decide))
  | addsImm o => exact exec_quiet_word hs rfl (addSubImm_word hf 0 1 (by decide))
  | subImm o => exact exec_quiet_word hs rfl (addSubImm_word hf 1 0 (by decide))
  | subsImm o => exact exec_quiet_word hs rfl (addSubImm_word hf 1 1 (by decide))
  | addReg o => exact exec_quiet_word hs rfl (addSubReg_word hf 0 0 (by decide))
  | addsReg o => exact exec_quiet_word hs rfl (addSubReg_word hf 0 1 (by decide))
  | subReg o => exact exec_quiet_word hs rfl (addSubReg_word hf 1 0 (by decide))
  | subsReg o => exact exec_quiet_word hs rfl (addSubReg_word hf 1 1 (by decide))
  | adc o => exact exec_quiet_word hs rfl (addSubCarry_word hf 0 (by decide))
  | adcs o => exact exec_quiet_word hs rfl (addSubCarry_word hf 1 (by decide))
  | andImm o => exact exec_quiet_word hs rfl (logImm_word hf hrep 0 (by decide))
  | orrImm o => exact exec_quiet_word hs rfl (logImm_word hf hrep 1 (by decide))
  | eorImm o => exact exec_quiet_word hs rfl (logImm_word hf hrep 2 (by decide))
  | andReg o => exact exec_quiet_word hs rfl (logReg_word hf 0 (by decide))
  | orrReg o => exact exec_quiet_word hs rfl (logReg_word hf 1 (by decide))
  | eorReg o => exact exec_quiet_word hs rfl (logReg_word hf 2 (by decide))
  | movz o => exact exec_quiet_word hs rfl (moveWide_word hf 2 (by decide))
  | movn o => exact exec_quiet_word hs rfl (moveWide_word hf 0 (by decide))
  | movk o => exact exec_quiet_word hs rfl (moveWide_word hf 3 (by decide))
  | madd o => exact exec_quiet_word hs rfl (mulAcc_word hf 0 (by decide))
  | msub o => exact exec_quiet_word hs rfl (mulAcc_word hf 1 (by decide))
  | b o => exact exec_quiet_word hs rfl (encB_word hf)
  | bCond o => exact exec_quiet_word hs rfl (encBCond_word hf)
  | ret o => exact exec_quiet_word hs rfl (encRet_word hf)
  | nop o => exact exec_quiet_word (r := pack fieldsNop) hs rfl pack_fieldsNop
  | fadd o => exact exec_quiet_word hs rfl (fpDp2_word hf 2 (by decide))
  | fmul o => exact exec_quiet_word hs rfl (fpDp2_word hf 0 (by decide))
  | fneg o => exact exec_quiet_word hs rfl (fpDp1_word hf 2 (by decide))
  | fmovReg o => exact exec_quiet_word hs rfl (fpDp1_word hf 0 (by decide))
  | fmovImm o =>
    calc exec (.fmovImm o) s
      _ = request s (fpImm o) := rfl
      _ = _ := by rw [fpImm_word hf, request_accepts hs]; rfl

/-- Settles O11: a pseudo-op's request and word are those of its base form. -/
theorem requestsEmitTheEncodersWord : Obligations.RequestsEmitTheEncodersWord := by
  intro i s hs h
  rw [← exec_baseForm, ← encode_baseForm, ← warns_baseForm]
  exact exec_encode_of_base hs (baseForm_baseForm i) (wellFormed_baseForm h)

/-! ### Sequences of requests (R204) -/

/-- A step of a queued well-formed request in an open, unbounded session. -/
theorem step_wellFormed {s : State} {i : Instr} {rest : List Input} (hi : issues s (.encode i) rest) (hopen : s.phase = .opened)
    (hcap : s.params.bufferCapacity = none) (h : i.wellFormed = true) :
    step s = .next (afterOk { s with inputs := rest } (encode i) (warns i)) := by
  rw [step_encode hi]
  exact requestsEmitTheEncodersWord i _ ⟨hopen, fun c hc => by cases hcap.symm.trans hc⟩ h

/-- A run of one more step than `k` whose first step goes on. -/
theorem run_succ {M : Host.Core} {s s' : M.State} {k : Nat} (h : M.step s = .next s') : M.run (k + 1) s = M.run k s' := by
  rw [Host.Core.run, h]

/-- Settles O24, by induction on the requests: each leaves an open, unbounded session with one request fewer in the queue. -/
theorem sequencesOfRequestsFillTheBuffer : Obligations.SequencesOfRequestsFillTheBuffer := by
  intro is
  induction is with
  | nil =>
    intro s rest _ hopen _ hin _
    exact ⟨s, rfl, by simp, by simp, by simpa using hin, hopen, by simp⟩
  | cons i is ih =>
    intro s rest hrun hopen hcap hin hwf
    obtain ⟨hi, his⟩ := List.forall_mem_cons.mp hwf
    have hstep := step_wellFormed ⟨hrun, hin⟩ hopen hcap hi
    obtain ⟨t, ht, hbuf, hlen, hinputs, hphase, happrox⟩ :=
      ih (afterOk { s with inputs := is.map Input.encode ++ rest } (encode i) (warns i)) rest hrun hopen hcap rfl his
    have hlen' : (afterOk { s with inputs := is.map Input.encode ++ rest } (encode i) (warns i)).len = s.len + 4 := by
      simp [afterOk, State.len]
    refine ⟨t, ?_, ?_, ?_, hinputs, hphase, ?_⟩
    · exact (run_succ (M := Sys2Proof.core) hstep).trans ht
    · rw [hbuf, List.flatMap_cons, ← List.append_assoc]
      rfl
    · rw [hlen, hlen', List.length_cons]
      omega
    · rw [happrox, List.any_cons, ← Bool.or_assoc]
      rfl

end Sys2Proof.Proofs
end

section
/-! SUPPORT. Logical immediates (R57, R128 to R135): the masks that fields decode to are the tiles of one run of ones, canonicalization finds
the tile of a mask, and the two are inverse. -/

namespace Sys2Proof.Proofs

open Machine Safety

/-! ### Tiles -/

/-- The mask whose elements of `2 ^ len` bits hold `s + 1` ones, rotated right by `r`. -/
def tileMask (len s r : Nat) : DWord := ofBits64 fun i => decide ((i + r) % 2 ^ len ≤ s)

/-- The fields of a tile (R134). -/
def tileFields (len s r : Nat) : BitmaskFields :=
  { n := if 2 ^ len = 64 then 1 else 0
    immr := BitVec.ofNat 6 r
    imms := (~~~ BitVec.ofNat 6 (2 * 2 ^ len - 1)) ||| BitVec.ofNat 6 s }

/-- R132: a tile of a legal element size that is neither all zeros nor all ones, its rotation below the element size. -/
def IsTile (len s r : Nat) : Prop := 1 ≤ len ∧ len ≤ 6 ∧ s + 1 < 2 ^ len ∧ r < 2 ^ len

theorem two_pow_dvd_64 {len : Nat} (h : len ≤ 6) : 2 ^ len ∣ 64 := pow_dvd_pow 2 h

theorem getLsbD_ofBits64 (p : Nat → Bool) {i : Nat} (hi : i < 64) : (ofBits64 p).getLsbD i = p i := by
  simp [ofBits64, hi]

theorem getLsbD_tileMask (len s r : Nat) {i : Nat} (hi : i < 64) :
    (tileMask len s r).getLsbD i = decide ((i + r) % 2 ^ len ≤ s) :=
  getLsbD_ofBits64 _ hi

/-! ### The decode (R57) -/

theorem highestSetBit_lt {v n k : Nat} (h : highestSetBit v n = some k) : k < n := by
  induction n with
  | zero => cases h
  | succ n ih =>
    rw [highestSetBit] at h
    split at h
    · cases h
      exact Nat.lt_succ_self _
    · exact (ih h).trans (Nat.lt_succ_self _)

/-- The element that holds `s + 1` ones, rotated and repeated. -/
theorem replicateTile_eq_tileMask {len : Nat} (hlen : len ≤ 6) (s r : Nat) :
    replicateTile (2 ^ len) (ofBits64 fun i => (BitVec.ofNat 64 (2 ^ (s + 1) - 1)).getLsbD ((i + r) % 2 ^ len)) = tileMask len s r := by
  have hle : 2 ^ len ≤ 64 := Nat.le_of_dvd (by decide) (two_pow_dvd_64 hlen)
  have hpos : 0 < 2 ^ len := Nat.two_pow_pos _
  refine BitVec.eq_of_getLsbD_eq fun i hi => ?_
  have hmod := Nat.mod_lt i hpos
  have hrot := Nat.mod_lt (i + r) hpos
  rw [replicateTile, getLsbD_ofBits64 _ hi, getLsbD_ofBits64 _ (by omega), getLsbD_tileMask _ _ _ hi, Nat.mod_add_mod,
    BitVec.getLsbD_ofNat, Nat.testBit_two_pow_sub_one, decide_eq_true (show (i + r) % 2 ^ len < 64 by omega), Bool.true_and,
    decide_eq_decide, Nat.lt_succ_iff]

/-- R57: what fields decode to. -/
theorem decodeBitMasks_eq_some_iff (f : BitmaskFields) (m : DWord) :
    decodeBitMasks f = some m ↔ ∃ len, highestSetBit (f.n ++ ~~~ f.imms).toNat 7 = some len ∧ 1 ≤ len
      ∧ f.imms.toNat % 2 ^ len + 1 < 2 ^ len ∧ m = tileMask len (f.imms.toNat % 2 ^ len) (f.immr.toNat % 2 ^ len) := by
  unfold decodeBitMasks
  cases hbit : highestSetBit (f.n ++ ~~~ f.imms).toNat 7 with
  | none => simp
  | some len =>
    have hlen : len ≤ 6 := Nat.lt_succ_iff.mp (highestSetBit_lt hbit)
    have hmod := Nat.mod_lt f.imms.toNat (Nat.two_pow_pos len)
    simp only [Nat.and_two_pow_sub_one_eq_mod, Option.some.injEq, exists_eq_left']
    by_cases h1 : len < 1
    · rw [if_pos h1]
      exact iff_of_false (by simp) (by omega)
    · by_cases hs : f.imms.toNat % 2 ^ len = 2 ^ len - 1
      · rw [if_neg h1, if_pos hs]
        exact iff_of_false (by simp) (by omega)
      · have hlt : f.imms.toNat % 2 ^ len + 1 < 2 ^ len := by omega
        rw [if_neg h1, if_neg hs, replicateTile_eq_tileMask hlen, Option.some.injEq, eq_comm]
        exact ⟨fun h => ⟨by omega, hlt, h⟩, fun h => h.2.2⟩

/-- The fields of a tile give back its element size, its ones and its rotation. -/
theorem tileFields_read {len s r : Nat} (h : IsTile len s r) :
    highestSetBit ((tileFields len s r).n ++ ~~~ (tileFields len s r).imms).toNat 7 = some len
      ∧ (tileFields len s r).imms.toNat % 2 ^ len = s ∧ (tileFields len s r).immr.toNat = r := by
  obtain ⟨h1, h6, hs, hr⟩ := h
  have hall : ∀ len : Fin 7, ∀ s : Fin 64, 1 ≤ len.val → s.val + 1 < 2 ^ len.val →
      highestSetBit ((tileFields len s 0).n ++ ~~~ (tileFields len s 0).imms).toNat 7 = some len.val
        ∧ (tileFields len s 0).imms.toNat % 2 ^ len.val = s.val := by decide
  have hle : 2 ^ len ≤ 64 := Nat.le_of_dvd (by decide) (two_pow_dvd_64 h6)
  obtain ⟨hbit, himms⟩ := hall ⟨len, by omega⟩ ⟨s, by omega⟩ h1 hs
  exact ⟨hbit, himms, by rw [tileFields, BitVec.toNat_ofNat, Nat.mod_eq_of_lt (by omega)]⟩

/-- Fields with a rotation below the element size are the fields of their tile. -/
theorem eq_tileFields {f : BitmaskFields} {len : Nat} (hbit : highestSetBit (f.n ++ ~~~ f.imms).toNat 7 = some len) (h1 : 1 ≤ len)
    (hs : f.imms.toNat % 2 ^ len + 1 < 2 ^ len) : f = tileFields len (f.imms.toNat % 2 ^ len) f.immr.toNat := by
  have hall : ∀ (n : BitVec 1) (imms : BitVec 6) (len : Fin 7), highestSetBit (n ++ ~~~ imms).toNat 7 = some len.val → 1 ≤ len.val →
      imms.toNat % 2 ^ len.val + 1 < 2 ^ len.val →
        (tileFields len (imms.toNat % 2 ^ len.val) 0).n = n ∧ (tileFields len (imms.toNat % 2 ^ len.val) 0).imms = imms := by decide
  obtain ⟨hn, himms⟩ := hall f.n f.imms ⟨len, highestSetBit_lt hbit⟩ hbit h1 hs
  obtain ⟨n, immr, imms⟩ := f
  simp only [BitmaskFields.mk.injEq, tileFields] at hn himms ⊢
  exact ⟨hn.symm, by rw [BitVec.ofNat_toNat, BitVec.setWidth_eq], himms.symm⟩

/-! ### Rotations (R130) -/

theorem getLsbD_rotateLeft_64 (m : DWord) {ρ i : Nat} (hρ : ρ < 64) (hi : i < 64) :
    (m.rotateLeft ρ).getLsbD i = m.getLsbD ((i + (64 - ρ)) % 64) := by
  rw [BitVec.getLsbD_rotateLeft, Nat.mod_eq_of_lt hρ]
  by_cases h : i < ρ
  · rw [decide_eq_true h, cond_true, Nat.mod_eq_of_lt (by omega), Nat.add_comm]
  · rw [decide_eq_false h, cond_false, decide_eq_true hi, Bool.true_and, Nat.mod_eq_sub_mod (by omega), Nat.mod_eq_of_lt (by omega)]
    congr 1
    omega

theorem getLsbD_rotateLeft_tileMask {len : Nat} (hlen : len ≤ 6) (s r : Nat) {ρ i : Nat} (hρ : ρ < 64) (hi : i < 64) :
    ((tileMask len s r).rotateLeft ρ).getLsbD i = decide ((i + (64 - ρ + r)) % 2 ^ len ≤ s) := by
  rw [getLsbD_rotateLeft_64 _ hρ hi, getLsbD_tileMask _ _ _ (Nat.mod_lt _ (by decide)), Nat.add_mod, Nat.mod_mod_of_dvd _ (two_pow_dvd_64 hlen),
    ← Nat.add_mod, Nat.add_assoc]

/-- A rotation of a tile begins at an element's ones and ends at its zeros exactly when it undoes the tile's own rotation, up to whole
elements. -/
theorem rotationQualifies_tileMask {len s : Nat} (hlen : len ≤ 6) (hs : s + 1 < 2 ^ len) (r : Nat) {ρ : Nat} (hρ : ρ < 64) :
    rotationQualifies (tileMask len s r) ρ = true ↔ 2 ^ len ∣ 64 - ρ + r := by
  rw [rotationQualifies, getLsbD_rotateLeft_tileMask hlen s r hρ (by decide), getLsbD_rotateLeft_tileMask hlen s r hρ (by decide)]
  simp only [Nat.zero_add, Bool.and_eq_true, decide_eq_true_eq, Bool.not_eq_true', decide_eq_false_iff_not, Nat.dvd_iff_mod_eq_zero]
  generalize 64 - ρ + r = d
  have hlast : (63 + d) % 2 ^ len = (d % 2 ^ len + (2 ^ len - 1)) % 2 ^ len := by
    obtain ⟨c, hc⟩ := two_pow_dvd_64 hlen
    have hc1 : 1 ≤ c := Nat.pos_of_ne_zero (by rintro rfl; simp at hc)
    have h63 : 63 + d = d + (2 ^ len - 1) + 2 ^ len * (c - 1) := by
      obtain ⟨c, rfl⟩ := Nat.exists_eq_add_of_le' hc1
      rw [Nat.mul_succ] at hc
      rw [Nat.add_sub_cancel]
      have := Nat.two_pow_pos len
      omega
    rw [h63, Nat.add_mul_mod_self_left, Nat.mod_add_mod]
  rw [hlast]
  have hlt := Nat.mod_lt d (Nat.two_pow_pos len)
  generalize d % 2 ^ len = k at hlt
  rcases Nat.eq_zero_or_pos k with rfl | hk
  · rw [Nat.zero_add, Nat.mod_eq_of_lt (by omega)]
    omega
  · rw [show k + (2 ^ len - 1) = k - 1 + 2 ^ len by omega, Nat.add_mod_right, Nat.mod_eq_of_lt (by omega)]
    omega

/-- The smallest such rotation is the tile's own. -/
theorem findRotation_tileMask {len s r : Nat} (h : IsTile len s r) : findRotation (tileMask len s r) = some r := by
  obtain ⟨h1, hlen, hs, hr⟩ := h
  have hdvd := two_pow_dvd_64 hlen
  have hle : 2 ^ len ≤ 64 := Nat.le_of_dvd (by decide) hdvd
  rw [findRotation, List.find?_range_eq_some]
  refine ⟨(rotationQualifies_tileMask hlen hs r (by omega)).mpr ?_, List.mem_range.mpr (by omega), fun ρ hρ => ?_⟩
  · rwa [Nat.sub_add_cancel (by omega)]
  · rw [Bool.not_eq_true', ← Bool.not_eq_true, rotationQualifies_tileMask hlen hs r (by omega),
      show 64 - ρ + r = 64 + (r - ρ) by omega, ← Nat.dvd_add_iff_right hdvd]
    exact Nat.not_dvd_of_pos_of_lt (by omega) (by omega)

/-! ### Runs (R131) -/

/-- The run's bits are `b`, and it stops at the first other bit or at the end. -/
theorem runLength_spec (v : DWord) (b : Bool) (n : Nat) : ∀ i, runLength v b i n ≤ n
    ∧ (∀ j < runLength v b i n, v.getLsbD (i + j) = b)
    ∧ (runLength v b i n < n → v.getLsbD (i + runLength v b i n) ≠ b) := by
  induction n with
  | zero => exact fun i => ⟨le_rfl, fun j hj => absurd hj (Nat.not_lt_zero j), fun h => absurd h (Nat.lt_irrefl 0)⟩
  | succ n ih =>
    intro i
    obtain ⟨hle, hall, hstop⟩ := ih (i + 1)
    rw [runLength]
    split
    · rename_i hb
      refine ⟨by omega, fun j hj => ?_, fun h => ?_⟩
      · cases j with
        | zero => exact hb
        | succ j => rw [← Nat.add_assoc, Nat.add_right_comm]; exact hall j (by omega)
      · rw [← Nat.add_assoc]
        exact hstop (by omega)
    · rename_i hb
      exact ⟨Nat.zero_le _, fun j hj => absurd hj (Nat.not_lt_zero j), fun _ => hb⟩

theorem runLength_eq {v : DWord} {b : Bool} {i n k : Nat} (hk : k ≤ n) (hall : ∀ j < k, v.getLsbD (i + j) = b)
    (hstop : k < n → v.getLsbD (i + k) ≠ b) : runLength v b i n = k := by
  obtain ⟨hle, hall', hstop'⟩ := runLength_spec v b n i
  rcases Nat.lt_trichotomy (runLength v b i n) k with h | h | h
  · exact absurd (hall _ h) (hstop' (by omega))
  · exact h
  · exact absurd (hall' _ h) (hstop (by omega))

/-! ### Canonicalization -/

/-- R130: a mask with a qualifying rotation has a one and a zero. -/
theorem ne_of_qualifies {m : DWord} {ρ : Nat} (hρ : ρ < 64) (h : rotationQualifies m ρ = true) : ¬ (m = 0 ∨ m = BitVec.allOnes 64) := by
  rw [rotationQualifies, getLsbD_rotateLeft_64 _ hρ (by decide), getLsbD_rotateLeft_64 _ hρ (by decide)] at h
  have hlt := Nat.mod_lt (63 + (64 - ρ)) (show 0 < 64 by decide)
  rintro (rfl | rfl)
  · simp at h
  · rw [BitVec.getLsbD_allOnes, BitVec.getLsbD_allOnes, decide_eq_true hlt] at h
    simp at h

/-- R129 to R134: what canonicalization answers, given the rotation it finds. -/
theorem canonicalize_of_rotation {m : DWord} {ρ : Nat} (hρ : ρ < 64) (h : findRotation m = some ρ) (hq : rotationQualifies m ρ = true) :
    canonicalize m =
      let v := m.rotateLeft ρ
      let t := onesRun v
      let e := t + zerosRun v
      if e ∉ tileSizes then none
      else if v ≠ replicateTile e v then none
      else some
        { n := if e = 64 then 1 else 0
          immr := BitVec.ofNat 6 ρ
          imms := (~~~ BitVec.ofNat 6 (2 * e - 1)) ||| BitVec.ofNat 6 (t - 1) } := by
  rw [canonicalize, if_neg (ne_of_qualifies hρ hq), h]

theorem two_pow_mem_tileSizes {len : Nat} (h1 : 1 ≤ len) (hlen : len ≤ 6) : 2 ^ len ∈ tileSizes := by
  interval_cases len <;> decide

theorem mem_tileSizes {e : Nat} (h : e ∈ tileSizes) : ∃ len, 1 ≤ len ∧ len ≤ 6 ∧ e = 2 ^ len := by
  simp only [tileSizes, List.mem_cons, List.not_mem_nil, or_false] at h
  rcases h with rfl | rfl | rfl | rfl | rfl | rfl
  · exact ⟨1, by decide⟩
  · exact ⟨2, by decide⟩
  · exact ⟨3, by decide⟩
  · exact ⟨4, by decide⟩
  · exact ⟨5, by decide⟩
  · exact ⟨6, by decide⟩

theorem canonicalize_tileMask {len s r : Nat} (h : IsTile len s r) : canonicalize (tileMask len s r) = some (tileFields len s r) := by
  obtain ⟨h1, hlen, hs, hr⟩ := id h
  have hdvd := two_pow_dvd_64 hlen
  have hle : 2 ^ len ≤ 64 := Nat.le_of_dvd (by decide) hdvd
  have hfind := findRotation_tileMask h
  have hq : rotationQualifies (tileMask len s r) r = true := List.find?_some hfind
  have hbit {i : Nat} (hi : i < 64) : ((tileMask len s r).rotateLeft r).getLsbD i = decide (i % 2 ^ len ≤ s) := by
    rw [getLsbD_rotateLeft_tileMask hlen s r (by omega) hi, Nat.sub_add_cancel (by omega)]
    obtain ⟨c, hc⟩ := hdvd
    rw [hc, Nat.add_mul_mod_self_left]
  rw [canonicalize_of_rotation (by omega) hfind hq]
  generalize (tileMask len s r).rotateLeft r = v at hbit
  have hones : onesRun v = s + 1 := by
    refine runLength_eq (by omega) (fun j hj => ?_) fun _ => ?_
    · rw [Nat.zero_add, hbit (by omega), Nat.mod_eq_of_lt (by omega), decide_eq_true_eq]
      omega
    · rw [Nat.zero_add, hbit (by omega), Nat.mod_eq_of_lt (by omega), ne_eq, decide_eq_true_eq]
      omega
  have hzeros : zerosRun v = 2 ^ len - (s + 1) := by
    rw [zerosRun, hones]
    refine runLength_eq (by omega) (fun j hj => ?_) fun hlt => ?_
    · rw [hbit (by omega), Nat.mod_eq_of_lt (by omega), decide_eq_false_iff_not]
      omega
    · rw [Nat.add_sub_cancel' (by omega), hbit (by omega), Nat.mod_self]
      simp
  have htile : v = replicateTile (2 ^ len) v := by
    refine BitVec.eq_of_getLsbD_eq fun i hi => ?_
    have hmod := Nat.mod_lt i (Nat.two_pow_pos len)
    rw [replicateTile, getLsbD_ofBits64 _ hi, hbit hi, hbit (by omega), Nat.mod_mod]
  have hsum : s + 1 + (2 ^ len - (s + 1)) = 2 ^ len := by omega
  simp only [hones, hzeros, hsum]
  rw [if_neg (not_not.mpr (two_pow_mem_tileSizes h1 hlen)), if_neg (not_not.mpr htile)]
  rfl

/-- R130 to R134: a mask that canonicalizes is a tile. -/
theorem tile_of_canonicalize {m : DWord} {f : BitmaskFields} (h : canonicalize m = some f) :
    ∃ len s r, IsTile len s r ∧ m = tileMask len s r := by
  have hrot : ∃ ρ, findRotation m = some ρ := by
    cases hfind : findRotation m with
    | some ρ => exact ⟨ρ, rfl⟩
    | none =>
      rw [canonicalize, hfind] at h
      split at h <;> cases h
  obtain ⟨ρ, hfind⟩ := hrot
  obtain ⟨hq, hmem, hmin⟩ := List.find?_range_eq_some.mp hfind
  have hρ := List.mem_range.mp hmem
  rw [canonicalize_of_rotation hρ hfind hq] at h
  have hm {i : Nat} (hi : i < 64) : m.getLsbD i = (m.rotateLeft ρ).getLsbD ((i + ρ) % 64) := by
    rw [getLsbD_rotateLeft_64 m hρ (Nat.mod_lt _ (by decide)), Nat.mod_add_mod, show i + ρ + (64 - ρ) = i + 64 by omega,
      Nat.add_mod_right, Nat.mod_eq_of_lt hi]
  obtain ⟨hfirst, hlast⟩ := Bool.and_eq_true_iff.mp hq
  rw [Bool.not_eq_true'] at hlast
  generalize m.rotateLeft ρ = v at h hm hfirst hlast
  obtain ⟨hle, hall, hstop⟩ := runLength_spec v true 64 0
  rw [← onesRun] at hle hall hstop
  have ht1 : 1 ≤ onesRun v := by
    refine Nat.pos_of_ne_zero fun h0 => ?_
    rw [h0] at hstop
    exact hstop (by decide) hfirst
  have ht63 : onesRun v ≤ 63 := by
    by_contra hbig
    have := hall 63 (by omega)
    rw [Nat.zero_add, hlast] at this
    cases this
  obtain ⟨hzle, hzall, hzstop⟩ := runLength_spec v false (64 - onesRun v) (onesRun v)
  rw [← zerosRun] at hzle hzall hzstop
  have hz1 : 1 ≤ zerosRun v := by
    refine Nat.pos_of_ne_zero fun h0 => ?_
    rw [h0] at hzstop
    have := hstop (by omega)
    rw [Nat.zero_add] at this
    exact hzstop (by omega) (Bool.not_eq_true _ ▸ this)
  simp only at h
  split at h
  · cases h
  · rename_i hsize
    split at h
    · cases h
    · rename_i htile
      rw [not_not] at hsize htile
      obtain ⟨len, h1, hlen, he⟩ := mem_tileSizes hsize
      rw [he] at htile
      have hle64 : 2 ^ len ≤ 64 := Nat.le_of_dvd (by decide) (two_pow_dvd_64 hlen)
      have hbit {i : Nat} (hi : i < 64) : v.getLsbD i = decide (i % 2 ^ len ≤ onesRun v - 1) := by
        have hmod := Nat.mod_lt i (Nat.two_pow_pos len)
        have hper : v.getLsbD i = v.getLsbD (i % 2 ^ len) := by
          conv_lhs => rw [htile, replicateTile, getLsbD_ofBits64 _ hi]
        rw [hper]
        by_cases hlow : i % 2 ^ len < onesRun v
        · have := hall _ hlow
          rw [Nat.zero_add] at this
          rw [this, eq_comm, decide_eq_true_eq]
          omega
        · have := hzall (i % 2 ^ len - onesRun v) (by omega)
          rw [Nat.add_sub_cancel' (by omega)] at this
          rw [this, eq_comm, decide_eq_false_iff_not]
          omega
      have hmask : m = tileMask len (onesRun v - 1) ρ := by
        refine BitVec.eq_of_getLsbD_eq fun i hi => ?_
        rw [hm hi, hbit (Nat.mod_lt _ (by decide)), getLsbD_tileMask _ _ _ hi, Nat.mod_mod_of_dvd _ (two_pow_dvd_64 hlen)]
      refine ⟨len, onesRun v - 1, ρ, ⟨h1, hlen, by omega, ?_⟩, hmask⟩
      by_contra hbig
      have hno := hmin (ρ - 2 ^ len) (by have := Nat.two_pow_pos len; omega)
      rw [Bool.not_eq_true', ← Bool.not_eq_true, hmask, rotationQualifies_tileMask hlen (by omega) ρ (by omega),
        show 64 - (ρ - 2 ^ len) + ρ = 64 + 2 ^ len by omega] at hno
      exact hno (Nat.dvd_add (two_pow_dvd_64 hlen) dvd_rfl)

theorem canonicalize_eq_some_iff (m : DWord) (f : BitmaskFields) :
    canonicalize m = some f ↔ ∃ len s r, IsTile len s r ∧ m = tileMask len s r ∧ f = tileFields len s r := by
  constructor
  · intro h
    obtain ⟨len, s, r, ht, rfl⟩ := tile_of_canonicalize h
    exact ⟨len, s, r, ht, rfl, Option.some.inj (h.symm.trans (canonicalize_tileMask ht))⟩
  · rintro ⟨len, s, r, ht, rfl, rfl⟩
    exact canonicalize_tileMask ht

/-- R135: canonicalization answers the fields that decode to the mask with the rotation below the element size. -/
theorem canonicalize_eq_some_iff_decode (m : DWord) (f : BitmaskFields) :
    canonicalize m = some f ↔ decodeBitMasks f = some m
      ∧ ∃ len, highestSetBit (f.n ++ ~~~ f.imms).toNat 7 = some len ∧ f.immr.toNat < 2 ^ len := by
  rw [canonicalize_eq_some_iff, decodeBitMasks_eq_some_iff]
  constructor
  · rintro ⟨len, s, r, ht, rfl, rfl⟩
    obtain ⟨hbit, hs, hr⟩ := tileFields_read ht
    obtain ⟨h1, _, hlt, hrlt⟩ := ht
    refine ⟨⟨len, hbit, h1, by rwa [hs], ?_⟩, len, hbit, by rwa [hr]⟩
    rw [hs, hr, Nat.mod_eq_of_lt hrlt]
  · rintro ⟨⟨len, hbit, h1, hs, rfl⟩, len', hbit', hr⟩
    obtain rfl : len = len' := Option.some.inj (hbit.symm.trans hbit')
    rw [Nat.mod_eq_of_lt hr]
    exact ⟨len, _, _, ⟨h1, Nat.lt_succ_iff.mp (highestSetBit_lt hbit), hs, hr⟩, rfl, eq_tileFields hbit h1 hs⟩

/-- R135: a mask that some fields decode to has a canonical encoding, by reducing the rotation. -/
theorem canonicalize_isSome_of_decode {m : DWord} {f : BitmaskFields} (h : decodeBitMasks f = some m) :
    (canonicalize m).isSome = true := by
  obtain ⟨len, hbit, h1, hs, rfl⟩ := (decodeBitMasks_eq_some_iff f m).mp h
  rw [canonicalize_tileMask ⟨h1, Nat.lt_succ_iff.mp (highestSetBit_lt hbit), hs, Nat.mod_lt _ (Nat.two_pow_pos len)⟩]
  rfl

/-- R128: a mask of two equal halves is no tile of 64 bits. -/
theorem tileMask_ne_append {s r : Nat} (h : IsTile 6 s r) (imm : BitVec 32) : tileMask 6 s r ≠ imm ++ imm := by
  intro heq
  obtain ⟨_, _, hs, hr⟩ := h
  have hhalf {i : Nat} (hi : i < 32) : (i + r) % 64 ≤ s ↔ (i + 32 + r) % 64 ≤ s := by
    have hlo := getLsbD_tileMask 6 s r (i := i) (by omega)
    have hhi := getLsbD_tileMask 6 s r (i := i + 32) (by omega)
    rw [heq, BitVec.getLsbD_append, if_pos hi] at hlo
    rw [heq, BitVec.getLsbD_append, if_neg (by omega), Nat.add_sub_cancel, hlo] at hhi
    exact decide_eq_decide.mp hhi
  have hfirst := hhalf (i := (64 - r) % 32) (Nat.mod_lt _ (by decide))
  have hlast := hhalf (i := (95 - r) % 32) (Nat.mod_lt _ (by decide))
  omega

/-- Settles O32: both directions through the tile of the mask. -/
theorem canonicalizationInvertsTheDecode : Obligations.CanonicalizationInvertsTheDecode := by
  refine ⟨canonicalize_eq_some_iff_decode, fun m => ⟨fun hnone f hf => ?_, fun hno => ?_⟩, fun imm f hf => ?_⟩
  · have := canonicalize_isSome_of_decode hf
    simp [hnone] at this
  · cases hc : canonicalize m with
    | none => rfl
    | some f => exact absurd ((canonicalize_eq_some_iff_decode m f).mp hc).1 (hno f)
  · obtain ⟨len, s, r, ht, hmask, rfl⟩ := (canonicalize_eq_some_iff _ f).mp hf
    have hlen : len ≤ 6 := ht.2.1
    have hne : len ≠ 6 := by
      rintro rfl
      exact tileMask_ne_append ht imm hmask.symm
    have hlt : 2 ^ len < 2 ^ 6 := Nat.pow_lt_pow_right (by decide) (by omega)
    exact ⟨if_neg (by omega), len, (tileFields_read ht).1, by omega⟩

end Sys2Proof.Proofs
end

section
/-! SUPPORT. The opcode map (R81, R82) and the decoder: which row a word hits, the fields of a word, and the row of a pseudo-op as a base row
with more fixed fields. -/

namespace Sys2Proof.Proofs

open Machine Safety

/-! ### The 256 immediates (R189) -/

theorem compress_imm8ToDouble : ∀ imm8, compress (imm8ToDouble imm8) = (imm8, false) := by decide +kernel

/-- Settles O34: the round trip over the 256 codes, and the membership test of R186. -/
theorem imm8RoundTrips : Obligations.Imm8RoundTrips := by
  refine ⟨compress_imm8ToDouble, fun x => ?_⟩
  rw [← inFp8Set_iff, ← Bool.not_eq_false']
  rfl

/-! ### Rows -/

theorem hits_iff (r : Row) (w : Word) : r.hits w = true ↔ w &&& r.mask = r.mtch := beq_iff_eq

/-- Two rows fix one bit differently. -/
def clash (r q : Row) : Bool := (r.mask &&& q.mask &&& (r.mtch ^^^ q.mtch)) != 0

/-- Every word of `p` is a word of `r`: `p` fixes what `r` fixes. -/
def refines (p r : Row) : Bool := p.mask &&& r.mask == r.mask && p.mtch &&& r.mask == r.mtch

theorem both_masks_agree (w a b : Word) : a &&& b &&& (w &&& a ^^^ w &&& b) = 0#32 := by
  refine BitVec.eq_of_getLsbD_eq fun i _ => ?_
  simp only [BitVec.getLsbD_and, BitVec.getLsbD_xor, BitVec.getLsbD_zero]
  cases w.getLsbD i <;> cases a.getLsbD i <;> cases b.getLsbD i <;> rfl

theorem not_hits_of_clash {r q : Row} {w : Word} (h : clash r q = true) (hr : r.hits w = true) : q.hits w ≠ true := by
  intro hq
  rw [hits_iff] at hr hq
  rw [clash, ← hr, ← hq, both_masks_agree] at h
  cases h

theorem hits_of_refines {p r : Row} {w : Word} (h : refines p r = true) (hp : p.hits w = true) : r.hits w = true := by
  simp only [refines, Bool.and_eq_true, beq_iff_eq] at h
  rw [hits_iff] at hp ⊢
  rw [← h.1, ← BitVec.and_assoc, hp, h.2]

theorem baseRows_clash : baseRows.Pairwise fun r q => clash r q = true := by decide

theorem pseudoRows_clash : pseudoRows.Pairwise fun r q => clash r q = true := by decide

theorem pseudoRows_refine : ∀ p ∈ pseudoRows, ∃ r ∈ baseRows, refines p r = true := by decide

/-- Settles O29: rows of base forms fix some bit differently, and a pseudo-op's row fixes what its base row fixes. -/
theorem baseFormsShareNoWord : Obligations.BaseFormsShareNoWord := by
  refine ⟨baseRows_clash.imp fun h w hw => not_hits_of_clash h hw.1 hw.2, fun p hp => ?_⟩
  obtain ⟨r, hr, href⟩ := pseudoRows_refine p hp
  exact ⟨r, hr, fun w => hits_of_refines href⟩

/-! ### The decoder on a word of a row -/

/-- What the decoder answers from the row it takes. -/
def rowDecodes (r : Row) (w : Word) : Except DecodeError Instr :=
  match r.read w with
  | .ok o => .ok (r.make o)
  | .error e => .error e

theorem rowDecodes_ok {r : Row} {w : Word} {o : Operands} (h : r.read w = .ok o) : rowDecodes r w = .ok (r.make o) := by
  rw [rowDecodes, h]

theorem rowDecodes_eq_ok_iff {r : Row} {w : Word} {i : Instr} : rowDecodes r w = .ok i ↔ ∃ o, r.read w = .ok o ∧ i = r.make o := by
  rw [rowDecodes]
  cases r.read w with
  | ok o => simp [eq_comm]
  | error e => simp

theorem decodeWord_of_find {r : Row} {w : Word} (h : opcodeRows.find? (fun q => q.hits w) = some r) : decodeWord w = rowDecodes r w := by
  rw [decodeWord, h]
  rfl

/-- In a list of rows that clash, the row that hits is the one found. -/
theorem find_hits {l : List Row} (hl : l.Pairwise fun r q => clash r q = true) {r : Row} {w : Word} (hr : r ∈ l) (hw : r.hits w = true) :
    l.find? (fun q => q.hits w) = some r := by
  induction l with
  | nil => cases hr
  | cons q l ih =>
    obtain ⟨hq, hl⟩ := List.pairwise_cons.mp hl
    rcases List.mem_cons.mp hr with rfl | hr
    · exact List.find?_cons_of_pos hw
    · have hno : q.hits w = false := Bool.eq_false_iff.mpr fun h => not_hits_of_clash (hq r hr) h hw
      rw [List.find?_cons, hno]
      exact ih hl hr

theorem decodeWord_pseudo {p : Row} {w : Word} (hp : p ∈ pseudoRows) (hw : p.hits w = true) : decodeWord w = rowDecodes p w := by
  refine decodeWord_of_find ?_
  rw [opcodeRows, List.find?_append, find_hits pseudoRows_clash hp hw]
  rfl

theorem decodeWord_no_pseudo {r : Row} {w : Word} (hr : r ∈ baseRows) (hw : r.hits w = true) (hno : ∀ p ∈ pseudoRows, ¬ p.hits w = true) :
    decodeWord w = rowDecodes r w := by
  refine decodeWord_of_find ?_
  rw [opcodeRows, List.find?_append, List.find?_eq_none.mpr hno, find_hits baseRows_clash hr hw]
  rfl

/-- R82: a word of a base form that no pseudo-op shares. -/
theorem decodeWord_base (n : Nat) {r : Row} (hr : baseRows[n]? = some r) (hno : ∀ p ∈ pseudoRows, clash p r = true) {w : Word}
    (hw : w &&& r.mask = r.mtch) : decodeWord w = rowDecodes r w := by
  rw [← hits_iff] at hw
  exact decodeWord_no_pseudo (List.mem_of_getElem? hr) hw fun p hp h => not_hits_of_clash (hno p hp) h hw

/-- R82: a word of a base form with a pseudo-op, which the decoder names when it hits. -/
theorem decodeWord_base_pseudo (n k : Nat) {r p : Row} (hr : baseRows[n]? = some r) (hp : pseudoRows[k]? = some p)
    (honly : ∀ q ∈ pseudoRows, clash q r = true ∨ q.mask = p.mask ∧ q.mtch = p.mtch) {w : Word} (hw : w &&& r.mask = r.mtch) :
    decodeWord w = if w &&& p.mask = p.mtch then rowDecodes p w else rowDecodes r w := by
  rw [← hits_iff] at hw
  split
  · exact decodeWord_pseudo (List.mem_of_getElem? hp) ((hits_iff _ _).mpr ‹_›)
  · refine decodeWord_no_pseudo (List.mem_of_getElem? hr) hw fun q hq h => ?_
    rcases honly q hq with hc | ⟨hmask, hmtch⟩
    · exact not_hits_of_clash hc h hw
    · rw [hits_iff, hmask, hmtch] at h
      exact ‹¬ _› h

/-- A word that decodes is a word of a base form. -/
theorem base_of_decodes {w : Word} {i : Instr} (h : decodeWord w = .ok i) : ∃ r ∈ baseRows, w &&& r.mask = r.mtch := by
  simp only [← hits_iff]
  cases hfind : opcodeRows.find? fun r => r.hits w with
  | none => rw [decodeWord, hfind] at h; cases h
  | some r =>
    have hw : r.hits w = true := List.find?_some (p := fun q : Row => q.hits w) hfind
    rcases List.mem_append.mp (List.mem_of_find?_eq_some hfind) with hr | hr
    · obtain ⟨q, hq, href⟩ := pseudoRows_refine r hr
      exact ⟨q, hq, hits_of_refines href hw⟩
    · exact ⟨r, hr, hw⟩

/-! ### The fields of a word -/

@[simp] theorem extract_place_same {n lo : Nat} (v : BitVec n) (h : lo + n ≤ 32) : (place lo v).extractLsb' lo n = v := by
  refine BitVec.eq_of_getLsbD_eq fun i hi => ?_
  simp [place, hi, show lo + i < 32 by omega]

@[simp] theorem extract_place_apart {n m lo lo' : Nat} (v : BitVec m) (h : lo' + m ≤ lo ∨ lo + n ≤ lo') : (place lo' v).extractLsb' lo n = 0#n := by
  refine BitVec.eq_of_getLsbD_eq fun i hi => ?_
  simp only [place, BitVec.getLsbD_extractLsb', BitVec.getLsbD_shiftLeft, BitVec.getLsbD_setWidth, BitVec.getLsbD_zero, hi, decide_true,
    Bool.true_and]
  rcases h with h | h
  · rw [BitVec.getLsbD_of_ge v _ (by omega), Bool.and_false, Bool.and_false]
  · rw [decide_eq_true (show lo + i < lo' by omega), Bool.not_true, Bool.and_false, Bool.false_and]

/-- A form's own bits leave its fields empty. -/
theorem extract_fixed {n lo : Nat} {k mask : Word} (hk : k &&& mask = k) (hm : mask.extractLsb' lo n = 0) : k.extractLsb' lo n = 0#n := by
  rw [← hk, BitVec.extractLsb'_and, hm]
  exact BitVec.and_zero

/-- A field's bits in the word. -/
theorem place_extract (w : Word) {lo n : Nat} (h : lo + n ≤ 32) : place lo (w.extractLsb' lo n) = w &&& place lo (BitVec.allOnes n) := by
  refine BitVec.eq_of_getLsbD_eq fun i hi => ?_
  simp only [place, BitVec.getLsbD_and, BitVec.getLsbD_extractLsb', BitVec.getLsbD_shiftLeft, BitVec.getLsbD_setWidth, BitVec.getLsbD_allOnes,
    hi, decide_true, Bool.true_and, show i - lo < 32 by omega]
  by_cases hlo : i < lo
  · simp [hlo]
  · simp [hlo, show lo + (i - lo) = i by omega, Bool.and_comm]

/-- A field outside the mask. -/
@[simp] theorem place_and_mask {n lo : Nat} (v : BitVec n) {mask : Word} (h : mask &&& place lo (BitVec.allOnes n) = 0) (hlo : lo + n ≤ 32) :
    place lo v &&& mask = 0#32 := by
  have hv := place_extract (place lo v) hlo
  rw [extract_place_same v hlo] at hv
  rw [hv, BitVec.and_assoc, BitVec.and_comm _ mask, h]
  exact BitVec.and_zero

theorem opField_eq_of_extract {w : Word} {lo n : Nat} {v : BitVec n} {x : Option Int} (hw : w.extractLsb' lo n = v) (hx : isField x v) :
    opField w lo n = x := by
  rw [opField, field, hw, hx]

theorem opField_eq_fill_of_extract {w : Word} {lo n : Nat} {v : BitVec n} {x : Option Int} {dflt : Int} (hw : w.extractLsb' lo n = v)
    (hx : isFieldOr dflt x v) : opField w lo n = fill x dflt := by
  rw [opField, field, hw, fill, show x.getD dflt = _ from hx]

theorem opField_eq_some_iff {w : Word} {lo n : Nat} {v : BitVec n} : opField w lo n = some (v.toNat : Int) ↔ w.extractLsb' lo n = v := by
  rw [opField, field, Option.some.injEq, Nat.cast_inj, BitVec.toNat_inj]

/-- A row with one more fixed field. -/
theorem masked_field_iff {w m k : Word} {lo n : Nat} {v : BitVec n} (hm : m &&& place lo (BitVec.allOnes n) = 0) (hlo : lo + n ≤ 32)
    (hk : k &&& m = k) :
    w &&& (m ||| place lo (BitVec.allOnes n)) = k ||| place lo v ↔ w &&& m = k ∧ opField w lo n = some (v.toNat : Int) := by
  have hmz : m.extractLsb' lo n = 0 := by
    refine BitVec.eq_of_getLsbD_eq fun i hi => ?_
    have := congrArg (·.getLsbD (lo + i)) hm
    simpa [place, hi, show lo + i < 32 by omega, show i < 32 by omega] using this
  rw [opField_eq_some_iff, BitVec.and_or_distrib_left, ← place_extract w hlo]
  constructor
  · intro h
    constructor
    · have := congrArg (· &&& m) h
      simp only [BitVec.and_or_distrib_right, place_and_mask _ hm hlo, BitVec.or_zero, BitVec.and_assoc, BitVec.and_self, hk] at this
      exact this
    · have := congrArg (·.extractLsb' lo n) h
      simp only [BitVec.extractLsb'_or, BitVec.extractLsb'_and, hmz, extract_fixed hk hmz, extract_place_same _ hlo] at this
      simpa using this
  · rintro ⟨rfl, rfl⟩
    rfl

end Sys2Proof.Proofs
end

section
/-! SUPPORT. Decoding reads the encoding back (R64): the words the encoder makes carry their operands in the fields the decoder reads. -/

namespace Sys2Proof.Proofs

open Machine Safety

/-! ### A format's fields, read from its word -/

/-- R67. -/
theorem extract_addSubImm {k : Word} (hk : k &&& 0x7F800000#32 = k) (sf sh : BitVec 1) (imm12 : BitVec 12) (rn rd : RegField) {w : Word}
    (hw : k ||| place 31 sf ||| (place 22 sh ||| place 10 imm12) ||| place 5 rn ||| place 0 rd = w) :
    w &&& 0x7F800000#32 = k ∧ w.extractLsb' 31 1 = sf ∧ w.extractLsb' 22 1 = sh ∧ w.extractLsb' 10 12 = imm12 ∧ w.extractLsb' 5 5 = rn
      ∧ w.extractLsb' 0 5 = rd := by
  subst hw
  refine ⟨?_, ?_, ?_, ?_, ?_, ?_⟩ <;> simp (disch := decide) [BitVec.and_or_distrib_right, BitVec.extractLsb'_or, hk, extract_fixed hk]

/-- R68, R71. -/
theorem extract_shifted {k : Word} (hk : k &&& 0x7F200000#32 = k) (sf : BitVec 1) (shift : BitVec 2) (amount : BitVec 6)
    (rm rn rd : RegField) {w : Word}
    (hw : k ||| place 31 sf ||| (place 22 shift ||| place 10 amount) ||| place 16 rm ||| place 5 rn ||| place 0 rd = w) :
    w &&& 0x7F200000#32 = k ∧ w.extractLsb' 31 1 = sf ∧ w.extractLsb' 22 2 = shift ∧ w.extractLsb' 10 6 = amount ∧ w.extractLsb' 16 5 = rm
      ∧ w.extractLsb' 5 5 = rn ∧ w.extractLsb' 0 5 = rd := by
  subst hw
  refine ⟨?_, ?_, ?_, ?_, ?_, ?_, ?_⟩ <;> simp (disch := decide) [BitVec.and_or_distrib_right, BitVec.extractLsb'_or, hk, extract_fixed hk]

/-- R69. -/
theorem extract_carry {k : Word} (hk : k &&& 0x7FE0FC00#32 = k) (sf : BitVec 1) (rm rn rd : RegField) {w : Word}
    (hw : k ||| place 31 sf ||| place 16 rm ||| place 5 rn ||| place 0 rd = w) :
    w &&& 0x7FE0FC00#32 = k ∧ w.extractLsb' 31 1 = sf ∧ w.extractLsb' 16 5 = rm ∧ w.extractLsb' 5 5 = rn ∧ w.extractLsb' 0 5 = rd := by
  subst hw
  refine ⟨?_, ?_, ?_, ?_, ?_⟩ <;> simp (disch := decide) [BitVec.and_or_distrib_right, BitVec.extractLsb'_or, hk, extract_fixed hk]

/-- R70. -/
theorem extract_logImm {k : Word} (hk : k &&& 0x7F800000#32 = k) (sf n : BitVec 1) (immr imms : BitVec 6) (rn rd : RegField) {w : Word}
    (hw : k ||| place 31 sf ||| (place 22 n ||| place 16 immr ||| place 10 imms) ||| place 5 rn ||| place 0 rd = w) :
    w &&& 0x7F800000#32 = k ∧ w.extractLsb' 31 1 = sf ∧ w.extractLsb' 22 1 = n ∧ w.extractLsb' 16 6 = immr ∧ w.extractLsb' 10 6 = imms
      ∧ w.extractLsb' 5 5 = rn ∧ w.extractLsb' 0 5 = rd := by
  subst hw
  refine ⟨?_, ?_, ?_, ?_, ?_, ?_, ?_⟩ <;> simp (disch := decide) [BitVec.and_or_distrib_right, BitVec.extractLsb'_or, hk, extract_fixed hk]

/-- R72. -/
theorem extract_moveWide {k : Word} (hk : k &&& 0x7F800000#32 = k) (sf : BitVec 1) (hw2 : BitVec 2) (imm16 : BitVec 16) (rd : RegField)
    {w : Word} (hw : k ||| place 31 sf ||| (place 21 hw2 ||| place 5 imm16) ||| place 0 rd = w) :
    w &&& 0x7F800000#32 = k ∧ w.extractLsb' 31 1 = sf ∧ w.extractLsb' 21 2 = hw2 ∧ w.extractLsb' 5 16 = imm16 ∧ w.extractLsb' 0 5 = rd := by
  subst hw
  refine ⟨?_, ?_, ?_, ?_, ?_⟩ <;> simp (disch := decide) [BitVec.and_or_distrib_right, BitVec.extractLsb'_or, hk, extract_fixed hk]

/-- R73. -/
theorem extract_dp3 {k : Word} (hk : k &&& 0x7FE08000#32 = k) (sf : BitVec 1) (rm ra rn rd : RegField) {w : Word}
    (hw : k ||| place 31 sf ||| place 16 rm ||| place 10 ra ||| place 5 rn ||| place 0 rd = w) :
    w &&& 0x7FE08000#32 = k ∧ w.extractLsb' 31 1 = sf ∧ w.extractLsb' 16 5 = rm ∧ w.extractLsb' 10 5 = ra ∧ w.extractLsb' 5 5 = rn
      ∧ w.extractLsb' 0 5 = rd := by
  subst hw
  refine ⟨?_, ?_, ?_, ?_, ?_, ?_⟩ <;> simp (disch := decide) [BitVec.and_or_distrib_right, BitVec.extractLsb'_or, hk, extract_fixed hk]

/-- R74. -/
theorem extract_b (imm26 : BitVec 26) {w : Word} (hw : 0x14000000#32 ||| place 0 imm26 = w) :
    w &&& 0xFC000000#32 = 0x14000000#32 ∧ w.extractLsb' 0 26 = imm26 := by
  have hk : 0x14000000#32 &&& 0xFC000000#32 = 0x14000000#32 := by decide
  subst hw
  refine ⟨?_, ?_⟩ <;> simp (disch := decide) [BitVec.and_or_distrib_right, BitVec.extractLsb'_or, hk, extract_fixed hk]

/-- R75. -/
theorem extract_bCond (imm19 : BitVec 19) (code : BitVec 4) {w : Word} (hw : 0x54000000#32 ||| place 5 imm19 ||| place 0 code = w) :
    w &&& 0xFF000010#32 = 0x54000000#32 ∧ w.extractLsb' 5 19 = imm19 ∧ w.extractLsb' 0 4 = code := by
  have hk : 0x54000000#32 &&& 0xFF000010#32 = 0x54000000#32 := by decide
  subst hw
  refine ⟨?_, ?_, ?_⟩ <;> simp (disch := decide) [BitVec.and_or_distrib_right, BitVec.extractLsb'_or, hk, extract_fixed hk]

/-- R76. -/
theorem extract_ret (rn : RegField) {w : Word} (hw : 0xD65F0000#32 ||| place 5 rn = w) :
    w &&& 0xFFFFFC1F#32 = 0xD65F0000#32 ∧ w.extractLsb' 5 5 = rn := by
  have hk : 0xD65F0000#32 &&& 0xFFFFFC1F#32 = 0xD65F0000#32 := by decide
  subst hw
  refine ⟨?_, ?_⟩ <;> simp (disch := decide) [BitVec.and_or_distrib_right, BitVec.extractLsb'_or, hk, extract_fixed hk]

/-- R78. -/
theorem extract_fpDp2 {k : Word} (hk : k &&& 0xFF20FC00#32 = k) (ftype : BitVec 2) (rm rn rd : RegField) {w : Word}
    (hw : k ||| place 22 ftype ||| place 16 rm ||| place 5 rn ||| place 0 rd = w) :
    w &&& 0xFF20FC00#32 = k ∧ w.extractLsb' 22 2 = ftype ∧ w.extractLsb' 16 5 = rm ∧ w.extractLsb' 5 5 = rn ∧ w.extractLsb' 0 5 = rd := by
  subst hw
  refine ⟨?_, ?_, ?_, ?_, ?_⟩ <;> simp (disch := decide) [BitVec.and_or_distrib_right, BitVec.extractLsb'_or, hk, extract_fixed hk]

/-- R79. -/
theorem extract_fpDp1 {k : Word} (hk : k &&& 0xFF3FFC00#32 = k) (ftype : BitVec 2) (rn rd : RegField) {w : Word}
    (hw : k ||| place 22 ftype ||| place 5 rn ||| place 0 rd = w) :
    w &&& 0xFF3FFC00#32 = k ∧ w.extractLsb' 22 2 = ftype ∧ w.extractLsb' 5 5 = rn ∧ w.extractLsb' 0 5 = rd := by
  subst hw
  refine ⟨?_, ?_, ?_, ?_⟩ <;> simp (disch := decide) [BitVec.and_or_distrib_right, BitVec.extractLsb'_or, hk, extract_fixed hk]

/-- R80. -/
theorem extract_fpImm (ftype : BitVec 2) (imm8 : BitVec 8) (rd : RegField) {w : Word}
    (hw : 0x1E201000#32 ||| place 22 ftype ||| place 13 imm8 ||| place 0 rd = w) :
    w &&& 0xFF201FE0#32 = 0x1E201000#32 ∧ w.extractLsb' 22 2 = ftype ∧ w.extractLsb' 13 8 = imm8 ∧ w.extractLsb' 0 5 = rd := by
  have hk : 0x1E201000#32 &&& 0xFF201FE0#32 = 0x1E201000#32 := by decide
  subst hw
  refine ⟨?_, ?_, ?_, ?_⟩ <;> simp (disch := decide) [BitVec.and_or_distrib_right, BitVec.extractLsb'_or, hk, extract_fixed hk]

/-! ### The decoder's readings of well-formed operands -/

/-- R67. -/
theorem addSubImm_reads {o : Operands} (h : (legalAddSubImm o && legalReg o.rd && legalReg o.rn) = true) {k w : Word}
    (hk : k &&& 0x7F800000#32 = k) (hw : k ||| putSf o ||| putAddSubImm o ||| putRn o ||| putRd o = w) :
    w &&& 0x7F800000#32 = k ∧ opField w 31 1 = fill o.sf 1 ∧ opField w 22 1 = fill o.sh 0 ∧ opField w 10 12 = o.imm
      ∧ opField w 5 5 = o.rn ∧ opField w 0 5 = o.rd := by
  simp only [Bool.and_eq_true] at h
  obtain ⟨⟨ho, hd⟩, hn⟩ := h
  obtain ⟨sf, sh, imm12, hsf, hsh, himm⟩ := fields_of_legalAddSubImm ho
  obtain ⟨rd, hd⟩ := field_of_legalReg hd
  obtain ⟨rn, hn⟩ := field_of_legalReg hn
  rw [putSf_field hsf, putAddSubImm_field hsh himm, putRn_field hn, putRd_field hd] at hw
  obtain ⟨hhit, esf, esh, eimm, en, ed⟩ := extract_addSubImm hk sf sh imm12 rn rd hw
  exact ⟨hhit, opField_eq_fill_of_extract esf hsf, opField_eq_fill_of_extract esh hsh, opField_eq_of_extract eimm himm,
    opField_eq_of_extract en hn, opField_eq_of_extract ed hd⟩

theorem shiftOfCode_shiftCode (t : ShiftType) : shiftOfCode (shiftCode t) = some t := by cases t <;> rfl

theorem ftypeOfCode_ftypeCode (t : FType) : ftypeOfCode (ftypeCode t) = some t := by cases t <;> rfl

theorem condOfCode_condCode (c : Cond) : condOfCode (condCode c) = some c := by cases c <;> rfl

/-- R105: no arithmetic form names ROR. -/
theorem shiftOf_ne_ror {o : Operands} (h : legalShifted arithShifts o = true) : shiftOf o ≠ .ror := by
  obtain ⟨sf, shift, amount, -, ⟨hname, -⟩, hcode⟩ := fields_of_legalShifted_arith h
  intro hror
  rw [hror] at hcode
  simp only [arithShiftCodes, List.mem_cons, Prod.mk.injEq, List.not_mem_nil, or_false] at hname
  rcases hname with ⟨-, rfl⟩ | ⟨-, rfl⟩ | ⟨-, rfl⟩ <;> cases hcode

/-- R105: an arithmetic form's shift operands are a logical form's. -/
theorem legalShifted_logical {o : Operands} (h : legalShifted arithShifts o = true) : legalShifted logicalShifts o = true := by
  simp only [legalShifted, Bool.and_eq_true] at h ⊢
  obtain ⟨⟨hsf, hshift⟩, hamount⟩ := h
  refine ⟨⟨hsf, ?_⟩, hamount⟩
  unfold legalShift at hshift ⊢
  cases hs : o.shift with
  | none => rfl
  | some n =>
    rw [hs] at hshift
    have hsub : arithShifts ⊆ logicalShifts := by decide
    exact List.contains_iff_mem.mpr (hsub (List.contains_iff_mem.mp hshift))

/-- R68, R71. -/
theorem shifted_reads {o : Operands} (h : (legalShifted logicalShifts o && legalReg o.rd && legalReg o.rn && legalReg o.rm) = true)
    {k w : Word} (hk : k &&& 0x7F200000#32 = k) (hw : k ||| putSf o ||| putShift o ||| putRm o ||| putRn o ||| putRd o = w) :
    w &&& 0x7F200000#32 = k ∧ opField w 31 1 = fill o.sf 1 ∧ field w 22 2 = shiftCode (shiftOf o) ∧ opField w 10 6 = fill o.amount 0
      ∧ ¬ (field w 31 1 = 0 ∧ 32 ≤ field w 10 6) ∧ opField w 16 5 = o.rm ∧ opField w 5 5 = o.rn ∧ opField w 0 5 = o.rd := by
  simp only [Bool.and_eq_true] at h
  obtain ⟨⟨⟨ho, hd⟩, hn⟩, hm⟩ := h
  obtain ⟨sf, shift, amount, hsf, ⟨-, ha, h32⟩, hcode⟩ := fields_of_legalShifted_logical ho
  obtain ⟨rd, hd⟩ := field_of_legalReg hd
  obtain ⟨rn, hn⟩ := field_of_legalReg hn
  obtain ⟨rm, hm⟩ := field_of_legalReg hm
  rw [putSf_field hsf, putShift_field hcode ha, putRm_field hm, putRn_field hn, putRd_field hd] at hw
  obtain ⟨hhit, esf, eshift, eamount, em, en, ed⟩ := extract_shifted hk sf shift amount rm rn rd hw
  refine ⟨hhit, opField_eq_fill_of_extract esf hsf, by rw [field, eshift, hcode], opField_eq_fill_of_extract eamount ha, ?_,
    opField_eq_of_extract em hm, opField_eq_of_extract en hn, opField_eq_of_extract ed hd⟩
  rintro ⟨h0, hge⟩
  rw [field, esf] at h0
  rw [field, eamount] at hge
  exact absurd (h32 (BitVec.eq_of_toNat_eq h0)) (by omega)

/-- R56: the shift operands come back as they were given. -/
theorem readShifted_of_fields {allowRor : Bool} {w : Word} {o o' : Operands} (hror : shiftOf o ≠ .ror ∨ allowRor = true)
    (hsf : opField w 31 1 = fill o.sf 1) (hshift : field w 22 2 = shiftCode (shiftOf o)) (ha : opField w 10 6 = fill o.amount 0)
    (hlim : ¬ (field w 31 1 = 0 ∧ 32 ≤ field w 10 6)) :
    readShifted allowRor w o' = .ok { o' with sf := fill o.sf 1, shift := some (shiftName (shiftOf o)), amount := fill o.amount 0 } := by
  have hno : ¬ (shiftOf o = .ror ∧ allowRor = false) := by
    rintro ⟨h, h'⟩
    rcases hror with hne | htrue
    · exact hne h
    · rw [h'] at htrue
      cases htrue
  simp only [readShifted, hshift, shiftOfCode_shiftCode, if_neg hno, if_neg hlim, hsf, ha]

/-- R69. -/
theorem carry_reads {o : Operands} (h : legalCarry o = true) {k w : Word} (hk : k &&& 0x7FE0FC00#32 = k)
    (hw : k ||| putSf o ||| putRm o ||| putRn o ||| putRd o = w) :
    w &&& 0x7FE0FC00#32 = k ∧ readCarry w = .ok (normRegs o) := by
  obtain ⟨sf, rm, rn, rd, hsf, -, -, hm, hn, hd⟩ := fields_of_legalCarry h
  rw [putSf_field hsf, putRm_field hm, putRn_field hn, putRd_field hd] at hw
  obtain ⟨hhit, esf, em, en, ed⟩ := extract_carry hk sf rm rn rd hw
  refine ⟨hhit, ?_⟩
  rw [readCarry, opField_eq_fill_of_extract esf hsf, opField_eq_of_extract em hm, opField_eq_of_extract en hn, opField_eq_of_extract ed hd]
  rfl

/-- The two halves of a 32-bit immediate's mask. -/
theorem toNat_append_mod (x y : BitVec 32) : (x ++ y).toNat % 2 ^ 32 = y.toNat := by
  rw [BitVec.toNat_append, ← Nat.shiftLeft_add_eq_or_of_lt y.isLt, Nat.shiftLeft_eq, Nat.mul_add_mod_self_right,
    Nat.mod_eq_of_lt y.isLt]

/-- R70: the canonical fields decode to the immediate. -/
theorem logImm_reads {o : Operands} (h : (legalLogImm o && legalReg o.rd && legalReg o.rn) = true)
    (hrep : (canonicalize (maskOfOperands o)).isSome = true) {k w : Word} (hk : k &&& 0x7F800000#32 = k)
    (hw : k ||| putSf o ||| putBitmask o ||| putRn o ||| putRd o = w) :
    w &&& 0x7F800000#32 = k ∧ (∀ o', readBitmask w o' = .ok { o' with sf := fill o.sf 1, imm := o.imm })
      ∧ opField w 5 5 = o.rn ∧ opField w 0 5 = o.rd := by
  simp only [Bool.and_eq_true] at h
  obtain ⟨⟨ho, hd⟩, hn⟩ := h
  obtain ⟨sf, imm, hsf, himm, h32, hmask⟩ := fields_of_legalLogImm ho
  obtain ⟨rd, hd⟩ := field_of_legalReg hd
  obtain ⟨rn, hn⟩ := field_of_legalReg hn
  obtain ⟨f, hf⟩ := Option.isSome_iff_exists.mp hrep
  rw [putSf_field hsf, putBitmask_field hf, putRn_field hn, putRd_field hd] at hw
  obtain ⟨hhit, esf, e1, e2, e3, en, ed⟩ := extract_logImm hk sf f.n f.immr f.imms rn rd hw
  refine ⟨hhit, fun o' => ?_, opField_eq_of_extract en hn, opField_eq_of_extract ed hd⟩
  have hdec := ((canonicalize_eq_some_iff_decode _ f).mp hf).1
  have hzero : sf.toNat = 0 ↔ sf = 0 := by rw [BitVec.toNat_eq]; rfl
  have hno : ¬ (sf.toNat = 0 ∧ f.n.toNat = 1) := by
    rintro ⟨h0, h1⟩
    rw [hmask, if_neg (by rw [hzero.mp h0]; decide)] at hf
    rw [(canonicalizationInvertsTheDecode.2.2 _ f hf).1] at h1
    cases h1
  have hval : (if sf.toNat = 0 then (maskOfOperands o).toNat % 2 ^ 32 else (maskOfOperands o).toNat) = imm.toNat := by
    rw [hmask]
    split
    · rename_i h0
      rw [if_neg (by rw [hzero.mp h0]; decide), toNat_append_mod, BitVec.extractLsb'_toNat, Nat.shiftRight_zero,
        Nat.mod_eq_of_lt (h32 (hzero.mp h0))]
    · rename_i h0
      rw [if_pos (by have := sf.isLt; exact BitVec.eq_of_toNat_eq (show sf.toNat = 1 by omega))]
  simp only [readBitmask, opField_eq_fill_of_extract esf hsf, field, esf, e1, e2, e3, if_neg hno, hdec, hval,
    show o.imm = some (imm.toNat : Int) from himm]

/-- R72. -/
theorem moveWide_reads {o : Operands} (h : legalMoveWide o = true) {k w : Word} (hk : k &&& 0x7F800000#32 = k)
    (hw : k ||| putSf o ||| putMoveWide o ||| putRd o = w) :
    w &&& 0x7F800000#32 = k ∧ readMoveWide w = .ok (normMoveWide o) := by
  obtain ⟨sf, hw2, imm16, rd, hsf, hlane, h32, himm, hd⟩ := fields_of_legalMoveWide h
  rw [putSf_field hsf, putMoveWide_field hlane himm, putRd_field hd] at hw
  obtain ⟨hhit, esf, ehw, eimm, ed⟩ := extract_moveWide hk sf hw2 imm16 rd hw
  have hno : ¬ (field w 31 1 = 0 ∧ 2 ≤ field w 21 2) := by
    rintro ⟨h0, hge⟩
    rw [field, esf] at h0
    rw [field, ehw] at hge
    exact absurd (h32 (BitVec.eq_of_toNat_eq h0)) (by omega)
  refine ⟨hhit, ?_⟩
  rw [readMoveWide, if_neg hno, opField_eq_fill_of_extract esf hsf, opField_eq_of_extract eimm himm, opField_eq_of_extract ed hd, field, ehw,
    ← hlane]
  rfl

/-- R73. -/
theorem dp3_reads {o : Operands} (h : (legalSf o && legalReg o.rd && legalReg o.rn && legalReg o.rm && legalReg o.ra) = true) {k w : Word}
    (hk : k &&& 0x7FE08000#32 = k) (hw : k ||| putSf o ||| putRm o ||| putRa o ||| putRn o ||| putRd o = w) :
    w &&& 0x7FE08000#32 = k ∧ opField w 31 1 = fill o.sf 1 ∧ opField w 16 5 = o.rm ∧ opField w 10 5 = o.ra ∧ opField w 5 5 = o.rn
      ∧ opField w 0 5 = o.rd := by
  simp only [Bool.and_eq_true] at h
  obtain ⟨⟨⟨⟨hsf, hd⟩, hn⟩, hm⟩, ha⟩ := h
  obtain ⟨sf, hsf⟩ := field_of_legalSf hsf
  obtain ⟨rd, hd⟩ := field_of_legalReg hd
  obtain ⟨rn, hn⟩ := field_of_legalReg hn
  obtain ⟨rm, hm⟩ := field_of_legalReg hm
  obtain ⟨ra, ha⟩ := field_of_legalReg ha
  rw [putSf_field hsf, putRm_field hm, putRa_field ha, putRn_field hn, putRd_field hd] at hw
  obtain ⟨hhit, esf, em, ea, en, ed⟩ := extract_dp3 hk sf rm ra rn rd hw
  exact ⟨hhit, opField_eq_fill_of_extract esf hsf, opField_eq_of_extract em hm, opField_eq_of_extract ea ha,
    opField_eq_of_extract en hn, opField_eq_of_extract ed hd⟩

/-- R59: the type comes back as it was given. -/
theorem readFtype_of_code {w : Word} {o : Operands} {ftype : BitVec 2} (hw : w.extractLsb' 22 2 = ftype)
    (hcode : ftype.toNat = ftypeCode (ftypeOf o)) (o' : Operands) :
    readFtype w o' = .ok { o' with ftype := some (ftypeName (ftypeOf o)) } := by
  simp only [readFtype, field, hw, hcode, ftypeOfCode_ftypeCode]

/-- R78. -/
theorem fpDp2_reads {o : Operands} (h : (legalFtype o && legalReg o.rd && legalReg o.rn && legalReg o.rm) = true) {k w : Word}
    (hk : k &&& 0xFF20FC00#32 = k) (hw : k ||| putFtype o ||| putRm o ||| putRn o ||| putRd o = w) :
    w &&& 0xFF20FC00#32 = k ∧ readFpDp2 w = .ok (normFp o) := by
  simp only [Bool.and_eq_true] at h
  obtain ⟨⟨⟨ht, hd⟩, hn⟩, hm⟩ := h
  obtain ⟨ftype, -, hcode⟩ := code_of_legalFtype ht
  obtain ⟨rd, hd⟩ := field_of_legalReg hd
  obtain ⟨rn, hn⟩ := field_of_legalReg hn
  obtain ⟨rm, hm⟩ := field_of_legalReg hm
  rw [putFtype_field hcode, putRm_field hm, putRn_field hn, putRd_field hd] at hw
  obtain ⟨hhit, et, em, en, ed⟩ := extract_fpDp2 hk ftype rm rn rd hw
  refine ⟨hhit, ?_⟩
  rw [readFpDp2, readFtype_of_code et hcode, opField_eq_of_extract em hm, opField_eq_of_extract en hn, opField_eq_of_extract ed hd]
  rfl

/-- R79. -/
theorem fpDp1_reads {o : Operands} (h : (legalFtype o && legalReg o.rd && legalReg o.rn) = true) {k w : Word}
    (hk : k &&& 0xFF3FFC00#32 = k) (hw : k ||| putFtype o ||| putRn o ||| putRd o = w) :
    w &&& 0xFF3FFC00#32 = k ∧ readFpDp1 w = .ok { normFp o with rm := none } := by
  simp only [Bool.and_eq_true] at h
  obtain ⟨⟨ht, hd⟩, hn⟩ := h
  obtain ⟨ftype, -, hcode⟩ := code_of_legalFtype ht
  obtain ⟨rd, hd⟩ := field_of_legalReg hd
  obtain ⟨rn, hn⟩ := field_of_legalReg hn
  rw [putFtype_field hcode, putRn_field hn, putRd_field hd] at hw
  obtain ⟨hhit, et, en, ed⟩ := extract_fpDp1 hk ftype rn rd hw
  refine ⟨hhit, ?_⟩
  rw [readFpDp1, readFtype_of_code et hcode, opField_eq_of_extract en hn, opField_eq_of_extract ed hd]
  rfl

/-- R80. -/
theorem fpImm_reads {o : Operands} (h : (legalFtype o && legalReg o.rd && o.fval.isSome) = true) {w : Word}
    (hw : 0x1E201000#32 ||| putFtype o ||| putImm8 o ||| putRd o = w) :
    w &&& 0xFF201FE0#32 = 0x1E201000#32 ∧ readFpImm w
      = .ok { rd := o.rd, ftype := some (ftypeName (ftypeOf o)), fval := some (imm8ToDouble (compress (o.fval.getD 0)).1) } := by
  simp only [Bool.and_eq_true] at h
  obtain ⟨⟨ht, hd⟩, hx⟩ := h
  obtain ⟨ftype, -, hcode⟩ := code_of_legalFtype ht
  obtain ⟨rd, hd⟩ := field_of_legalReg hd
  obtain ⟨x, hx⟩ := Option.isSome_iff_exists.mp hx
  rw [putFtype_field hcode, putImm8_field hx, putRd_field hd] at hw
  obtain ⟨hhit, et, ei, ed⟩ := extract_fpImm ftype (compress x).1 rd hw
  refine ⟨hhit, ?_⟩
  rw [readFpImm, readFtype_of_code et hcode, opField_eq_of_extract ed hd, ei, hx]
  rfl

/-! ### Decoding a word of a base form (R64, R82) -/

theorem decodeWord_base_ok (n : Nat) {r : Row} (hr : baseRows[n]? = some r) (hno : ∀ q ∈ pseudoRows, clash q r = true) {w : Word} {o : Operands}
    (hw : w &&& r.mask = r.mtch) (hread : r.read w = .ok o) : decodeWord w = .ok (r.make o) :=
  (decodeWord_base n hr hno hw).trans (rowDecodes_ok hread)

theorem decodeWord_pseudo_ok (n j : Nat) {r p : Row} (hr : baseRows[n]? = some r) (hp : pseudoRows[j]? = some p)
    (honly : ∀ q ∈ pseudoRows, clash q r = true ∨ q.mask = p.mask ∧ q.mtch = p.mtch) {w : Word} {o op : Operands}
    (hw : w &&& r.mask = r.mtch) {c : Prop} [Decidable c] (hc : w &&& p.mask = p.mtch ↔ c) (hpread : p.read w = .ok op)
    (hread : r.read w = .ok o) : decodeWord w = .ok (if c then p.make op else r.make o) := by
  rw [decodeWord_base_pseudo n j hr hp honly hw, rowDecodes_ok hpread, rowDecodes_ok hread, ← apply_ite Except.ok]
  simp only [hc]

/-- R113, R114: the flag-setting immediate forms and their compare forms. -/
theorem decode_flagsImm (n j : Nat) {make pmake : Operands → Instr} {k : Word} (hr : baseRows[n]? = some ⟨make, k, 0x7F800000, readAddSubImm⟩)
    (hp : pseudoRows[j]? = some ⟨pmake, k ||| place 0 31#5, 0x7F80001F, readCmpImm⟩) (hk : k &&& 0x7F800000#32 = k)
    (honly : ∀ q ∈ pseudoRows, clash q ⟨make, k, 0x7F800000, readAddSubImm⟩ = true ∨ q.mask = 0x7F80001F ∧ q.mtch = k ||| place 0 31#5)
    {o : Operands} (h : (legalAddSubImm o && legalReg o.rd && legalReg o.rn) = true) :
    decodeWord (k ||| putSf o ||| putAddSubImm o ||| putRn o ||| putRd o)
      = .ok (if o.rd = some 31 then pmake { normAddSubImm o with rd := none } else make (normAddSubImm o)) := by
  obtain ⟨hhit, hsf, hsh, himm, hn, hd⟩ := addSubImm_reads h hk rfl
  generalize k ||| putSf o ||| putAddSubImm o ||| putRn o ||| putRd o = w at hhit hsf hsh himm hn hd
  have hpseudo : w &&& 0x7F80001F#32 = k ||| place 0 31#5 ↔ o.rd = some 31 := by
    rw [show (0x7F80001F#32) = 0x7F800000#32 ||| place 0 (BitVec.allOnes 5) by decide, masked_field_iff (by decide) (by decide) hk, hd]
    exact and_iff_right hhit
  have hcmp : readCmpImm w = .ok { normAddSubImm o with rd := none } := by rw [readCmpImm, hsf, hsh, himm, hn]; rfl
  have hadd : readAddSubImm w = .ok (normAddSubImm o) := by rw [readAddSubImm, hsf, hsh, himm, hn, hd]; rfl
  exact decodeWord_pseudo_ok n j hr hp honly hhit hpseudo hcmp hadd

/-- R115, R116: the flag-setting register forms and their compare forms. -/
theorem decode_flagsReg (n j : Nat) {make pmake : Operands → Instr} {k : Word} (hr : baseRows[n]? = some ⟨make, k, 0x7F200000, readSReg false⟩)
    (hp : pseudoRows[j]? = some ⟨pmake, k ||| place 0 31#5, 0x7F20001F, readCmpReg⟩) (hk : k &&& 0x7F200000#32 = k)
    (honly : ∀ q ∈ pseudoRows, clash q ⟨make, k, 0x7F200000, readSReg false⟩ = true ∨ q.mask = 0x7F20001F ∧ q.mtch = k ||| place 0 31#5)
    {o : Operands} (h : (legalShifted arithShifts o && legalReg o.rd && legalReg o.rn && legalReg o.rm) = true) :
    decodeWord (k ||| putSf o ||| putShift o ||| putRm o ||| putRn o ||| putRd o)
      = .ok (if o.rd = some 31 then pmake { normSReg o with rd := none } else make (normSReg o)) := by
  simp only [Bool.and_eq_true] at h
  obtain ⟨⟨⟨ho, hd⟩, hn⟩, hm⟩ := h
  obtain ⟨hhit, hsf, hshift, ha, hlim, hm, hn, hd⟩ :=
    shifted_reads (by rw [legalShifted_logical ho, hd, hn, hm]; rfl) hk (rfl : k ||| putSf o ||| putShift o ||| putRm o ||| putRn o ||| putRd o = _)
  generalize k ||| putSf o ||| putShift o ||| putRm o ||| putRn o ||| putRd o = w at hhit hsf hshift ha hlim hm hn hd
  have hpseudo : w &&& 0x7F20001F#32 = k ||| place 0 31#5 ↔ o.rd = some 31 := by
    rw [show (0x7F20001F#32) = 0x7F200000#32 ||| place 0 (BitVec.allOnes 5) by decide, masked_field_iff (by decide) (by decide) hk, hd]
    exact and_iff_right hhit
  have hread (o' : Operands) := readShifted_of_fields (allowRor := false) (o' := o') (.inl (shiftOf_ne_ror ho)) hsf hshift ha hlim
  have hcmp : readCmpReg w = .ok { normSReg o with rd := none } := by rw [readCmpReg, hread, hm, hn]; rfl
  have hadd : readSReg false w = .ok (normSReg o) := by rw [readSReg, hread, hm, hn, hd]; rfl
  exact decodeWord_pseudo_ok n j hr hp honly hhit hpseudo hcmp hadd

/-- R105: the register forms that set no flags. -/
theorem decode_arithReg (n : Nat) {make : Operands → Instr} {k : Word} (hr : baseRows[n]? = some ⟨make, k, 0x7F200000, readSReg false⟩)
    (hno : ∀ q ∈ pseudoRows, clash q ⟨make, k, 0x7F200000, readSReg false⟩ = true) (hk : k &&& 0x7F200000#32 = k) {o : Operands}
    (h : (legalShifted arithShifts o && legalReg o.rd && legalReg o.rn && legalReg o.rm) = true) :
    decodeWord (k ||| putSf o ||| putShift o ||| putRm o ||| putRn o ||| putRd o) = .ok (make (normSReg o)) := by
  simp only [Bool.and_eq_true] at h
  obtain ⟨⟨⟨ho, hd⟩, hn⟩, hm⟩ := h
  obtain ⟨hhit, hsf, hshift, ha, hlim, hm, hn, hd⟩ :=
    shifted_reads (by rw [legalShifted_logical ho, hd, hn, hm]; rfl) hk (rfl : k ||| putSf o ||| putShift o ||| putRm o ||| putRn o ||| putRd o = _)
  refine decodeWord_base_ok n hr hno hhit (show readSReg false _ = .ok (normSReg o) from ?_)
  rw [readSReg, readShifted_of_fields (.inl (shiftOf_ne_ror ho)) hsf hshift ha hlim, hm, hn, hd]
  rfl

/-- R124: the logical register forms without a pseudo-op. -/
theorem decode_logReg (n : Nat) {make : Operands → Instr} {k : Word} (hr : baseRows[n]? = some ⟨make, k, 0x7F200000, readSReg true⟩)
    (hno : ∀ q ∈ pseudoRows, clash q ⟨make, k, 0x7F200000, readSReg true⟩ = true) (hk : k &&& 0x7F200000#32 = k) {o : Operands}
    (h : (legalShifted logicalShifts o && legalReg o.rd && legalReg o.rn && legalReg o.rm) = true) :
    decodeWord (k ||| putSf o ||| putShift o ||| putRm o ||| putRn o ||| putRd o) = .ok (make (normSReg o)) := by
  obtain ⟨hhit, hsf, hshift, ha, hlim, hm, hn, hd⟩ := shifted_reads h hk rfl
  refine decodeWord_base_ok n hr hno hhit (show readSReg true _ = .ok (normSReg o) from ?_)
  rw [readSReg, readShifted_of_fields (.inr rfl) hsf hshift ha hlim, hm, hn, hd]
  rfl

theorem shiftCode_eq_zero {t : ShiftType} : shiftCode t = 0 ↔ t = .lsl := by cases t <;> decide

/-- R140: a MOV_reg word is an ORR word with the zero register, LSL and 0. -/
theorem movReg_hits_iff {w : Word} (hhit : w &&& 0x7F200000#32 = 0x2A000000#32) :
    w &&& 0x7FE0FFE0#32 = 0x2A0003E0#32 ↔ field w 22 2 = 0 ∧ opField w 10 6 = some 0 ∧ opField w 5 5 = some 31 := by
  have hshift : field w 22 2 = 0 ↔ opField w 22 2 = some ((0#2).toNat : Int) := by
    rw [opField_eq_some_iff, field, BitVec.toNat_eq]
    rfl
  rw [show (0x7FE0FFE0#32) = 0x7F200000#32 ||| place 22 (BitVec.allOnes 2) ||| place 10 (BitVec.allOnes 6) ||| place 5 (BitVec.allOnes 5) by decide,
    show (0x2A0003E0#32) = 0x2A000000#32 ||| place 22 0#2 ||| place 10 0#6 ||| place 5 31#5 by decide,
    masked_field_iff (by decide) (by decide) (by decide), masked_field_iff (by decide) (by decide) (by decide),
    masked_field_iff (by decide) (by decide) (by decide), and_iff_right hhit, hshift, and_assoc]
  rfl

theorem decode_orrReg {o : Operands} (h : (legalShifted logicalShifts o && legalReg o.rd && legalReg o.rn && legalReg o.rm) = true) :
    decodeWord (0x2A000000#32 ||| putSf o ||| putShift o ||| putRm o ||| putRn o ||| putRd o) = .ok (normalize (.orrReg o)) := by
  obtain ⟨hhit, hsf, hshift, ha, hlim, hm, hn, hd⟩ := shifted_reads h (k := 0x2A000000#32) (by decide) rfl
  generalize 0x2A000000#32 ||| putSf o ||| putShift o ||| putRm o ||| putRn o ||| putRd o = w at hhit hsf hshift ha hlim hm hn hd
  have hpseudo : w &&& 0x7FE0FFE0#32 = 0x2A0003E0#32 ↔ o.rn = some 31 ∧ shiftOf o = .lsl ∧ o.amount.getD 0 = 0 := by
    rw [movReg_hits_iff hhit, hshift, ha, hn, shiftCode_eq_zero, fill, Option.some.injEq]
    tauto
  have hmov : readMovReg w = .ok { rd := o.rd, rm := o.rm, sf := fill o.sf 1 } := by rw [readMovReg, hsf, hm, hd]
  have horr : readSReg true w = .ok (normSReg o) := by
    rw [readSReg, readShifted_of_fields (.inr rfl) hsf hshift ha hlim, hm, hn, hd]
    rfl
  exact decodeWord_pseudo_ok 14 4 rfl rfl (by decide) hhit hpseudo hmov horr

/-- R141: a MOV_sp word is an ADD word with immediate 0 and no shift. -/
theorem movSp_hits_iff {w : Word} (hhit : w &&& 0x7F800000#32 = 0x11000000#32) :
    w &&& 0x7FFFFC00#32 = 0x11000000#32 ↔ opField w 22 1 = some 0 ∧ opField w 10 12 = some 0 := by
  rw [show (0x7FFFFC00#32) = 0x7F800000#32 ||| place 22 (BitVec.allOnes 1) ||| place 10 (BitVec.allOnes 12) by decide]
  conv_lhs => rw [show (0x11000000#32) = 0x11000000#32 ||| place 22 0#1 ||| place 10 0#12 by decide]
  rw [masked_field_iff (by decide) (by decide) (by decide), masked_field_iff (by decide) (by decide) (by decide), and_iff_right hhit]
  rfl

theorem decode_addImm {o : Operands} (h : (legalAddSubImm o && legalReg o.rd && legalReg o.rn) = true) :
    decodeWord (0x11000000#32 ||| putSf o ||| putAddSubImm o ||| putRn o ||| putRd o) = .ok (normalize (.addImm o)) := by
  obtain ⟨hhit, hsf, hsh, himm, hn, hd⟩ := addSubImm_reads h (k := 0x11000000#32) (by decide) rfl
  generalize 0x11000000#32 ||| putSf o ||| putAddSubImm o ||| putRn o ||| putRd o = w at hhit hsf hsh himm hn hd
  have hpseudo : w &&& 0x7FFFFC00#32 = 0x11000000#32 ↔ o.imm = some 0 ∧ o.sh.getD 0 = 0 := by
    rw [movSp_hits_iff hhit, hsh, himm, fill, Option.some.injEq, and_comm]
  have hmov : readMovSp w = .ok { rd := o.rd, rn := o.rn, sf := fill o.sf 1 } := by rw [readMovSp, hsf, hn, hd]
  have hadd : readAddSubImm w = .ok (normAddSubImm o) := by rw [readAddSubImm, hsf, hsh, himm, hn, hd]; rfl
  exact decodeWord_pseudo_ok 0 5 rfl rfl (by decide) hhit hpseudo hmov hadd

theorem decode_subImm {o : Operands} (h : (legalAddSubImm o && legalReg o.rd && legalReg o.rn) = true) :
    decodeWord (0x51000000#32 ||| putSf o ||| putAddSubImm o ||| putRn o ||| putRd o) = .ok (normalize (.subImm o)) := by
  obtain ⟨hhit, hsf, hsh, himm, hn, hd⟩ := addSubImm_reads h (k := 0x51000000#32) (by decide) rfl
  refine decodeWord_base_ok 2 rfl (by decide) hhit (show readAddSubImm _ = .ok (normAddSubImm o) from ?_)
  rw [readAddSubImm, hsf, hsh, himm, hn, hd]
  rfl

theorem decode_carry (n : Nat) {make : Operands → Instr} {k : Word} (hr : baseRows[n]? = some ⟨make, k, 0x7FE0FC00, readCarry⟩)
    (hno : ∀ q ∈ pseudoRows, clash q ⟨make, k, 0x7FE0FC00, readCarry⟩ = true) (hk : k &&& 0x7FE0FC00#32 = k) {o : Operands}
    (h : legalCarry o = true) : decodeWord (k ||| putSf o ||| putRm o ||| putRn o ||| putRd o) = .ok (make (normRegs o)) := by
  obtain ⟨hhit, hread⟩ := carry_reads h hk rfl
  exact decodeWord_base_ok n hr hno hhit hread

theorem decode_logImm (n : Nat) {make : Operands → Instr} {k : Word} (hr : baseRows[n]? = some ⟨make, k, 0x7F800000, readLogImm⟩)
    (hno : ∀ q ∈ pseudoRows, clash q ⟨make, k, 0x7F800000, readLogImm⟩ = true) (hk : k &&& 0x7F800000#32 = k) {o : Operands}
    (h : (legalLogImm o && legalReg o.rd && legalReg o.rn) = true) (hrep : (canonicalize (maskOfOperands o)).isSome = true) :
    decodeWord (k ||| putSf o ||| putBitmask o ||| putRn o ||| putRd o) = .ok (make (normLogImm o)) := by
  obtain ⟨hhit, hread, hn, hd⟩ := logImm_reads h hrep hk rfl
  refine decodeWord_base_ok n hr hno hhit (show readLogImm _ = .ok (normLogImm o) from ?_)
  rw [readLogImm, hread, hn, hd]
  rfl

/-- R142: a MOV_bitmask word is an ORR word with the zero register. -/
theorem decode_orrImm {o : Operands} (h : (legalLogImm o && legalReg o.rd && legalReg o.rn) = true)
    (hrep : (canonicalize (maskOfOperands o)).isSome = true) :
    decodeWord (0x32000000#32 ||| putSf o ||| putBitmask o ||| putRn o ||| putRd o) = .ok (normalize (.orrImm o)) := by
  obtain ⟨hhit, hread, hn, hd⟩ := logImm_reads h hrep (k := 0x32000000#32) (by decide) rfl
  generalize 0x32000000#32 ||| putSf o ||| putBitmask o ||| putRn o ||| putRd o = w at hhit hread hn hd
  have hpseudo : w &&& 0x7F8003E0#32 = 0x320003E0#32 ↔ o.rn = some 31 := by
    rw [show (0x7F8003E0#32) = 0x7F800000#32 ||| place 5 (BitVec.allOnes 5) by decide,
      show (0x320003E0#32) = 0x32000000#32 ||| place 5 31#5 by decide, masked_field_iff (by decide) (by decide) (by decide), hn]
    exact and_iff_right hhit
  have hmov : readMovBitmask w = .ok { normLogImm o with rn := none } := by rw [readMovBitmask, hread, hd]; rfl
  have horr : readLogImm w = .ok (normLogImm o) := by rw [readLogImm, hread, hn, hd]; rfl
  exact decodeWord_pseudo_ok 11 6 rfl rfl (by decide) hhit hpseudo hmov horr

theorem decode_moveWide (n : Nat) {make : Operands → Instr} {k : Word} (hr : baseRows[n]? = some ⟨make, k, 0x7F800000, readMoveWide⟩)
    (hno : ∀ q ∈ pseudoRows, clash q ⟨make, k, 0x7F800000, readMoveWide⟩ = true) (hk : k &&& 0x7F800000#32 = k) {o : Operands}
    (h : legalMoveWide o = true) : decodeWord (k ||| putSf o ||| putMoveWide o ||| putRd o) = .ok (make (normMoveWide o)) := by
  obtain ⟨hhit, hread⟩ := moveWide_reads h hk rfl
  exact decodeWord_base_ok n hr hno hhit hread

/-- R158, R159: the multiply forms and their pseudo-ops with the zero register as addend. -/
theorem decode_dp3 (n j : Nat) {make pmake : Operands → Instr} {k : Word} (hr : baseRows[n]? = some ⟨make, k, 0x7FE08000, readDp3⟩)
    (hp : pseudoRows[j]? = some ⟨pmake, k ||| place 10 31#5, 0x7FE0FC00, readMul⟩) (hk : k &&& 0x7FE08000#32 = k)
    (honly : ∀ q ∈ pseudoRows, clash q ⟨make, k, 0x7FE08000, readDp3⟩ = true ∨ q.mask = 0x7FE0FC00 ∧ q.mtch = k ||| place 10 31#5)
    {o : Operands} (h : (legalSf o && legalReg o.rd && legalReg o.rn && legalReg o.rm && legalReg o.ra) = true) :
    decodeWord (k ||| putSf o ||| putRm o ||| putRa o ||| putRn o ||| putRd o)
      = .ok (if o.ra = some 31 then pmake (normRegs o) else make { normRegs o with ra := o.ra }) := by
  obtain ⟨hhit, hsf, hm, ha, hn, hd⟩ := dp3_reads h hk rfl
  generalize k ||| putSf o ||| putRm o ||| putRa o ||| putRn o ||| putRd o = w at hhit hsf hm ha hn hd
  have hpseudo : w &&& 0x7FE0FC00#32 = k ||| place 10 31#5 ↔ o.ra = some 31 := by
    rw [show (0x7FE0FC00#32) = 0x7FE08000#32 ||| place 10 (BitVec.allOnes 5) by decide, masked_field_iff (by decide) (by decide) hk, ha]
    exact and_iff_right hhit
  have hmul : readMul w = .ok (normRegs o) := by rw [readMul, hsf, hm, hn, hd]; rfl
  have hmadd : readDp3 w = .ok { normRegs o with ra := o.ra } := by rw [readDp3, hsf, hm, ha, hn, hd]; rfl
  exact decodeWord_pseudo_ok n j hr hp honly hhit hpseudo hmul hmadd

theorem decode_b {o : Operands} (h : legalInt (-33554432) 33554431 o.offset = true) :
    decodeWord (0x14000000#32 ||| putOp 0 26 o.offset 0) = .ok (.b { offset := o.offset }) := by
  obtain ⟨imm26, hoff⟩ := offset_of_legalInt (n := 26) (by decide) h
  rw [putOp_offset hoff]
  obtain ⟨hhit, ei⟩ := extract_b imm26 rfl
  refine decodeWord_base_ok 21 rfl (by decide) hhit (show readB _ = .ok { offset := o.offset } from ?_)
  rw [readB, ei, hoff]

/-- R58: a legal name is the name of its condition. -/
theorem cond_of_legalCond {o : Operands} (h : legalCond o = true) : o.cond = some (condName (condOf o)) := by
  unfold legalCond at h
  cases ho : o.cond with
  | none => simp [ho] at h
  | some n =>
    rw [ho] at h
    obtain ⟨c, hc⟩ := Option.isSome_iff_exists.mp ((condOfName_isSome n).trans h)
    have hn : condName c = n := of_decide_eq_true (List.find?_some (p := fun c => decide (condName c = n)) hc)
    rw [condOf_of_cond (c := c) (by rw [ho, hn]), hn]

theorem decode_bCond {o : Operands} (h : (legalCond o && legalInt (-262144) 262143 o.offset) = true) :
    decodeWord (0x54000000#32 ||| putOp 5 19 o.offset 0 ||| put 0 4 (condCode (condOf o)))
      = .ok (.bCond { cond := o.cond, offset := o.offset }) := by
  obtain ⟨hc, hoff⟩ := Bool.and_eq_true_iff.mp h
  obtain ⟨imm19, hoff⟩ := offset_of_legalInt (n := 19) (by decide) hoff
  obtain ⟨name, code, hcond, hname, hcode⟩ := code_of_legalCond hc
  have hback := cond_of_legalCond hc
  rw [putOp_offset hoff, ← hcode, put_toNat]
  obtain ⟨hhit, ei, ec⟩ := extract_bCond imm19 code rfl
  refine decodeWord_base_ok 22 rfl (by decide) hhit (show readBCond _ = .ok { cond := o.cond, offset := o.offset } from ?_)
  simp only [readBCond, field, ec, hcode, condOfCode_condCode, ei, ← hback, ← hoff]

theorem decode_ret {o : Operands} (h : legalIntOpt 0 31 o.rn = true) :
    decodeWord (0xD65F0000#32 ||| putOp 5 5 o.rn 30) = .ok (.ret { rn := fill o.rn 30 }) := by
  obtain ⟨rn, hn⟩ := fieldOr_of_legalIntOpt (n := 5) (dflt := 30) h (by decide)
  have hn : isFieldOr 30 o.rn rn := hn
  rw [putOp_fieldOr hn]
  obtain ⟨hhit, en⟩ := extract_ret rn rfl
  refine decodeWord_base_ok 23 rfl (by decide) hhit (show readRet _ = .ok { rn := fill o.rn 30 } from ?_)
  rw [readRet, opField_eq_fill_of_extract en hn]

theorem decode_fpDp2 (n : Nat) {make : Operands → Instr} {k : Word} (hr : baseRows[n]? = some ⟨make, k, 0xFF20FC00, readFpDp2⟩)
    (hno : ∀ q ∈ pseudoRows, clash q ⟨make, k, 0xFF20FC00, readFpDp2⟩ = true) (hk : k &&& 0xFF20FC00#32 = k) {o : Operands}
    (h : (legalFtype o && legalReg o.rd && legalReg o.rn && legalReg o.rm) = true) :
    decodeWord (k ||| putFtype o ||| putRm o ||| putRn o ||| putRd o) = .ok (make (normFp o)) := by
  obtain ⟨hhit, hread⟩ := fpDp2_reads h hk rfl
  exact decodeWord_base_ok n hr hno hhit hread

theorem decode_fpDp1 (n : Nat) {make : Operands → Instr} {k : Word} (hr : baseRows[n]? = some ⟨make, k, 0xFF3FFC00, readFpDp1⟩)
    (hno : ∀ q ∈ pseudoRows, clash q ⟨make, k, 0xFF3FFC00, readFpDp1⟩ = true) (hk : k &&& 0xFF3FFC00#32 = k) {o : Operands}
    (h : (legalFtype o && legalReg o.rd && legalReg o.rn) = true) :
    decodeWord (k ||| putFtype o ||| putRn o ||| putRd o) = .ok (make { normFp o with rm := none }) := by
  obtain ⟨hhit, hread⟩ := fpDp1_reads h hk rfl
  exact decodeWord_base_ok n hr hno hhit hread

theorem decode_fpImm {o : Operands} (h : (legalFtype o && legalReg o.rd && o.fval.isSome) = true) :
    decodeWord (0x1E201000#32 ||| putFtype o ||| putImm8 o ||| putRd o) = .ok (normalize (.fmovImm o)) := by
  obtain ⟨hhit, hread⟩ := fpImm_reads h rfl
  exact decodeWord_base_ok 29 rfl (by decide) hhit hread

/-! ### Every well-formed instruction -/

/-- R82: a pseudo-op and its base form have one normal form. -/
theorem normalize_baseForm (i : Instr) : normalize (baseForm i) = normalize i := by
  cases i <;> rfl

theorem decode_encode_of_base {i : Instr} (hbase : baseForm i = i) (h : i.wellFormed = true) : decodeWord (encode i) = .ok (normalize i) := by
  obtain ⟨hf, hrep⟩ := Bool.and_eq_true_iff.mp h
  cases i with
  | cmpImm | cmnImm | cmpReg | cmnReg | movReg | movSp | movBitmask | mul | mneg => cases hbase
  | addImm o => exact decode_addImm hf
  | addsImm o => exact decode_flagsImm 1 1 rfl rfl (by decide) (by decide) hf
  | subImm o => exact decode_subImm hf
  | subsImm o => exact decode_flagsImm 3 0 rfl rfl (by decide) (by decide) hf
  | addReg o => exact decode_arithReg 4 rfl (by decide) (by decide) hf
  | addsReg o => exact decode_flagsReg 5 3 rfl rfl (by decide) (by decide) hf
  | subReg o => exact decode_arithReg 6 rfl (by decide) (by decide) hf
  | subsReg o => exact decode_flagsReg 7 2 rfl rfl (by decide) (by decide) hf
  | adc o => exact decode_carry 8 rfl (by decide) (by decide) hf
  | adcs o => exact decode_carry 9 rfl (by decide) (by decide) hf
  | andImm o => exact decode_logImm 10 rfl (by decide) (by decide) hf hrep
  | orrImm o => exact decode_orrImm hf hrep
  | eorImm o => exact decode_logImm 12 rfl (by decide) (by decide) hf hrep
  | andReg o => exact decode_logReg 13 rfl (by decide) (by decide) hf
  | orrReg o => exact decode_orrReg hf
  | eorReg o => exact decode_logReg 15 rfl (by decide) (by decide) hf
  | movz o => exact decode_moveWide 16 rfl (by decide) (by decide) hf
  | movn o => exact decode_moveWide 17 rfl (by decide) (by decide) hf
  | movk o => exact decode_moveWide 18 rfl (by decide) (by decide) hf
  | madd o => exact decode_dp3 19 7 rfl rfl (by decide) (by decide) hf
  | msub o => exact decode_dp3 20 8 rfl rfl (by decide) (by decide) hf
  | b o => exact decode_b hf
  | bCond o => exact decode_bCond hf
  | ret o => exact decode_ret hf
  | nop o => exact decodeWord_base_ok 24 rfl (by decide) (show 0xD503201F#32 &&& 0xFFFFFFFF#32 = 0xD503201F#32 by decide) rfl
  | fadd o => exact decode_fpDp2 25 rfl (by decide) (by decide) hf
  | fmul o => exact decode_fpDp2 26 rfl (by decide) (by decide) hf
  | fneg o => exact decode_fpDp1 27 rfl (by decide) (by decide) hf
  | fmovReg o => exact decode_fpDp1 28 rfl (by decide) (by decide) hf
  | fmovImm o => exact decode_fpImm hf

/-- Settles O27: a pseudo-op's word and normal form are those of its base form. -/
theorem decodingReadsTheEncodingBack : Obligations.DecodingReadsTheEncodingBack := by
  intro i h
  rw [← encode_baseForm, ← normalize_baseForm]
  exact decode_encode_of_base (baseForm_baseForm i) (wellFormed_baseForm h)

end Sys2Proof.Proofs
end

section
/-! SUPPORT. A word that decodes is the encoding of what it decodes to (R81 to R83): the operands the decoder reads are in their domains, in
normal form, and put their fields back. -/

namespace Sys2Proof.Proofs

open Machine Safety

/-! ### Operands read from a word -/

theorem field_lt (w : Word) (lo n : Nat) : field w lo n < 2 ^ n := (w.extractLsb' lo n).isLt

@[simp] theorem legalInt_opField {w : Word} {lo n : Nat} {hi : Int} (h : (2 ^ n : Int) ≤ hi + 1) : legalInt 0 hi (opField w lo n) = true := by
  have hlt : ((field w lo n : Nat) : Int) < 2 ^ n := by exact_mod_cast field_lt w lo n
  exact legalInt_iff.mpr ⟨_, rfl, by omega, by omega⟩

@[simp] theorem legalIntOpt_opField {w : Word} {lo n : Nat} {hi : Int} (h : (2 ^ n : Int) ≤ hi + 1) :
    legalIntOpt 0 hi (opField w lo n) = true := legalInt_opField h

@[simp] theorem legalReg_opField (w : Word) (lo : Nat) : legalReg (opField w lo 5) = true := legalInt_opField (by decide)

theorem isField_opField (w : Word) (lo n : Nat) : isField (opField w lo n) (w.extractLsb' lo n) := rfl

theorem isFieldOr_opField (w : Word) (lo n : Nat) (dflt : Int) : isFieldOr dflt (opField w lo n) (w.extractLsb' lo n) := rfl

/-! ### What is shown of each word -/

/-- The word decodes to a well-formed instruction in normal form, whose encoding it is but for a logical immediate. -/
def Faithful (w : Word) (i : Instr) : Prop :=
  i.wellFormed = true ∧ normalize i = i ∧ ((∃ o, i = .andImm o ∨ i = .orrImm o ∨ i = .eorImm o ∨ i = .movBitmask o) ∨ encode i = w)

theorem faithful_of {w : Word} {i : Instr} (hl : fieldsLegal i = true) (hrep : immRepresentable i = true) (hnorm : normalize i = i)
    (henc : encode i = w) : Faithful w i :=
  ⟨Bool.and_eq_true_iff.mpr ⟨hl, hrep⟩, hnorm, .inr henc⟩

theorem faithful_of_logImm {w : Word} {i : Instr} (hl : fieldsLegal i = true) (hrep : immRepresentable i = true) (hnorm : normalize i = i)
    (hi : ∃ o, i = .andImm o ∨ i = .orrImm o ∨ i = .eorImm o ∨ i = .movBitmask o) : Faithful w i :=
  ⟨Bool.and_eq_true_iff.mpr ⟨hl, hrep⟩, hnorm, .inl hi⟩

theorem faithful_base (n : Nat) {r : Row} (hr : baseRows[n]? = some r) (hno : ∀ q ∈ pseudoRows, clash q r = true) {w : Word} {i : Instr}
    (hw : w &&& r.mask = r.mtch) (hf : ∀ o, r.read w = .ok o → Faithful w (r.make o)) (h : decodeWord w = .ok i) : Faithful w i := by
  rw [decodeWord_base n hr hno hw, rowDecodes_eq_ok_iff] at h
  obtain ⟨o, ho, rfl⟩ := h
  exact hf o ho

theorem faithful_pseudo (n j : Nat) {r p : Row} (hr : baseRows[n]? = some r) (hp : pseudoRows[j]? = some p)
    (honly : ∀ q ∈ pseudoRows, clash q r = true ∨ q.mask = p.mask ∧ q.mtch = p.mtch) {w : Word} {i : Instr}
    (hw : w &&& r.mask = r.mtch) (hpf : w &&& p.mask = p.mtch → ∀ o, p.read w = .ok o → Faithful w (p.make o))
    (hf : ¬ w &&& p.mask = p.mtch → ∀ o, r.read w = .ok o → Faithful w (r.make o)) (h : decodeWord w = .ok i) : Faithful w i := by
  rw [decodeWord_base_pseudo n j hr hp honly hw] at h
  split at h
  · obtain ⟨o, ho, rfl⟩ := rowDecodes_eq_ok_iff.mp h
    exact hpf ‹_› o ho
  · obtain ⟨o, ho, rfl⟩ := rowDecodes_eq_ok_iff.mp h
    exact hf ‹_› o ho

/-! ### Putting the fields back -/

/-- R67. -/
theorem addSubImm_rebuild {w k : Word} {o : Operands} (hw : w &&& 0x7F800000#32 = k) (hsf : o.sf = opField w 31 1)
    (hsh : o.sh = opField w 22 1) (himm : o.imm = opField w 10 12) (hn : o.rn = opField w 5 5) (hd : o.rd = opField w 0 5) :
    k ||| putSf o ||| putAddSubImm o ||| putRn o ||| putRd o = w := by
  rw [putSf_field (hsf ▸ isFieldOr_opField w 31 1 1), putAddSubImm_field (hsh ▸ isFieldOr_opField w 22 1 0) (himm ▸ isField_opField w 10 12),
    putRn_field (hn ▸ isField_opField w 5 5), putRd_field (hd ▸ isField_opField w 0 5)]
  simp (disch := decide) only [← hw, place_extract, ← BitVec.and_or_distrib_left]
  exact BitVec.and_allOnes

/-- R68, R71. -/
theorem shifted_rebuild {w k : Word} {o : Operands} (hw : w &&& 0x7F200000#32 = k) (hsf : o.sf = opField w 31 1)
    (hshift : field w 22 2 = shiftCode (shiftOf o)) (ha : o.amount = opField w 10 6) (hm : o.rm = opField w 16 5)
    (hn : o.rn = opField w 5 5) (hd : o.rd = opField w 0 5) :
    k ||| putSf o ||| putShift o ||| putRm o ||| putRn o ||| putRd o = w := by
  rw [putSf_field (hsf ▸ isFieldOr_opField w 31 1 1), putShift_field hshift (ha ▸ isFieldOr_opField w 10 6 0),
    putRm_field (hm ▸ isField_opField w 16 5), putRn_field (hn ▸ isField_opField w 5 5), putRd_field (hd ▸ isField_opField w 0 5)]
  simp (disch := decide) only [← hw, place_extract, ← BitVec.and_or_distrib_left]
  exact BitVec.and_allOnes

/-- R69. -/
theorem carry_rebuild {w k : Word} {o : Operands} (hw : w &&& 0x7FE0FC00#32 = k) (hsf : o.sf = opField w 31 1) (hm : o.rm = opField w 16 5)
    (hn : o.rn = opField w 5 5) (hd : o.rd = opField w 0 5) : k ||| putSf o ||| putRm o ||| putRn o ||| putRd o = w := by
  rw [putSf_field (hsf ▸ isFieldOr_opField w 31 1 1), putRm_field (hm ▸ isField_opField w 16 5), putRn_field (hn ▸ isField_opField w 5 5),
    putRd_field (hd ▸ isField_opField w 0 5)]
  simp (disch := decide) only [← hw, place_extract, ← BitVec.and_or_distrib_left]
  exact BitVec.and_allOnes

/-- R72. -/
theorem moveWide_rebuild {w k : Word} {o : Operands} (hw : w &&& 0x7F800000#32 = k) (hsf : o.sf = opField w 31 1)
    (hlane : o.hwShift = some (16 * (field w 21 2 : Int))) (himm : o.imm = opField w 5 16) (hd : o.rd = opField w 0 5) :
    k ||| putSf o ||| putMoveWide o ||| putRd o = w := by
  rw [putSf_field (hsf ▸ isFieldOr_opField w 31 1 1),
    putMoveWide_field (hw := w.extractLsb' 21 2) (by rw [hlane]; rfl) (himm ▸ isField_opField w 5 16), putRd_field (hd ▸ isField_opField w 0 5)]
  simp (disch := decide) only [← hw, place_extract, ← BitVec.and_or_distrib_left]
  exact BitVec.and_allOnes

/-- R73. -/
theorem dp3_rebuild {w k : Word} {o : Operands} (hw : w &&& 0x7FE08000#32 = k) (hsf : o.sf = opField w 31 1) (hm : o.rm = opField w 16 5)
    (ha : o.ra = opField w 10 5) (hn : o.rn = opField w 5 5) (hd : o.rd = opField w 0 5) :
    k ||| putSf o ||| putRm o ||| putRa o ||| putRn o ||| putRd o = w := by
  rw [putSf_field (hsf ▸ isFieldOr_opField w 31 1 1), putRm_field (hm ▸ isField_opField w 16 5), putRa_field (ha ▸ isField_opField w 10 5),
    putRn_field (hn ▸ isField_opField w 5 5), putRd_field (hd ▸ isField_opField w 0 5)]
  simp (disch := decide) only [← hw, place_extract, ← BitVec.and_or_distrib_left]
  exact BitVec.and_allOnes

/-- R78. -/
theorem fpDp2_rebuild {w k : Word} {o : Operands} (hw : w &&& 0xFF20FC00#32 = k) (ht : field w 22 2 = ftypeCode (ftypeOf o))
    (hm : o.rm = opField w 16 5) (hn : o.rn = opField w 5 5) (hd : o.rd = opField w 0 5) :
    k ||| putFtype o ||| putRm o ||| putRn o ||| putRd o = w := by
  rw [putFtype_field ht, putRm_field (hm ▸ isField_opField w 16 5), putRn_field (hn ▸ isField_opField w 5 5),
    putRd_field (hd ▸ isField_opField w 0 5)]
  simp (disch := decide) only [← hw, place_extract, ← BitVec.and_or_distrib_left]
  exact BitVec.and_allOnes

/-- R79. -/
theorem fpDp1_rebuild {w k : Word} {o : Operands} (hw : w &&& 0xFF3FFC00#32 = k) (ht : field w 22 2 = ftypeCode (ftypeOf o))
    (hn : o.rn = opField w 5 5) (hd : o.rd = opField w 0 5) : k ||| putFtype o ||| putRn o ||| putRd o = w := by
  rw [putFtype_field ht, putRn_field (hn ▸ isField_opField w 5 5), putRd_field (hd ▸ isField_opField w 0 5)]
  simp (disch := decide) only [← hw, place_extract, ← BitVec.and_or_distrib_left]
  exact BitVec.and_allOnes

/-- R80: the 8 bits are those of their value (R189). -/
theorem fpImm_rebuild {w : Word} {o : Operands} (hw : w &&& 0xFF201FE0#32 = 0x1E201000#32) (ht : field w 22 2 = ftypeCode (ftypeOf o))
    (hx : o.fval = some (imm8ToDouble (w.extractLsb' 13 8))) (hd : o.rd = opField w 0 5) :
    0x1E201000#32 ||| putFtype o ||| putImm8 o ||| putRd o = w := by
  rw [putFtype_field ht, putImm8_field hx, compress_imm8ToDouble, putRd_field (hd ▸ isField_opField w 0 5)]
  simp (disch := decide) only [← hw, place_extract, ← BitVec.and_or_distrib_left]
  exact BitVec.and_allOnes

theorem b_rebuild {w : Word} (hw : w &&& 0xFC000000#32 = 0x14000000#32) :
    0x14000000#32 ||| putOp 0 26 (some (w.extractLsb' 0 26).toInt) 0 = w := by
  rw [putOp_offset rfl]
  simp (disch := decide) only [← hw, place_extract, ← BitVec.and_or_distrib_left]
  exact BitVec.and_allOnes

theorem bCond_rebuild {w : Word} {c : Cond} (hw : w &&& 0xFF000010#32 = 0x54000000#32) (hc : field w 0 4 = condCode c) :
    0x54000000#32 ||| putOp 5 19 (some (w.extractLsb' 5 19).toInt) 0 ||| put 0 4 (condCode c) = w := by
  rw [putOp_offset rfl, ← hc, field, put_toNat]
  simp (disch := decide) only [← hw, place_extract, ← BitVec.and_or_distrib_left]
  exact BitVec.and_allOnes

theorem ret_rebuild {w : Word} (hw : w &&& 0xFFFFFC1F#32 = 0xD65F0000#32) : 0xD65F0000#32 ||| putOp 5 5 (opField w 5 5) 30 = w := by
  rw [putOp_fieldOr (isFieldOr_opField w 5 5 30)]
  simp (disch := decide) only [← hw, place_extract, ← BitVec.and_or_distrib_left]
  exact BitVec.and_allOnes

/-! ### What a conditional reading tells -/

theorem shiftCode_of_shiftOfCode {c : Nat} {t : ShiftType} (h : shiftOfCode c = some t) : c = shiftCode t := by
  have := List.find?_some (p := fun t => decide (shiftCode t = c)) h
  exact (of_decide_eq_true this).symm

theorem ftypeCode_of_ftypeOfCode {c : Nat} {t : FType} (h : ftypeOfCode c = some t) : c = ftypeCode t := by
  have := List.find?_some (p := fun t => decide (ftypeCode t = c)) h
  exact (of_decide_eq_true this).symm

theorem condCode_of_condOfCode {k : Nat} {c : Cond} (h : condOfCode k = some c) : k = condCode c := by
  have := List.find?_some (p := fun c => decide (condCode c = k)) h
  exact (of_decide_eq_true this).symm

/-- R83: what the shift fields of a word that decodes are. -/
theorem readShifted_ok {allowRor : Bool} {w : Word} {o' o : Operands} (h : readShifted allowRor w o' = .ok o) :
    ∃ t, field w 22 2 = shiftCode t ∧ (t = .ror → allowRor = true) ∧ (field w 31 1 = 0 → field w 10 6 < 32)
      ∧ o = { o' with sf := opField w 31 1, shift := some (shiftName t), amount := opField w 10 6 } := by
  unfold readShifted at h
  split at h
  · cases h
  · rename_i t ht
    split at h
    · cases h
    · rename_i hror
      split at h
      · cases h
      · rename_i hlim
        obtain rfl := Except.ok.inj h
        refine ⟨t, shiftCode_of_shiftOfCode ht, fun hr => ?_, fun h0 => ?_, rfl⟩
        · cases allowRor
          · exact absurd ⟨hr, rfl⟩ hror
          · rfl
        · by_contra hge
          exact hlim ⟨h0, Nat.le_of_not_lt hge⟩

theorem readFtype_ok {w : Word} {o' o : Operands} (h : readFtype w o' = .ok o) :
    ∃ t, field w 22 2 = ftypeCode t ∧ o = { o' with ftype := some (ftypeName t) } := by
  unfold readFtype at h
  split at h
  · cases h
  · rename_i t ht
    exact ⟨t, ftypeCode_of_ftypeOfCode ht, (Except.ok.inj h).symm⟩

theorem readBitmask_ok {w : Word} {o' o : Operands} (h : readBitmask w o' = .ok o) :
    ∃ m, ¬ (field w 31 1 = 0 ∧ field w 22 1 = 1)
      ∧ decodeBitMasks { n := w.extractLsb' 22 1, immr := w.extractLsb' 16 6, imms := w.extractLsb' 10 6 } = some m
      ∧ o = { o' with
          sf := opField w 31 1
          imm := some ((if field w 31 1 = 0 then m.toNat % 2 ^ 32 else m.toNat : Nat) : Int) } := by
  unfold readBitmask at h
  split at h
  · cases h
  · rename_i hno
    split at h
    · cases h
    · rename_i m hm
      exact ⟨m, hno, hm, (Except.ok.inj h).symm⟩

theorem readMoveWide_ok {w : Word} {o : Operands} (h : readMoveWide w = .ok o) : (field w 31 1 = 0 → field w 21 2 < 2)
    ∧ o = { sf := opField w 31 1, hwShift := some (16 * (field w 21 2 : Int)), imm := opField w 5 16, rd := opField w 0 5 } := by
  unfold readMoveWide at h
  split at h
  · cases h
  · rename_i hno
    refine ⟨fun h0 => ?_, (Except.ok.inj h).symm⟩
    by_contra hge
    exact hno ⟨h0, Nat.le_of_not_lt hge⟩

theorem readBCond_ok {w : Word} {o : Operands} (h : readBCond w = .ok o) : ∃ c, field w 0 4 = condCode c
    ∧ o = { cond := some (condName c), offset := some (w.extractLsb' 5 19).toInt } := by
  unfold readBCond at h
  split at h
  · cases h
  · rename_i c hc
    exact ⟨c, condCode_of_condOfCode hc, (Except.ok.inj h).symm⟩

/-! ### The operands read are legal -/

theorem is32_opField {w : Word} {o : Operands} (hsf : o.sf = opField w 31 1) : is32 o = true ↔ field w 31 1 = 0 := by
  rw [is32, decide_eq_true_iff, hsf, opField, Option.some.injEq]
  exact Nat.cast_eq_zero

theorem legalSf_read {w : Word} {o : Operands} (hsf : o.sf = opField w 31 1) : legalSf o = true := by
  rw [legalSf, hsf]
  exact legalIntOpt_opField (by decide)

theorem legalAddSubImm_read {w : Word} {o : Operands} (hsf : o.sf = opField w 31 1) (hsh : o.sh = opField w 22 1)
    (himm : o.imm = opField w 10 12) : legalAddSubImm o = true := by
  rw [legalAddSubImm, legalSf_read hsf, hsh, himm, legalIntOpt_opField (by decide), legalInt_opField (by decide)]
  rfl

theorem shiftOf_shiftName {o : Operands} {t : ShiftType} (h : o.shift = some (shiftName t)) : shiftOf o = t :=
  shiftOf_of_getD (by rw [h, Option.getD_some])

/-- R56: the names of a list that holds all but ROR, or ROR too. -/
theorem legalShifted_read {w : Word} {o : Operands} {t : ShiftType} {names : List String} (hname : shiftName t ∈ names)
    (hsf : o.sf = opField w 31 1) (hshift : o.shift = some (shiftName t)) (ha : o.amount = opField w 10 6)
    (hlim : field w 31 1 = 0 → field w 10 6 < 32) : legalShifted names o = true := by
  have hs : legalShift names o = true := by
    rw [legalShift, hshift]
    exact List.contains_iff_mem.mpr hname
  have hamount : legalAmount o = true := by
    have hlt := field_lt w 10 6
    rw [legalAmount, ha]
    refine legalInt_iff.mpr ⟨_, rfl, Int.natCast_nonneg _, ?_⟩
    split
    · rename_i h32
      have := hlim ((is32_opField hsf).mp h32)
      omega
    · omega
  rw [legalShifted, legalSf_read hsf, hs, hamount]
  rfl

theorem shiftName_mem_arith {t : ShiftType} (h : t ≠ .ror) : shiftName t ∈ arithShifts := by
  cases t with
  | lsl | lsr | asr => decide
  | ror => exact absurd rfl h

theorem shiftName_mem_logical (t : ShiftType) : shiftName t ∈ logicalShifts := by cases t <;> decide

theorem legalFtype_read {o : Operands} {t : FType} (h : o.ftype = some (ftypeName t)) : legalFtype o = true := by
  rw [legalFtype, h]
  cases t <;> rfl

theorem ftypeOf_ftypeName {o : Operands} {t : FType} (h : o.ftype = some (ftypeName t)) : ftypeOf o = t := by
  rw [ftypeOf, h]
  cases t <;> rfl

theorem legalCond_read {o : Operands} {c : Cond} (h : o.cond = some (condName c)) : legalCond o = true := by
  rw [legalCond, h]
  cases c <;> rfl

theorem legalMoveWide_read {w : Word} {o : Operands} (hsf : o.sf = opField w 31 1) (hlane : o.hwShift = some (16 * (field w 21 2 : Int)))
    (himm : o.imm = opField w 5 16) (hd : o.rd = opField w 0 5) (hlim : field w 31 1 = 0 → field w 21 2 < 2) : legalMoveWide o = true := by
  have hl : legalLane o = true := by
    have hlt := field_lt w 21 2
    rw [legalLane, hlane]
    simp only [decide_eq_true_eq]
    split
    · rename_i h32
      have := hlim ((is32_opField hsf).mp h32)
      simp only [List.mem_cons, List.not_mem_nil, or_false]
      omega
    · simp only [List.mem_cons, List.not_mem_nil, or_false]
      omega
  rw [legalMoveWide, legalSf_read hsf, hd, legalReg_opField, himm, legalInt_opField (by decide), hl]
  rfl

/-! ### Logical immediates (R57) -/

/-- Without `N` the element is of at most 32 bits, so the mask has two equal halves. -/
theorem halves_of_decode {f : BitmaskFields} {m : DWord} (hn : f.n = 0) (h : decodeBitMasks f = some m) :
    m = m.extractLsb' 0 32 ++ m.extractLsb' 0 32 := by
  obtain ⟨len, hbit, h1, hs, rfl⟩ := (decodeBitMasks_eq_some_iff f m).mp h
  have hlen : len ≤ 5 := by
    have hlt : (f.n ++ ~~~ f.imms).toNat < 2 ^ 6 := by
      rw [hn, BitVec.toNat_append]
      simpa using (~~~ f.imms).isLt
    rw [highestSetBit, if_neg (by simp [Nat.testBit_lt_two_pow hlt])] at hbit
    exact Nat.lt_succ_iff.mp (highestSetBit_lt hbit)
  have hdvd : 2 ^ len ∣ 32 := pow_dvd_pow 2 hlen
  refine BitVec.eq_of_getLsbD_eq fun i hi => ?_
  rw [BitVec.getLsbD_append]
  by_cases hlo : i < 32
  · rw [if_pos hlo, BitVec.getLsbD_extractLsb', decide_eq_true hlo, Bool.true_and, Nat.zero_add]
  · rw [if_neg hlo, BitVec.getLsbD_extractLsb', decide_eq_true (by omega), Bool.true_and, Nat.zero_add, getLsbD_tileMask _ _ _ hi,
      getLsbD_tileMask _ _ _ (by omega)]
    obtain ⟨c, hc⟩ := hdvd
    generalize f.immr.toNat % 2 ^ len = r
    rw [show i + r = i - 32 + r + 2 ^ len * c by omega, Nat.add_mul_mod_self_left]

/-- R83: the immediate the decoder reads is legal, and its mask is the one decoded. -/
theorem logImm_read {w : Word} {o : Operands} {m : DWord} (hno : ¬ (field w 31 1 = 0 ∧ field w 22 1 = 1))
    (hm : decodeBitMasks { n := w.extractLsb' 22 1, immr := w.extractLsb' 16 6, imms := w.extractLsb' 10 6 } = some m)
    (hsf : o.sf = opField w 31 1) (himm : o.imm = some ((if field w 31 1 = 0 then m.toNat % 2 ^ 32 else m.toNat : Nat) : Int)) :
    legalLogImm o = true ∧ (canonicalize (maskOfOperands o)).isSome = true := by
  have h32 := is32_opField hsf
  have hlt := m.isLt
  constructor
  · rw [legalLogImm, legalSf_read hsf, Bool.true_and]
    refine legalInt_iff.mpr ⟨_, himm, by omega, ?_⟩
    by_cases h0 : field w 31 1 = 0
    · rw [if_pos h0, if_pos (h32.mpr h0)]
      have := Nat.mod_lt m.toNat (show 0 < 2 ^ 32 by decide)
      omega
    · rw [if_neg h0, if_neg (mt h32.mp h0)]
      omega
  · suffices hmask : maskOfOperands o = m by rw [hmask]; exact canonicalize_isSome_of_decode hm
    rw [maskOfOperands, immOf, himm, Option.getD_some, Int.toNat_natCast, maskOf]
    by_cases h0 : field w 31 1 = 0
    · rw [if_pos h0, if_pos (h32.mpr h0), if_neg (by decide)]
      have hn : w.extractLsb' 22 1 = 0 := by
        have h1 := field_lt w 22 1
        refine BitVec.eq_of_toNat_eq (show field w 22 1 = 0 from ?_)
        omega
      conv_rhs => rw [halves_of_decode hn hm]
      have hlow : BitVec.ofNat 32 (m.toNat % 2 ^ 32) = m.extractLsb' 0 32 := by
        refine BitVec.eq_of_toNat_eq ?_
        rw [BitVec.toNat_ofNat, Nat.mod_mod, BitVec.extractLsb'_toNat, Nat.shiftRight_zero]
      rw [hlow]
    · rw [if_neg h0, if_neg (mt h32.mp h0), if_pos rfl, BitVec.ofNat_toNat, BitVec.setWidth_eq]

/-! ### Every word of the opcode map -/

theorem and_true_of {a b : Bool} (ha : a = true) (hb : b = true) : (a && b) = true := Bool.and_eq_true_iff.mpr ⟨ha, hb⟩

theorem legalAddSubImm_regs {w : Word} {o : Operands} (hsf : o.sf = opField w 31 1) (hsh : o.sh = opField w 22 1)
    (himm : o.imm = opField w 10 12) (hd : o.rd = opField w 0 5) (hn : o.rn = opField w 5 5) :
    (legalAddSubImm o && legalReg o.rd && legalReg o.rn) = true := by
  rw [legalAddSubImm_read hsf hsh himm, hd, hn, legalReg_opField, legalReg_opField]
  rfl

/-- R67, R82: the row of ADD (immediate), and MOV_sp in it. -/
theorem addImm_faithful {w : Word} {i : Instr} (hw : w &&& 0x7F800000#32 = 0x11000000#32) : decodeWord w = .ok i → Faithful w i := by
  refine faithful_pseudo 0 5 rfl rfl (by decide) hw (fun hp o ho => ?_) fun hp o ho => ?_
  · obtain rfl := Except.ok.inj ho
    obtain ⟨hsh, himm⟩ := (movSp_hits_iff hw).mp hp
    refine faithful_of (and_true_of (and_true_of (legalSf_read rfl) (legalReg_opField w 0)) (legalReg_opField w 5)) rfl rfl ?_
    rw [← encode_baseForm]
    exact addSubImm_rebuild hw rfl hsh.symm himm.symm rfl rfl
  · obtain rfl := Except.ok.inj ho
    refine faithful_of (legalAddSubImm_regs rfl rfl rfl rfl rfl) rfl (if_neg ?_) (addSubImm_rebuild hw rfl rfl rfl rfl rfl)
    exact fun ⟨himm, hsh⟩ => hp ((movSp_hits_iff hw).mpr ⟨congrArg some hsh, himm⟩)

theorem subImm_faithful {w : Word} {i : Instr} (hw : w &&& 0x7F800000#32 = 0x51000000#32) : decodeWord w = .ok i → Faithful w i := by
  refine faithful_base 2 rfl (by decide) hw fun o ho => ?_
  obtain rfl := Except.ok.inj ho
  exact faithful_of (legalAddSubImm_regs rfl rfl rfl rfl rfl) rfl rfl (addSubImm_rebuild hw rfl rfl rfl rfl rfl)

/-- R67, R82: the rows of ADDS and SUBS (immediate), and the compare form in each. -/
theorem flagsImm_faithful (n j : Nat) {make pmake : Operands → Instr} {k : Word}
    (hr : baseRows[n]? = some ⟨make, k, 0x7F800000, readAddSubImm⟩)
    (hp : pseudoRows[j]? = some ⟨pmake, k ||| place 0 31#5, 0x7F80001F, readCmpImm⟩) (hk : k &&& 0x7F800000#32 = k)
    (honly : ∀ q ∈ pseudoRows, clash q ⟨make, k, 0x7F800000, readAddSubImm⟩ = true ∨ q.mask = 0x7F80001F ∧ q.mtch = k ||| place 0 31#5)
    (hform : ∀ o, fieldsLegal (make o) = (legalAddSubImm o && legalReg o.rd && legalReg o.rn) ∧ immRepresentable (make o) = true
      ∧ normalize (make o) = (if o.rd = some 31 then pmake { normAddSubImm o with rd := none } else make (normAddSubImm o))
      ∧ encode (make o) = k ||| putSf o ||| putAddSubImm o ||| putRn o ||| putRd o)
    (hpform : ∀ o, fieldsLegal (pmake o) = (legalAddSubImm o && legalReg o.rn) ∧ immRepresentable (pmake o) = true
      ∧ normalize (pmake o) = pmake { normAddSubImm o with rd := none } ∧ baseForm (pmake o) = make { o with rd := some 31 })
    {w : Word} {i : Instr} (hw : w &&& 0x7F800000#32 = k) : decodeWord w = .ok i → Faithful w i := by
  have hiff : w &&& 0x7F80001F#32 = k ||| place 0 31#5 ↔ opField w 0 5 = some 31 := by
    rw [show (0x7F80001F#32) = 0x7F800000#32 ||| place 0 (BitVec.allOnes 5) by decide, masked_field_iff (by decide) (by decide) hk,
      and_iff_right hw]
    rfl
  refine faithful_pseudo n j hr hp honly hw (fun hp o ho => ?_) fun hp o ho => ?_
  · obtain rfl := Except.ok.inj ho
    obtain ⟨hl, hrep, hnorm, hbase⟩ := hpform { sf := opField w 31 1, sh := opField w 22 1, imm := opField w 10 12, rn := opField w 5 5 }
    refine faithful_of (hl.trans (and_true_of (legalAddSubImm_read rfl rfl rfl) (legalReg_opField w 5))) hrep hnorm ?_
    rw [← encode_baseForm, hbase, (hform _).2.2.2]
    exact addSubImm_rebuild hw rfl rfl rfl rfl (hiff.mp hp).symm
  · obtain rfl := Except.ok.inj ho
    obtain ⟨hl, hrep, hnorm, henc⟩ :=
      hform { sf := opField w 31 1, sh := opField w 22 1, imm := opField w 10 12, rn := opField w 5 5, rd := opField w 0 5 }
    refine faithful_of (hl.trans (legalAddSubImm_regs rfl rfl rfl rfl rfl)) hrep ?_ (henc.trans (addSubImm_rebuild hw rfl rfl rfl rfl rfl))
    rw [hnorm, if_neg (mt hiff.mpr hp)]
    rfl

/-- R68: what the rows of ADDSUB_SREG and LOG_SREG share. -/
theorem readSReg_ok {allowRor : Bool} {w : Word} {o : Operands} (h : readSReg allowRor w = .ok o) :
    ∃ t, (t = .ror → allowRor = true) ∧ field w 22 2 = shiftCode (shiftOf o) ∧ shiftOf o = t ∧ (field w 31 1 = 0 → field w 10 6 < 32)
      ∧ o = { rm := opField w 16 5, rn := opField w 5 5, rd := opField w 0 5, sf := opField w 31 1, shift := some (shiftName t),
              amount := opField w 10 6 } := by
  obtain ⟨t, hcode, hror, hlim, rfl⟩ := readShifted_ok h
  exact ⟨t, hror, by rw [hcode, shiftOf_shiftName rfl], shiftOf_shiftName rfl, hlim, rfl⟩

/-- A record with its shift named is in normal form. -/
theorem normSReg_read {w : Word} {t : ShiftType} {o : Operands} (ht : shiftOf o = t)
    (ho : o = { rm := opField w 16 5, rn := opField w 5 5, rd := opField w 0 5, sf := opField w 31 1, shift := some (shiftName t),
                amount := opField w 10 6 }) : normSReg o = o := by
  rw [normSReg, ht, ho]
  rfl

/-- R68, R71: the rows of the shifted-register forms that no pseudo-op shares. -/
theorem shifted_faithful (n : Nat) {make : Operands → Instr} {k : Word} {allowRor : Bool} {names : List String}
    (hr : baseRows[n]? = some ⟨make, k, 0x7F200000, readSReg allowRor⟩)
    (hno : ∀ q ∈ pseudoRows, clash q ⟨make, k, 0x7F200000, readSReg allowRor⟩ = true)
    (hnames : ∀ t, (t = .ror → allowRor = true) → shiftName t ∈ names)
    (hform : ∀ o, fieldsLegal (make o) = (legalShifted names o && legalReg o.rd && legalReg o.rn && legalReg o.rm)
      ∧ immRepresentable (make o) = true ∧ normalize (make o) = make (normSReg o)
      ∧ encode (make o) = k ||| putSf o ||| putShift o ||| putRm o ||| putRn o ||| putRd o)
    {w : Word} {i : Instr} (hw : w &&& 0x7F200000#32 = k) : decodeWord w = .ok i → Faithful w i := by
  refine faithful_base n hr hno hw fun o ho => ?_
  obtain ⟨t, hror, hcode, ht, hlim, heq⟩ := readSReg_ok ho
  obtain ⟨hl, hrep, hnorm, henc⟩ := hform o
  rw [normSReg_read ht heq] at hnorm
  subst heq
  refine faithful_of (hl.trans ?_) hrep hnorm (henc.trans (shifted_rebuild hw rfl hcode rfl rfl rfl rfl))
  exact and_true_of (and_true_of (and_true_of (legalShifted_read (hnames t hror) rfl rfl rfl hlim) (legalReg_opField w 0))
    (legalReg_opField w 5)) (legalReg_opField w 16)

theorem arith_names {t : ShiftType} (h : t = .ror → false = true) : shiftName t ∈ arithShifts :=
  shiftName_mem_arith fun hr => Bool.false_ne_true (h hr)

/-- R68, R82: the rows of ADDS and SUBS (shifted register), and the compare form in each. -/
theorem flagsReg_faithful (n j : Nat) {make pmake : Operands → Instr} {k : Word}
    (hr : baseRows[n]? = some ⟨make, k, 0x7F200000, readSReg false⟩)
    (hp : pseudoRows[j]? = some ⟨pmake, k ||| place 0 31#5, 0x7F20001F, readCmpReg⟩) (hk : k &&& 0x7F200000#32 = k)
    (honly : ∀ q ∈ pseudoRows, clash q ⟨make, k, 0x7F200000, readSReg false⟩ = true ∨ q.mask = 0x7F20001F ∧ q.mtch = k ||| place 0 31#5)
    (hform : ∀ o, fieldsLegal (make o) = (legalShifted arithShifts o && legalReg o.rd && legalReg o.rn && legalReg o.rm)
      ∧ immRepresentable (make o) = true
      ∧ normalize (make o) = (if o.rd = some 31 then pmake { normSReg o with rd := none } else make (normSReg o))
      ∧ encode (make o) = k ||| putSf o ||| putShift o ||| putRm o ||| putRn o ||| putRd o)
    (hpform : ∀ o, fieldsLegal (pmake o) = (legalShifted arithShifts o && legalReg o.rn && legalReg o.rm)
      ∧ immRepresentable (pmake o) = true ∧ normalize (pmake o) = pmake { normSReg o with rd := none }
      ∧ baseForm (pmake o) = make { o with rd := some 31 })
    {w : Word} {i : Instr} (hw : w &&& 0x7F200000#32 = k) : decodeWord w = .ok i → Faithful w i := by
  have hiff : w &&& 0x7F20001F#32 = k ||| place 0 31#5 ↔ opField w 0 5 = some 31 := by
    rw [show (0x7F20001F#32) = 0x7F200000#32 ||| place 0 (BitVec.allOnes 5) by decide, masked_field_iff (by decide) (by decide) hk,
      and_iff_right hw]
    rfl
  refine faithful_pseudo n j hr hp honly hw (fun hp o ho => ?_) fun hp o ho => ?_
  · obtain ⟨t, hcode, hror, hlim, heq⟩ := readShifted_ok (show readShifted false w _ = .ok o from ho)
    have hshift : o.shift = some (shiftName t) := by rw [heq]
    obtain ⟨hl, hrep, hnorm, hbase⟩ := hpform o
    have hnormal : { normSReg o with rd := none } = o := by
      rw [normSReg, shiftOf_shiftName hshift, heq]
      rfl
    rw [hnormal] at hnorm
    refine faithful_of (hl.trans ?_) hrep hnorm ?_
    · subst heq
      exact and_true_of (and_true_of (legalShifted_read (arith_names hror) rfl rfl rfl hlim) (legalReg_opField w 5)) (legalReg_opField w 16)
    · have hcode' : field w 22 2 = shiftCode (shiftOf { o with rd := some 31 }) :=
        hcode.trans (congrArg shiftCode (shiftOf_shiftName (o := { o with rd := some 31 }) hshift).symm)
      rw [← encode_baseForm, hbase, (hform _).2.2.2]
      subst heq
      exact shifted_rebuild hw rfl hcode' rfl rfl rfl (hiff.mp hp).symm
  · obtain ⟨t, hror, hcode, ht, hlim, heq⟩ := readSReg_ok ho
    obtain ⟨hl, hrep, hnorm, henc⟩ := hform o
    have hd : o.rd ≠ some 31 := by rw [heq]; exact mt hiff.mpr hp
    rw [if_neg hd, normSReg_read ht heq] at hnorm
    subst heq
    refine faithful_of (hl.trans ?_) hrep hnorm (henc.trans (shifted_rebuild hw rfl hcode rfl rfl rfl rfl))
    exact and_true_of (and_true_of (and_true_of (legalShifted_read (arith_names hror) rfl rfl rfl hlim) (legalReg_opField w 0))
      (legalReg_opField w 5)) (legalReg_opField w 16)

/-- R71, R82: the row of ORR (shifted register), and MOV_reg in it. -/
theorem orrReg_faithful {w : Word} {i : Instr} (hw : w &&& 0x7F200000#32 = 0x2A000000#32) : decodeWord w = .ok i → Faithful w i := by
  refine faithful_pseudo 14 4 rfl rfl (by decide) hw (fun hp o ho => ?_) fun hp o ho => ?_
  · obtain rfl := Except.ok.inj ho
    obtain ⟨hshift, hamount, hn⟩ := (movReg_hits_iff hw).mp hp
    refine faithful_of (and_true_of (and_true_of (legalSf_read rfl) (legalReg_opField w 0)) (legalReg_opField w 16)) rfl rfl ?_
    rw [← encode_baseForm]
    exact shifted_rebuild hw rfl (by rw [hshift, shiftOf_shiftName (t := .lsl) rfl]; rfl) hamount.symm rfl hn.symm rfl
  · obtain ⟨t, -, hcode, ht, hlim, heq⟩ := readSReg_ok ho
    have hno : ¬ (o.rn = some 31 ∧ shiftOf o = .lsl ∧ o.amount.getD 0 = 0) := by
      rintro ⟨hn, hlsl, hamount⟩
      refine hp ((movReg_hits_iff hw).mpr ⟨by rw [hcode, hlsl]; rfl, ?_, by rw [← hn, heq]⟩)
      rw [heq] at hamount
      exact congrArg some hamount
    have hnorm : normalize (.orrReg o) = .orrReg o := by rw [normalize, if_neg hno, normSReg_read ht heq]
    subst heq
    refine faithful_of ?_ rfl hnorm (shifted_rebuild hw rfl hcode rfl rfl rfl rfl)
    exact and_true_of (and_true_of (and_true_of (legalShifted_read (shiftName_mem_logical t) rfl rfl rfl hlim) (legalReg_opField w 0))
      (legalReg_opField w 5)) (legalReg_opField w 16)

/-- R69: without the operands the word does not carry. -/
theorem carry_faithful (n : Nat) {make : Operands → Instr} {k : Word} (hr : baseRows[n]? = some ⟨make, k, 0x7FE0FC00, readCarry⟩)
    (hno : ∀ q ∈ pseudoRows, clash q ⟨make, k, 0x7FE0FC00, readCarry⟩ = true)
    (hform : ∀ o, fieldsLegal (make o) = legalCarry o ∧ immRepresentable (make o) = true ∧ normalize (make o) = make (normRegs o)
      ∧ encode (make o) = k ||| putSf o ||| putRm o ||| putRn o ||| putRd o)
    {w : Word} {i : Instr} (hw : w &&& 0x7FE0FC00#32 = k) : decodeWord w = .ok i → Faithful w i := by
  refine faithful_base n hr hno hw fun o ho => ?_
  obtain rfl := Except.ok.inj ho
  obtain ⟨hl, hrep, hnorm, henc⟩ :=
    hform { sf := opField w 31 1, rm := opField w 16 5, rn := opField w 5 5, rd := opField w 0 5 }
  refine faithful_of (hl.trans ?_) hrep hnorm (henc.trans (carry_rebuild hw rfl rfl rfl rfl))
  exact and_true_of (and_true_of (and_true_of (and_true_of (and_true_of (legalSf_read rfl) (legalReg_opField w 0)) (legalReg_opField w 5))
    (legalReg_opField w 16)) rfl) rfl

/-- R70: the rows of AND and EOR (immediate). -/
theorem logImm_faithful (n : Nat) {make : Operands → Instr} {k : Word} (hr : baseRows[n]? = some ⟨make, k, 0x7F800000, readLogImm⟩)
    (hno : ∀ q ∈ pseudoRows, clash q ⟨make, k, 0x7F800000, readLogImm⟩ = true)
    (hform : ∀ o, fieldsLegal (make o) = (legalLogImm o && legalReg o.rd && legalReg o.rn)
      ∧ immRepresentable (make o) = (canonicalize (maskOfOperands o)).isSome ∧ normalize (make o) = make (normLogImm o)
      ∧ ∃ o', make o = .andImm o' ∨ make o = .orrImm o' ∨ make o = .eorImm o' ∨ make o = .movBitmask o')
    {w : Word} {i : Instr} (hw : w &&& 0x7F800000#32 = k) : decodeWord w = .ok i → Faithful w i := by
  refine faithful_base n hr hno hw fun o ho => ?_
  obtain ⟨m, hlim, hm, rfl⟩ := readBitmask_ok (show readBitmask w _ = .ok o from ho)
  obtain ⟨hlegal, hrep⟩ := logImm_read hlim hm
    (o := { rd := opField w 0 5, rn := opField w 5 5, sf := opField w 31 1,
            imm := some ((if field w 31 1 = 0 then m.toNat % 2 ^ 32 else m.toNat : Nat) : Int) }) rfl rfl
  obtain ⟨hl, hrep', hnorm, hi⟩ := hform _
  exact faithful_of_logImm (hl.trans (and_true_of (and_true_of hlegal (legalReg_opField w 0)) (legalReg_opField w 5))) (hrep'.trans hrep)
    hnorm hi

/-- R70, R82: the row of ORR (immediate), and MOV_bitmask in it. -/
theorem orrImm_faithful {w : Word} {i : Instr} (hw : w &&& 0x7F800000#32 = 0x32000000#32) : decodeWord w = .ok i → Faithful w i := by
  have hiff : w &&& 0x7F8003E0#32 = 0x320003E0#32 ↔ opField w 5 5 = some 31 := by
    rw [show (0x7F8003E0#32) = 0x7F800000#32 ||| place 5 (BitVec.allOnes 5) by decide,
      show (0x320003E0#32) = 0x32000000#32 ||| place 5 31#5 by decide, masked_field_iff (by decide) (by decide) (by decide),
      and_iff_right hw]
    rfl
  refine faithful_pseudo 11 6 rfl rfl (by decide) hw (fun hp o ho => ?_) fun hp o ho => ?_
  · obtain ⟨m, hlim, hm, heq⟩ := readBitmask_ok (show readBitmask w _ = .ok o from ho)
    obtain ⟨hlegal, hrep⟩ := logImm_read (o := o) hlim hm (by rw [heq]) (by rw [heq])
    subst heq
    exact faithful_of_logImm (and_true_of hlegal (legalReg_opField w 0)) hrep rfl ⟨_, .inr (.inr (.inr rfl))⟩
  · obtain ⟨m, hlim, hm, heq⟩ := readBitmask_ok (show readBitmask w _ = .ok o from ho)
    obtain ⟨hlegal, hrep⟩ := logImm_read (o := o) hlim hm (by rw [heq]) (by rw [heq])
    subst heq
    exact faithful_of_logImm (and_true_of (and_true_of hlegal (legalReg_opField w 0)) (legalReg_opField w 5)) hrep
      (if_neg (mt hiff.mpr hp)) ⟨_, .inr (.inl rfl)⟩

/-- R72. -/
theorem moveWide_faithful (n : Nat) {make : Operands → Instr} {k : Word} (hr : baseRows[n]? = some ⟨make, k, 0x7F800000, readMoveWide⟩)
    (hno : ∀ q ∈ pseudoRows, clash q ⟨make, k, 0x7F800000, readMoveWide⟩ = true)
    (hform : ∀ o, fieldsLegal (make o) = legalMoveWide o ∧ immRepresentable (make o) = true ∧ normalize (make o) = make (normMoveWide o)
      ∧ encode (make o) = k ||| putSf o ||| putMoveWide o ||| putRd o)
    {w : Word} {i : Instr} (hw : w &&& 0x7F800000#32 = k) : decodeWord w = .ok i → Faithful w i := by
  refine faithful_base n hr hno hw fun o ho => ?_
  obtain ⟨hlim, rfl⟩ := readMoveWide_ok ho
  obtain ⟨hl, hrep, hnorm, henc⟩ :=
    hform { sf := opField w 31 1, hwShift := some (16 * (field w 21 2 : Int)), imm := opField w 5 16, rd := opField w 0 5 }
  exact faithful_of (hl.trans (legalMoveWide_read rfl rfl rfl rfl hlim)) hrep hnorm (henc.trans (moveWide_rebuild hw rfl rfl rfl rfl))

/-- R73, R82: the rows of MADD and MSUB, and the multiply in each. -/
theorem dp3_faithful (n j : Nat) {make pmake : Operands → Instr} {k : Word} (hr : baseRows[n]? = some ⟨make, k, 0x7FE08000, readDp3⟩)
    (hp : pseudoRows[j]? = some ⟨pmake, k ||| place 10 31#5, 0x7FE0FC00, readMul⟩) (hk : k &&& 0x7FE08000#32 = k)
    (honly : ∀ q ∈ pseudoRows, clash q ⟨make, k, 0x7FE08000, readDp3⟩ = true ∨ q.mask = 0x7FE0FC00 ∧ q.mtch = k ||| place 10 31#5)
    (hform : ∀ o, fieldsLegal (make o) = (legalSf o && legalReg o.rd && legalReg o.rn && legalReg o.rm && legalReg o.ra)
      ∧ immRepresentable (make o) = true
      ∧ normalize (make o) = (if o.ra = some 31 then pmake (normRegs o) else make { normRegs o with ra := o.ra })
      ∧ encode (make o) = k ||| putSf o ||| putRm o ||| putRa o ||| putRn o ||| putRd o)
    (hpform : ∀ o, fieldsLegal (pmake o) = (legalSf o && legalReg o.rd && legalReg o.rn && legalReg o.rm)
      ∧ immRepresentable (pmake o) = true ∧ normalize (pmake o) = pmake (normRegs o) ∧ baseForm (pmake o) = make { o with ra := some 31 })
    {w : Word} {i : Instr} (hw : w &&& 0x7FE08000#32 = k) : decodeWord w = .ok i → Faithful w i := by
  have hiff : w &&& 0x7FE0FC00#32 = k ||| place 10 31#5 ↔ opField w 10 5 = some 31 := by
    rw [show (0x7FE0FC00#32) = 0x7FE08000#32 ||| place 10 (BitVec.allOnes 5) by decide, masked_field_iff (by decide) (by decide) hk,
      and_iff_right hw]
    rfl
  have hregs : (legalSf { sf := opField w 31 1, rm := opField w 16 5, rn := opField w 5 5, rd := opField w 0 5 } && legalReg (opField w 0 5)
      && legalReg (opField w 5 5) && legalReg (opField w 16 5)) = true :=
    and_true_of (and_true_of (and_true_of (legalSf_read rfl) (legalReg_opField w 0)) (legalReg_opField w 5)) (legalReg_opField w 16)
  refine faithful_pseudo n j hr hp honly hw (fun hp o ho => ?_) fun hp o ho => ?_
  · obtain rfl := Except.ok.inj ho
    obtain ⟨hl, hrep, hnorm, hbase⟩ :=
      hpform { sf := opField w 31 1, rm := opField w 16 5, rn := opField w 5 5, rd := opField w 0 5 }
    refine faithful_of (hl.trans hregs) hrep hnorm ?_
    rw [← encode_baseForm, hbase, (hform _).2.2.2]
    exact dp3_rebuild hw rfl rfl (hiff.mp hp).symm rfl rfl
  · obtain rfl := Except.ok.inj ho
    obtain ⟨hl, hrep, hnorm, henc⟩ :=
      hform { sf := opField w 31 1, rm := opField w 16 5, ra := opField w 10 5, rn := opField w 5 5, rd := opField w 0 5 }
    rw [if_neg (mt hiff.mpr hp)] at hnorm
    exact faithful_of (hl.trans (and_true_of hregs (legalReg_opField w 10))) hrep hnorm (henc.trans (dp3_rebuild hw rfl rfl rfl rfl rfl))

theorem legalOffset_read {n : Nat} {v : BitVec n} {lo hi : Int} (hlo : lo ≤ -(2 ^ (n - 1))) (hhi : 2 ^ (n - 1) - 1 ≤ hi) :
    legalInt lo hi (some v.toInt) = true :=
  legalInt_iff.mpr ⟨_, rfl, hlo.trans (BitVec.le_toInt v), by have := BitVec.toInt_lt (x := v); omega⟩

theorem b_faithful {w : Word} {i : Instr} (hw : w &&& 0xFC000000#32 = 0x14000000#32) : decodeWord w = .ok i → Faithful w i := by
  refine faithful_base 21 rfl (by decide) hw fun o ho => ?_
  obtain rfl := Except.ok.inj ho
  exact faithful_of (legalOffset_read (by decide) (by decide)) rfl rfl (b_rebuild hw)

theorem bCond_faithful {w : Word} {i : Instr} (hw : w &&& 0xFF000010#32 = 0x54000000#32) : decodeWord w = .ok i → Faithful w i := by
  refine faithful_base 22 rfl (by decide) hw fun o ho => ?_
  obtain ⟨c, hc, rfl⟩ := readBCond_ok ho
  refine faithful_of (and_true_of (legalCond_read rfl) (legalOffset_read (by decide) (by decide))) rfl rfl ?_
  rw [encode, condOf_of_cond rfl]
  exact bCond_rebuild hw hc

theorem ret_faithful {w : Word} {i : Instr} (hw : w &&& 0xFFFFFC1F#32 = 0xD65F0000#32) : decodeWord w = .ok i → Faithful w i := by
  refine faithful_base 23 rfl (by decide) hw fun o ho => ?_
  obtain rfl := Except.ok.inj ho
  exact faithful_of (legalIntOpt_opField (by decide)) rfl rfl (ret_rebuild hw)

theorem nop_faithful {w : Word} {i : Instr} (hw : w &&& 0xFFFFFFFF#32 = 0xD503201F#32) : decodeWord w = .ok i → Faithful w i := by
  refine faithful_base 24 rfl (by decide) hw fun o ho => ?_
  obtain rfl := Except.ok.inj ho
  exact faithful_of rfl rfl rfl (hw.symm.trans BitVec.and_allOnes)

/-- R78. -/
theorem fpDp2_faithful (n : Nat) {make : Operands → Instr} {k : Word} (hr : baseRows[n]? = some ⟨make, k, 0xFF20FC00, readFpDp2⟩)
    (hno : ∀ q ∈ pseudoRows, clash q ⟨make, k, 0xFF20FC00, readFpDp2⟩ = true)
    (hform : ∀ o, fieldsLegal (make o) = (legalFtype o && legalReg o.rd && legalReg o.rn && legalReg o.rm)
      ∧ immRepresentable (make o) = true ∧ normalize (make o) = make (normFp o)
      ∧ encode (make o) = k ||| putFtype o ||| putRm o ||| putRn o ||| putRd o)
    {w : Word} {i : Instr} (hw : w &&& 0xFF20FC00#32 = k) : decodeWord w = .ok i → Faithful w i := by
  refine faithful_base n hr hno hw fun o ho => ?_
  obtain ⟨t, hcode, heq⟩ := readFtype_ok (show readFtype w _ = .ok o from ho)
  obtain ⟨hl, hrep, hnorm, henc⟩ := hform o
  have ht : ftypeOf o = t := ftypeOf_ftypeName (by rw [heq])
  rw [show normFp o = o by rw [normFp, ht, heq]] at hnorm
  rw [← ht] at hcode
  subst heq
  refine faithful_of (hl.trans ?_) hrep hnorm (henc.trans (fpDp2_rebuild hw hcode rfl rfl rfl))
  exact and_true_of (and_true_of (and_true_of (legalFtype_read rfl) (legalReg_opField w 0)) (legalReg_opField w 5)) (legalReg_opField w 16)

/-- R79. -/
theorem fpDp1_faithful (n : Nat) {make : Operands → Instr} {k : Word} (hr : baseRows[n]? = some ⟨make, k, 0xFF3FFC00, readFpDp1⟩)
    (hno : ∀ q ∈ pseudoRows, clash q ⟨make, k, 0xFF3FFC00, readFpDp1⟩ = true)
    (hform : ∀ o, fieldsLegal (make o) = (legalFtype o && legalReg o.rd && legalReg o.rn) ∧ immRepresentable (make o) = true
      ∧ normalize (make o) = make { normFp o with rm := none } ∧ encode (make o) = k ||| putFtype o ||| putRn o ||| putRd o)
    {w : Word} {i : Instr} (hw : w &&& 0xFF3FFC00#32 = k) : decodeWord w = .ok i → Faithful w i := by
  refine faithful_base n hr hno hw fun o ho => ?_
  obtain ⟨t, hcode, heq⟩ := readFtype_ok (show readFtype w _ = .ok o from ho)
  obtain ⟨hl, hrep, hnorm, henc⟩ := hform o
  have ht : ftypeOf o = t := ftypeOf_ftypeName (by rw [heq])
  rw [show { normFp o with rm := none } = o by rw [normFp, ht, heq]] at hnorm
  rw [← ht] at hcode
  subst heq
  refine faithful_of (hl.trans ?_) hrep hnorm (henc.trans (fpDp1_rebuild hw hcode rfl rfl))
  exact and_true_of (and_true_of (legalFtype_read rfl) (legalReg_opField w 0)) (legalReg_opField w 5)

/-- R80. -/
theorem fpImm_faithful {w : Word} {i : Instr} (hw : w &&& 0xFF201FE0#32 = 0x1E201000#32) : decodeWord w = .ok i → Faithful w i := by
  refine faithful_base 29 rfl (by decide) hw fun o ho => ?_
  obtain ⟨t, hcode, heq⟩ := readFtype_ok (show readFtype w _ = .ok o from ho)
  have ht : ftypeOf o = t := ftypeOf_ftypeName (by rw [heq])
  have hx : o.fval = some (imm8ToDouble (w.extractLsb' 13 8)) := by rw [heq]
  have hnorm : normalize (.fmovImm o) = .fmovImm o := by
    rw [normalize, ht, hx, Option.getD_some, compress_imm8ToDouble, heq]
  rw [← ht] at hcode
  subst heq
  exact faithful_of (and_true_of (and_true_of (legalFtype_read rfl) (legalReg_opField w 0)) rfl) rfl hnorm (fpImm_rebuild hw hcode hx rfl)

/-- Settles O28: row by row of the base forms, each with its pseudo-op. -/
theorem decodedWordsAreEncodings : Obligations.DecodedWordsAreEncodings := by
  intro w i h
  obtain ⟨r, hr, hw⟩ := base_of_decodes h
  suffices Faithful w i from this
  revert h
  simp only [baseRows, integerRows, otherRows, List.cons_append, List.nil_append, List.mem_cons, List.not_mem_nil, or_false] at hr
  rcases hr with rfl | rfl | rfl | rfl | rfl | rfl | rfl | rfl | rfl | rfl | rfl | rfl | rfl | rfl | rfl | rfl | rfl | rfl | rfl | rfl | rfl
    | rfl | rfl | rfl | rfl | rfl | rfl | rfl | rfl | rfl
  · exact addImm_faithful hw
  · exact flagsImm_faithful 1 1 rfl rfl (by decide) (by decide) (fun _ => ⟨rfl, rfl, rfl, rfl⟩) (fun _ => ⟨rfl, rfl, rfl, rfl⟩) hw
  · exact subImm_faithful hw
  · exact flagsImm_faithful 3 0 rfl rfl (by decide) (by decide) (fun _ => ⟨rfl, rfl, rfl, rfl⟩) (fun _ => ⟨rfl, rfl, rfl, rfl⟩) hw
  · exact shifted_faithful 4 rfl (by decide) (fun _ => arith_names) (fun _ => ⟨rfl, rfl, rfl, rfl⟩) hw
  · exact flagsReg_faithful 5 3 rfl rfl (by decide) (by decide) (fun _ => ⟨rfl, rfl, rfl, rfl⟩) (fun _ => ⟨rfl, rfl, rfl, rfl⟩) hw
  · exact shifted_faithful 6 rfl (by decide) (fun _ => arith_names) (fun _ => ⟨rfl, rfl, rfl, rfl⟩) hw
  · exact flagsReg_faithful 7 2 rfl rfl (by decide) (by decide) (fun _ => ⟨rfl, rfl, rfl, rfl⟩) (fun _ => ⟨rfl, rfl, rfl, rfl⟩) hw
  · exact carry_faithful 8 rfl (by decide) (fun _ => ⟨rfl, rfl, rfl, rfl⟩) hw
  · exact carry_faithful 9 rfl (by decide) (fun _ => ⟨rfl, rfl, rfl, rfl⟩) hw
  · exact logImm_faithful 10 rfl (by decide) (fun o => ⟨rfl, rfl, rfl, o, .inl rfl⟩) hw
  · exact orrImm_faithful hw
  · exact logImm_faithful 12 rfl (by decide) (fun o => ⟨rfl, rfl, rfl, o, .inr (.inr (.inl rfl))⟩) hw
  · exact shifted_faithful 13 rfl (by decide) (fun t _ => shiftName_mem_logical t) (fun _ => ⟨rfl, rfl, rfl, rfl⟩) hw
  · exact orrReg_faithful hw
  · exact shifted_faithful 15 rfl (by decide) (fun t _ => shiftName_mem_logical t) (fun _ => ⟨rfl, rfl, rfl, rfl⟩) hw
  · exact moveWide_faithful 16 rfl (by decide) (fun _ => ⟨rfl, rfl, rfl, rfl⟩) hw
  · exact moveWide_faithful 17 rfl (by decide) (fun _ => ⟨rfl, rfl, rfl, rfl⟩) hw
  · exact moveWide_faithful 18 rfl (by decide) (fun _ => ⟨rfl, rfl, rfl, rfl⟩) hw
  · exact dp3_faithful 19 7 rfl rfl (by decide) (by decide) (fun _ => ⟨rfl, rfl, rfl, rfl⟩) (fun _ => ⟨rfl, rfl, rfl, rfl⟩) hw
  · exact dp3_faithful 20 8 rfl rfl (by decide) (by decide) (fun _ => ⟨rfl, rfl, rfl, rfl⟩) (fun _ => ⟨rfl, rfl, rfl, rfl⟩) hw
  · exact b_faithful hw
  · exact bCond_faithful hw
  · exact ret_faithful hw
  · exact nop_faithful hw
  · exact fpDp2_faithful 25 rfl (by decide) (fun _ => ⟨rfl, rfl, rfl, rfl⟩) hw
  · exact fpDp2_faithful 26 rfl (by decide) (fun _ => ⟨rfl, rfl, rfl, rfl⟩) hw
  · exact fpDp1_faithful 27 rfl (by decide) (fun _ => ⟨rfl, rfl, rfl, rfl⟩) hw
  · exact fpDp1_faithful 28 rfl (by decide) (fun _ => ⟨rfl, rfl, rfl, rfl⟩) hw
  · exact fpImm_faithful hw

/-- Settles O31: the nine words, evaluated. -/
theorem writtenOutWordsDecode : Obligations.WrittenOutWordsDecode := by
  refine ⟨?_, ?_, ?_, ?_, ?_, ?_, ?_, ?_, ?_⟩ <;> decide +kernel

end Sys2Proof.Proofs
end

section
/-! SUPPORT. One step of the machine (R24, R39): its frame, the requests, the host's actions (R42 to R48, R273) and the target's fetch (R34, R36,
R278, R279). -/

namespace Sys2Proof.Proofs

open Machine Safety

/-! ### The block and the bytes handed over (R14, R44, R200, R271) -/

/-- Settles O17: of the ways a request ends, one appends four bytes and the others none. -/
theorem requestsTouchOnlyTheBlock : Obligations.RequestsTouchOnlyTheBlock := by
  intro i s
  rcases exec_cases i s with ⟨_, h⟩ | ⟨_, e, _, h⟩ | ⟨_, _, w, warn, h⟩
  · exact ⟨s.buf, s.phase, s.err, s.approx, _, h, List.prefix_rfl, .inl rfl⟩
  · exact ⟨s.buf, _, _, s.approx, _, h, List.prefix_rfl, .inl rfl⟩
  · exact ⟨_, s.phase, s.err, _, _, h, List.prefix_append _ _, .inr (by simp)⟩

theorem processInput_params {x : Input} {s t : State} (h : processInput x s = .next t) : t.params = s.params := by
  cases x with
  | host a => exact (hostAct_frame h).2.2.2.2.1
  | encode | finalize | length | reset => exact (processInput_frame (by simp) h).1

/-- Settles O25. -/
theorem parametersAreFixed : Obligations.ParametersAreFixed := by
  intro s t h
  rcases step_cases h with ⟨_, _, _, _, _, rfl⟩ | ⟨_, _, rfl⟩ | ⟨_, x, rest, _, hp⟩
  · rfl
  · rfl
  · exact processInput_params (s := { s with inputs := rest }) hp

theorem exec_handed {i : Instr} {s t : State} (h : exec i s = .next t) : t.handed = s.handed := by
  rcases exec_next h with ⟨_, rfl⟩ | ⟨_, _, _, rfl⟩ | ⟨_, _, _, rfl, _⟩ <;> rfl

/-- Settles O26: FINALIZE of an open session adds the buffer; no other input touches what was handed over. -/
theorem handedBytesAreImmutable : Obligations.HandedBytesAreImmutable := by
  intro s t h
  rcases step_cases h with ⟨_, _, _, _, _, rfl⟩ | ⟨_, _, rfl⟩ | ⟨hr, x, rest, hin, hp⟩
  · exact .inl rfl
  · exact .inl rfl
  · cases x with
    | encode i => exact .inl (exec_handed (s := { s with inputs := rest }) hp)
    | length => cases hp; exact .inl rfl
    | reset => cases hp; exact .inl rfl
    | host a => exact .inl (hostAct_frame hp).2.2.2.2.2.2.2
    | finalize =>
      cases hp
      by_cases hopen : s.phase = .opened
      · exact .inr ⟨rest, ⟨hr, hin⟩, hopen, by rw [doFinalize_opened (s := { s with inputs := rest }) hopen], doFinalize_buf _⟩
      · exact .inl (by rw [doFinalize_closed (s := { s with inputs := rest }) hopen]; rfl)

/-! ### The step of a request, and of a running call -/

/-- Settles O37. -/
theorem stepRunsTheRequestedInstruction : Obligations.StepRunsTheRequestedInstruction := by
  refine ⟨fun s nbits w i h => ?_, fun s i rest h => step_encode h⟩
  exact step_encode (s := s.withFetchWord nbits w) (rest := []) ⟨rfl, by rw [State.withFetchWord, h]; rfl⟩

theorem targetStep_error {s : State} {f : Fault} (h : targetFetch s = .error f) : targetStep s = .fault f := by
  rw [targetStep, h]

theorem step_runs {s : State} {w : Word} {i : Instr} (hr : s.running = true) (hw : targetFetch s = .ok w) (hi : decodeWord w = .ok i)
    (hhalf : s.params.targetHasFp16 = true ∨ isHalf i = false) : step s = .next (targetRun i s) := by
  have hok : (isHalf i && !s.params.targetHasFp16) = false := by rcases hhalf with h | h <;> simp [h]
  simp only [step_running hr, targetStep, hw, hi, hok, Bool.false_eq_true, if_false]

theorem step_half {s : State} {w : Word} {i : Instr} (hr : s.running = true) (hw : targetFetch s = .ok w) (hi : decodeWord w = .ok i)
    (hhalf : isHalf i = true) (hcore : s.params.targetHasFp16 = false) : step s = .fault .undefinedInstruction := by
  have hno : (isHalf i && !s.params.targetHasFp16) = true := by simp [hhalf, hcore]
  simp only [step_running hr, targetStep, hw, hi, hno, if_true]

theorem step_undecodable {s : State} {w : Word} {e : DecodeError} (hr : s.running = true) (hw : targetFetch s = .ok w)
    (he : decodeWord w = .error e) : step s = .fault .undefinedInstruction := by
  simp only [step_running hr, targetStep, hw, he]

/-- Settles O38. -/
theorem stepRunsTheFetchedWord : Obligations.StepRunsTheFetchedWord :=
  fun _ _ _ hr hw hi hhalf => step_runs hr hw hi hhalf

/-! ### The fetch (R34, R36, R278, R279) -/

theorem targetFetch_misaligned {s : State} (h : s.regs.pc.toNat % 4 ≠ 0) : targetFetch s = .error .pcAlignment := by
  simp only [targetFetch, if_pos h]

theorem targetFetch_ready {s : State} {b : Buffer} {w : Word} (h : s.regs.pc.toNat % 4 = 0) (hb : b ∈ s.buffers)
    (hready : readyAt s.regs.pc.toNat b = true) (hw : Memory.fetch s.memory s.regs.pc.toNat = some w) : targetFetch s = .ok w := by
  have hany : s.buffers.any (readyAt s.regs.pc.toNat) = true := List.any_eq_true.mpr ⟨b, hb, hready⟩
  simp only [targetFetch, h, ne_eq, not_true_eq_false, if_false, hany, if_true, hw]

theorem targetFetch_no_word {s : State} {b : Buffer} (h : s.regs.pc.toNat % 4 = 0) (hb : b ∈ s.buffers)
    (hready : readyAt s.regs.pc.toNat b = true) (hw : Memory.fetch s.memory s.regs.pc.toNat = none) :
    targetFetch s = .error .fetchOutsideBuffer := by
  have hany : s.buffers.any (readyAt s.regs.pc.toNat) = true := List.any_eq_true.mpr ⟨b, hb, hready⟩
  simp only [targetFetch, h, ne_eq, not_true_eq_false, if_false, hany, if_true, hw]

theorem targetFetch_not_ready {s : State} (h : s.regs.pc.toNat % 4 = 0) (hno : ∀ b ∈ s.buffers, readyAt s.regs.pc.toNat b = false) :
    targetFetch s = .error (if s.buffers.any (fun b => b.holds s.regs.pc.toNat) then .executeBeforeReady else .fetchOutsideBuffer) := by
  have hany : s.buffers.any (readyAt s.regs.pc.toNat) = false := List.any_eq_false.mpr fun b hb => by simp [hno b hb]
  simp only [targetFetch, h, ne_eq, not_true_eq_false, if_false, hany, Bool.false_eq_true]
  split <;> rfl

/-- A word that runs is a placed buffer's own. -/
theorem holds_of_readyAt {a : Nat} {b : Buffer} (h : readyAt a b = true) : b.holds a = true := by
  unfold readyAt at h
  split at h
  · exact (Bool.and_eq_true_iff.mp h).1
  · cases h
  · cases h

theorem step_misaligned {s : State} (hr : s.running = true) (h : s.regs.pc.toNat % 4 ≠ 0) : step s = .fault .pcAlignment := by
  rw [step_running hr, targetStep_error (targetFetch_misaligned h)]

/-- Settles O39: what the fetch answers in each case, and what the step makes of it. -/
theorem targetStopsWhereNoWordCanRun : Obligations.TargetStopsWhereNoWordCanRun := by
  refine fun s hr => ⟨step_misaligned hr, fun h4 => ⟨fun hno => ?_, fun ⟨b, hb, hin⟩ hno => ?_, fun b hb hready => ?_⟩⟩
  · have hnot : ∀ b ∈ s.buffers, readyAt s.regs.pc.toNat b = false := fun b hb =>
      Bool.eq_false_iff.mpr fun h => Bool.false_ne_true ((hno b hb).symm.trans (holds_of_readyAt h))
    have hany : s.buffers.any (fun b => b.holds s.regs.pc.toNat) = false := List.any_eq_false.mpr fun b hb => by simp [hno b hb]
    rw [step_running hr, targetStep_error (targetFetch_not_ready h4 hnot), hany]
    rfl
  · have hany : s.buffers.any (fun b => b.holds s.regs.pc.toNat) = true := List.any_eq_true.mpr ⟨b, hb, hin⟩
    rw [step_running hr, targetStep_error (targetFetch_not_ready h4 hno), hany]
    rfl
  · refine ⟨fun hnone => ?_, fun w hw => ?_⟩
    · rw [step_running hr, targetStep_error (targetFetch_no_word h4 hb hready hnone)]
    · have hfetch := targetFetch_ready h4 hb hready hw
      exact ⟨fun e he => step_undecodable hr hfetch he, fun i hi hhalf hcore => step_half hr hfetch hi hhalf hcore⟩

/-! ### RET (R223) -/

theorem regField_of_isFieldOr {dflt : Int} {x : Option Int} {v : RegField} (h : isFieldOr dflt x v) : BitVec.ofInt 5 (x.getD dflt) = v := by
  rw [show x.getD dflt = (v.toNat : Int) from h, BitVec.ofInt_natCast, BitVec.ofNat_toNat, BitVec.setWidth_eq]

theorem targetExec_ret {o : Operands} {rn : RegField} (h : isFieldOr 30 o.rn rn) (r : Regs) :
    targetExec (.ret o) r = { r with pc := r.readX rn } := by
  rw [targetExec, regField_of_isFieldOr h]

/-- Settles O51. -/
theorem returnWordsOnTheTarget : Obligations.ReturnWordsOnTheTarget := by
  refine ⟨fun r o rn h => ⟨targetExec_ret h r, ?_⟩, fun s o h hx h4 => ?_, fun s => step_misaligned⟩
  · rintro rfl
    rw [targetExec_ret h]
    rfl
  · have hret : returns (.ret o) s = true := by
      rw [returns, targetExec_ret h, h4]
      simpa [isRet] using hx
    rw [targetRun_running, hret]
    rfl

/-! ### The host's actions (R42 to R48, R273) -/

/-- Settles O41: the count of pages is 2 or the ceiling, and no smaller count covers the buffer. -/
theorem regionContainsTheBuffer : Obligations.RegionContainsTheBuffer := by
  intro p a len hp
  obtain ⟨hle, hcover⟩ := regionOf_contains hp a len
  refine ⟨rfl, _, rfl, Nat.le_max_left _ _, hcover, hle, fun m hm hfit => ?_⟩
  have hmod : a % p ≤ a := Nat.mod_le a p
  refine Nat.max_le.mpr ⟨hm, Nat.lt_succ_iff.mp ((Nat.div_lt_iff_lt_mul hp).mpr ?_)⟩
  have hstart : (regionOf p a len).start = a - a % p := rfl
  rw [hstart] at hfit
  rw [Nat.succ_mul]
  omega

theorem hostLoad_eq {n : Nat} {a : DWord} {s : State} {bytes : List Byte} (hb : s.handed[n]? = some bytes) (hp : s.platformError = false)
    (hfit : a.toNat + bytes.length ≤ 2 ^ 64) :
    hostLoad n a s =
      if alreadyExecutable s.buffers n then .refused .hostOrder
      else if s.buffers.any (rewritesRegion a.toNat bytes.length) then .fault .regionRewritten
      else
        .next { s with
          buffers :=
            { source := n, base := a, len := bytes.length, stage := .placed } :: s.buffers.filter (survives n a.toNat bytes.length)
          memory := Memory.writeBytes s.memory a.toNat bytes } := by
  simp only [hostLoad, hb, hp, Bool.false_eq_true, if_false, if_neg (Nat.not_lt.mpr hfit)]

/-- Another buffer stays placed exactly where none of its bytes is written. -/
theorem survives_iff {n a len : Nat} {b : Buffer} : survives n a len b = true ↔ b.source ≠ n
    ∧ ¬ ∃ k, a ≤ k ∧ k < a + len ∧ b.base.toNat ≤ k ∧ k < b.base.toNat + b.len := by
  rw [survives, Bool.and_eq_true, decide_eq_true_iff, Bool.not_eq_true', ← Bool.not_eq_true, overlaps_iff]

/-- Settles O40: the branches of the load, and what its writes and its filter leave. -/
theorem loadPlacesTheBytes : Obligations.LoadPlacesTheBytes := by
  intro s n a bytes rest hi hb hp hfit
  have hload := hostLoad_eq (s := { s with inputs := rest }) hb hp hfit
  have hstep : step s = hostLoad n a { s with inputs := rest } := step_of_issues hi
  rw [hload] at hstep
  refine ⟨fun hex => ?_, fun hex hno => ?_, fun hex ⟨b, hmem, hrw⟩ => ?_, fun hnil b _ => ?_⟩
  · rw [hstep, if_pos hex]
  · have hany : s.buffers.any (rewritesRegion a.toNat bytes.length) = false := List.any_eq_false.mpr fun b hb => by simp [hno b hb]
    rw [if_neg (by simp [hex]), if_neg (by simp [hany])] at hstep
    refine ⟨_, hstep, fun k hk => read_writeBytes_inside bytes s.memory a.toNat k hk,
      fun k hk => read_writeBytes_outside bytes s.memory a.toNat k hk, ?_, fun b hne => ?_, rfl⟩
    · simp [findBuffer]
    · simp only [List.mem_cons, List.mem_filter, survives_iff]
      constructor
      · rintro (rfl | ⟨hmem, -, hdis⟩)
        · exact absurd rfl hne
        · exact ⟨hmem, hdis⟩
      · rintro ⟨hmem, hdis⟩
        exact .inr ⟨hmem, hne, hdis⟩
  · have hany : s.buffers.any (rewritesRegion a.toNat bytes.length) = true := List.any_eq_true.mpr ⟨b, hmem, hrw⟩
    rw [hstep, if_neg (by simp [hex]), if_pos hany]
  · subst hnil
    unfold rewritesRegion
    split
    · rfl
    · exact overlaps_empty _ _ _

/-- After PlatformError every action of the host is refused. -/
theorem hostAct_after_platformError {s : State} (h : s.platformError = true) (x : HostAction) :
    hostAct x s = .refused .hostOrder ∨ hostAct x s = .refused .platformErrorFatal := by
  cases x with
  | load n a =>
    cases hb : s.handed[n]? with
    | none => exact .inl (by simp only [hostAct, hostLoad, hb])
    | some bytes => exact .inr (by simp only [hostAct, hostLoad, hb, h, if_true])
  | permission n g => exact .inr (by simp only [hostAct, hostPermission, h, if_true])
  | maintainFetch n => exact .inr (by simp only [hostAct, hostMaintainFetch, h, if_true])
  | call n arg ra regs => exact .inr (by simp only [hostAct, hostCall, h, if_true])

/-- A stage change is found for its source and for no other. -/
theorem findBuffer_setStage_same {bs : List Buffer} {n : Nat} {b : Buffer} (h : findBuffer bs n = some b) (st : Stage) :
    findBuffer (setStage bs n st) n = some { b with stage := st } := by
  rw [findBuffer_setStage, h, Option.map_some, if_pos (findBuffer_some h).2]

theorem findBuffer_setStage_ne {bs : List Buffer} {n c : Nat} (hc : c ≠ n) (st : Stage) :
    findBuffer (setStage bs n st) c = findBuffer bs c := by
  rw [findBuffer_setStage]
  cases h : findBuffer bs c with
  | none => rfl
  | some b => rw [Option.map_some, if_neg fun hb => hc ((findBuffer_some h).2.symm.trans hb)]

/-- Settles O42: the branches of the permission request and of fetch maintenance. -/
theorem permissionIsGrantedOnce : Obligations.PermissionIsGrantedOnce := by
  intro s n b rest hp hb
  refine ⟨fun hi hs => ?_, fun hi hs => ?_, fun g r hi hs => ?_, fun r hi hs => ?_⟩ <;> have hstep := step_of_issues hi
  · simp only [processInput, hostAct, hostPermission, hp, hb, hs, Bool.false_eq_true, if_false, if_true] at hstep
    exact ⟨_, hstep, findBuffer_setStage_same hb _, fun c hc => findBuffer_setStage_ne hc _, by rw [hp]⟩
  · simp only [processInput, hostAct, hostPermission, hp, hb, hs, Bool.false_eq_true, if_false] at hstep
    exact ⟨_, hstep, rfl, hostAct_after_platformError rfl⟩
  · rcases hs with hs | hs <;> simpa only [processInput, hostAct, hostPermission, hp, hb, hs, Bool.false_eq_true, if_false] using hstep
  · simp only [processInput, hostAct, hostMaintainFetch, hp, hb, hs, Bool.false_eq_true, if_false] at hstep
    exact ⟨_, hstep, findBuffer_setStage_same hb _, fun c hc => findBuffer_setStage_ne hc _, by rw [hp]⟩

/-! ### The call (R48, R272) -/

/-- The argument in its register, every other register the host's (R48). -/
def withArg (arg : CallArg) (regs : Regs) : Regs :=
  match arg with
  | .int v => regs.writeX 0 v
  | .fp v => regs.writeV 0 ((regs.readV 0).extractLsb' 64 64 ++ v)

theorem entryRegs_eq (arg : CallArg) (ra entry : DWord) (regs : Regs) :
    entryRegs arg ra entry regs = { (withArg arg regs).writeX 30 ra with pc := entry } := by
  cases arg <;> rfl

theorem readX_entryRegs (arg : CallArg) (ra entry : DWord) (regs : Regs) (i : RegField) :
    (entryRegs arg ra entry regs).readX i = ((withArg arg regs).writeX 30 ra).readX i := by
  rw [entryRegs_eq]
  rfl

theorem v_entryRegs (arg : CallArg) (ra entry : DWord) (regs : Regs) : (entryRegs arg ra entry regs).v = (withArg arg regs).v := by
  rw [entryRegs_eq]
  exact writeX_v _ _ _

theorem readV_entryRegs (arg : CallArg) (ra entry : DWord) (regs : Regs) (i : RegField) :
    (entryRegs arg ra entry regs).readV i = (withArg arg regs).readV i := by
  simp only [Regs.readV, v_entryRegs]

theorem readX_withArg {arg : CallArg} {regs : Regs} {i : RegField} (h : i ≠ 0) : (withArg arg regs).readX i = regs.readX i := by
  cases arg with
  | int v => exact readX_writeX_ne regs v h
  | fp v => rfl

theorem readV_withArg {arg : CallArg} {regs : Regs} {i : RegField} (h : i ≠ 0) : (withArg arg regs).readV i = regs.readV i := by
  cases arg with
  | int v => simp only [withArg, Regs.readV, writeX_v]
  | fp v => exact readV_writeV_ne regs _ h

/-- SP, the flags and the floating-point control and status are the host's. -/
theorem entryRegs_frame (arg : CallArg) (ra entry : DWord) (regs : Regs) :
    (entryRegs arg ra entry regs).sp = regs.sp ∧ (entryRegs arg ra entry regs).nzcv = regs.nzcv
      ∧ (entryRegs arg ra entry regs).fpcr = regs.fpcr ∧ (entryRegs arg ra entry regs).fpsr = regs.fpsr := by
  rw [entryRegs_eq]
  cases arg <;> simp [withArg]

theorem extract_append_low (x y : DWord) : (x ++ y).extractLsb' 0 64 = y := by
  refine BitVec.eq_of_getLsbD_eq fun i hi => ?_
  rw [BitVec.getLsbD_extractLsb', decide_eq_true hi, Bool.true_and, Nat.zero_add, BitVec.getLsbD_append, if_pos hi]

theorem extract_append_high (x y : DWord) : (x ++ y).extractLsb' 64 64 = x := by
  refine BitVec.eq_of_getLsbD_eq fun i hi => ?_
  rw [BitVec.getLsbD_extractLsb', decide_eq_true hi, Bool.true_and, BitVec.getLsbD_append, if_neg (by omega), Nat.add_sub_cancel_left]

/-- R48: an integer argument is in X0, a floating-point one in the low half of V0. -/
theorem entryRegs_int (v ra entry : DWord) (regs : Regs) :
    (entryRegs (.int v) ra entry regs).readX 0 = v ∧ (entryRegs (.int v) ra entry regs).v = regs.v := by
  refine ⟨?_, ?_⟩
  · rw [readX_entryRegs, readX_writeX_ne _ _ (by decide)]
    exact readX_writeX_same regs v (by decide)
  · rw [v_entryRegs]
    exact writeX_v _ _ _

theorem entryRegs_fp (v ra entry : DWord) (regs : Regs) :
    ((entryRegs (.fp v) ra entry regs).readV 0).extractLsb' 0 64 = v
      ∧ ((entryRegs (.fp v) ra entry regs).readV 0).extractLsb' 64 64 = (regs.readV 0).extractLsb' 64 64
      ∧ (entryRegs (.fp v) ra entry regs).readX 0 = regs.readX 0 := by
  rw [readV_entryRegs, withArg, readV_writeV_same]
  refine ⟨extract_append_low _ _, extract_append_high _ _, ?_⟩
  rw [readX_entryRegs, readX_writeX_ne _ _ (by decide)]
  rfl

/-- Settles O43: the three cases of the call, and the registers at the entry point. -/
theorem callsEnterReadyBuffersAtTheirStart : Obligations.CallsEnterReadyBuffersAtTheirStart := by
  intro s n ra arg regs b rest hi hp hb
  have hstep : step s = hostCall n arg ra regs { s with inputs := rest } := step_of_issues hi
  refine ⟨fun r hs => ⟨fun hsp => ?_, fun hsp => ?_⟩, fun hs => ?_⟩
  · simp only [hostCall, hp, hb, hs, hsp, ne_eq, not_true_eq_false, Bool.false_eq_true, if_false] at hstep
    have hX (i : RegField) (h0 : i ≠ 0) (h30 : i ≠ 30) : (entryRegs arg ra b.base regs).readX i = regs.readX i := by
      rw [readX_entryRegs, readX_writeX_ne _ _ h30, readX_withArg h0]
    have hV (i : RegField) (h0 : i ≠ 0) : (entryRegs arg ra b.base regs).readV i = regs.readV i := by
      rw [readV_entryRegs, readV_withArg h0]
    refine ⟨_, hstep, by rw [hp], by rw [entryRegs_eq], ?_, ?_, ?_, hX, hV, entryRegs_frame arg ra b.base regs⟩
    · rw [readX_entryRegs]
      exact readX_writeX_same _ ra (by decide)
    · rintro v rfl
      exact entryRegs_int v ra b.base regs
    · rintro v rfl
      exact entryRegs_fp v ra b.base regs
  · simp only [hstep, hostCall, hp, hb, hs, if_pos hsp, Bool.false_eq_true, if_false]
  · cases hst : b.stage with
    | ready r => exact absurd hst (hs r)
    | placed => simp only [hstep, hostCall, hp, hb, hst, Bool.false_eq_true, if_false]
    | permitted r => simp only [hstep, hostCall, hp, hb, hst, Bool.false_eq_true, if_false]

end Sys2Proof.Proofs
end

section
/-! SUPPORT. The machine's invariant (R17, R31, R44 to R46, R83): what keeps the bytes words of the 39 forms, and what keeps the placed buffers. -/

namespace Sys2Proof.Proofs

open Machine Safety

/-! ### Sequences of words (R31, R33) -/

theorem wordsDecode_cons {b0 b1 b2 b3 : Byte} {rest : List Byte} :
    wordsDecode (b0 :: b1 :: b2 :: b3 :: rest) = true
      ↔ (∃ i, decodeWord (wordOfBytes b0 b1 b2 b3) = .ok i) ∧ wordsDecode rest = true := by
  rw [wordsDecode, Bool.and_eq_true]
  cases decodeWord (wordOfBytes b0 b1 b2 b3) <;> simp

/-- One more word at the end. -/
theorem wordsDecode_append {w : Word} {i : Instr} (hw : decodeWord w = .ok i) (bs : List Byte) (h : wordsDecode bs = true) :
    wordsDecode (bs ++ bytesOfWord w) = true := by
  induction bs using wordsDecode.induct with
  | case1 => exact wordsDecode_cons.mpr ⟨⟨i, by rw [wordOfBytes_bytesOfWord, hw]⟩, rfl⟩
  | case2 b0 b1 b2 b3 rest ih =>
    obtain ⟨hdec, hrest⟩ := wordsDecode_cons.mp h
    exact wordsDecode_cons.mpr ⟨hdec, ih hrest⟩
  | case3 => simp_all [wordsDecode]

/-- The `k`-th word of a sequence of words decodes. -/
theorem wordsDecode_word {bs : List Byte} (h : wordsDecode bs = true) (k : Nat) (hk : 4 * k + 4 ≤ bs.length) :
    ∃ b0 b1 b2 b3 i, bs[4 * k]? = some b0 ∧ bs[4 * k + 1]? = some b1 ∧ bs[4 * k + 2]? = some b2 ∧ bs[4 * k + 3]? = some b3
      ∧ decodeWord (wordOfBytes b0 b1 b2 b3) = .ok i := by
  induction bs using wordsDecode.induct generalizing k with
  | case1 => simp at hk
  | case2 b0 b1 b2 b3 rest ih =>
    obtain ⟨⟨i, hi⟩, hrest⟩ := wordsDecode_cons.mp h
    cases k with
    | zero => exact ⟨b0, b1, b2, b3, i, rfl, rfl, rfl, rfl, hi⟩
    | succ k =>
      simp only [List.length_cons] at hk
      exact ih hrest k (by omega)
  | case3 => simp_all [wordsDecode]

/-! ### The block's part (R17, R31, R83) -/

theorem hasRoom_of_full {s : State} (h : s.full = false) : hasRoom s := by
  intro c hc
  by_contra hlt
  have : s.full = true := (full_iff s).mpr ⟨c, hc, by omega⟩
  simp [h] at this

/-- What an encode request appends is the word of a well-formed instruction. -/
theorem exec_buf {i : Instr} {s t : State} (h : exec i s = .next t) :
    t.buf = s.buf ∨ i.wellFormed = true ∧ t.buf = s.buf ++ bytesOfWord (encode i) := by
  rcases exec_cases i s with ⟨_, he⟩ | ⟨_, e, _, he⟩ | ⟨hopen, hfull, w, warn, he⟩
  · cases he.symm.trans h
    exact .inl rfl
  · cases he.symm.trans h
    exact .inl rfl
  · have herror {e : Err} (ha : AnswersError i e) : t.buf = s.buf := by
      obtain ⟨x, -, hx⟩ := ha
      cases (hx s).symm.trans h |>.symm.trans (request_error hopen)
      rfl
    rcases answer_cases i with ⟨_, ha⟩ | ⟨_, _, ha⟩ | ⟨hf, hrep, _⟩
    · exact .inl (herror ha)
    · exact .inl (herror ha)
    · have hwf : i.wellFormed = true := Bool.and_eq_true_iff.mpr ⟨hf, hrep⟩
      cases (requestsEmitTheEncodersWord i s ⟨hopen, hasRoom_of_full hfull⟩ hwf).symm.trans h
      exact .inr ⟨hwf, rfl⟩

theorem exec_wordsDecode {i : Instr} {s t : State} (h : exec i s = .next t) (hbuf : wordsDecode s.buf = true) : wordsDecode t.buf = true := by
  rcases exec_buf h with heq | ⟨hwf, heq⟩ <;> rw [heq]
  · exact hbuf
  · exact wordsDecode_append (decodingReadsTheEncodingBack i hwf) _ hbuf

theorem exec_phase_err {i : Instr} {s t : State} (h : exec i s = .next t) (hp : s.phase = .aborted ↔ s.err ≠ .none) :
    t.phase = .aborted ↔ t.err ≠ .none := by
  rcases exec_next h with ⟨_, rfl⟩ | ⟨_, e, hne, rfl⟩ | ⟨_, _, _, rfl, _⟩
  · exact hp
  · exact iff_of_true rfl hne
  · exact hp

/-! ### The placed buffers (R44 to R47) -/

theorem pageSize_pos (p : Config.Params) : 0 < p.pageSize := Nat.two_pow_pos _

/-- A placed buffer depends on the parameters, the bytes handed over and the memory, and bytes handed over later do not matter. -/
theorem bufferOk_of_handed_append {s : State} {b : Buffer} (x : List (List Byte)) (h : bufferOk s b) :
    bufferOk { s with handed := s.handed ++ x } b := by
  obtain ⟨hfit, hreg, bytes, hb, hlen, hread⟩ := h
  exact ⟨hfit, hreg, bytes, (List.getElem?_append_left (List.getElem?_eq_some_iff.mp hb).1).trans hb, hlen, hread⟩

/-- R45: the buffer just placed. -/
theorem bufferOk_placed {s : State} {n : Nat} {a : DWord} {bytes : List Byte} (hb : s.handed[n]? = some bytes)
    (hfit : a.toNat + bytes.length ≤ 2 ^ 64) :
    bufferOk { s with memory := Memory.writeBytes s.memory a.toNat bytes } { source := n, base := a, len := bytes.length, stage := .placed } :=
  ⟨hfit, (fun _ h => by cases h), bytes, hb, rfl, fun k hk => read_writeBytes_inside bytes s.memory a.toNat k hk⟩

/-- A write apart from a placed buffer. -/
theorem bufferOk_of_apart {s : State} {b : Buffer} {a : Nat} {bytes : List Byte}
    (h : ¬ ∃ k, a ≤ k ∧ k < a + bytes.length ∧ b.base.toNat ≤ k ∧ k < b.base.toNat + b.len) (hok : bufferOk s b) :
    bufferOk { s with memory := Memory.writeBytes s.memory a bytes } b := by
  obtain ⟨hfit, hreg, bytes', hb, hlen, hread⟩ := hok
  refine ⟨hfit, hreg, bytes', hb, hlen, fun k hk => ?_⟩
  rw [← hread k hk]
  refine read_writeBytes_outside bytes s.memory a _ ?_
  by_contra hin
  exact h ⟨b.base.toNat + k, by omega⟩

/-- With no source placed twice, the buffer found for a source is the only one of it. -/
theorem eq_of_findBuffer {bs : List Buffer} {n : Nat} {b c : Buffer} (hn : (bs.map Buffer.source).Nodup) (hb : findBuffer bs n = some b)
    (hc : c ∈ bs) (hs : c.source = n) : c = b := by
  have := findBuffer_of_mem hn hc
  rw [hs, hb] at this
  exact (Option.some.inj this).symm

/-- R47: a stage change that keeps or sets the region of R46. -/
theorem bufferOk_setStage {s : State} {n : Nat} {b : Buffer} {st : Stage} (hn : (s.buffers.map Buffer.source).Nodup)
    (hb : findBuffer s.buffers n = some b) (hst : ∀ r, st.region = some r → r = regionOf s.params.pageSize b.base.toNat b.len)
    (hok : ∀ c ∈ s.buffers, bufferOk s c) : ∀ c ∈ setStage s.buffers n st, bufferOk s c := by
  intro c hc
  obtain ⟨c0, hc0, rfl⟩ := mem_setStage.mp hc
  split
  · rename_i hs
    obtain rfl := eq_of_findBuffer hn hb hc0 hs
    obtain ⟨hfit, -, hbytes⟩ := hok c0 hc0
    exact ⟨hfit, hst, hbytes⟩
  · exact hok c0 hc0

theorem region_of_stage {st : Stage} {r : Region} (h : st = .permitted r ∨ st = .ready r) : st.region = some r := by
  rcases h with rfl | rfl <;> rfl

/-- The part of the invariant that the host's actions bear on. -/
def HostInv (s : State) : Prop :=
  Memory.wf s.memory ∧ (s.buffers.map Buffer.source).Nodup ∧ ∀ b ∈ s.buffers, bufferOk s b

theorem hostLoad_hostInv {n : Nat} {a : DWord} {s t : State} (h : hostLoad n a s = .next t) (hinv : HostInv s) : HostInv t := by
  obtain ⟨bytes, hb, -, -, hfit, -, rfl⟩ := hostLoad_next h
  obtain ⟨hwf, hn, hok⟩ := hinv
  refine ⟨writeBytes_wf bytes _ _ hwf, List.nodup_cons.mpr ⟨fun hmem => ?_, ?_⟩, fun c hc => ?_⟩
  · obtain ⟨c, hc, hs⟩ := List.mem_map.mp hmem
    exact (survives_iff.mp (List.mem_filter.mp hc).2).1 hs
  · exact hn.sublist (List.Sublist.map _ List.filter_sublist)
  · rcases List.mem_cons.mp hc with rfl | hc
    · exact bufferOk_placed hb hfit
    · obtain ⟨hmem, hsurv⟩ := List.mem_filter.mp hc
      exact bufferOk_of_apart (survives_iff.mp hsurv).2 (hok c hmem)

theorem hostPermission_hostInv {n : Nat} {g : Bool} {s t : State} (h : hostPermission n g s = .next t) (hinv : HostInv s) : HostInv t := by
  obtain ⟨-, b, hb, -, rfl⟩ := hostPermission_next h
  obtain ⟨hwf, hn, hok⟩ := hinv
  cases g with
  | false => exact ⟨hwf, hn, hok⟩
  | true =>
    refine ⟨hwf, ?_, bufferOk_setStage hn hb (fun r hr => (Option.some.inj hr).symm) hok⟩
    simpa using hn

theorem hostMaintainFetch_hostInv {n : Nat} {s t : State} (h : hostMaintainFetch n s = .next t) (hinv : HostInv s) : HostInv t := by
  obtain ⟨-, b, r, hb, hst, rfl⟩ := hostMaintainFetch_next h
  obtain ⟨hwf, hn, hok⟩ := hinv
  have hreg := (hok b (findBuffer_some hb).1).2.1 r (region_of_stage hst)
  refine ⟨hwf, ?_, bufferOk_setStage hn hb (fun r' hr => ?_) hok⟩
  · simpa using hn
  · rw [← hreg]
    exact (Option.some.inj hr).symm

theorem hostAct_hostInv {x : HostAction} {s t : State} (h : hostAct x s = .next t) (hinv : HostInv s) : HostInv t := by
  cases x with
  | load n a => exact hostLoad_hostInv h hinv
  | permission n g => exact hostPermission_hostInv h hinv
  | maintainFetch n => exact hostMaintainFetch_hostInv h hinv
  | call n arg ra regs =>
    obtain ⟨-, -, b, r, -, -, rfl⟩ := hostCall_next h
    exact hinv

/-! ### Every step (R17, R31, R44 to R46, R83) -/

/-- Settles O57. -/
theorem invariantHoldsAtReset : Obligations.InvariantHoldsAtReset := by
  refine ⟨by decide, rfl, ?_, reset_memory_wf, List.nodup_nil, ?_⟩
  · intro bytes h
    cases h
  · intro b h
    cases h

theorem exec_inv {i : Instr} {s t : State} (h : exec i s = .next t) (hinv : Inv s) : Inv t := by
  obtain ⟨hp, hbuf, hhanded, hhost⟩ := hinv
  refine ⟨exec_phase_err h hp, exec_wordsDecode h hbuf, ?_⟩
  rcases exec_next h with ⟨_, rfl⟩ | ⟨_, _, _, rfl⟩ | ⟨_, _, _, rfl, _⟩ <;> exact ⟨hhanded, hhost⟩

theorem doFinalize_inv {s : State} (hinv : Inv s) : Inv (doFinalize s) := by
  obtain ⟨hp, hbuf, hhanded, hwf, hn, hok⟩ := id hinv
  by_cases hopen : s.phase = .opened
  · have herr : s.err = .none := by
      by_contra hne
      cases hopen.symm.trans (hp.mpr hne)
    rw [doFinalize_opened hopen]
    refine ⟨iff_of_false (by simp) (by simpa using herr), hbuf, fun bytes h => ?_, hwf, hn, fun b hb => ?_⟩
    · rcases List.mem_append.mp h with h | h
      · exact hhanded bytes h
      · rwa [List.mem_singleton.mp h]
    · exact bufferOk_of_handed_append [s.buf] (hok b hb)
  · rw [doFinalize_closed hopen]
    exact hinv

theorem hostAct_inv {x : HostAction} {s t : State} (h : hostAct x s = .next t) (hinv : Inv s) : Inv t := by
  obtain ⟨hp, hbuf, hhanded, hhost⟩ := hinv
  obtain ⟨ebuf, ephase, eerr, -, -, -, -, ehanded⟩ := hostAct_frame h
  refine ⟨by rwa [ephase, eerr], by rwa [ebuf], by rwa [ehanded], hostAct_hostInv h hhost⟩

theorem processInput_inv {x : Input} {s t : State} (h : processInput x s = .next t) (hinv : Inv s) : Inv t := by
  cases x with
  | encode i => exact exec_inv h hinv
  | finalize => cases h; exact doFinalize_inv hinv
  | length => cases h; exact hinv
  | reset =>
    cases h
    obtain ⟨-, -, hhanded, hhost⟩ := hinv
    exact ⟨iff_of_false (by simp) (by simp), rfl, hhanded, hhost⟩
  | host a => exact hostAct_inv h hinv

/-- Settles O58: the target changes nothing the invariant reads, and every input keeps it. -/
theorem everyStepKeepsTheInvariant : Obligations.EveryStepKeepsTheInvariant := by
  intro s t hinv h
  rcases step_cases h with ⟨_, _, _, _, _, rfl⟩ | ⟨_, _, rfl⟩ | ⟨_, x, rest, _, hp⟩
  · exact hinv
  · exact hinv
  · exact processInput_inv (s := { s with inputs := rest }) hp hinv

/-! ### Running a ready buffer (R83, R84, R273) -/

/-- The region of R46 holds every word of the buffer. -/
theorem readyAt_of_word {s : State} {b : Buffer} {r : Region} (hok : bufferOk s b) (hst : b.stage = .ready r) {a : Nat}
    (hlo : b.base.toNat ≤ a) (hhi : a + 4 ≤ b.base.toNat + b.len) : readyAt a b = true := by
  have hreg : r = regionOf s.params.pageSize b.base.toNat b.len := hok.2.1 r (region_of_stage (.inr hst))
  obtain ⟨hstart, hend⟩ := regionOf_contains (pageSize_pos s.params) b.base.toNat b.len
  rw [← hreg] at hstart hend
  simp only [readyAt, hst, Buffer.holds, Region.holds, Bool.and_eq_true, decide_eq_true_eq]
  omega

/-- The words of a placed buffer are resident and decode. -/
theorem fetch_of_bufferOk {s : State} {b : Buffer} (hok : bufferOk s b) (hhanded : ∀ bytes ∈ s.handed, wordsDecode bytes = true) {k : Nat}
    (hk : 4 * k + 4 ≤ b.len) : ∃ w i, Memory.fetch s.memory (b.base.toNat + 4 * k) = some w ∧ decodeWord w = .ok i := by
  obtain ⟨-, -, bytes, hb, hlen, hread⟩ := hok
  obtain ⟨b0, b1, b2, b3, i, e0, e1, e2, e3, hi⟩ := wordsDecode_word (hhanded bytes (List.mem_of_getElem? hb)) k (by omega)
  refine ⟨wordOfBytes b0 b1 b2 b3, i, fetch_of_reads ?_ ?_ ?_ ?_, hi⟩
  · rw [hread _ (by omega), e0]
  · rw [Nat.add_assoc, hread _ (by omega), e1]
  · rw [Nat.add_assoc, hread _ (by omega), e2]
  · rw [Nat.add_assoc, hread _ (by omega), e3]

/-- Settles O59: the word at pc is one that was handed over, and decodes to a well-formed instruction (O28). -/
theorem readyBuffersRun : Obligations.ReadyBuffersRun := by
  intro s hinv hr hat
  obtain ⟨-, -, hhanded, -, -, hok⟩ := hinv
  obtain ⟨b, hb, ⟨r, hst⟩, halign, k, hk, hpc⟩ := hat
  obtain ⟨w, i, hw, hi⟩ := fetch_of_bufferOk (hok b hb) hhanded hk
  rw [← hpc] at hw
  have hready : readyAt s.regs.pc.toNat b = true := readyAt_of_word (hok b hb) hst (by omega) (by omega)
  have hfetch := targetFetch_ready (by omega) hb hready hw
  exact ⟨w, i, hw, hi, (decodedWordsAreEncodings w i hi).1, step_runs hr hfetch hi, fun hcore hhalf => step_half hr hfetch hi hhalf hcore⟩

/-! ### Executable regions (R44, R47, R274, R278) -/

/-- What holds of a buffer's region over a change of the state: the buffer is still there, with it, and its bytes are. -/
def Persists (s t : State) (b : Buffer) (r : Region) : Prop :=
  (∃ c ∈ t.buffers, c.source = b.source ∧ c.base = b.base ∧ c.len = b.len ∧ c.stage.region = some r
    ∧ (b.stage = .ready r → c.stage = .ready r))
  ∧ ∀ a, r.start ≤ a → a < r.start + r.size → Memory.read t.memory a = Memory.read s.memory a

theorem persists_of_same {s t : State} {b : Buffer} {r : Region} (hb : b ∈ t.buffers) (hr : b.stage.region = some r)
    (hm : t.memory = s.memory) : Persists s t b r :=
  ⟨⟨b, hb, rfl, rfl, rfl, hr, id⟩, fun a _ _ => by rw [hm]⟩

/-- R274, R278: a load that goes on writes to no executable region, so it overwrites no byte of an executable buffer. -/
theorem hostLoad_persists {n : Nat} {a : DWord} {s t : State} (h : hostLoad n a s = .next t) (hinv : HostInv s) {b : Buffer} {r : Region}
    (hb : b ∈ s.buffers) (hr : b.stage.region = some r) : Persists s t b r := by
  obtain ⟨bytes, -, -, hnot, -, hany, rfl⟩ := hostLoad_next h
  obtain ⟨-, hn, hok⟩ := hinv
  have hapart : ¬ ∃ k, a.toNat ≤ k ∧ k < a.toNat + bytes.length ∧ r.start ≤ k ∧ k < r.start + r.size := by
    rw [← overlaps_iff]
    have := List.any_eq_false.mp hany b hb
    rwa [rewritesRegion, hr] at this
  have hreg : r = regionOf s.params.pageSize b.base.toNat b.len := (hok b hb).2.1 r hr
  obtain ⟨hstart, hend⟩ := regionOf_contains (pageSize_pos s.params) b.base.toNat b.len
  rw [← hreg] at hstart hend
  have hne : b.source ≠ n := by
    rintro rfl
    rw [alreadyExecutable, findBuffer_of_mem hn hb, Option.bind_some, hr] at hnot
    cases hnot
  have hsurv : survives n a.toNat bytes.length b = true :=
    survives_iff.mpr ⟨hne, fun ⟨k, hk⟩ => hapart ⟨k, by omega⟩⟩
  refine ⟨⟨b, List.mem_cons_of_mem _ (List.mem_filter.mpr ⟨hb, hsurv⟩), rfl, rfl, rfl, hr, id⟩, fun k hlo hhi => ?_⟩
  refine read_writeBytes_outside bytes s.memory a.toNat k ?_
  by_contra hin
  exact hapart ⟨k, by omega⟩

/-- A buffer of another source is left alone by a stage change. -/
theorem mem_setStage_of_ne {bs : List Buffer} {n : Nat} {st : Stage} {b : Buffer} (hb : b ∈ bs) (hne : b.source ≠ n) :
    b ∈ setStage bs n st := mem_setStage.mpr ⟨b, hb, (if_neg hne).symm⟩

theorem hostPermission_persists {n : Nat} {g : Bool} {s t : State} (h : hostPermission n g s = .next t) (hinv : HostInv s) {b : Buffer}
    {r : Region} (hb : b ∈ s.buffers) (hr : b.stage.region = some r) : Persists s t b r := by
  obtain ⟨-, c, hc, hst, rfl⟩ := hostPermission_next h
  cases g with
  | false => exact persists_of_same hb hr rfl
  | true =>
    refine persists_of_same (mem_setStage_of_ne hb fun hs => ?_) hr rfl
    rw [eq_of_findBuffer hinv.2.1 hc hb hs, hst] at hr
    cases hr

theorem hostMaintainFetch_persists {n : Nat} {s t : State} (h : hostMaintainFetch n s = .next t) (hinv : HostInv s) {b : Buffer}
    {r : Region} (hb : b ∈ s.buffers) (hr : b.stage.region = some r) : Persists s t b r := by
  obtain ⟨-, c, r', hc, hst, rfl⟩ := hostMaintainFetch_next h
  by_cases hs : b.source = n
  · obtain rfl := eq_of_findBuffer hinv.2.1 hc hb hs
    obtain rfl : r = r' := Option.some.inj (hr.symm.trans (region_of_stage hst))
    refine ⟨⟨{ b with stage := .ready r }, mem_setStage.mpr ⟨b, hb, (if_pos hs).symm⟩, rfl, rfl, rfl, rfl, fun _ => rfl⟩, fun _ _ _ => rfl⟩
  · exact persists_of_same (mem_setStage_of_ne hb hs) hr rfl

theorem hostAct_persists {x : HostAction} {s t : State} (h : hostAct x s = .next t) (hinv : HostInv s) {b : Buffer} {r : Region}
    (hb : b ∈ s.buffers) (hr : b.stage.region = some r) : Persists s t b r := by
  cases x with
  | load n a => exact hostLoad_persists h hinv hb hr
  | permission n g => exact hostPermission_persists h hinv hb hr
  | maintainFetch n => exact hostMaintainFetch_persists h hinv hb hr
  | call n arg ra regs =>
    obtain ⟨-, -, c, r', -, -, rfl⟩ := hostCall_next h
    exact persists_of_same hb hr rfl

/-- Settles O60: neither the target nor a request touches the buffers or memory, and no action of the host an executable region. -/
theorem executableBuffersPersist : Obligations.ExecutableBuffersPersist := by
  intro s t hinv h b hb r hr
  suffices Persists s t b r from this
  rcases step_cases h with ⟨_, _, _, _, _, rfl⟩ | ⟨_, _, rfl⟩ | ⟨_, x, rest, _, hp⟩
  · exact persists_of_same hb hr rfl
  · exact persists_of_same hb hr rfl
  · cases x with
    | host a => exact hostAct_persists (s := { s with inputs := rest }) hp hinv.2.2.2 hb hr
    | encode | finalize | length | reset =>
      obtain ⟨-, -, hbuffers, -, hmemory, -⟩ := processInput_frame (by simp) hp
      exact persists_of_same (hbuffers ▸ hb) hr hmemory

end Sys2Proof.Proofs
end

section
/-! SUPPORT. What the words do on the target (R210, R211, R217, R218, R225, R226): the logical and floating-point words, and for the frame of all
words the few shapes that every word's effect on the registers has. -/

namespace Sys2Proof.Proofs

open Machine Safety

/-! ### The logical words (R217, R218) -/

/-- R217: both operands and the result at `datasize` bits. -/
theorem targetLogImm_eq {o : Operands} {imm : DWord} {rd : RegField} (himm : isField o.imm imm) (hd : isField o.rd rd) (op : LogOp)
    (rn : RegField) (r : Regs) :
    targetLogImm op rn o r = r.writeXSp rd (((logOp op (r.readX rn) imm).setWidth (datasize o)).setWidth 64) := by
  rw [targetLogImm, regField_of_isField hd, immOf_of_isField himm, BitVec.ofNat_toNat]
  cases op <;> simp only [logOp, BitVec.setWidth_and, BitVec.setWidth_or, BitVec.setWidth_xor]

/-- Settles O47. -/
theorem logicalWordsOnTheTarget : Obligations.LogicalWordsOnTheTarget := by
  intro r o sf imm shift amount rm rn rd w hsf hw hd
  rw [← datasize_of_sf hsf] at hw
  subst hw
  have ed := regField_of_isField hd
  refine ⟨fun himm => ⟨fun hn => ?immediate, ?movBitmask⟩, fun hm => ⟨fun hn t ht hshift => ?shifted, ?movReg⟩⟩
  case immediate =>
    simp only [targetExec, targetLogImm_eq himm hd, regField_of_isField hn]
    exact ⟨rfl, rfl, rfl⟩
  case movBitmask =>
    have horr : logOp .orr (r.readX 31) imm = imm := BitVec.zero_or
    rw [targetExec, targetLogImm_eq himm hd, horr]
  case shifted =>
    obtain ⟨et, eamount⟩ := shiftOf_of_isShift (List.Subset.refl _) ht hshift
    simp only [targetExec, targetLogReg, ed, regField_of_isField hn, regField_of_isField hm, et, eamount]
    exact ⟨rfl, rfl, rfl⟩
  case movReg =>
    have horr (v : BitVec (datasize o)) : logOp .orr ((r.readX 31).setWidth _) (shiftReg v .lsl 0) = v := by
      rw [readX_zr]
      simp [logOp, shiftReg]
    simp only [targetExec, targetLogReg, ed, regField_of_isField hm]
    exact congrArg (fun v : BitVec (datasize o) => (r.writeX rd (v.setWidth 64)).advance) (horr _)

/-! ### The floating-point words (R225, R226) -/

theorem ftypeOf_of_getD {o : Operands} {t : FType} (h : o.ftype.getD "D" = ftypeName t) : ftypeOf o = t := by
  cases hs : o.ftype with
  | none =>
    rw [hs, Option.getD_none] at h
    rw [ftypeOf, hs]
    cases t with
    | h | s => simp [ftypeName] at h
    | d => rfl
  | some n =>
    rw [hs, Option.getD_some] at h
    exact ftypeOf_ftypeName (by rw [hs, h])

/-- R26: the width a type's name stands for. -/
theorem width_of_mem {t : FType} {n : Nat} (h : (ftypeName t, n) ∈ ftypeWidths) : (formatOf t).width = n := by
  cases t <;> simp [ftypeWidths, ftypeName] at h <;> subst h <;> rfl

theorem expandImm8_lt (t : FType) : ∀ imm8, expandImm8 (formatOf t) imm8 < 2 ^ (formatOf t).width := by
  cases t <;> decide +kernel

/-- Settles O53. -/
theorem floatWordsOnTheTarget : Obligations.FloatWordsOnTheTarget := by
  intro r o t n rm rn rd ht hn hd
  have et := ftypeOf_of_getD ht
  have ed := regField_of_isField hd
  obtain rfl := width_of_mem hn
  refine ⟨fun hn => ⟨fun hm op f hop => ?arithmetic, ?_, ?_⟩, fun x hx => ?immediate⟩
  case arithmetic =>
    rcases hop with ⟨rfl, rfl⟩ | ⟨rfl, rfl⟩ <;>
      simp only [targetExec, targetFpDp2, et, ed, regField_of_isField hn, regField_of_isField hm] <;> rfl
  case immediate =>
    have hlt := Nat.mod_eq_of_lt (expandImm8_lt t (compress x).1)
    simp only [targetExec, targetFmovImm, et, ed, hx, Option.getD_some, Regs.writeFp, hlt]
  · have hlt : (r.readV rn).toNat % 2 ^ (formatOf t).width ^^^ 2 ^ ((formatOf t).width - 1) < 2 ^ (formatOf t).width :=
      Nat.xor_lt_two_pow (Nat.mod_lt _ (Nat.two_pow_pos _)) (Nat.pow_lt_pow_right (by decide) (by cases t <;> decide))
    simp only [targetExec, targetFneg, et, ed, regField_of_isField hn, Regs.writeFp, Regs.readFp, Nat.mod_eq_of_lt hlt]
  · simp only [targetExec, targetFmovReg, et, ed, regField_of_isField hn, Regs.writeFp, Regs.readFp, Nat.mod_mod]

/-! ### The shapes of a word's effect (R210, R211) -/

/-- What a word does to the registers, with the register it names: a general register and the flags (a compare has the zero register), a
register or SP, pc alone, or a floating-point register, with or without exception flags. -/
inductive WordShape (i : Instr) (r : Regs) : Prop
  | general (f : Nzcv) (rd : RegField) (v : BitVec (datasize i.operands))
      (hexec : targetExec i r = ((r.setFlags (setsFlags i) f).writeX rd (v.setWidth 64)).advance)
      (hx : writesX i = some rd ∨ writesX i = none ∧ rd = 31) (hsp : writesSp i = false) (hv : writesV i = none)
      (hround : roundsResult i = false)
  | stack (rd : RegField) (v : BitVec (datasize i.operands)) (hexec : targetExec i r = (r.writeXSp rd (v.setWidth 64)).advance)
      (hx : writesX i = some rd) (hsp : writesSp i = decide (rd = 31)) (hv : writesV i = none) (hflags : setsFlags i = false)
      (hround : roundsResult i = false)
  | pcOnly (p : DWord) (hexec : targetExec i r = { r with pc := p }) (hx : writesX i = none) (hsp : writesSp i = false)
      (hv : writesV i = none) (hflags : setsFlags i = false) (hround : roundsResult i = false)
  | floatOp (rd : RegField) (v : Nat) (f : Fpsr)
      (hexec : targetExec i r = Regs.advance { r.writeFp (ftypeOf i.operands) rd v with fpsr := r.fpsr.or f })
      (hx : writesX i = none) (hsp : writesSp i = false) (hv : writesV i = some rd) (hflags : setsFlags i = false)
      (hround : roundsResult i = true)
  | floatMove (rd : RegField) (v : Nat) (hexec : targetExec i r = (r.writeFp (ftypeOf i.operands) rd v).advance)
      (hx : writesX i = none) (hsp : writesSp i = false) (hv : writesV i = some rd) (hflags : setsFlags i = false)
      (hround : roundsResult i = false)

theorem wordShape (i : Instr) (r : Regs) : WordShape i r := by
  cases i with
  | addsImm o | subsImm o | addReg o | addsReg o | subReg o | subsReg o | adc o | adcs o =>
    exact .general _ _ _ rfl (.inl rfl) rfl rfl rfl
  | andReg o | orrReg o | eorReg o | movReg o | movz o | movn o | movk o | madd o | msub o | mul o | mneg o =>
    exact .general r.nzcv _ _ rfl (.inl rfl) rfl rfl rfl
  | cmpImm o | cmnImm o | cmpReg o | cmnReg o => exact .general _ 31 0 rfl (.inr ⟨rfl, rfl⟩) rfl rfl rfl
  | addImm o | subImm o | movSp o | andImm o | orrImm o | eorImm o | movBitmask o => exact .stack _ _ rfl rfl rfl rfl rfl rfl
  | b o | ret o | nop o => exact .pcOnly _ rfl rfl rfl rfl rfl rfl
  | bCond o =>
    refine .pcOnly (if conditionHolds (condOf o) r.nzcv then r.pc + BitVec.ofInt 64 (4 * o.offset.getD 0) else r.pc + 4) ?_ rfl rfl rfl rfl rfl
    rw [targetExec]
    split <;> rfl
  | fadd o | fmul o => exact .floatOp _ _ _ rfl rfl rfl rfl rfl rfl
  | fneg o | fmovReg o | fmovImm o => exact .floatMove _ _ rfl rfl rfl rfl rfl rfl

/-! ### The frame (R43, R60, R210 to R226) -/

theorem fpsr_or_none (f : Fpsr) : f.or Fpsr.none = f := by
  cases f
  simp [Fpsr.or, Fpsr.none]

theorem setFlags_nzcv_of_not (r : Regs) {b : Bool} (f : Nzcv) (h : b = false) : (r.setFlags b f).nzcv = r.nzcv := by
  rw [h, setFlags_false]

/-- Settles O56, shape by shape. -/
theorem wordsChangeOnlyTheirDestinations : Obligations.WordsChangeOnlyTheirDestinations := by
  intro i r
  rcases wordShape i r with ⟨f, rd, v, hexec, hx, hsp, hv, hround⟩ | ⟨rd, v, hexec, hx, hsp, hv, hflags, hround⟩
    | ⟨p, hexec, hx, hsp, hv, hflags, hround⟩ | ⟨rd, v, f, hexec, hx, hsp, hv, hflags, hround⟩
    | ⟨rd, v, hexec, hx, hsp, hv, hflags, hround⟩ <;> rw [hexec]
  · refine ⟨fun k hk => ?_, fun _ => by simp, fun h => absurd (hsp.symm.trans h) Bool.false_ne_true, fun k _ => by simp, fun h => ?_, by simp,
      fun _ => by simp, Fpsr.none, by simp [fpsr_or_none]⟩
    · rw [readX_advance]
      rcases hx with hx | ⟨-, rfl⟩
      · rw [readX_writeX_ne _ _ fun hkd => hk (by rw [hx, hkd]), readX_setFlags]
      · rw [writeX_zr, readX_setFlags]
    · simp [setFlags_nzcv_of_not r f h]
  · refine ⟨fun k hk => ?_, fun h => ?_, fun h => ?_, fun k _ => by simp, fun _ => by simp, by simp, fun _ => by simp, Fpsr.none,
      by simp [fpsr_or_none]⟩
    · rw [readX_advance, readX_writeXSp_ne _ _ fun hkd => hk (by rw [hx, hkd])]
    · rw [hsp, decide_eq_false_iff_not] at h
      rw [advance_sp, writeXSp_ne _ _ h, writeX_sp]
    · rw [hsp, decide_eq_true_eq] at h
      rw [h, writeXSp_sp, advance_x]
  · exact ⟨fun _ _ => rfl, fun _ => rfl, fun _ => rfl, fun _ _ => rfl, fun _ => rfl, rfl, fun _ => rfl, Fpsr.none, (fpsr_or_none _).symm⟩
  · refine ⟨fun _ _ => rfl, fun _ => rfl, fun _ => rfl, fun k hk => ?_, fun _ => rfl, rfl,
      fun h => absurd (hround.symm.trans h) (by decide), f, rfl⟩
    exact readV_writeFp_ne r _ v fun hkd => hk (by rw [hv, hkd])
  · refine ⟨fun _ _ => rfl, fun _ => rfl, fun _ => rfl, fun k hk => ?_, fun _ => rfl, rfl, fun _ => rfl, Fpsr.none, (fpsr_or_none _).symm⟩
    exact readV_writeFp_ne r _ v fun hkd => hk (by rw [hv, hkd])

/-! ### Narrow writes (R211) -/

theorem extract_high_setWidth {w : Nat} (h : w ≤ 32) (v : BitVec w) : (v.setWidth 64).extractLsb' 32 32 = 0 := by
  refine BitVec.eq_of_getLsbD_eq fun k _ => ?_
  rw [BitVec.getLsbD_extractLsb', getLsbD_setWidth_of_le (by omega), BitVec.getLsbD_of_ge v _ (by omega), Bool.and_false]
  exact BitVec.getLsbD_zero.symm

theorem writesX_none_ne {i : Instr} {rd : RegField} (hx : writesX i = none) : writesX i ≠ some rd := by
  rw [hx]
  exact Option.some_ne_none rd |>.symm

/-- R211: a 32-bit word leaves zeros in the upper half of the register or SP it writes. -/
theorem narrow_write {i : Instr} {r : Regs} {rd : RegField} (h32 : datasize i.operands ≤ 32) (hrd : writesX i = some rd) :
    (rd ≠ 31 → ((targetExec i r).readX rd).extractLsb' 32 32 = 0)
      ∧ (writesSp i = true → (targetExec i r).sp.extractLsb' 32 32 = 0) := by
  rcases wordShape i r with ⟨f, rd', v, hexec, hx, hsp, -, -⟩ | ⟨rd', v, hexec, hx, hsp, -, -, -⟩ | ⟨_, _, hx, _⟩ | ⟨_, _, _, _, hx, _⟩
    | ⟨_, _, _, hx, _⟩
  · rcases hx with hx | ⟨hx, -⟩
    · obtain rfl : rd = rd' := Option.some.inj (hrd.symm.trans hx)
      refine ⟨fun hne => ?_, fun h => absurd (hsp.symm.trans h) Bool.false_ne_true⟩
      rw [hexec, readX_advance, readX_writeX_same _ _ hne, extract_high_setWidth h32]
    · exact absurd hrd (writesX_none_ne hx)
  · obtain rfl : rd = rd' := Option.some.inj (hrd.symm.trans hx)
    refine ⟨fun hne => ?_, fun h => ?_⟩
    · rw [hexec, readX_advance, writeXSp_ne _ _ hne, readX_writeX_same _ _ hne, extract_high_setWidth h32]
    · rw [hsp, decide_eq_true_eq] at h
      rw [hexec, h, writeXSp_sp, advance_sp]
      exact extract_high_setWidth h32 v
  · exact absurd hrd (writesX_none_ne hx)
  · exact absurd hrd (writesX_none_ne hx)
  · exact absurd hrd (writesX_none_ne hx)

/-- R211: a word whose destination is the zero register changes no register. -/
theorem zero_register_write {i : Instr} {r : Regs} (hrd : writesX i = some 31) (hno : writesSp i = false) :
    (targetExec i r).x = r.x ∧ (targetExec i r).sp = r.sp ∧ (targetExec i r).v = r.v := by
  rcases wordShape i r with ⟨f, rd', v, hexec, hx, -, -, -⟩ | ⟨rd', v, hexec, hx, hsp, -, -, -⟩ | ⟨_, _, hx, _⟩ | ⟨_, _, _, _, hx, _⟩
    | ⟨_, _, _, hx, _⟩
  · rcases hx with hx | ⟨hx, -⟩
    · obtain rfl : 31 = rd' := Option.some.inj (hrd.symm.trans hx)
      rw [hexec, writeX_zr]
      simp
    · exact absurd hrd (writesX_none_ne hx)
  · obtain rfl : 31 = rd' := Option.some.inj (hrd.symm.trans hx)
    rw [hno] at hsp
    cases hsp
  · exact absurd hrd (writesX_none_ne hx)
  · exact absurd hrd (writesX_none_ne hx)
  · exact absurd hrd (writesX_none_ne hx)

/-- R211: a scalar write keeps to its type's width. -/
theorem readV_writeFp_lt (r : Regs) (t : FType) (rd : RegField) (v : Nat) : ((r.writeFp t rd v).readV rd).toNat < 2 ^ (formatOf t).width := by
  rw [readV_writeFp_same, BitVec.toNat_ofNat]
  exact (Nat.mod_le _ _).trans_lt (Nat.mod_lt _ (Nat.two_pow_pos _))

theorem scalar_write {i : Instr} {r : Regs} {rd : RegField} (hrd : writesV i = some rd) :
    ((targetExec i r).readV rd).toNat < 2 ^ (formatOf (ftypeOf i.operands)).width := by
  have hno (hv : writesV i = none) : ((targetExec i r).readV rd).toNat < 2 ^ (formatOf (ftypeOf i.operands)).width := by
    rw [hv] at hrd
    cases hrd
  rcases wordShape i r with ⟨_, _, _, _, _, _, hv, _⟩ | ⟨_, _, _, _, _, hv, _⟩ | ⟨_, _, _, _, hv, _⟩ | ⟨rd', v, f, hexec, -, -, hv, -, -⟩
    | ⟨rd', v, hexec, -, -, hv, -, -⟩
  · exact hno hv
  · exact hno hv
  · exact hno hv
  · obtain rfl : rd = rd' := Option.some.inj (hrd.symm.trans hv)
    rw [hexec]
    exact readV_writeFp_lt r _ rd v
  · obtain rfl : rd = rd' := Option.some.inj (hrd.symm.trans hv)
    rw [hexec]
    exact readV_writeFp_lt r _ rd v

/-- Settles O55. -/
theorem narrowWritesZeroTheRest : Obligations.NarrowWritesZeroTheRest := by
  refine ⟨fun i r rd hsf hrd => narrow_write ?_ hrd, fun i r => zero_register_write, fun i r rd n hrd hn => ?_⟩
  · simp [datasize, hsf]
  · rw [← width_of_mem hn]
    exact scalar_write hrd

end Sys2Proof.Proofs
end

section
/-! SUPPORT. The 8-bit floating-point immediate: its value in every type (R62), and the compression of a binary64 value (R187, R189) read off
the magnitude of its binary16 conversion, which increases with the value. -/

namespace Sys2Proof.Proofs

open Machine Safety

/-! ### The value of an immediate (R62) -/

/-- The immediate's magnitude in units of the last place: `16 + efgh` with the rest of the fraction zero. -/
def imm8Units (f : FpFormat) (imm8 : BitVec 8) : Nat := (16 + (imm8.extractLsb' 0 4).toNat) * 2 ^ (f.fracBits - 4)

/-- How many exponents the immediate stands above the lowest one of the format. -/
def imm8Shift (f : FpFormat) (imm8 : BitVec 8) : Nat := ((imm8.extractLsb' 4 3).toInt + f.bias).toNat

theorem expandImm8_eq_code (t : FType) : ∀ imm8, expandImm8 (formatOf t) imm8
    = (formatOf t).code imm8.msb 0 (imm8Units (formatOf t) imm8 + imm8Shift (formatOf t) imm8 * 2 ^ (formatOf t).fracBits) := by
  cases t <;> decide +kernel

theorem imm8_magnitude_lt (t : FType) : ∀ imm8,
    imm8Units (formatOf t) imm8 + imm8Shift (formatOf t) imm8 * 2 ^ (formatOf t).fracBits < infMag (formatOf t) := by
  cases t <;> decide +kernel

theorem two_pow_fracBits (t : FType) : 2 ^ (formatOf t).fracBits = 16 * 2 ^ ((formatOf t).fracBits - 4) := by
  cases t <;> rfl

/-- The exponent of the immediate's last place. -/
theorem imm8_lastPlace (t : FType) (imm8 : BitVec 8) :
    quantumExp (formatOf t) + imm8Shift (formatOf t) imm8 = (imm8.extractLsb' 4 3).toInt + 1 - (formatOf t).fracBits := by
  have hlo : -4 ≤ (imm8.extractLsb' 4 3).toInt := BitVec.le_toInt _
  have hbias : 4 ≤ (formatOf t).bias := by cases t <;> decide
  simp only [quantumExp, imm8Shift, FpFormat.minExp]
  omega

theorem magVal_imm8 (t : FType) (imm8 : BitVec 8) :
    magVal (formatOf t) (imm8Units (formatOf t) imm8 + imm8Shift (formatOf t) imm8 * 2 ^ (formatOf t).fracBits)
      = (16 + ((imm8.extractLsb' 0 4).toNat : ℚ)) / 16 * 2 ^ ((imm8.extractLsb' 4 3).toInt + 1) := by
  have hefgh : (imm8.extractLsb' 0 4).toNat < 16 := (imm8.extractLsb' 0 4).isLt
  have hpow := two_pow_fracBits t
  have hpow' : (2 : ℚ) ^ (formatOf t).fracBits = 16 * 2 ^ ((formatOf t).fracBits - 4) := by exact_mod_cast hpow
  have hle : imm8Units (formatOf t) imm8 ≤ 2 ^ ((formatOf t).fracBits + 1) := by
    rw [pow_succ', hpow, ← mul_assoc]
    exact Nat.mul_le_mul_right _ (by omega)
  have hge : 2 ^ (formatOf t).fracBits ≤ imm8Units (formatOf t) imm8 := by
    rw [hpow]
    exact Nat.mul_le_mul_right _ (by omega)
  rw [magVal_add_mul hle (.inr hge), imm8_lastPlace, zpow_sub₀ two_ne_zero, zpow_natCast, hpow', imm8Units]
  push_cast
  field_simp

/-- Settles O33. -/
theorem imm8ExpandsToItsValue : Obligations.Imm8ExpandsToItsValue := by
  intro t imm8
  rw [expandImm8_eq_code, valueOf_code _ (imm8_magnitude_lt t imm8), magVal_imm8, signFactor, mul_assoc]

/-! ### ToHalf increases with the magnitude (R188) -/

/-- Rounding to nearest keeps the order. -/
theorem NearestEven.mono {f : FpFormat} {a a' : ℚ} {c c' : Nat} (h : NearestEven f a c) (h' : NearestEven f a' c') (ha : a ≤ a') :
    c ≤ c' := by
  obtain ⟨b, hlo, hhi, hc⟩ := h
  obtain ⟨b', hlo', hhi', hc'⟩ := h'
  have hb : b ≤ b' := Nat.lt_succ_iff.mp ((magVal_strictMono f).lt_iff_lt.mp (by linarith))
  rcases hb.lt_or_eq with hlt | rfl
  · omega
  · rcases hc with ⟨rfl, _⟩ | ⟨rfl, hup⟩
    · omega
    · rcases hc' with ⟨rfl, hdown⟩ | ⟨rfl, _⟩
      · rcases hup with hup | ⟨hup, hodd⟩ <;> rcases hdown with hdown | ⟨hdown, heven⟩
        · linarith
        · linarith
        · linarith
        · omega
      · exact le_rfl

theorem nearestEven_zero (f : FpFormat) : NearestEven f 0 0 := by
  have hzero : magVal f 0 = 0 := by simp [magVal, magQuanta]
  have hone : magVal f 0 < magVal f (0 + 1) := magVal_strictMono f Nat.one_pos
  exact ⟨0, hzero.le, by linarith, .inl ⟨rfl, .inl (by linarith)⟩⟩

/-- The magnitude of the binary16 conversion. -/
def halfMag (x : DWord) : Nat := magOf fmtHalf (toHalf x)

theorem halfMag_of_code {x : DWord} {s : Bool} {c : Nat} (h : toHalf x = fmtHalf.code s 0 c)
    (hc : c < 2 ^ (fmtHalf.expBits + fmtHalf.fracBits)) : halfMag x = c := by
  rw [halfMag, h, magOf_code s hc]

/-- A finite code's unpacked magnitude is the value of the code without its sign bit. -/
theorem magVal_of_unpack {f : FpFormat} {x : Nat} {s : Bool} {m : Nat} {e : Int} (h : f.unpack x = .finite s m e) :
    (m : ℚ) * 2 ^ e = magVal f (magOf f x) := by
  have hval : valueOf f x = some (signFactor s * (m * 2 ^ e)) := by rw [valueOf, h, ← mul_assoc]; rfl
  have habs := abs_of_valueOf hval
  rwa [abs_mul, abs_signFactor, one_mul, abs_of_nonneg (by positivity)] at habs

theorem magOf_lt_of_finite {f : FpFormat} {x : Nat} {s : Bool} {m : Nat} {e : Int} (h : f.unpack x = .finite s m e) :
    magOf f x < infMag f := by
  have hval : valueOf f x = ratOf (.finite s m e) := by rw [valueOf, h]
  have hne := expOf_ne_maxExp hval
  have hlt : f.expOf x < 2 ^ f.expBits := Nat.mod_lt _ (Nat.two_pow_pos _)
  rw [infMag, ← Nat.div_lt_iff_lt_mul (Nat.two_pow_pos _), ← expOf_eq]
  rw [FpFormat.maxExp] at hne ⊢
  omega

theorem infMag_le_of_maxExp {f : FpFormat} {x : Nat} (h : f.expOf x = f.maxExp) : infMag f ≤ magOf f x := by
  rw [infMag, ← h, expOf_eq]
  exact Nat.div_mul_le_self _ _

theorem magOf_of_inf {f : FpFormat} {x : Nat} {s : Bool} (h : f.unpack x = .inf s) : magOf f x = infMag f := by
  simp only [FpFormat.unpack] at h
  split_ifs at h with he hm
  rw [infMag, ← he, expOf_eq, ← Nat.div_add_mod (magOf f x) (2 ^ f.fracBits), ← fracOf_eq, hm]
  simp [mul_comm]

theorem infMag_lt_of_nan {f : FpFormat} {x : Nat} {q : Bool} (h : f.unpack x = .nan q) : infMag f < magOf f x := by
  simp only [FpFormat.unpack] at h
  split_ifs at h with he hm
  refine lt_of_le_of_ne (infMag_le_of_maxExp he) fun heq => hm ?_
  rw [fracOf_eq, ← heq, infMag, Nat.mul_mod_left]

/-- R188: a finite magnitude is rounded to nearest, to infinity's code where it is beyond. -/
theorem halfMag_finite {x : DWord} {s : Bool} {m : Nat} {e : Int} (h : fmtDouble.unpack x.toNat = .finite s m e) :
    ∃ c, NearestEven fmtHalf (magVal fmtDouble (magOf fmtDouble x.toNat)) c ∧ halfMag x = min c (infMag fmtHalf) := by
  have hhalf := toHalf_finite h
  rw [← magVal_of_unpack h]
  split_ifs at hhalf with hm
  · refine ⟨0, ?_, by rw [halfMag_of_code hhalf (by decide), Nat.zero_min]⟩
    simpa [hm] using nearestEven_zero fmtHalf
  · refine ⟨_, roundMag_nearestEven (by decide) s hm e, halfMag_of_code (hhalf.trans (roundPack_tieEven _ _ _ _)) ?_⟩
    exact (min_le_right _ _).trans_lt (infMag_lt fmtHalf)

theorem halfMag_le_infMag {x : DWord} (h : magOf fmtDouble x.toNat ≤ infMag fmtDouble) : halfMag x ≤ infMag fmtHalf := by
  cases hx : fmtDouble.unpack x.toNat with
  | nan q => exact absurd (infMag_lt_of_nan hx) h.not_gt
  | inf s => exact (halfMag_of_code (toHalf_inf hx) (infMag_lt _)).le
  | finite s m e =>
    obtain ⟨c, -, hc⟩ := halfMag_finite hx
    exact hc.trans_le (min_le_right _ _)

theorem halfMag_nan {x : DWord} {q : Bool} (h : fmtDouble.unpack x.toNat = .nan q) : halfMag x = infMag fmtHalf + 0x200 :=
  halfMag_of_code (toHalf_nan h) (by decide)

/-- The conversion keeps the order of magnitudes, infinities and NaNs at the upper end. -/
theorem halfMag_mono {x y : DWord} (h : magOf fmtDouble x.toNat ≤ magOf fmtDouble y.toNat) : halfMag x ≤ halfMag y := by
  cases hy : fmtDouble.unpack y.toNat with
  | nan q =>
    rw [halfMag_nan hy]
    cases hx : fmtDouble.unpack x.toNat with
    | nan q' => exact (halfMag_nan hx).le
    | inf s => exact (halfMag_le_infMag (magOf_of_inf hx).le).trans (Nat.le_add_right _ _)
    | finite s m e => exact (halfMag_le_infMag (magOf_lt_of_finite hx).le).trans (Nat.le_add_right _ _)
  | inf s =>
    rw [halfMag_of_code (toHalf_inf hy) (infMag_lt _)]
    exact halfMag_le_infMag (h.trans (magOf_of_inf hy).le)
  | finite s m e =>
    have hlt := h.trans_lt (magOf_lt_of_finite hy)
    obtain ⟨c', hnear', hc'⟩ := halfMag_finite hy
    cases hx : fmtDouble.unpack x.toNat with
    | nan q => exact absurd (infMag_lt_of_nan hx) hlt.not_gt
    | inf s => exact absurd (magOf_of_inf hx) hlt.ne
    | finite s m e =>
      obtain ⟨c, hnear, hc⟩ := halfMag_finite hx
      rw [hc, hc']
      exact min_le_min_right _ (hnear.mono hnear' ((magVal_strictMono _).monotone h))

/-! ### Compression reads the magnitude (R187) -/

/-- R187: seven bits of the magnitude, exponent and fraction together, between those of 0.125 and of 31. -/
def compressMag (c : Nat) : BitVec 7 := BitVec.ofNat 7 (max 192 (min (c / 64) 319))

theorem window_bits : ∀ (s : Bool) (e : Fin 8) (k : Fin 16),
    BitVec.ofBool s ++ BitVec.ofInt 3 (((e : Nat) + 12 : Nat) - 16 : Int) ++ BitVec.ofNat 4 k
      = BitVec.ofBool s ++ BitVec.ofNat 7 (192 + 16 * e + k) := by decide +kernel

theorem signOf_toNat (x : DWord) : fmtDouble.signOf x.toNat = x.msb := by
  rw [BitVec.msb_eq_getLsbD_last]
  rfl

theorem compress_fst (x : DWord) : (compress x).1 = BitVec.ofBool x.msb ++ compressMag (halfMag x) := by
  have hsign : (if fmtDouble.signOf x.toNat then 1 else 0 : BitVec 1) = BitVec.ofBool x.msb := by
    rw [signOf_toNat]
    cases x.msb <;> rfl
  simp only [compress, hsign, expOf_eq, fracOf_eq, ← halfMag.eq_1, compressMag]
  generalize halfMag x = c
  rw [show fmtHalf.fracBits = 10 from rfl]
  by_cases hwin : 12 ≤ c / 2 ^ 10 ∧ c / 2 ^ 10 ≤ 19
  · have hbits := window_bits x.msb ⟨c / 2 ^ 10 - 12, by omega⟩ ⟨c % 2 ^ 10 / 2 ^ 6, by omega⟩
    dsimp only at hbits
    rw [Nat.sub_add_cancel hwin.1] at hbits
    rw [if_pos hwin, hbits]
    congr 2
    omega
  · rw [if_neg hwin]
    by_cases hlow : c / 2 ^ 10 < 12
    · rw [if_pos hlow, max_eq_left (by omega)]
      cases x.msb <;> rfl
    · rw [if_neg hlow, min_eq_right (by omega)]
      cases x.msb <;> rfl

theorem extractLsb'_msb (x : DWord) : x.extractLsb' 63 1 = BitVec.ofBool x.msb := by
  rw [BitVec.msb_eq_getLsbD_last]
  ext i hi
  obtain rfl : i = 0 := by omega
  simp

/-- The fields of the binary16 code are those of its magnitude. -/
theorem toHalf_magnitude (x : DWord) (h : BitVec 16) (hh : h = BitVec.ofNat 16 (toHalf x)) : h.toNat % 2 ^ 15 = halfMag x := by
  subst hh
  rw [BitVec.toNat_ofNat, Nat.mod_mod_of_dvd _ (by decide)]
  rfl

/-- R187: the exponent less 16 in three bits and the four bits below it are seven bits of the code. -/
theorem window_extract (h : BitVec 16) : (h.extractLsb' 10 5 - 16#5).extractLsb' 0 3 ++ h.extractLsb' 6 4 = h.extractLsb' 6 7 := by
  have hlow : ∀ e : BitVec 5, (e - 16#5).extractLsb' 0 3 = e.extractLsb' 0 3 := by decide
  have hnest : (h.extractLsb' 10 5).extractLsb' 0 3 = h.extractLsb' 10 3 := by
    ext i hi
    simp [show i < 5 by omega]
  rw [hlow, hnest]
  exact BitVec.extractLsb'_append_extractLsb'_eq_extractLsb' rfl

/-- R187, read off the binary16 code. -/
theorem compress_windows (x : DWord) (h : BitVec 16) (hh : h = BitVec.ofNat 16 (toHalf x)) :
    (12 ≤ (h.extractLsb' 10 5).toNat → (h.extractLsb' 10 5).toNat ≤ 19 →
      (compress x).1 = x.extractLsb' 63 1 ++ (h.extractLsb' 10 5 - 16#5).extractLsb' 0 3 ++ h.extractLsb' 6 4)
    ∧ ((h.extractLsb' 10 5).toNat < 12 → (compress x).1 = x.extractLsb' 63 1 ++ 0x40#7)
    ∧ (19 < (h.extractLsb' 10 5).toNat → (compress x).1 = x.extractLsb' 63 1 ++ 0x3F#7) := by
  have hmag := toHalf_magnitude x h hh
  have hexp : (h.extractLsb' 10 5).toNat = halfMag x / 2 ^ 10 := by
    rw [BitVec.extractLsb'_toNat, Nat.shiftRight_eq_div_pow]
    omega
  rw [compress_fst, extractLsb'_msb, hexp, compressMag]
  refine ⟨fun hlo hhi => ?_, fun hlow => ?_, fun hhigh => ?_⟩
  · have hassoc : BitVec.ofBool x.msb ++ (h.extractLsb' 10 5 - 16#5).extractLsb' 0 3 ++ h.extractLsb' 6 4
        = BitVec.ofBool x.msb ++ h.extractLsb' 6 7 := by
      rw [← window_extract]
      exact BitVec.append_assoc
    rw [hassoc]
    congr 1
    apply BitVec.eq_of_toNat_eq
    rw [BitVec.toNat_ofNat, BitVec.extractLsb'_toNat, Nat.shiftRight_eq_div_pow]
    omega
  · rw [max_eq_left (by omega)]
    rfl
  · rw [min_eq_right (by omega)]
    rfl

/-! ### The sign, the order and the two ends (R189) -/

theorem toNat_flip (x : DWord) : (x ^^^ 0x8000000000000000).toNat % 2 ^ 63 = x.toNat % 2 ^ 63 := by
  rw [BitVec.toNat_xor, Nat.xor_mod_two_pow]
  simp

theorem inFp8Set_of_magnitude {x y : DWord} (h : magOf fmtDouble x.toNat = magOf fmtDouble y.toNat) : inFp8Set x = inFp8Set y := by
  simp only [inFp8Set, expOf_eq, fracOf_eq, h]

theorem compress_flip (x : DWord) : compress (x ^^^ 0x8000000000000000) = ((compress x).1 ^^^ 0x80, (compress x).2) := by
  have hmag : magOf fmtDouble (x ^^^ 0x8000000000000000).toNat = magOf fmtDouble x.toNat := toNat_flip x
  have hhalf := le_antisymm (halfMag_mono hmag.le) (halfMag_mono hmag.ge)
  have hmsb : (x ^^^ 0x8000000000000000).msb = !x.msb := by
    rw [BitVec.msb_xor]
    exact Bool.xor_true _
  have hbits : ∀ (s : Bool) (c : BitVec 7), BitVec.ofBool (!s) ++ c = (BitVec.ofBool s ++ c) ^^^ 0x80#8 := by decide +kernel
  refine Prod.ext ?_ ?_
  · dsimp only
    rw [compress_fst, compress_fst, hhalf, hmsb]
    exact hbits _ _
  · exact congrArg not (inFp8Set_of_magnitude hmag)

/-- A compressed magnitude expands to a code that increases with it. -/
theorem imm8ToDouble_window : ∀ j : Fin 128,
    (imm8ToDouble (BitVec.ofBool false ++ BitVec.ofNat 7 (192 + j))).toNat = 1020 * 2 ^ 52 + j * 2 ^ 48 := by decide +kernel

theorem imm8ToDouble_compressMag (c : Nat) :
    (imm8ToDouble (BitVec.ofBool false ++ compressMag c)).toNat = 1020 * 2 ^ 52 + (max 192 (min (c / 64) 319) - 192) * 2 ^ 48 := by
  have hwindow := imm8ToDouble_window ⟨max 192 (min (c / 64) 319) - 192, by omega⟩
  dsimp only at hwindow
  rwa [Nat.add_sub_cancel' (le_max_left _ _)] at hwindow

theorem magOf_positive {x : DWord} (h : x.toNat < 2 ^ 63) : magOf fmtDouble x.toNat = x.toNat := Nat.mod_eq_of_lt h

/-- Below 2 to the 63 the codes are the magnitudes of positive values. -/
theorem compress_positive {x : DWord} (h : x.toNat < 2 ^ 63) : (compress x).1 = BitVec.ofBool false ++ compressMag (halfMag x) := by
  rw [compress_fst, BitVec.msb_eq_false_iff_two_mul_lt.mpr (by omega)]

theorem halfMag_mono_positive {x y : DWord} (h : x.toNat ≤ y.toNat) (hy : y.toNat < 2 ^ 63) : halfMag x ≤ halfMag y := by
  refine halfMag_mono ?_
  rwa [magOf_positive hy, magOf_positive (h.trans_lt hy)]

theorem compress_mono {x y : DWord} (h : x.toNat ≤ y.toNat) (hy : y.toNat < 2 ^ 63) :
    (imm8ToDouble (compress x).1).toNat ≤ (imm8ToDouble (compress y).1).toNat := by
  have hmono := halfMag_mono_positive h hy
  rw [compress_positive hy, compress_positive (h.trans_lt hy), imm8ToDouble_compressMag, imm8ToDouble_compressMag]
  have := Nat.div_le_div_right (c := 64) hmono
  omega

theorem halfMag_eighth : halfMag 0x3FC0000000000000 = 192 * 64 := by decide +kernel

theorem halfMag_thirtyOne : halfMag 0x403F000000000000 = 319 * 64 := by decide +kernel

theorem compress_below {x : DWord} (h : x.toNat < 0x3FC0000000000000) : (compress x).1 = 0x40 := by
  have hmono := halfMag_mono_positive (y := 0x3FC0000000000000) h.le (by decide)
  rw [halfMag_eighth] at hmono
  rw [compress_positive (by omega), compressMag, max_eq_left (by omega)]
  rfl

theorem compress_above {x : DWord} (h : 0x403F000000000000 ≤ x.toNat) (hx : x.toNat < 2 ^ 63) : (compress x).1 = 0x3F := by
  have hmono := halfMag_mono_positive (x := 0x403F000000000000) h hx
  rw [halfMag_thirtyOne] at hmono
  rw [compress_positive hx, compressMag, min_eq_right (by omega)]
  rfl

/-- Settles O35. -/
theorem compressionIsMonotoneAndSaturates : Obligations.CompressionIsMonotoneAndSaturates :=
  ⟨fun x => compress_windows x _ rfl, compress_flip, fun _ _ h hy => compress_mono h (by omega), fun _ => compress_below,
    fun _ => compress_above⟩

end Sys2Proof.Proofs
end

section
/-! SUPPORT. Rounding in every mode, with its flags (R225): the two codes around the exact magnitude, which of them a mode takes, and that
`roundPack` answers the correctly rounded code with the flags of that rounding. -/

namespace Sys2Proof.Proofs

open Machine Safety

/-! ### The largest finite magnitude and the next one -/

/-- The magnitude after the largest finite one is the next power of two. -/
theorem magVal_infMag {f : FpFormat} (hE : 2 ≤ f.expBits) : magVal f (infMag f) = 2 ^ (f.bias + 1) := by
  have hpow : 2 ^ f.expBits = 2 ^ (f.expBits - 1) * 2 := (Nat.two_pow_pred_mul_two (by omega)).symm
  have htwo : 2 ^ 1 ≤ 2 ^ (f.expBits - 1) := Nat.pow_le_pow_right two_pos (by omega)
  have hmax : f.maxExp = 2 + (2 * f.bias - 1) := by
    simp only [FpFormat.maxExp, FpFormat.bias]
    omega
  have hexp : quantumExp f + (2 * f.bias - 1 : Nat) = (f.bias + 1 : Nat) - (f.fracBits + 1 : Nat) := by
    simp only [quantumExp, FpFormat.minExp, FpFormat.bias]
    omega
  rw [infMag, hmax, Nat.add_mul, ← pow_succ', magVal_add_mul le_rfl (.inr (Nat.pow_le_pow_right two_pos (Nat.le_succ _))), hexp,
    zpow_sub₀ two_ne_zero, zpow_natCast, zpow_natCast]
  push_cast
  field_simp

theorem magVal_infMag_pred {f : FpFormat} (hE : 2 ≤ f.expBits) : magVal f (infMag f - 1) = maxFinite f := by
  have hbound := two_mul_overflowBound hE
  rw [magVal_infMag hE, overflowBound, zpow_neg, zpow_add₀ two_ne_zero, zpow_natCast, zpow_natCast, pow_succ] at hbound
  rw [maxFinite, zpow_neg, zpow_natCast, zpow_natCast, eq_sub_of_add_eq hbound.symm]
  field_simp
  ring

theorem maxFinite_pos {f : FpFormat} (hE : 2 ≤ f.expBits) (hF : 1 ≤ f.fracBits) : 0 < maxFinite f := by
  have heven : 2 ∣ infMag f := Dvd.dvd.mul_left (dvd_pow_self 2 (by omega)) _
  have hpos := infMag_pos hE
  have hstep : magVal f 0 < magVal f (infMag f - 1) := magVal_strictMono f (by omega)
  rw [← magVal_infMag_pred hE]
  exact (magVal_nonneg f 0).trans_lt hstep

/-- The smallest normal magnitude has the code of the lowest exponent field. -/
theorem magVal_minNormal (f : FpFormat) : magVal f (2 ^ f.fracBits) = 2 ^ f.minExp := by
  have hunits := magVal_add_mul (f := f) (n := 2 ^ f.fracBits) (k := 0) (Nat.pow_le_pow_right two_pos (Nat.le_succ _)) (.inl rfl)
  rw [Nat.zero_mul, Nat.add_zero] at hunits
  rw [hunits, quantumExp, Nat.cast_pow, Nat.cast_ofNat, ← zpow_natCast, ← zpow_add₀ two_ne_zero]
  congr 1
  omega

/-! ### Exact magnitudes -/

theorem magVal_cutMag_eq_iff {m : Nat} (hm : m ≠ 0) (f : FpFormat) (e : Int) :
    magVal f (cutMag f m e) = m * 2 ^ e ↔ dropped f m e = 0 := by
  have hunit : (dropUnit f m e : ℚ) ≠ 0 := by simp [dropUnit]
  have hplace : (2 : ℚ) ^ lastPlace f m e ≠ 0 := by positivity
  rw [magVal_cutMag hm, exact_eq_kept f m e, mul_left_inj' hplace, left_eq_add, div_eq_zero_iff]
  simp [hunit]

theorem roundsUp_zero (mode : RMode) (s : Bool) (n : Nat) {unit : Nat} (h : 0 < unit) : roundsUp mode s n 0 unit = false := by
  cases mode <;> simp [roundsUp]
  omega

/-- A magnitude that has a code is rounded to it, and nothing is discarded. -/
theorem exact_of_magVal {m : Nat} (hm : m ≠ 0) {f : FpFormat} {e : Int} {c : Nat} (h : magVal f c = m * 2 ^ e) (mode : RMode)
    (s : Bool) : dropped f m e = 0 ∧ roundMag f mode s m e = c := by
  have hlo : magVal f (cutMag f m e) ≤ magVal f c := h ▸ magVal_cutMag_le hm f e
  have hhi : magVal f c < magVal f (cutMag f m e + 1) := h ▸ lt_magVal_cutMag_succ hm f e
  have hcut : cutMag f m e = c := le_antisymm ((magVal_strictMono f).le_iff_le.mp hlo)
    (Nat.lt_succ_iff.mp ((magVal_strictMono f).lt_iff_lt.mp hhi))
  have hdrop := (magVal_cutMag_eq_iff hm f e).mp (hcut ▸ h)
  refine ⟨hdrop, ?_⟩
  rw [roundMag_eq, hdrop, roundsUp_zero _ _ _ (show 0 < dropUnit f m e from Nat.two_pow_pos _), hcut]
  rfl

/-! ### Away from zero and toward zero -/

/-- The code `c` is the first one whose magnitude is not below `a`. -/
def FirstAbove (f : FpFormat) (a : ℚ) (c : Nat) : Prop := ∀ d, a ≤ magVal f d ↔ c ≤ d

/-- The code `c` is the last one whose magnitude is not above `a`. -/
def LastBelow (f : FpFormat) (a : ℚ) (c : Nat) : Prop := ∀ d, magVal f d ≤ a ↔ d ≤ c

theorem cutMag_lastBelow {m : Nat} (hm : m ≠ 0) (f : FpFormat) (e : Int) : LastBelow f (m * 2 ^ e) (cutMag f m e) := by
  have hmono := magVal_strictMono f
  refine fun d => ⟨fun h => ?_, fun h => (hmono.monotone h).trans (magVal_cutMag_le hm f e)⟩
  exact Nat.lt_succ_iff.mp (hmono.lt_iff_lt.mp (h.trans_lt (lt_magVal_cutMag_succ hm f e)))

/-- A mode that rounds every inexact magnitude up takes the first code above. -/
theorem roundMag_firstAbove {m : Nat} (hm : m ≠ 0) {f : FpFormat} {e : Int} {mode : RMode} {s : Bool}
    (h : ∀ n rem unit, roundsUp mode s n rem unit = decide (rem ≠ 0)) : FirstAbove f (m * 2 ^ e) (roundMag f mode s m e) := by
  intro d
  have hlast := cutMag_lastBelow hm f e
  have hexact := magVal_cutMag_eq_iff hm f e
  rw [roundMag_eq, h]
  by_cases hdrop : dropped f m e = 0
  · simp [hdrop, ← hexact.mpr hdrop, (magVal_strictMono f).le_iff_le]
  · have hne : magVal f d ≤ m * 2 ^ e → magVal f d ≠ m * 2 ^ e := fun _ heq => hdrop (exact_of_magVal hm heq mode s).1
    simp only [ne_eq, hdrop, not_false_eq_true, decide_true, if_true]
    rw [Nat.succ_le_iff, ← not_le, ← hlast d, not_le]
    exact ⟨fun hle => lt_of_le_of_ne hle fun heq => hne heq.ge heq.symm, le_of_lt⟩

/-- A mode that rounds nothing up takes the last code below. -/
theorem roundMag_lastBelow {m : Nat} (hm : m ≠ 0) {f : FpFormat} {e : Int} {mode : RMode} {s : Bool}
    (h : ∀ n rem unit, roundsUp mode s n rem unit = false) : LastBelow f (m * 2 ^ e) (roundMag f mode s m e) := by
  rw [roundMag_eq, h]
  exact cutMag_lastBelow hm f e

/-! ### What `roundPack` answers -/

/-- The largest magnitude a mode delivers for a sign: infinity's code or the largest finite one. -/
def topMag (f : FpFormat) (mode : RMode) (s : Bool) : Nat := if overflowsToInf mode s then infMag f else infMag f - 1

theorem roundPack_fst_eq_min {f : FpFormat} (hE : 2 ≤ f.expBits) (mode : RMode) (s : Bool) (m : Nat) (e : Int) :
    (f.roundPack mode false s m e).1 = f.code s 0 (min (roundMag f mode s m e) (topMag f mode s)) := by
  have hpos := infMag_pos hE
  rw [roundPack_fst, topMag]
  rcases lt_or_ge (roundMag f mode s m e) (infMag f) with hfin | hinf
  · rw [if_neg hfin.not_ge, min_eq_left (by split_ifs <;> omega)]
  · rw [if_pos hinf, min_eq_right (by split_ifs <;> omega)]
    have hmax : 0 < f.maxExp := Nat.pos_of_mul_pos_right hpos
    have hlast : (f.maxExp - 1) * 2 ^ f.fracBits + (2 ^ f.fracBits - 1) = infMag f - 1 := by
      have := Nat.two_pow_pos f.fracBits
      have := Nat.le_mul_of_pos_left (2 ^ f.fracBits) hmax
      rw [infMag, Nat.sub_mul]
      omega
    split_ifs
    · rw [code_eq]
      rfl
    · rw [code_eq, hlast]

theorem topMag_le (f : FpFormat) (mode : RMode) (s : Bool) : topMag f mode s ≤ infMag f := by
  unfold topMag
  split_ifs <;> omega

theorem roundPack_signOf {f : FpFormat} (hE : 2 ≤ f.expBits) (mode : RMode) (s : Bool) (m : Nat) (e : Int) :
    f.signOf (f.roundPack mode false s m e).1 = s := by
  rw [roundPack_fst_eq_min hE]
  exact signOf_code s (((min_le_right _ _).trans (topMag_le f mode s)).trans_lt (infMag_lt f))

/-- The flags: overflow and inexact together, or inexact with underflow for a value that is tiny. -/
theorem roundPack_snd (f : FpFormat) (mode : RMode) (s : Bool) (m : Nat) (e : Int) :
    (f.roundPack mode false s m e).2
      = if infMag f ≤ roundMag f mode s m e then { Fpsr.none with ofc := true, ixc := true }
        else { Fpsr.none with
          ufc := decide ((Nat.log2 m : Int) + e < f.minExp) && decide (dropped f m e ≠ 0), ixc := decide (dropped f m e ≠ 0) } := by
  simp only [FpFormat.roundPack, Bool.and_false, Bool.false_eq_true, if_false]
  exact apply_ite Prod.snd _ _ _

/-! ### The directed modes -/

theorem signFactor_mul_self (s : Bool) : signFactor s * signFactor s = 1 := by
  cases s <;> simp [signFactor]

theorem correctlyRounded_plusInf_of_inf {f : FpFormat} {v : ℚ} {x : Nat} {s : Bool} (h : f.unpack x = .inf s) :
    correctlyRounded f .plusInf v x ↔ s = false ∧ maxFinite f < v := by
  simp only [correctlyRounded, h]

theorem correctlyRounded_minusInf_of_inf {f : FpFormat} {v : ℚ} {x : Nat} {s : Bool} (h : f.unpack x = .inf s) :
    correctlyRounded f .minusInf v x ↔ s = true ∧ v < -maxFinite f := by
  simp only [correctlyRounded, h]

/-- A code with a value is a finite one. -/
theorem unpack_of_valueOf {f : FpFormat} {x : Nat} {u : ℚ} (h : valueOf f x = some u) :
    ∃ s m e, f.unpack x = .finite s m e ∧ u = signFactor s * (m * 2 ^ e) := by
  unfold valueOf at h
  cases hx : f.unpack x with
  | nan q => rw [hx] at h; cases h
  | inf s => rw [hx] at h; cases h
  | finite s m e =>
    rw [hx] at h
    exact ⟨s, m, e, rfl, (Option.some.inj h).symm.trans (mul_assoc _ _ _)⟩

theorem correctlyRounded_plusInf_of_value {f : FpFormat} {u v : ℚ} {x : Nat} (h : valueOf f x = some u) :
    correctlyRounded f .plusInf v x ↔ v ≤ u ∧ ∀ y z, valueOf f y = some z → v ≤ z → u ≤ z := by
  obtain ⟨s, m, e, hx, -⟩ := unpack_of_valueOf h
  rw [valueOf, hx] at h
  simp [correctlyRounded, hx, h]

theorem correctlyRounded_minusInf_of_value {f : FpFormat} {u v : ℚ} {x : Nat} (h : valueOf f x = some u) :
    correctlyRounded f .minusInf v x ↔ u ≤ v ∧ ∀ y z, valueOf f y = some z → z ≤ v → z ≤ u := by
  obtain ⟨s, m, e, hx, -⟩ := unpack_of_valueOf h
  rw [valueOf, hx] at h
  simp [correctlyRounded, hx, h]

theorem correctlyRounded_towardZero_of_value {f : FpFormat} {u v : ℚ} {x : Nat} (h : valueOf f x = some u) :
    correctlyRounded f .towardZero v x
      ↔ 0 ≤ u * v ∧ |u| ≤ |v| ∧ ∀ y z, valueOf f y = some z → |z| ≤ |v| → |z| ≤ |u| := by
  obtain ⟨s, m, e, hx, -⟩ := unpack_of_valueOf h
  rw [valueOf, hx] at h
  simp [correctlyRounded, hx, h]

/-- The value of a finite code has a finite code's magnitude. -/
theorem magOf_lt_of_value {f : FpFormat} {y : Nat} {z : ℚ} (h : valueOf f y = some z) : magOf f y < infMag f := by
  obtain ⟨s, m, e, hy, -⟩ := unpack_of_valueOf h
  exact magOf_lt_of_finite hy

/-- Among the finite values on the side of the sign, and on the other side, none is between the first one above and the exact value. -/
theorem FirstAbove.le_value {f : FpFormat} {a : ℚ} {c : Nat} (h : FirstAbove f a c) (ha : 0 < a) (s : Bool) {y : Nat} {z : ℚ}
    (hz : valueOf f y = some z) (hle : a ≤ signFactor s * z) : magVal f c ≤ signFactor s * z := by
  have habs : signFactor s * z = magVal f (magOf f y) := by
    rw [← abs_of_valueOf hz, ← abs_of_pos (ha.trans_le hle), abs_mul, abs_signFactor, one_mul]
  rw [habs] at hle ⊢
  exact (magVal_strictMono f).monotone ((h _).mp hle)

/-- The last code below, or the largest finite one before it, is beyond every finite value that is not beyond the exact one. -/
theorem LastBelow.value_le {f : FpFormat} {a : ℚ} {c : Nat} (h : LastBelow f a c) (s : Bool) {y : Nat} {z : ℚ}
    (hz : valueOf f y = some z) (hle : signFactor s * z ≤ a) : signFactor s * z ≤ magVal f (min c (infMag f - 1)) := by
  rcases le_or_gt (signFactor s * z) 0 with hneg | hpos
  · exact hneg.trans (magVal_nonneg f _)
  · have habs : signFactor s * z = magVal f (magOf f y) := by
      rw [← abs_of_valueOf hz, ← abs_of_pos hpos, abs_mul, abs_signFactor, one_mul]
    rw [habs] at hle ⊢
    exact (magVal_strictMono f).monotone (le_min ((h _).mp hle) (Nat.le_sub_one_of_lt (magOf_lt_of_value hz)))

theorem LastBelow.le {f : FpFormat} {a : ℚ} {c : Nat} (h : LastBelow f a c) : magVal f (min c (infMag f - 1)) ≤ a :=
  (h _).mpr (min_le_left _ _)

theorem LastBelow.infMag_le_iff {f : FpFormat} (hE : 2 ≤ f.expBits) {a : ℚ} {c : Nat} (h : LastBelow f a c) :
    infMag f ≤ c ↔ 2 ^ (f.bias + 1) ≤ a := by
  rw [← h, magVal_infMag hE]

theorem FirstAbove.infMag_le_iff {f : FpFormat} (hE : 2 ≤ f.expBits) {a : ℚ} {c : Nat} (h : FirstAbove f a c) :
    infMag f ≤ c ↔ maxFinite f < a := by
  have hpos := infMag_pos hE
  rw [← magVal_infMag_pred hE, ← not_le, h, not_le]
  omega

/-- The mode rounds the magnitude of this sign up whenever it is inexact, and an overflow to infinity. -/
def Away (mode : RMode) (s : Bool) : Prop := (mode = .plusInf ∧ s = false) ∨ (mode = .minusInf ∧ s = true)

/-- The mode truncates the magnitude of this sign. -/
def Truncates (mode : RMode) (s : Bool) : Prop :=
  (mode = .plusInf ∧ s = true) ∨ (mode = .minusInf ∧ s = false) ∨ mode = .towardZero

theorem mode_cases (mode : RMode) (s : Bool) : mode = .tieEven ∨ Away mode s ∨ Truncates mode s := by
  cases mode <;> cases s <;> simp [Away, Truncates]

theorem Away.roundsUp {mode : RMode} {s : Bool} (h : Away mode s) (n rem unit : Nat) : roundsUp mode s n rem unit = decide (rem ≠ 0) := by
  rcases h with ⟨rfl, rfl⟩ | ⟨rfl, rfl⟩ <;> rfl

theorem Away.topMag {mode : RMode} {s : Bool} (h : Away mode s) (f : FpFormat) : topMag f mode s = infMag f := by
  rcases h with ⟨rfl, rfl⟩ | ⟨rfl, rfl⟩ <;> rfl

theorem Truncates.roundsUp {mode : RMode} {s : Bool} (h : Truncates mode s) (n rem unit : Nat) : roundsUp mode s n rem unit = false := by
  rcases h with ⟨rfl, rfl⟩ | ⟨rfl, rfl⟩ | rfl <;> rfl

theorem Truncates.topMag {mode : RMode} {s : Bool} (h : Truncates mode s) (f : FpFormat) : topMag f mode s = infMag f - 1 := by
  rcases h with ⟨rfl, rfl⟩ | ⟨rfl, rfl⟩ | rfl <;> rfl

theorem Away.correctlyRounded {mode : RMode} {s : Bool} (h : Away mode s) {f : FpFormat} (hE : 2 ≤ f.expBits) {a : ℚ} (ha : 0 < a)
    {c : Nat} (hc : FirstAbove f a c) : correctlyRounded f mode (signFactor s * a) (f.code s 0 (min c (infMag f))) := by
  rcases lt_or_ge c (infMag f) with hfin | hinf
  · have hval := valueOf_code s hfin
    have hle : a ≤ magVal f c := (hc c).mpr le_rfl
    have hbest := fun y z => hc.le_value ha s (y := y) (z := z)
    rw [min_eq_left hfin.le]
    rcases h with ⟨rfl, rfl⟩ | ⟨rfl, rfl⟩
    · simp only [signFactor, Bool.false_eq_true, if_false, one_mul] at hval hbest ⊢
      exact (correctlyRounded_plusInf_of_value hval).mpr ⟨hle, hbest⟩
    · simp only [signFactor, if_true, neg_one_mul] at hval hbest ⊢
      exact (correctlyRounded_minusInf_of_value hval).mpr
        ⟨neg_le_neg hle, fun y z hz hza => le_neg_of_le_neg (hbest y z hz (le_neg_of_le_neg hza))⟩
  · have hover := (hc.infMag_le_iff hE).mp hinf
    rw [min_eq_right hinf]
    rcases h with ⟨rfl, rfl⟩ | ⟨rfl, rfl⟩
    · rw [correctlyRounded_plusInf_of_inf (unpack_code_infMag f _)]
      simpa [signFactor] using hover
    · rw [correctlyRounded_minusInf_of_inf (unpack_code_infMag f _)]
      simpa [signFactor] using hover

theorem Truncates.correctlyRounded {mode : RMode} {s : Bool} (h : Truncates mode s) {f : FpFormat} (hE : 2 ≤ f.expBits) {a : ℚ}
    (ha : 0 < a) {c : Nat} (hc : LastBelow f a c) :
    correctlyRounded f mode (signFactor s * a) (f.code s 0 (min c (infMag f - 1))) := by
  have hpos := infMag_pos hE
  have hval := valueOf_code s (show min c (infMag f - 1) < infMag f by omega)
  have hle := hc.le
  have hbest := fun s y z => hc.value_le s (y := y) (z := z)
  rcases h with ⟨rfl, rfl⟩ | ⟨rfl, rfl⟩ | rfl
  · have hneg := hbest true
    simp only [signFactor, if_true, neg_one_mul] at hval hneg ⊢
    exact (correctlyRounded_plusInf_of_value hval).mpr
      ⟨neg_le_neg hle, fun y z hz hza => neg_le_of_neg_le (hneg y z hz (neg_le_of_neg_le hza))⟩
  · have hplus := hbest false
    simp only [signFactor, Bool.false_eq_true, if_false, one_mul] at hval hplus ⊢
    exact (correctlyRounded_minusInf_of_value hval).mpr ⟨hle, hplus⟩
  · rw [correctlyRounded_towardZero_of_value hval, abs_mul, abs_mul, abs_signFactor, abs_magVal, abs_of_pos ha, one_mul, one_mul,
      mul_mul_mul_comm, signFactor_mul_self, one_mul]
    refine ⟨mul_nonneg (magVal_nonneg f _) ha.le, hle, fun y z hz hza => abs_le'.mpr ⟨?_, ?_⟩⟩
    · simpa [signFactor] using hbest false y z hz (by simpa [signFactor] using (le_abs_self z).trans hza)
    · simpa [signFactor] using hbest true y z hz (by simpa [signFactor] using (neg_le_abs z).trans hza)

/-- R225: in every mode `roundPack` answers the correctly rounded code. -/
theorem roundPack_correctlyRounded {f : FpFormat} (hE : 2 ≤ f.expBits) (hF : 1 ≤ f.fracBits) (mode : RMode) (s : Bool) {m : Nat}
    (hm : m ≠ 0) (e : Int) :
    correctlyRounded f mode (signFactor s * (m * 2 ^ e)) (f.roundPack mode false s m e).1 := by
  have hpos : (0 : ℚ) < m * 2 ^ e := mul_pos (by exact_mod_cast Nat.pos_of_ne_zero hm) (by positivity)
  rcases mode_cases mode s with rfl | haway | htrunc
  · exact roundPack_tieEven_correctlyRounded hE hF s hm e
  · rw [roundPack_fst_eq_min hE, haway.topMag]
    exact haway.correctlyRounded hE hpos (roundMag_firstAbove hm haway.roundsUp)
  · rw [roundPack_fst_eq_min hE, htrunc.topMag]
    exact htrunc.correctlyRounded hE hpos (roundMag_lastBelow hm htrunc.roundsUp)

/-! ### The flags -/

theorem overflows_tieEven (f : FpFormat) (v : ℚ) : overflows f .tieEven v ↔ overflowBound f ≤ |v| := Iff.rfl

theorem Away.overflows_iff {mode : RMode} {s : Bool} (h : Away mode s) (f : FpFormat) {a : ℚ} (ha : 0 < a) :
    overflows f mode (signFactor s * a) ↔ maxFinite f < a := by
  have hpow : (0 : ℚ) < 2 ^ (f.bias + 1) := by positivity
  rcases h with ⟨rfl, rfl⟩ | ⟨rfl, rfl⟩ <;>
    simp only [overflows, signFactor, if_true, Bool.false_eq_true, if_false, one_mul, neg_one_mul, neg_lt_neg_iff]
  · exact or_iff_left (by linarith)
  · exact or_iff_left (by linarith)

theorem Truncates.overflows_iff {mode : RMode} {s : Bool} (h : Truncates mode s) {f : FpFormat} (hmax : 0 < maxFinite f) {a : ℚ}
    (ha : 0 < a) : overflows f mode (signFactor s * a) ↔ 2 ^ (f.bias + 1) ≤ a := by
  rcases h with ⟨rfl, rfl⟩ | ⟨rfl, rfl⟩ | rfl
  · simp only [overflows, signFactor, if_true, neg_one_mul, neg_le_neg_iff]
    exact or_iff_right (by linarith)
  · simp only [overflows, signFactor, Bool.false_eq_true, if_false, one_mul]
    exact or_iff_right (by linarith)
  · simp only [overflows, abs_mul, abs_signFactor, one_mul, abs_of_pos ha]

/-- The rounded code reaches infinity's exactly where the rounding overflows. -/
theorem infMag_le_roundMag_iff {f : FpFormat} (hE : 2 ≤ f.expBits) (hF : 1 ≤ f.fracBits) (mode : RMode) (s : Bool) {m : Nat}
    (hm : m ≠ 0) (e : Int) : infMag f ≤ roundMag f mode s m e ↔ overflows f mode (signFactor s * (m * 2 ^ e)) := by
  have hpos : (0 : ℚ) < m * 2 ^ e := mul_pos (by exact_mod_cast Nat.pos_of_ne_zero hm) (by positivity)
  rcases mode_cases mode s with rfl | haway | htrunc
  · rw [(roundMag_nearestEven hF s hm e).infMag_le_iff hE hF, overflows_tieEven, abs_mul, abs_signFactor, one_mul, abs_of_pos hpos]
  · rw [(roundMag_firstAbove hm haway.roundsUp).infMag_le_iff hE, haway.overflows_iff f hpos]
  · rw [(roundMag_lastBelow hm htrunc.roundsUp).infMag_le_iff hE, htrunc.overflows_iff (maxFinite_pos hE hF) hpos]

/-- The code answered has the exact value exactly where nothing is discarded and nothing overflows. -/
theorem valueOf_roundPack_iff {f : FpFormat} (hE : 2 ≤ f.expBits) (mode : RMode) (s : Bool) {m : Nat} (hm : m ≠ 0) (e : Int) :
    valueOf f (f.roundPack mode false s m e).1 = some (signFactor s * (m * 2 ^ e))
      ↔ dropped f m e = 0 ∧ roundMag f mode s m e < infMag f := by
  have hfactor : signFactor s ≠ 0 := abs_pos.mp (by simp)
  have htop := topMag_le f mode s
  rw [roundPack_fst_eq_min hE]
  constructor
  · intro hval
    rcases (min_le_right (roundMag f mode s m e) (topMag f mode s)).trans htop |>.lt_or_eq with hlt | heq
    · rw [valueOf_code s hlt, Option.some_inj, mul_right_inj' hfactor] at hval
      obtain ⟨hdrop, hround⟩ := exact_of_magVal hm hval mode s
      exact ⟨hdrop, hround.trans_lt hlt⟩
    · rw [heq, valueOf, unpack_code_infMag] at hval
      cases hval
  · rintro ⟨hdrop, hlt⟩
    have hcut := (magVal_cutMag_eq_iff hm f e).mpr hdrop
    have hround := (exact_of_magVal hm hcut mode s).2
    have hmin : min (roundMag f mode s m e) (topMag f mode s) = cutMag f m e := by
      rw [hround] at hlt ⊢
      refine min_eq_left ?_
      unfold topMag
      split_ifs <;> omega
    rw [hmin, valueOf_code s (hround ▸ hlt), hcut]

/-- The exponent of the leading bit says whether the magnitude is below the smallest normal one. -/
theorem tiny_iff {m : Nat} (hm : m ≠ 0) (f : FpFormat) (e : Int) :
    (Nat.log2 m : Int) + e < f.minExp ↔ (m : ℚ) * 2 ^ e < 2 ^ f.minExp := by
  have hlo : (2 : ℚ) ^ m.log2 ≤ m := by exact_mod_cast Nat.log2_self_le hm
  have hhi : (m : ℚ) < 2 ^ (m.log2 + 1) := by exact_mod_cast Nat.lt_log2_self
  have hscale : (0 : ℚ) < 2 ^ e := by positivity
  constructor
  · intro hlt
    calc (m : ℚ) * 2 ^ e
      _ < 2 ^ (m.log2 + 1) * 2 ^ e := by gcongr
      _ = 2 ^ ((m.log2 : Int) + 1 + e) := by
        rw [zpow_add₀ two_ne_zero]
        congr 1
      _ ≤ 2 ^ f.minExp := zpow_le_zpow_right₀ one_le_two (by omega)
  · intro hlt
    have hchain : (2 : ℚ) ^ ((m.log2 : Int) + e) < 2 ^ f.minExp := by
      rw [zpow_add₀ two_ne_zero, zpow_natCast]
      exact (mul_le_mul_of_nonneg_right hlo hscale.le).trans_lt hlt
    exact (zpow_lt_zpow_iff_right₀ one_lt_two).mp hchain

/-- A magnitude below the smallest normal one does not overflow. -/
theorem roundMag_lt_of_tiny {f : FpFormat} (hE : 2 ≤ f.expBits) {m : Nat} (hm : m ≠ 0) (mode : RMode) (s : Bool) {e : Int}
    (h : (m : ℚ) * 2 ^ e < 2 ^ f.minExp) : roundMag f mode s m e < infMag f := by
  have hcut : cutMag f m e < 2 ^ f.fracBits := by
    rw [← (magVal_strictMono f).lt_iff_lt, magVal_minNormal]
    exact (magVal_cutMag_le hm f e).trans_lt h
  have hround : roundMag f mode s m e ≤ cutMag f m e + 1 := by
    rw [roundMag_eq]
    split_ifs <;> omega
  have hmax : 2 ≤ f.maxExp := by
    have := Nat.pow_le_pow_right two_pos hE
    rw [FpFormat.maxExp]
    omega
  have hinf : 2 * 2 ^ f.fracBits ≤ infMag f := Nat.mul_le_mul_right _ hmax
  omega

/-- R225: the result and the flags of `roundPack` are those of rounding the exact value. -/
theorem roundPack_roundsTo {f : FpFormat} (hE : 2 ≤ f.expBits) (hF : 1 ≤ f.fracBits) (mode : RMode) (s : Bool) {m : Nat}
    (hm : m ≠ 0) (e : Int) : roundsTo f mode (signFactor s * (m * 2 ^ e)) (f.roundPack mode false s m e) := by
  have hpos : (0 : ℚ) < m * 2 ^ e := mul_pos (by exact_mod_cast Nat.pos_of_ne_zero hm) (by positivity)
  have hround := roundPack_correctlyRounded hE hF mode s hm e
  have hover := infMag_le_roundMag_iff hE hF mode s hm e
  have hvalue := valueOf_roundPack_iff hE mode s hm e
  have htiny := tiny_iff hm f e
  have hsmall := roundMag_lt_of_tiny hE hm mode s (e := e)
  rw [roundsTo, hvalue, ← hover, roundPack_snd, abs_mul, abs_signFactor, one_mul, abs_of_pos hpos]
  refine ⟨hround, ?_⟩
  by_cases hinf : infMag f ≤ roundMag f mode s m e
  · have hnormal : ¬ (m : ℚ) * 2 ^ e < 2 ^ f.minExp := fun hlt => (hsmall hlt).not_ge hinf
    rw [if_pos hinf]
    simp [Fpsr.none, hinf, hnormal]
  · rw [if_neg hinf]
    simp [Fpsr.none, htiny, lt_of_not_ge hinf]

end Sys2Proof.Proofs
end

section
/-! SUPPORT. FADD and FMUL (R225): the exact sum and product, their rounding, and the special operands. -/

namespace Sys2Proof.Proofs

open Machine Safety

/-! ### An exact value, rounded -/

theorem two_le_expBits (t : FType) : 2 ≤ (formatOf t).expBits := by cases t <;> decide

theorem one_le_fracBits (t : FType) : 1 ≤ (formatOf t).fracBits := by cases t <;> decide

theorem valueOf_zero {f : FpFormat} (hE : 2 ≤ f.expBits) (s : Bool) : valueOf f (f.code s 0 0) = some 0 := by
  simp [valueOf_code s (infMag_pos hE), magVal, magQuanta]

theorem overflows_zero {f : FpFormat} (hE : 2 ≤ f.expBits) (hF : 1 ≤ f.fracBits) (mode : RMode) : ¬ overflows f mode 0 := by
  have hpow : (0 : ℚ) < 2 ^ (f.bias + 1) := by positivity
  have hbound := overflowBound_pos hE
  have hmax := maxFinite_pos hE hF
  cases mode <;> simp only [overflows, abs_zero]
  case tieEven => exact hbound.not_ge
  case plusInf => exact not_or.mpr ⟨hmax.not_gt, by linarith⟩
  case minusInf => exact not_or.mpr ⟨by linarith, hpow.not_ge⟩
  case towardZero => exact hpow.not_ge

/-- An exact zero of either sign is its own rounding, with no flag. -/
theorem zero_roundsTo {f : FpFormat} (hE : 2 ≤ f.expBits) (hF : 1 ≤ f.fracBits) (mode : RMode) (s : Bool) :
    roundsTo f mode 0 (f.code s 0 0, Fpsr.none) := by
  have hval := valueOf_zero hE s
  have hround : correctlyRounded f mode 0 (f.code s 0 0) := by
    cases mode
    case tieEven => exact zero_correctlyRounded hE s
    case plusInf => exact (correctlyRounded_plusInf_of_value hval).mpr ⟨le_rfl, fun _ _ _ => id⟩
    case minusInf => exact (correctlyRounded_minusInf_of_value hval).mpr ⟨le_rfl, fun _ _ _ => id⟩
    case towardZero => exact (correctlyRounded_towardZero_of_value hval).mpr ⟨by simp, le_rfl, fun _ _ _ => id⟩
  refine ⟨hround, ?_⟩
  simp [Fpsr.none, hval, overflows_zero hE hF mode]

theorem signFactor_natAbs (v : Int) : signFactor (decide (v < 0)) * (v.natAbs : ℚ) = v := by
  rw [Nat.cast_natAbs]
  rcases lt_or_ge v 0 with hneg | hpos
  · simp [signFactor, hneg, abs_of_neg hneg]
  · simp [signFactor, hpos.not_gt, abs_of_nonneg hpos]

theorem fpFinish_roundsTo {c : Fpcr} {t : FType} (hflush : c.flushes t = false) (v e : Int) (zeroSign : Bool) :
    roundsTo (formatOf t) c.rmode (v * 2 ^ e) (fpFinish c t v e zeroSign) := by
  rw [fpFinish, hflush]
  split_ifs with hv
  · simpa [hv] using zero_roundsTo (two_le_expBits t) (one_le_fracBits t) c.rmode zeroSign
  · rw [← signFactor_natAbs v, mul_assoc]
    exact roundPack_roundsTo (two_le_expBits t) (one_le_fracBits t) _ _ (Int.natAbs_ne_zero.mpr hv) e

theorem fpFinish_signOf {c : Fpcr} {t : FType} (hflush : c.flushes t = false) (v e : Int) (zeroSign : Bool) :
    (formatOf t).signOf (fpFinish c t v e zeroSign).1 = if v = 0 then zeroSign else decide (v < 0) := by
  rw [fpFinish, hflush]
  split_ifs with hv
  · exact signOf_code _ (Nat.two_pow_pos _)
  · exact roundPack_signOf (two_le_expBits t) _ _ _ _

/-! ### The exact sum and product -/

theorem signedOf_cast (s : Bool) (m : Nat) : (signedOf s m : ℚ) = signFactor s * m := by
  cases s <;> simp [signedOf, signFactor]

theorem signedOf_eq_zero_iff (s : Bool) (m : Nat) : signedOf s m = 0 ↔ m = 0 := by
  cases s <;> simp [signedOf]

theorem decide_signedOf_neg (s : Bool) {m : Nat} (h : 0 < m) : decide (signedOf s m < 0) = s := by
  cases s <;> simp [signedOf, h]

theorem signFactor_xor (a b : Bool) : signFactor (a != b) = signFactor a * signFactor b := by
  cases a <;> cases b <;> simp [signFactor]

/-- A magnitude counted in units of a lower exponent. -/
theorem signedOf_scaled (s : Bool) (m : Nat) {e low : Int} (h : low ≤ e) :
    (signedOf s (m * 2 ^ (e - low).toNat) : ℚ) * 2 ^ low = signFactor s * (m * 2 ^ e) := by
  have hexp : ((e - low).toNat : Int) + low = e := by omega
  have hpow : (2 : ℚ) ^ (e - low).toNat * 2 ^ low = 2 ^ e := by
    rw [← zpow_natCast, ← zpow_add₀ two_ne_zero, hexp]
  rw [signedOf_cast]
  push_cast
  rw [← hpow]
  ring

/-- The exact sum of two finite values, in units of the lower exponent. -/
def sumUnits (sa : Bool) (ma : Nat) (ea : Int) (sb : Bool) (mb : Nat) (eb : Int) : Int :=
  signedOf sa (ma * 2 ^ (ea - min ea eb).toNat) + signedOf sb (mb * 2 ^ (eb - min ea eb).toNat)

theorem sumUnits_value (sa : Bool) (ma : Nat) (ea : Int) (sb : Bool) (mb : Nat) (eb : Int) :
    (sumUnits sa ma ea sb mb eb : ℚ) * 2 ^ min ea eb = signFactor sa * (ma * 2 ^ ea) + signFactor sb * (mb * 2 ^ eb) := by
  rw [sumUnits, Int.cast_add, add_mul, signedOf_scaled sa ma (min_le_left _ _), signedOf_scaled sb mb (min_le_right _ _)]

/-- Two values of one sign have an exact sum of zero only if both are zero. -/
theorem zeros_of_sumUnits {s : Bool} {ma mb : Nat} {ea eb : Int} (h : sumUnits s ma ea s mb eb = 0) : ma = 0 ∧ mb = 0 := by
  have hsum : ma * 2 ^ (ea - min ea eb).toNat + mb * 2 ^ (eb - min ea eb).toNat = 0 := by
    cases s <;> simp only [sumUnits, signedOf, if_true, Bool.false_eq_true, if_false] at h <;> omega
  obtain ⟨ha, hb⟩ := Nat.add_eq_zero_iff.mp hsum
  exact ⟨(Nat.mul_eq_zero.mp ha).resolve_right (Nat.two_pow_pos _).ne', (Nat.mul_eq_zero.mp hb).resolve_right (Nat.two_pow_pos _).ne'⟩

theorem prod_value (sa : Bool) (ma : Nat) (ea : Int) (sb : Bool) (mb : Nat) (eb : Int) :
    (signedOf (sa != sb) (ma * mb) : ℚ) * 2 ^ (ea + eb) = signFactor sa * (ma * 2 ^ ea) * (signFactor sb * (mb * 2 ^ eb)) := by
  rw [signedOf_cast, signFactor_xor, zpow_add₀ two_ne_zero]
  push_cast
  ring

/-! ### FADD and FMUL without flush-to-zero -/

theorem fpOperand_of_not_flushes {c : Fpcr} {t : FType} (h : c.flushes t = false) (x : Nat) : fpOperand c t x = (x, Fpsr.none) := by
  simp [fpOperand, h]

theorem fpsr_none_or (f : Fpsr) : (Fpsr.none.or Fpsr.none).or f = f := by
  simp [Fpsr.or, Fpsr.none]

theorem fpAdd_of_not_flushes {c : Fpcr} {t : FType} (h : c.flushes t = false) (x y : Nat) : fpAdd c t x y = fpAddValues c t x y := by
  simp only [fpAdd, fpOperand_of_not_flushes h, fpsr_none_or]

theorem fpMul_of_not_flushes {c : Fpcr} {t : FType} (h : c.flushes t = false) (x y : Nat) : fpMul c t x y = fpMulValues c t x y := by
  simp only [fpMul, fpOperand_of_not_flushes h, fpsr_none_or]

theorem fpAddValues_finite {t : FType} {x y : Nat} {sa sb : Bool} {ma mb : Nat} {ea eb : Int}
    (hx : (formatOf t).unpack x = .finite sa ma ea) (hy : (formatOf t).unpack y = .finite sb mb eb) (c : Fpcr) :
    fpAddValues c t x y = fpFinish c t (sumUnits sa ma ea sb mb eb) (min ea eb)
      (if ma = 0 ∧ mb = 0 ∧ sa = sb then sa else decide (c.rmode = .minusInf)) := by
  rw [fpAddValues, hx, hy]
  rfl

theorem fpMulValues_finite {t : FType} {x y : Nat} {sa sb : Bool} {ma mb : Nat} {ea eb : Int}
    (hx : (formatOf t).unpack x = .finite sa ma ea) (hy : (formatOf t).unpack y = .finite sb mb eb) (c : Fpcr) :
    fpMulValues c t x y = fpFinish c t (signedOf (sa != sb) (ma * mb)) (ea + eb) (sa != sb) := by
  rw [fpMulValues, hx, hy]

theorem fpAdd_roundsTo {c : Fpcr} {t : FType} (hflush : c.flushes t = false) {x y : Nat} {u v : ℚ}
    (hu : valueOf (formatOf t) x = some u) (hv : valueOf (formatOf t) y = some v) :
    roundsTo (formatOf t) c.rmode (u + v) (fpAdd c t x y) := by
  obtain ⟨sa, ma, ea, hx, rfl⟩ := unpack_of_valueOf hu
  obtain ⟨sb, mb, eb, hy, rfl⟩ := unpack_of_valueOf hv
  rw [fpAdd_of_not_flushes hflush, fpAddValues_finite hx hy, ← sumUnits_value]
  exact fpFinish_roundsTo hflush _ _ _

theorem fpMul_roundsTo {c : Fpcr} {t : FType} (hflush : c.flushes t = false) {x y : Nat} {u v : ℚ}
    (hu : valueOf (formatOf t) x = some u) (hv : valueOf (formatOf t) y = some v) :
    roundsTo (formatOf t) c.rmode (u * v) (fpMul c t x y) := by
  obtain ⟨sa, ma, ea, hx, rfl⟩ := unpack_of_valueOf hu
  obtain ⟨sb, mb, eb, hy, rfl⟩ := unpack_of_valueOf hv
  rw [fpMul_of_not_flushes hflush, fpMulValues_finite hx hy, ← prod_value]
  exact fpFinish_roundsTo hflush _ _ _

/-- The sign of an exact zero sum. -/
theorem fpAdd_zero_sign {c : Fpcr} {t : FType} (hflush : c.flushes t = false) {x y : Nat} {u v : ℚ}
    (hu : valueOf (formatOf t) x = some u) (hv : valueOf (formatOf t) y = some v) (hzero : u + v = 0) :
    (formatOf t).signOf (fpAdd c t x y).1
      = if (formatOf t).signOf x = (formatOf t).signOf y then (formatOf t).signOf x else decide (c.rmode = .minusInf) := by
  obtain ⟨sa, ma, ea, hx, rfl⟩ := unpack_of_valueOf hu
  obtain ⟨sb, mb, eb, hy, rfl⟩ := unpack_of_valueOf hv
  have hunits : sumUnits sa ma ea sb mb eb = 0 := by
    rw [← sumUnits_value, mul_eq_zero] at hzero
    exact_mod_cast hzero.resolve_right (zpow_ne_zero _ two_ne_zero)
  rw [fpAdd_of_not_flushes hflush, fpAddValues_finite hx hy, fpFinish_signOf hflush, if_pos hunits, ← unpack_finite_sign hx,
    ← unpack_finite_sign hy]
  by_cases hsign : sa = sb
  · subst hsign
    obtain ⟨hma, hmb⟩ := zeros_of_sumUnits hunits
    rw [if_pos ⟨hma, hmb, rfl⟩, if_pos rfl]
  · rw [if_neg fun h => hsign h.2.2, if_neg hsign]

theorem fpMul_sign {c : Fpcr} {t : FType} (hflush : c.flushes t = false) {x y : Nat} {u v : ℚ}
    (hu : valueOf (formatOf t) x = some u) (hv : valueOf (formatOf t) y = some v) :
    (formatOf t).signOf (fpMul c t x y).1 = ((formatOf t).signOf x != (formatOf t).signOf y) := by
  obtain ⟨sa, ma, ea, hx, rfl⟩ := unpack_of_valueOf hu
  obtain ⟨sb, mb, eb, hy, rfl⟩ := unpack_of_valueOf hv
  rw [fpMul_of_not_flushes hflush, fpMulValues_finite hx hy, fpFinish_signOf hflush, ← unpack_finite_sign hx, ← unpack_finite_sign hy]
  split_ifs with hm
  · rfl
  · have hpos := Nat.pos_of_ne_zero (mt (signedOf_eq_zero_iff _ _).mpr hm)
    exact decide_signedOf_neg _ hpos

/-! ### Special operands -/

/-- The highest exponent field over a fraction whose top bit is set is a quiet NaN. -/
theorem unpack_quiet {f : FpFormat} (hF : 1 ≤ f.fracBits) (s : Bool) {r : Nat} (hr : r < 2 ^ (f.fracBits - 1)) :
    f.unpack (f.code s f.maxExp (2 ^ (f.fracBits - 1) + r)) = .nan false := by
  have hhalf : 2 ^ f.fracBits = 2 * 2 ^ (f.fracBits - 1) := by rw [← pow_succ', Nat.sub_add_cancel hF]
  have hfrac : 2 ^ (f.fracBits - 1) + r < 2 ^ f.fracBits := by omega
  have hlt : f.maxExp * 2 ^ f.fracBits + (2 ^ (f.fracBits - 1) + r) < 2 ^ (f.expBits + f.fracBits) := by
    have hsucc : f.maxExp + 1 = 2 ^ f.expBits := Nat.sub_add_cancel (Nat.two_pow_pos _)
    rw [pow_add, ← hsucc, Nat.succ_mul]
    omega
  have hmag := magOf_code s hlt
  rw [← code_eq] at hmag
  have hexp : f.expOf (f.code s f.maxExp (2 ^ (f.fracBits - 1) + r)) = f.maxExp := by
    rw [expOf_eq, hmag, mul_comm, Nat.mul_add_div (Nat.two_pow_pos _), Nat.div_eq_of_lt hfrac, Nat.add_zero]
  have hfield : f.fracOf (f.code s f.maxExp (2 ^ (f.fracBits - 1) + r)) = 2 ^ (f.fracBits - 1) + r := by
    rw [fracOf_eq, hmag, Nat.mul_add_mod', Nat.mod_eq_of_lt hfrac]
  have hne : 2 ^ (f.fracBits - 1) + r ≠ 0 := by
    have := Nat.two_pow_pos (f.fracBits - 1)
    omega
  rw [FpFormat.unpack, hexp, hfield, if_pos rfl, if_neg hne, Nat.testBit_two_pow_add_eq, Nat.testBit_lt_two_pow hr]
  rfl

/-- A NaN delivered is a quiet one. -/
theorem unpack_fpNan (c : Fpcr) (t : FType) (x y : Nat) : (formatOf t).unpack (fpNan c t x y) = .nan false :=
  unpack_quiet (one_le_fracBits t) _ (Nat.mod_lt _ (Nat.two_pow_pos _))

theorem fpNan_deliversNan (c : Fpcr) (t : FType) (x y : Nat) (invalid : Bool) :
    deliversNan (formatOf t) invalid (fpNan c t x y, { Fpsr.none with ioc := invalid }) :=
  ⟨unpack_fpNan c t x y, rfl⟩

theorem inf_deliversInf (f : FpFormat) (s : Bool) : deliversInf f s (f.code s f.maxExp 0, Fpsr.none) := by
  refine ⟨?_, rfl⟩
  rw [code_eq]
  exact unpack_code_infMag f s

/-- The invalid-operation flag of the NaN operands. -/
theorem signalsInvalid_eq (a b : FpValue) : signalsInvalid a b = decide (a = .nan true ∨ b = .nan true) := by
  rw [signalsInvalid, Bool.decide_or]

theorem fpAddValues_nan {t : FType} {x y : Nat}
    (h : (∃ q, (formatOf t).unpack x = .nan q) ∨ ∃ q, (formatOf t).unpack y = .nan q) (c : Fpcr) :
    fpAddValues c t x y
      = (fpNan c t x y, { Fpsr.none with ioc := signalsInvalid ((formatOf t).unpack x) ((formatOf t).unpack y) }) := by
  rw [fpAddValues]
  rcases h with ⟨q, hx⟩ | ⟨q, hy⟩
  · rw [hx]
  · rw [hy]
    cases (formatOf t).unpack x <;> rfl

theorem fpMulValues_nan {t : FType} {x y : Nat}
    (h : (∃ q, (formatOf t).unpack x = .nan q) ∨ ∃ q, (formatOf t).unpack y = .nan q) (c : Fpcr) :
    fpMulValues c t x y
      = (fpNan c t x y, { Fpsr.none with ioc := signalsInvalid ((formatOf t).unpack x) ((formatOf t).unpack y) }) := by
  rw [fpMulValues]
  rcases h with ⟨q, hx⟩ | ⟨q, hy⟩
  · rw [hx]
  · rw [hy]
    cases (formatOf t).unpack x <;> rfl

theorem nan_delivered {c : Fpcr} {t : FType} (hflush : c.flushes t = false) {x y : Nat}
    (h : (∃ q, (formatOf t).unpack x = .nan q) ∨ ∃ q, (formatOf t).unpack y = .nan q) :
    let invalid := decide ((formatOf t).unpack x = .nan true ∨ (formatOf t).unpack y = .nan true)
    deliversNan (formatOf t) invalid (fpAdd c t x y) ∧ deliversNan (formatOf t) invalid (fpMul c t x y) := by
  rw [fpAdd_of_not_flushes hflush, fpMul_of_not_flushes hflush, fpAddValues_nan h, fpMulValues_nan h, signalsInvalid_eq]
  exact ⟨fpNan_deliversNan c t x y _, fpNan_deliversNan c t x y _⟩

theorem infinities_delivered {c : Fpcr} {t : FType} (hflush : c.flushes t = false) {x y : Nat} {s s' : Bool}
    (hx : (formatOf t).unpack x = .inf s) (hy : (formatOf t).unpack y = .inf s') :
    (s = s' → deliversInf (formatOf t) s (fpAdd c t x y)) ∧ (s ≠ s' → deliversNan (formatOf t) true (fpAdd c t x y))
      ∧ deliversInf (formatOf t) (s != s') (fpMul c t x y) := by
  rw [fpAdd_of_not_flushes hflush, fpMul_of_not_flushes hflush, fpAddValues, fpMulValues, hx, hy]
  refine ⟨fun heq => ?_, fun hne => ?_, inf_deliversInf _ _⟩
  · simpa only [if_pos heq] using inf_deliversInf _ s
  · simpa only [if_neg hne] using fpNan_deliversNan c t x y true

/-- A finite value is zero exactly when its integer magnitude is. -/
theorem value_eq_zero_iff (s : Bool) (m : Nat) (e : Int) : signFactor s * ((m : ℚ) * 2 ^ e) = 0 ↔ m = 0 := by
  have hfactor : signFactor s ≠ 0 := abs_pos.mp (by simp)
  have hscale : (2 : ℚ) ^ e ≠ 0 := zpow_ne_zero _ two_ne_zero
  simp [hfactor, hscale]

theorem inf_finite_delivered {c : Fpcr} {t : FType} (hflush : c.flushes t = false) {x y : Nat} {s : Bool} {v : ℚ}
    (hx : (formatOf t).unpack x = .inf s) (hv : valueOf (formatOf t) y = some v) :
    deliversInf (formatOf t) s (fpAdd c t x y) ∧ (v = 0 → deliversNan (formatOf t) true (fpMul c t x y))
      ∧ (v ≠ 0 → deliversInf (formatOf t) (s != (formatOf t).signOf y) (fpMul c t x y)) := by
  obtain ⟨sb, mb, eb, hy, rfl⟩ := unpack_of_valueOf hv
  rw [fpAdd_of_not_flushes hflush, fpMul_of_not_flushes hflush, fpAddValues, fpMulValues, hx, hy, ← unpack_finite_sign hy, ne_eq,
    value_eq_zero_iff]
  refine ⟨inf_deliversInf _ s, fun hzero => ?_, fun hne => ?_⟩
  · simpa only [if_pos hzero] using fpNan_deliversNan c t x y true
  · simpa only [if_neg hne] using inf_deliversInf _ (s != sb)

theorem finite_inf_delivered {c : Fpcr} {t : FType} (hflush : c.flushes t = false) {x y : Nat} {s : Bool} {u : ℚ}
    (hu : valueOf (formatOf t) x = some u) (hy : (formatOf t).unpack y = .inf s) :
    deliversInf (formatOf t) s (fpAdd c t x y) ∧ (u = 0 → deliversNan (formatOf t) true (fpMul c t x y))
      ∧ (u ≠ 0 → deliversInf (formatOf t) ((formatOf t).signOf x != s) (fpMul c t x y)) := by
  obtain ⟨sa, ma, ea, hx, rfl⟩ := unpack_of_valueOf hu
  rw [fpAdd_of_not_flushes hflush, fpMul_of_not_flushes hflush, fpAddValues, fpMulValues, hx, hy, ← unpack_finite_sign hx, ne_eq,
    value_eq_zero_iff]
  refine ⟨inf_deliversInf _ s, fun hzero => ?_, fun hne => ?_⟩
  · simpa only [if_pos hzero] using fpNan_deliversNan c t x y true
  · simpa only [if_neg hne] using inf_deliversInf _ (sa != s)

/-- Settles O54: finite operands by the exact dyadic value and its rounding, the special ones by their codes. -/
theorem floatArithmeticIsCorrectlyRounded : Obligations.FloatArithmeticIsCorrectlyRounded := by
  intro c t x y hflush
  refine ⟨fun u v hu hv => ?_, nan_delivered hflush, fun s s' => infinities_delivered hflush, fun s v => inf_finite_delivered hflush,
    fun s u => finite_inf_delivered hflush⟩
  exact ⟨fpAdd_roundsTo hflush hu hv, fpMul_roundsTo hflush hu hv, fpAdd_zero_sign hflush hu hv, fpMul_sign hflush hu hv⟩

end Sys2Proof.Proofs
end
